-- ==== Sys2Proof/Word.lean ====
section
/-! DEFINITION. The words of the machine and the numbers that name its registers (spec/00_scope.md R8, R9). -/
namespace Sys2Proof

/-- A word: 32 bits (R9, `XLEN` of R7). -/
abbrev Word := BitVec 32

/-- A byte: 8 bits (R9). -/
abbrev Byte := BitVec 8

/-- The number of a general register (R20, `NGPR`). -/
abbrev Reg := Fin 32

/-- The number of a scalar float register (R32, `NF`). -/
abbrev FReg := Fin 32

/-- The number of a slot of the vector bank (R34, `NV`). -/
abbrev Slot := Fin 128

/-- A 7-bit VFPU selector (R361). -/
abbrev Sel := BitVec 7

end Sys2Proof
end

