-- ==== Sys2Proof/Syntax.lean ====
section
/-! DEFINITION. The syntax of the instructions: one constructor for each row of spec/opcode_table.json
(spec/30_encoding.md R116). Operands stand in the order of R128, the destination first; a bit the decoder
ignores is no operand (log entry 18). The name of a constructor is the mnemonic without its dots
(`add.s` is `addS`); `break` is `brk`. The
instructions without operands stand last. -/
namespace Sys2Proof

/-- The group size of a VFPU instruction (R110): one lane to four lanes. -/
inductive VSize where
  | single
  | pair
  | triple
  | quad
  deriving DecidableEq, Repr

/-- The number of lanes (R110: `n = 2*two + one + 1`). -/
def VSize.lanes : VSize → Nat
  | .single => 1
  | .pair   => 2
  | .triple => 3
  | .quad   => 4

/-- The instructions. Register numbers, immediates, offsets and selectors are the fields of the word as
R101 names them; `sz` is the pair of size bits; `lsb` and `msb` of `ext` and `ins` are the raw fields
(R108; log entry 27). -/
inductive Instr where
  -- integer ALU (spec/40_integer_alu.md)
  /-- `add` (R140, Tier S). -/
  | add (rd rs rt : Reg)
  /-- `addu` (R141, Tier S). -/
  | addu (rd rs rt : Reg)
  /-- `addi` (R142, Tier S). -/
  | addi (rt rs : Reg) (imm16 : BitVec 16)
  /-- `addiu` (R143, Tier S). -/
  | addiu (rt rs : Reg) (imm16 : BitVec 16)
  /-- `sub` (R144, Tier S). -/
  | sub (rd rs rt : Reg)
  /-- `subu` (R145, Tier S). -/
  | subu (rd rs rt : Reg)
  /-- `and` (R146, Tier K). -/
  | and (rd rs rt : Reg)
  /-- `or` (R147, Tier K). -/
  | or (rd rs rt : Reg)
  /-- `xor` (R148, Tier K). -/
  | xor (rd rs rt : Reg)
  /-- `nor` (R149, Tier K). -/
  | nor (rd rs rt : Reg)
  /-- `andi` (R150, Tier K). -/
  | andi (rt rs : Reg) (imm16 : BitVec 16)
  /-- `ori` (R151, Tier K). -/
  | ori (rt rs : Reg) (imm16 : BitVec 16)
  /-- `xori` (R152, Tier K). -/
  | xori (rt rs : Reg) (imm16 : BitVec 16)
  /-- `lui` (R153, Tier K). -/
  | lui (rt : Reg) (imm16 : BitVec 16)
  /-- `slt` (R154, Tier S). -/
  | slt (rd rs rt : Reg)
  /-- `sltu` (R155, Tier S). -/
  | sltu (rd rs rt : Reg)
  /-- `slti` (R156, Tier S). -/
  | slti (rt rs : Reg) (imm16 : BitVec 16)
  /-- `sltiu` (R157, Tier S). -/
  | sltiu (rt rs : Reg) (imm16 : BitVec 16)
  /-- `sll` (R158, Tier S). -/
  | sll (rd rt : Reg) (sa : Fin 32)
  /-- `srl` (R159, Tier S). -/
  | srl (rd rt : Reg) (sa : Fin 32)
  /-- `sra` (R160, Tier S). -/
  | sra (rd rt : Reg) (sa : Fin 32)
  /-- `sllv` (R161, Tier S). -/
  | sllv (rd rt rs : Reg)
  /-- `srlv` (R162, Tier S). -/
  | srlv (rd rt rs : Reg)
  /-- `srav` (R163, Tier S). -/
  | srav (rd rt rs : Reg)
  /-- `rotr` (R164, Tier K). -/
  | rotr (rd rt : Reg) (sa : Fin 32)
  /-- `rotrv` (R165, Tier K). -/
  | rotrv (rd rt rs : Reg)
  /-- `ext` (R168, Tier S). -/
  | ext (rt rs : Reg) (lsb msb : Fin 32)
  /-- `ins` (R169, Tier S). -/
  | ins (rt rs : Reg) (lsb msb : Fin 32)
  /-- `clz` (R171, Tier S). -/
  | clz (rd rs : Reg)
  /-- `clo` (R172, Tier S). -/
  | clo (rd rs : Reg)
  /-- `seb` (R173, Tier S). -/
  | seb (rd rt : Reg)
  /-- `seh` (R174, Tier S). -/
  | seh (rd rt : Reg)
  /-- `wsbh` (R175, Tier S). -/
  | wsbh (rd rt : Reg)
  /-- `wsbw` (R176, Tier S). -/
  | wsbw (rd rt : Reg)
  /-- `bitrev` (R177, Tier S). -/
  | bitrev (rd rt : Reg)
  /-- `movz` (R178, Tier K). -/
  | movz (rd rs rt : Reg)
  /-- `movn` (R179, Tier K). -/
  | movn (rd rs rt : Reg)
  /-- `max` (R180, Tier K). -/
  | max (rd rs rt : Reg)
  /-- `min` (R181, Tier K). -/
  | min (rd rs rt : Reg)
  -- multiply, divide and the accumulator (spec/41_muldiv.md)
  /-- `mult` (R200, Tier S). -/
  | mult (rs rt : Reg)
  /-- `multu` (R201, Tier S). -/
  | multu (rs rt : Reg)
  /-- `div` (R202, Tier S). -/
  | div (rs rt : Reg)
  /-- `divu` (R203, Tier S). -/
  | divu (rs rt : Reg)
  /-- `madd` (R204, Tier S). -/
  | madd (rs rt : Reg)
  /-- `maddu` (R205, Tier S). -/
  | maddu (rs rt : Reg)
  /-- `msub` (R206, Tier S). -/
  | msub (rs rt : Reg)
  /-- `msubu` (R207, Tier S). -/
  | msubu (rs rt : Reg)
  /-- `mfhi` (R208, Tier K). -/
  | mfhi (rd : Reg)
  /-- `mflo` (R209, Tier K). -/
  | mflo (rd : Reg)
  /-- `mthi` (R210, Tier K). -/
  | mthi (rs : Reg)
  /-- `mtlo` (R211, Tier K). -/
  | mtlo (rs : Reg)
  -- scalar loads and stores (spec/42_loadstore.md)
  /-- `lb` (R221, Tier S). -/
  | lb (rt : Reg) (off16 : BitVec 16) (rs : Reg)
  /-- `lbu` (R222, Tier S). -/
  | lbu (rt : Reg) (off16 : BitVec 16) (rs : Reg)
  /-- `lh` (R223, Tier S). -/
  | lh (rt : Reg) (off16 : BitVec 16) (rs : Reg)
  /-- `lhu` (R224, Tier S). -/
  | lhu (rt : Reg) (off16 : BitVec 16) (rs : Reg)
  /-- `lw` (R225, Tier S). -/
  | lw (rt : Reg) (off16 : BitVec 16) (rs : Reg)
  /-- `sb` (R226, Tier S). -/
  | sb (rt : Reg) (off16 : BitVec 16) (rs : Reg)
  /-- `sh` (R227, Tier S). -/
  | sh (rt : Reg) (off16 : BitVec 16) (rs : Reg)
  /-- `sw` (R228, Tier S). -/
  | sw (rt : Reg) (off16 : BitVec 16) (rs : Reg)
  /-- `lwl` (R229, Tier S). -/
  | lwl (rt : Reg) (off16 : BitVec 16) (rs : Reg)
  /-- `lwr` (R230, Tier S). -/
  | lwr (rt : Reg) (off16 : BitVec 16) (rs : Reg)
  /-- `swl` (R231, Tier S). -/
  | swl (rt : Reg) (off16 : BitVec 16) (rs : Reg)
  /-- `swr` (R232, Tier S). -/
  | swr (rt : Reg) (off16 : BitVec 16) (rs : Reg)
  /-- `lwc1` (R235, Tier K). -/
  | lwc1 (ft : FReg) (off16 : BitVec 16) (rs : Reg)
  /-- `swc1` (R236, Tier K). -/
  | swc1 (ft : FReg) (off16 : BitVec 16) (rs : Reg)
  /-- `ll` (R240, Tier K). -/
  | ll (rt : Reg) (off16 : BitVec 16) (rs : Reg)
  /-- `sc` (R241, Tier K). -/
  | sc (rt : Reg) (off16 : BitVec 16) (rs : Reg)
  -- branches and jumps (spec/43_branch_jump.md)
  /-- `beq` (R254, Tier S). -/
  | beq (rs rt : Reg) (off16 : BitVec 16)
  /-- `bne` (R255, Tier S). -/
  | bne (rs rt : Reg) (off16 : BitVec 16)
  /-- `blez` (R256, Tier S). -/
  | blez (rs : Reg) (off16 : BitVec 16)
  /-- `bgtz` (R257, Tier S). -/
  | bgtz (rs : Reg) (off16 : BitVec 16)
  /-- `bltz` (R258, Tier S). -/
  | bltz (rs : Reg) (off16 : BitVec 16)
  /-- `bgez` (R259, Tier S). -/
  | bgez (rs : Reg) (off16 : BitVec 16)
  /-- `j` (R260, Tier S). -/
  | j (imm26 : BitVec 26)
  /-- `jal` (R262, Tier S). -/
  | jal (imm26 : BitVec 26)
  /-- `jr` (R263, Tier S). -/
  | jr (rs : Reg)
  /-- `jalr` (R265, Tier S). -/
  | jalr (rd rs : Reg)
  /-- `bltzal` (R270, Tier S). -/
  | bltzal (rs : Reg) (off16 : BitVec 16)
  /-- `bgezal` (R271, Tier S). -/
  | bgezal (rs : Reg) (off16 : BitVec 16)
  /-- `bltzall` (R272, Tier S). -/
  | bltzall (rs : Reg) (off16 : BitVec 16)
  /-- `bgezall` (R273, Tier S). -/
  | bgezall (rs : Reg) (off16 : BitVec 16)
  /-- `beql` (R274, Tier S). -/
  | beql (rs rt : Reg) (off16 : BitVec 16)
  /-- `bnel` (R275, Tier S). -/
  | bnel (rs rt : Reg) (off16 : BitVec 16)
  /-- `blezl` (R276, Tier S). -/
  | blezl (rs : Reg) (off16 : BitVec 16)
  /-- `bgtzl` (R277, Tier S). -/
  | bgtzl (rs : Reg) (off16 : BitVec 16)
  /-- `bltzl` (R278, Tier S). -/
  | bltzl (rs : Reg) (off16 : BitVec 16)
  /-- `bgezl` (R279, Tier S). -/
  | bgezl (rs : Reg) (off16 : BitVec 16)
  /-- `bc1f` (R280, Tier S). -/
  | bc1f (off16 : BitVec 16)
  /-- `bc1t` (R281, Tier S). -/
  | bc1t (off16 : BitVec 16)
  /-- `bc1fl` (R282, Tier S). -/
  | bc1fl (off16 : BitVec 16)
  /-- `bc1tl` (R283, Tier S). -/
  | bc1tl (off16 : BitVec 16)
  /-- `bvf` (R284, Tier U). -/
  | bvf (imm3 : BitVec 3) (off16 : BitVec 16)
  /-- `bvt` (R285, Tier U). -/
  | bvt (imm3 : BitVec 3) (off16 : BitVec 16)
  /-- `bvfl` (R286, Tier U). -/
  | bvfl (imm3 : BitVec 3) (off16 : BitVec 16)
  /-- `bvtl` (R287, Tier U). -/
  | bvtl (imm3 : BitVec 3) (off16 : BitVec 16)
  -- scalar floating point (spec/44_fpu.md)
  /-- `add.s` (R310, Tier S). -/
  | addS (fd fs ft : FReg)
  /-- `sub.s` (R311, Tier S). -/
  | subS (fd fs ft : FReg)
  /-- `mul.s` (R312, Tier S). -/
  | mulS (fd fs ft : FReg)
  /-- `div.s` (R313, Tier S). -/
  | divS (fd fs ft : FReg)
  /-- `sqrt.s` (R314, Tier S). -/
  | sqrtS (fd fs : FReg)
  /-- `abs.s` (R315, Tier S). -/
  | absS (fd fs : FReg)
  /-- `mov.s` (R316, Tier S). -/
  | movS (fd fs : FReg)
  /-- `neg.s` (R317, Tier S). -/
  | negS (fd fs : FReg)
  /-- `cvt.w.s` (R322, Tier S). -/
  | cvtWS (fd fs : FReg)
  /-- `round.w.s` (R323, Tier S). -/
  | roundWS (fd fs : FReg)
  /-- `trunc.w.s` (R324, Tier S). -/
  | truncWS (fd fs : FReg)
  /-- `ceil.w.s` (R325, Tier S). -/
  | ceilWS (fd fs : FReg)
  /-- `floor.w.s` (R326, Tier S). -/
  | floorWS (fd fs : FReg)
  /-- `cvt.s.w` (R327, Tier K). -/
  | cvtSW (fd fs : FReg)
  /-- `c.f.s` (R331, Tier S). -/
  | cFS (fs ft : FReg)
  /-- `c.un.s` (R332, Tier S). -/
  | cUnS (fs ft : FReg)
  /-- `c.eq.s` (R333, Tier S). -/
  | cEqS (fs ft : FReg)
  /-- `c.ueq.s` (R334, Tier S). -/
  | cUeqS (fs ft : FReg)
  /-- `c.olt.s` (R335, Tier S). -/
  | cOltS (fs ft : FReg)
  /-- `c.ult.s` (R336, Tier S). -/
  | cUltS (fs ft : FReg)
  /-- `c.ole.s` (R337, Tier S). -/
  | cOleS (fs ft : FReg)
  /-- `c.ule.s` (R338, Tier S). -/
  | cUleS (fs ft : FReg)
  /-- `c.sf.s` (R339, Tier S). -/
  | cSfS (fs ft : FReg)
  /-- `c.ngle.s` (R340, Tier S). -/
  | cNgleS (fs ft : FReg)
  /-- `c.seq.s` (R341, Tier S). -/
  | cSeqS (fs ft : FReg)
  /-- `c.ngl.s` (R342, Tier S). -/
  | cNglS (fs ft : FReg)
  /-- `c.lt.s` (R343, Tier S). -/
  | cLtS (fs ft : FReg)
  /-- `c.nge.s` (R344, Tier S). -/
  | cNgeS (fs ft : FReg)
  /-- `c.le.s` (R345, Tier S). -/
  | cLeS (fs ft : FReg)
  /-- `c.ngt.s` (R346, Tier S). -/
  | cNgtS (fs ft : FReg)
  /-- `ctc1` (R347, Tier S). -/
  | ctc1 (rt : Reg) (cr : Fin 32)
  /-- `cfc1` (R348, Tier S). -/
  | cfc1 (rt : Reg) (cr : Fin 32)
  /-- `mfc1` (R349, Tier S). -/
  | mfc1 (rt : Reg) (fs : FReg)
  /-- `mtc1` (R350, Tier S). -/
  | mtc1 (rt : Reg) (fs : FReg)
  -- VFPU prefix setters (spec/45_vfpu_regs_prefix.md)
  /-- `vpfxs` (R377, Tier K). -/
  | vpfxs (imm20 : BitVec 20)
  /-- `vpfxt` (R378, Tier K). -/
  | vpfxt (imm20 : BitVec 20)
  /-- `vpfxd` (R379, Tier K). -/
  | vpfxd (imm12 : BitVec 12)
  -- VFPU loads and stores (spec/46_vfpu_ops.md)
  /-- `lv.q` (R401, Tier S). -/
  | lvQ (vt6 : BitVec 6) (off14 : BitVec 14) (rs : Reg)
  /-- `sv.q` (R402, Tier S). -/
  | svQ (vt6 : BitVec 6) (off14 : BitVec 14) (rs : Reg)
  /-- `lvl.q` (R403, Tier S). -/
  | lvlQ (vt6 : BitVec 6) (off14 : BitVec 14) (rs : Reg)
  /-- `lvr.q` (R404, Tier S). -/
  | lvrQ (vt6 : BitVec 6) (off14 : BitVec 14) (rs : Reg)
  /-- `svl.q` (R405, Tier S). -/
  | svlQ (vt6 : BitVec 6) (off14 : BitVec 14) (rs : Reg)
  /-- `svr.q` (R406, Tier S). -/
  | svrQ (vt6 : BitVec 6) (off14 : BitVec 14) (rs : Reg)
  /-- `lv.s` (R407, Tier K). -/
  | lvS (vt : Sel) (off14 : BitVec 14) (rs : Reg)
  /-- `sv.s` (R408, Tier K). -/
  | svS (vt : Sel) (off14 : BitVec 14) (rs : Reg)
  -- VFPU operations (spec/46_vfpu_ops.md)
  /-- `vmzero` (R410, Tier S). -/
  | vmzero (sz : VSize) (vd : Sel)
  /-- `vmone` (R411, Tier S). -/
  | vmone (sz : VSize) (vd : Sel)
  /-- `vmidt` (R412, Tier S). -/
  | vmidt (sz : VSize) (vd : Sel)
  /-- `vmmov` (R413, Tier S). -/
  | vmmov (sz : VSize) (vd vs : Sel)
  /-- `vmmul` (R414, Tier S). -/
  | vmmul (sz : VSize) (vd vs vt : Sel)
  /-- `vrot` (R420, Tier S). -/
  | vrot (sz : VSize) (vd vs : Sel) (imm5 : BitVec 5)
  /-- `vt4444.q` (R425, Tier S). -/
  | vt4444Q (sz : VSize) (vd vs : Sel)
  /-- `vt5551.q` (R426, Tier S). -/
  | vt5551Q (sz : VSize) (vd vs : Sel)
  /-- `vt5650.q` (R427, Tier S). -/
  | vt5650Q (sz : VSize) (vd vs : Sel)
  /-- `vadd` (R430, Tier K). -/
  | vadd (sz : VSize) (vd vs vt : Sel)
  /-- `vsub` (R431, Tier K). -/
  | vsub (sz : VSize) (vd vs vt : Sel)
  /-- `vmul` (R432, Tier K). -/
  | vmul (sz : VSize) (vd vs vt : Sel)
  /-- `vdiv` (R433, Tier K). -/
  | vdiv (sz : VSize) (vd vs vt : Sel)
  /-- `vmov` (R434, Tier K). -/
  | vmov (sz : VSize) (vd vs : Sel)
  /-- `vabs` (R435, Tier K). -/
  | vabs (sz : VSize) (vd vs : Sel)
  /-- `vneg` (R436, Tier K). -/
  | vneg (sz : VSize) (vd vs : Sel)
  /-- `vzero` (R437, Tier K). -/
  | vzero (sz : VSize) (vd : Sel)
  /-- `vone` (R438, Tier K). -/
  | vone (sz : VSize) (vd : Sel)
  /-- `vscl` (R439, Tier K). -/
  | vscl (sz : VSize) (vd vs vt : Sel)
  /-- `vdot` (R440, Tier K). -/
  | vdot (sz : VSize) (vd vs vt : Sel)
  /-- `viim.s` (R441, Tier K). -/
  | viimS (vt : Sel) (imm16 : BitVec 16)
  /-- `mtv` (R442, Tier K). -/
  | mtv (rt : Reg) (vd : Sel)
  /-- `mfv` (R443, Tier K). -/
  | mfv (rt : Reg) (vd : Sel)
  -- VFPU rows of Tier U (spec/47_vfpu_unimplemented.md)
  /-- `vsin` (R461, Tier U). -/
  | vsin (sz : VSize) (vd vs : Sel)
  /-- `vcos` (R462, Tier U). -/
  | vcos (sz : VSize) (vd vs : Sel)
  /-- `vsqrt` (R463, Tier U). -/
  | vsqrt (sz : VSize) (vd vs : Sel)
  /-- `vtfm2` (R464, Tier U). -/
  | vtfm2 (vd vs vt : Sel)
  /-- `vtfm3` (R465, Tier U). -/
  | vtfm3 (vd vs vt : Sel)
  /-- `vtfm4` (R466, Tier U). -/
  | vtfm4 (vd vs vt : Sel)
  /-- `vcrs.t` (R467, Tier U). -/
  | vcrsT (vd vs vt : Sel)
  /-- `vsrt1` (R468, Tier U). -/
  | vsrt1 (sz : VSize) (vd vs : Sel)
  /-- `vsrt2` (R469, Tier U). -/
  | vsrt2 (sz : VSize) (vd vs : Sel)
  /-- `vsrt3` (R470, Tier U). -/
  | vsrt3 (sz : VSize) (vd vs : Sel)
  /-- `vsrt4` (R471, Tier U). -/
  | vsrt4 (sz : VSize) (vd vs : Sel)
  /-- `vhtfm2` (R472, Tier U). -/
  | vhtfm2 (vd vs vt : Sel)
  /-- `vhtfm3` (R473, Tier U). -/
  | vhtfm3 (vd vs vt : Sel)
  /-- `vhtfm4` (R474, Tier U). -/
  | vhtfm4 (vd vs vt : Sel)
  /-- `vsbn` (R475, Tier U). -/
  | vsbn (sz : VSize) (vd vs vt : Sel)
  /-- `vhdp` (R476, Tier U). -/
  | vhdp (sz : VSize) (vd vs vt : Sel)
  /-- `vdet` (R477, Tier U). -/
  | vdet (sz : VSize) (vd vs vt : Sel)
  /-- `vcmp` (R478, Tier U). -/
  | vcmp (sz : VSize) (imm4 : BitVec 4) (vs vt : Sel)
  /-- `vmin` (R479, Tier U). -/
  | vmin (sz : VSize) (vd vs vt : Sel)
  /-- `vmax` (R480, Tier U). -/
  | vmax (sz : VSize) (vd vs vt : Sel)
  /-- `vscmp` (R481, Tier U). -/
  | vscmp (sz : VSize) (vd vs vt : Sel)
  /-- `vsge` (R482, Tier U). -/
  | vsge (sz : VSize) (vd vs vt : Sel)
  /-- `vslt` (R483, Tier U). -/
  | vslt (sz : VSize) (vd vs vt : Sel)
  /-- `vidt` (R484, Tier U). -/
  | vidt (sz : VSize) (vd : Sel)
  /-- `vsat0` (R485, Tier U). -/
  | vsat0 (sz : VSize) (vd vs : Sel)
  /-- `vsat1` (R486, Tier U). -/
  | vsat1 (sz : VSize) (vd vs : Sel)
  /-- `vrcp` (R487, Tier U). -/
  | vrcp (sz : VSize) (vd vs : Sel)
  /-- `vrsq` (R488, Tier U). -/
  | vrsq (sz : VSize) (vd vs : Sel)
  /-- `vexp2` (R489, Tier U). -/
  | vexp2 (sz : VSize) (vd vs : Sel)
  /-- `vlog2` (R490, Tier U). -/
  | vlog2 (sz : VSize) (vd vs : Sel)
  /-- `vasin` (R491, Tier U). -/
  | vasin (sz : VSize) (vd vs : Sel)
  /-- `vnrcp` (R492, Tier U). -/
  | vnrcp (sz : VSize) (vd vs : Sel)
  /-- `vnsin` (R493, Tier U). -/
  | vnsin (sz : VSize) (vd vs : Sel)
  /-- `vrexp2` (R494, Tier U). -/
  | vrexp2 (sz : VSize) (vd vs : Sel)
  /-- `vrnds` (R495, Tier U). -/
  | vrnds (sz : VSize) (vs : Sel)
  /-- `vrndi` (R496, Tier U). -/
  | vrndi (sz : VSize) (vd : Sel)
  /-- `vrndf1` (R497, Tier U). -/
  | vrndf1 (sz : VSize) (vd : Sel)
  /-- `vrndf2` (R498, Tier U). -/
  | vrndf2 (sz : VSize) (vd : Sel)
  /-- `vf2h` (R499, Tier U). -/
  | vf2h (sz : VSize) (vd vs : Sel)
  /-- `vh2f` (R500, Tier U). -/
  | vh2f (sz : VSize) (vd vs : Sel)
  /-- `vsbz` (R501, Tier U). -/
  | vsbz (sz : VSize) (vd vs : Sel)
  /-- `vlgb` (R502, Tier U). -/
  | vlgb (sz : VSize) (vd vs : Sel)
  /-- `vuc2i` (R503, Tier U). -/
  | vuc2i (sz : VSize) (vd vs : Sel)
  /-- `vc2i` (R504, Tier U). -/
  | vc2i (sz : VSize) (vd vs : Sel)
  /-- `vus2i` (R505, Tier U). -/
  | vus2i (sz : VSize) (vd vs : Sel)
  /-- `vs2i` (R506, Tier U). -/
  | vs2i (sz : VSize) (vd vs : Sel)
  /-- `vi2uc` (R507, Tier U). -/
  | vi2uc (sz : VSize) (vd vs : Sel)
  /-- `vi2c` (R508, Tier U). -/
  | vi2c (sz : VSize) (vd vs : Sel)
  /-- `vi2us` (R509, Tier U). -/
  | vi2us (sz : VSize) (vd vs : Sel)
  /-- `vi2s` (R510, Tier U). -/
  | vi2s (sz : VSize) (vd vs : Sel)
  /-- `vbfy1` (R511, Tier U). -/
  | vbfy1 (sz : VSize) (vd vs : Sel)
  /-- `vbfy2` (R512, Tier U). -/
  | vbfy2 (sz : VSize) (vd vs : Sel)
  /-- `vocp` (R513, Tier U). -/
  | vocp (sz : VSize) (vd vs : Sel)
  /-- `vsocp` (R514, Tier U). -/
  | vsocp (sz : VSize) (vd vs : Sel)
  /-- `vfad` (R515, Tier U). -/
  | vfad (sz : VSize) (vd vs : Sel)
  /-- `vavg` (R516, Tier U). -/
  | vavg (sz : VSize) (vd vs : Sel)
  /-- `vsgn` (R517, Tier U). -/
  | vsgn (sz : VSize) (vd vs : Sel)
  /-- `vmfvc` (R518, Tier U). -/
  | vmfvc (vd : Sel) (imm7 : BitVec 7)
  /-- `vmtvc` (R519, Tier U). -/
  | vmtvc (imm7 : BitVec 7) (vs : Sel)
  /-- `vcst` (R520, Tier U). -/
  | vcst (sz : VSize) (vd : Sel) (imm5 : BitVec 5)
  /-- `vf2in` (R521, Tier U). -/
  | vf2in (sz : VSize) (vd vs : Sel) (imm5 : BitVec 5)
  /-- `vf2iz` (R522, Tier U). -/
  | vf2iz (sz : VSize) (vd vs : Sel) (imm5 : BitVec 5)
  /-- `vf2iu` (R523, Tier U). -/
  | vf2iu (sz : VSize) (vd vs : Sel) (imm5 : BitVec 5)
  /-- `vf2id` (R524, Tier U). -/
  | vf2id (sz : VSize) (vd vs : Sel) (imm5 : BitVec 5)
  /-- `vi2f` (R525, Tier U). -/
  | vi2f (sz : VSize) (vd vs : Sel) (imm5 : BitVec 5)
  /-- `vcmovt` (R526, Tier U). -/
  | vcmovt (sz : VSize) (vd vs : Sel) (imm3 : BitVec 3)
  /-- `vcmovf` (R527, Tier U). -/
  | vcmovf (sz : VSize) (vd vs : Sel) (imm3 : BitVec 3)
  /-- `vwbn` (R528, Tier U). -/
  | vwbn (sz : VSize) (vd vs : Sel) (imm8 : BitVec 8)
  /-- `vmscl` (R529, Tier U). -/
  | vmscl (sz : VSize) (vd vs vt : Sel)
  /-- `vcrsp.t` (R530, Tier U). -/
  | vcrspT (vd vs vt : Sel)
  /-- `vqmul.q` (R531, Tier U). -/
  | vqmulQ (vd vs vt : Sel)
  /-- `vfim.s` (R532, Tier U). -/
  | vfimS (vt : Sel) (imm16 : BitVec 16)
  /-- `mfvc` (R533, Tier U). -/
  | mfvc (rt : Reg) (vd : Sel)
  /-- `mtvc` (R534, Tier U). -/
  | mtvc (rt : Reg) (vd : Sel)
  -- system instructions (spec/48_system.md)
  /-- `syscall` (R600, Tier S). -/
  | syscall (code20 : BitVec 20)
  /-- `break` (R601, Tier S). -/
  | brk (code20 : BitVec 20)
  /-- `cache` (R604, Tier K). -/
  | cache (off16 : BitVec 16) (rs : Reg)
  /-- `mfic` (R606, Tier K). -/
  | mfic (rt : Reg)
  /-- `mtic` (R607, Tier K). -/
  | mtic (rt : Reg)
  -- instructions without operands
  /-- `vnop` (R446, Tier K). -/
  | vnop
  /-- `vsync` (R447, Tier K). -/
  | vsync
  /-- `vflush` (R448, Tier K). -/
  | vflush
  /-- `sync` (R603, Tier K). -/
  | sync
  /-- `mfc0` (R610, Tier U). -/
  | mfc0
  /-- `mtc0` (R611, Tier U). -/
  | mtc0
  /-- `cfc0` (R612, Tier U). -/
  | cfc0
  /-- `ctc0` (R613, Tier U). -/
  | ctc0
  /-- `eret` (R614, Tier U). -/
  | eret
  /-- `halt` (R615, Tier U). -/
  | halt
  /-- `dret` (R616, Tier U). -/
  | dret
  /-- `dbreak` (R617, Tier U). -/
  | dbreak
  /-- `mfdr` (R618, Tier U). -/
  | mfdr
  /-- `mtdr` (R619, Tier U). -/
  | mtdr
  deriving DecidableEq, Repr

end Sys2Proof
end

