-- ==== Sys2Proof/Decode.lean ====
section
/-! DEFINITION. The decoder, total on any bytes, and the encoder (spec/30_encoding.md).
Every row of spec/opcode_table.json is a `Row`: the mask and the fixed bits of its encoding, its tier, and
the fields it reads (R101, R102 to R116). A word decodes to the row with `w &&& mask = bits` (R116), or is
rejected by name. The table holds the encodings of spec/opcode_table.json row by row. -/
namespace Sys2Proof

/-- The tiers of R6. -/
inductive Tier where
  | S
  | K
  | U
  deriving DecidableEq, Repr

/-- A row of the opcode table (R116). -/
structure Row where
  mnemonic : String
  tier     : Tier
  mask     : Word
  bits     : Word
  build    : Word → Instr

/-- The word matches the row (R116: `w & mask = match`). -/
def Row.accepts (r : Row) (w : Word) : Bool := w &&& r.mask == r.bits

/-- The register number in the five bits from bit `lo` (R101). -/
def regAt (w : Word) (lo : Nat) : Fin 32 := (w.extractLsb' lo 5).toFin

/-- The selector in the seven bits from bit `lo` (R101). -/
def selAt (w : Word) (lo : Nat) : Sel := w.extractLsb' lo 7

/-- The group size that the bits `two` and `one` give (R110: `n = 2*two + one + 1`). -/
def VSize.ofBits (two one : BitVec 1) : VSize :=
  if two = 0#1 then (if one = 0#1 then .single else .pair)
  else (if one = 0#1 then .triple else .quad)

/-- The group size in bits 15 and 7 (R110). -/
def sizeAt (w : Word) : VSize := .ofBits (w.extractLsb' 15 1) (w.extractLsb' 7 1)

/-- The selector of a quad load or store, `vt5 | vt1 << 5` (R112). -/
def quadSelAt (w : Word) : BitVec 6 := w.extractLsb' 0 1 ++ w.extractLsb' 16 5

/-- The selector of a single load or store, `vt5 | vt2 << 5` (R112). -/
def singleSelAt (w : Word) : Sel := w.extractLsb' 0 2 ++ w.extractLsb' 16 5

/-! ### Rows: integer ALU (spec/40_integer_alu.md) -/

def rowAdd : Row :=
  ⟨"add", .S, 0xFC0007FF#32, 0x00000020#32, fun w => .add (regAt w 11) (regAt w 21) (regAt w 16)⟩
def rowAddu : Row :=
  ⟨"addu", .S, 0xFC0007FF#32, 0x00000021#32, fun w => .addu (regAt w 11) (regAt w 21) (regAt w 16)⟩
def rowAddi : Row :=
  ⟨"addi", .S, 0xFC000000#32, 0x20000000#32, fun w => .addi (regAt w 16) (regAt w 21) (w.extractLsb' 0 16)⟩
def rowAddiu : Row :=
  ⟨"addiu", .S, 0xFC000000#32, 0x24000000#32, fun w => .addiu (regAt w 16) (regAt w 21) (w.extractLsb' 0 16)⟩
def rowSub : Row :=
  ⟨"sub", .S, 0xFC0007FF#32, 0x00000022#32, fun w => .sub (regAt w 11) (regAt w 21) (regAt w 16)⟩
def rowSubu : Row :=
  ⟨"subu", .S, 0xFC0007FF#32, 0x00000023#32, fun w => .subu (regAt w 11) (regAt w 21) (regAt w 16)⟩
def rowAnd : Row :=
  ⟨"and", .K, 0xFC0007FF#32, 0x00000024#32, fun w => .and (regAt w 11) (regAt w 21) (regAt w 16)⟩
def rowOr : Row :=
  ⟨"or", .K, 0xFC0007FF#32, 0x00000025#32, fun w => .or (regAt w 11) (regAt w 21) (regAt w 16)⟩
def rowXor : Row :=
  ⟨"xor", .K, 0xFC0007FF#32, 0x00000026#32, fun w => .xor (regAt w 11) (regAt w 21) (regAt w 16)⟩
def rowNor : Row :=
  ⟨"nor", .K, 0xFC0007FF#32, 0x00000027#32, fun w => .nor (regAt w 11) (regAt w 21) (regAt w 16)⟩
def rowAndi : Row :=
  ⟨"andi", .K, 0xFC000000#32, 0x30000000#32, fun w => .andi (regAt w 16) (regAt w 21) (w.extractLsb' 0 16)⟩
def rowOri : Row :=
  ⟨"ori", .K, 0xFC000000#32, 0x34000000#32, fun w => .ori (regAt w 16) (regAt w 21) (w.extractLsb' 0 16)⟩
def rowXori : Row :=
  ⟨"xori", .K, 0xFC000000#32, 0x38000000#32, fun w => .xori (regAt w 16) (regAt w 21) (w.extractLsb' 0 16)⟩
def rowLui : Row :=
  ⟨"lui", .K, 0xFFE00000#32, 0x3C000000#32, fun w => .lui (regAt w 16) (w.extractLsb' 0 16)⟩
def rowSlt : Row :=
  ⟨"slt", .S, 0xFC0007FF#32, 0x0000002A#32, fun w => .slt (regAt w 11) (regAt w 21) (regAt w 16)⟩
def rowSltu : Row :=
  ⟨"sltu", .S, 0xFC0007FF#32, 0x0000002B#32, fun w => .sltu (regAt w 11) (regAt w 21) (regAt w 16)⟩
def rowSlti : Row :=
  ⟨"slti", .S, 0xFC000000#32, 0x28000000#32, fun w => .slti (regAt w 16) (regAt w 21) (w.extractLsb' 0 16)⟩
def rowSltiu : Row :=
  ⟨"sltiu", .S, 0xFC000000#32, 0x2C000000#32, fun w => .sltiu (regAt w 16) (regAt w 21) (w.extractLsb' 0 16)⟩
def rowSll : Row :=
  ⟨"sll", .S, 0xFFE0003F#32, 0x00000000#32, fun w => .sll (regAt w 11) (regAt w 16) (regAt w 6)⟩
def rowSrl : Row :=
  ⟨"srl", .S, 0xFFE0003F#32, 0x00000002#32, fun w => .srl (regAt w 11) (regAt w 16) (regAt w 6)⟩
def rowSra : Row :=
  ⟨"sra", .S, 0xFFE0003F#32, 0x00000003#32, fun w => .sra (regAt w 11) (regAt w 16) (regAt w 6)⟩
def rowSllv : Row :=
  ⟨"sllv", .S, 0xFC0007FF#32, 0x00000004#32, fun w => .sllv (regAt w 11) (regAt w 16) (regAt w 21)⟩
def rowSrlv : Row :=
  ⟨"srlv", .S, 0xFC0007FF#32, 0x00000006#32, fun w => .srlv (regAt w 11) (regAt w 16) (regAt w 21)⟩
def rowSrav : Row :=
  ⟨"srav", .S, 0xFC0007FF#32, 0x00000007#32, fun w => .srav (regAt w 11) (regAt w 16) (regAt w 21)⟩
def rowRotr : Row :=
  ⟨"rotr", .K, 0xFFE0003F#32, 0x00200002#32, fun w => .rotr (regAt w 11) (regAt w 16) (regAt w 6)⟩
def rowRotrv : Row :=
  ⟨"rotrv", .K, 0xFC0007FF#32, 0x00000046#32, fun w => .rotrv (regAt w 11) (regAt w 16) (regAt w 21)⟩
def rowExt : Row :=
  ⟨"ext", .S, 0xFC00003F#32, 0x7C000000#32, fun w => .ext (regAt w 16) (regAt w 21) (regAt w 6) (regAt w 11)⟩
def rowIns : Row :=
  ⟨"ins", .S, 0xFC00003F#32, 0x7C000004#32, fun w => .ins (regAt w 16) (regAt w 21) (regAt w 6) (regAt w 11)⟩
def rowClz : Row :=
  ⟨"clz", .S, 0xFC1F07FF#32, 0x00000016#32, fun w => .clz (regAt w 11) (regAt w 21)⟩
def rowClo : Row :=
  ⟨"clo", .S, 0xFC1F07FF#32, 0x00000017#32, fun w => .clo (regAt w 11) (regAt w 21)⟩
def rowSeb : Row :=
  ⟨"seb", .S, 0xFFE007FF#32, 0x7C000420#32, fun w => .seb (regAt w 11) (regAt w 16)⟩
def rowSeh : Row :=
  ⟨"seh", .S, 0xFFE007FF#32, 0x7C000620#32, fun w => .seh (regAt w 11) (regAt w 16)⟩
def rowWsbh : Row :=
  ⟨"wsbh", .S, 0xFFE007FF#32, 0x7C0000A0#32, fun w => .wsbh (regAt w 11) (regAt w 16)⟩
def rowWsbw : Row :=
  ⟨"wsbw", .S, 0xFFE007FF#32, 0x7C0000E0#32, fun w => .wsbw (regAt w 11) (regAt w 16)⟩
def rowBitrev : Row :=
  ⟨"bitrev", .S, 0xFFE007FF#32, 0x7C000520#32, fun w => .bitrev (regAt w 11) (regAt w 16)⟩
def rowMovz : Row :=
  ⟨"movz", .K, 0xFC0007FF#32, 0x0000000A#32, fun w => .movz (regAt w 11) (regAt w 21) (regAt w 16)⟩
def rowMovn : Row :=
  ⟨"movn", .K, 0xFC0007FF#32, 0x0000000B#32, fun w => .movn (regAt w 11) (regAt w 21) (regAt w 16)⟩
def rowMax : Row :=
  ⟨"max", .K, 0xFC0007FF#32, 0x0000002C#32, fun w => .max (regAt w 11) (regAt w 21) (regAt w 16)⟩
def rowMin : Row :=
  ⟨"min", .K, 0xFC0007FF#32, 0x0000002D#32, fun w => .min (regAt w 11) (regAt w 21) (regAt w 16)⟩

/-! ### Rows: multiply, divide and the accumulator (spec/41_muldiv.md) -/

def rowMult : Row :=
  ⟨"mult", .S, 0xFC00FFFF#32, 0x00000018#32, fun w => .mult (regAt w 21) (regAt w 16)⟩
def rowMultu : Row :=
  ⟨"multu", .S, 0xFC00FFFF#32, 0x00000019#32, fun w => .multu (regAt w 21) (regAt w 16)⟩
def rowDiv : Row :=
  ⟨"div", .S, 0xFC00FFFF#32, 0x0000001A#32, fun w => .div (regAt w 21) (regAt w 16)⟩
def rowDivu : Row :=
  ⟨"divu", .S, 0xFC00FFFF#32, 0x0000001B#32, fun w => .divu (regAt w 21) (regAt w 16)⟩
def rowMadd : Row :=
  ⟨"madd", .S, 0xFC00FFFF#32, 0x0000001C#32, fun w => .madd (regAt w 21) (regAt w 16)⟩
def rowMaddu : Row :=
  ⟨"maddu", .S, 0xFC00FFFF#32, 0x0000001D#32, fun w => .maddu (regAt w 21) (regAt w 16)⟩
def rowMsub : Row :=
  ⟨"msub", .S, 0xFC00FFFF#32, 0x0000002E#32, fun w => .msub (regAt w 21) (regAt w 16)⟩
def rowMsubu : Row :=
  ⟨"msubu", .S, 0xFC00FFFF#32, 0x0000002F#32, fun w => .msubu (regAt w 21) (regAt w 16)⟩
def rowMfhi : Row :=
  ⟨"mfhi", .K, 0xFFFF07FF#32, 0x00000010#32, fun w => .mfhi (regAt w 11)⟩
def rowMflo : Row :=
  ⟨"mflo", .K, 0xFFFF07FF#32, 0x00000012#32, fun w => .mflo (regAt w 11)⟩
def rowMthi : Row :=
  ⟨"mthi", .K, 0xFC1FFFFF#32, 0x00000011#32, fun w => .mthi (regAt w 21)⟩
def rowMtlo : Row :=
  ⟨"mtlo", .K, 0xFC1FFFFF#32, 0x00000013#32, fun w => .mtlo (regAt w 21)⟩

/-! ### Rows: scalar loads and stores (spec/42_loadstore.md) -/

def rowLb : Row :=
  ⟨"lb", .S, 0xFC000000#32, 0x80000000#32, fun w => .lb (regAt w 16) (w.extractLsb' 0 16) (regAt w 21)⟩
def rowLbu : Row :=
  ⟨"lbu", .S, 0xFC000000#32, 0x90000000#32, fun w => .lbu (regAt w 16) (w.extractLsb' 0 16) (regAt w 21)⟩
def rowLh : Row :=
  ⟨"lh", .S, 0xFC000000#32, 0x84000000#32, fun w => .lh (regAt w 16) (w.extractLsb' 0 16) (regAt w 21)⟩
def rowLhu : Row :=
  ⟨"lhu", .S, 0xFC000000#32, 0x94000000#32, fun w => .lhu (regAt w 16) (w.extractLsb' 0 16) (regAt w 21)⟩
def rowLw : Row :=
  ⟨"lw", .S, 0xFC000000#32, 0x8C000000#32, fun w => .lw (regAt w 16) (w.extractLsb' 0 16) (regAt w 21)⟩
def rowSb : Row :=
  ⟨"sb", .S, 0xFC000000#32, 0xA0000000#32, fun w => .sb (regAt w 16) (w.extractLsb' 0 16) (regAt w 21)⟩
def rowSh : Row :=
  ⟨"sh", .S, 0xFC000000#32, 0xA4000000#32, fun w => .sh (regAt w 16) (w.extractLsb' 0 16) (regAt w 21)⟩
def rowSw : Row :=
  ⟨"sw", .S, 0xFC000000#32, 0xAC000000#32, fun w => .sw (regAt w 16) (w.extractLsb' 0 16) (regAt w 21)⟩
def rowLwl : Row :=
  ⟨"lwl", .S, 0xFC000000#32, 0x88000000#32, fun w => .lwl (regAt w 16) (w.extractLsb' 0 16) (regAt w 21)⟩
def rowLwr : Row :=
  ⟨"lwr", .S, 0xFC000000#32, 0x98000000#32, fun w => .lwr (regAt w 16) (w.extractLsb' 0 16) (regAt w 21)⟩
def rowSwl : Row :=
  ⟨"swl", .S, 0xFC000000#32, 0xA8000000#32, fun w => .swl (regAt w 16) (w.extractLsb' 0 16) (regAt w 21)⟩
def rowSwr : Row :=
  ⟨"swr", .S, 0xFC000000#32, 0xB8000000#32, fun w => .swr (regAt w 16) (w.extractLsb' 0 16) (regAt w 21)⟩
def rowLwc1 : Row :=
  ⟨"lwc1", .K, 0xFC000000#32, 0xC4000000#32, fun w => .lwc1 (regAt w 16) (w.extractLsb' 0 16) (regAt w 21)⟩
def rowSwc1 : Row :=
  ⟨"swc1", .K, 0xFC000000#32, 0xE4000000#32, fun w => .swc1 (regAt w 16) (w.extractLsb' 0 16) (regAt w 21)⟩
def rowLl : Row :=
  ⟨"ll", .K, 0xFC000000#32, 0xC0000000#32, fun w => .ll (regAt w 16) (w.extractLsb' 0 16) (regAt w 21)⟩
def rowSc : Row :=
  ⟨"sc", .K, 0xFC000000#32, 0xE0000000#32, fun w => .sc (regAt w 16) (w.extractLsb' 0 16) (regAt w 21)⟩

/-! ### Rows: branches and jumps (spec/43_branch_jump.md) -/

def rowBeq : Row :=
  ⟨"beq", .S, 0xFC000000#32, 0x10000000#32, fun w => .beq (regAt w 21) (regAt w 16) (w.extractLsb' 0 16)⟩
def rowBne : Row :=
  ⟨"bne", .S, 0xFC000000#32, 0x14000000#32, fun w => .bne (regAt w 21) (regAt w 16) (w.extractLsb' 0 16)⟩
def rowBlez : Row :=
  ⟨"blez", .S, 0xFC1F0000#32, 0x18000000#32, fun w => .blez (regAt w 21) (w.extractLsb' 0 16)⟩
def rowBgtz : Row :=
  ⟨"bgtz", .S, 0xFC1F0000#32, 0x1C000000#32, fun w => .bgtz (regAt w 21) (w.extractLsb' 0 16)⟩
def rowBltz : Row :=
  ⟨"bltz", .S, 0xFC1F0000#32, 0x04000000#32, fun w => .bltz (regAt w 21) (w.extractLsb' 0 16)⟩
def rowBgez : Row :=
  ⟨"bgez", .S, 0xFC1F0000#32, 0x04010000#32, fun w => .bgez (regAt w 21) (w.extractLsb' 0 16)⟩
def rowJ : Row :=
  ⟨"j", .S, 0xFC000000#32, 0x08000000#32, fun w => .j (w.extractLsb' 0 26)⟩
def rowJal : Row :=
  ⟨"jal", .S, 0xFC000000#32, 0x0C000000#32, fun w => .jal (w.extractLsb' 0 26)⟩
def rowJr : Row :=
  ⟨"jr", .S, 0xFC1FFFFF#32, 0x00000008#32, fun w => .jr (regAt w 21)⟩
def rowJalr : Row :=
  ⟨"jalr", .S, 0xFC1F07FF#32, 0x00000009#32, fun w => .jalr (regAt w 11) (regAt w 21)⟩
def rowBltzal : Row :=
  ⟨"bltzal", .S, 0xFC1F0000#32, 0x04100000#32, fun w => .bltzal (regAt w 21) (w.extractLsb' 0 16)⟩
def rowBgezal : Row :=
  ⟨"bgezal", .S, 0xFC1F0000#32, 0x04110000#32, fun w => .bgezal (regAt w 21) (w.extractLsb' 0 16)⟩
def rowBltzall : Row :=
  ⟨"bltzall", .S, 0xFC1F0000#32, 0x04120000#32, fun w => .bltzall (regAt w 21) (w.extractLsb' 0 16)⟩
def rowBgezall : Row :=
  ⟨"bgezall", .S, 0xFC1F0000#32, 0x04130000#32, fun w => .bgezall (regAt w 21) (w.extractLsb' 0 16)⟩
def rowBeql : Row :=
  ⟨"beql", .S, 0xFC000000#32, 0x50000000#32, fun w => .beql (regAt w 21) (regAt w 16) (w.extractLsb' 0 16)⟩
def rowBnel : Row :=
  ⟨"bnel", .S, 0xFC000000#32, 0x54000000#32, fun w => .bnel (regAt w 21) (regAt w 16) (w.extractLsb' 0 16)⟩
def rowBlezl : Row :=
  ⟨"blezl", .S, 0xFC1F0000#32, 0x58000000#32, fun w => .blezl (regAt w 21) (w.extractLsb' 0 16)⟩
def rowBgtzl : Row :=
  ⟨"bgtzl", .S, 0xFC1F0000#32, 0x5C000000#32, fun w => .bgtzl (regAt w 21) (w.extractLsb' 0 16)⟩
def rowBltzl : Row :=
  ⟨"bltzl", .S, 0xFC1F0000#32, 0x04020000#32, fun w => .bltzl (regAt w 21) (w.extractLsb' 0 16)⟩
def rowBgezl : Row :=
  ⟨"bgezl", .S, 0xFC1F0000#32, 0x04030000#32, fun w => .bgezl (regAt w 21) (w.extractLsb' 0 16)⟩
def rowBc1f : Row :=
  ⟨"bc1f", .S, 0xFFFF0000#32, 0x45000000#32, fun w => .bc1f (w.extractLsb' 0 16)⟩
def rowBc1t : Row :=
  ⟨"bc1t", .S, 0xFFFF0000#32, 0x45010000#32, fun w => .bc1t (w.extractLsb' 0 16)⟩
def rowBc1fl : Row :=
  ⟨"bc1fl", .S, 0xFFFF0000#32, 0x45020000#32, fun w => .bc1fl (w.extractLsb' 0 16)⟩
def rowBc1tl : Row :=
  ⟨"bc1tl", .S, 0xFFFF0000#32, 0x45030000#32, fun w => .bc1tl (w.extractLsb' 0 16)⟩
def rowBvf : Row :=
  ⟨"bvf", .U, 0xFFE30000#32, 0x49000000#32, fun w => .bvf (w.extractLsb' 18 3) (w.extractLsb' 0 16)⟩
def rowBvt : Row :=
  ⟨"bvt", .U, 0xFFE30000#32, 0x49010000#32, fun w => .bvt (w.extractLsb' 18 3) (w.extractLsb' 0 16)⟩
def rowBvfl : Row :=
  ⟨"bvfl", .U, 0xFFE30000#32, 0x49020000#32, fun w => .bvfl (w.extractLsb' 18 3) (w.extractLsb' 0 16)⟩
def rowBvtl : Row :=
  ⟨"bvtl", .U, 0xFFE30000#32, 0x49030000#32, fun w => .bvtl (w.extractLsb' 18 3) (w.extractLsb' 0 16)⟩

/-! ### Rows: scalar floating point (spec/44_fpu.md) -/

def rowAddS : Row :=
  ⟨"add.s", .S, 0xFFE0003F#32, 0x46000000#32, fun w => .addS (regAt w 6) (regAt w 11) (regAt w 16)⟩
def rowSubS : Row :=
  ⟨"sub.s", .S, 0xFFE0003F#32, 0x46000001#32, fun w => .subS (regAt w 6) (regAt w 11) (regAt w 16)⟩
def rowMulS : Row :=
  ⟨"mul.s", .S, 0xFFE0003F#32, 0x46000002#32, fun w => .mulS (regAt w 6) (regAt w 11) (regAt w 16)⟩
def rowDivS : Row :=
  ⟨"div.s", .S, 0xFFE0003F#32, 0x46000003#32, fun w => .divS (regAt w 6) (regAt w 11) (regAt w 16)⟩
def rowSqrtS : Row :=
  ⟨"sqrt.s", .S, 0xFFFF003F#32, 0x46000004#32, fun w => .sqrtS (regAt w 6) (regAt w 11)⟩
def rowAbsS : Row :=
  ⟨"abs.s", .S, 0xFFFF003F#32, 0x46000005#32, fun w => .absS (regAt w 6) (regAt w 11)⟩
def rowMovS : Row :=
  ⟨"mov.s", .S, 0xFFFF003F#32, 0x46000006#32, fun w => .movS (regAt w 6) (regAt w 11)⟩
def rowNegS : Row :=
  ⟨"neg.s", .S, 0xFFFF003F#32, 0x46000007#32, fun w => .negS (regAt w 6) (regAt w 11)⟩
def rowCvtWS : Row :=
  ⟨"cvt.w.s", .S, 0xFFFF003F#32, 0x46000024#32, fun w => .cvtWS (regAt w 6) (regAt w 11)⟩
def rowRoundWS : Row :=
  ⟨"round.w.s", .S, 0xFFFF003F#32, 0x4600000C#32, fun w => .roundWS (regAt w 6) (regAt w 11)⟩
def rowTruncWS : Row :=
  ⟨"trunc.w.s", .S, 0xFFFF003F#32, 0x4600000D#32, fun w => .truncWS (regAt w 6) (regAt w 11)⟩
def rowCeilWS : Row :=
  ⟨"ceil.w.s", .S, 0xFFFF003F#32, 0x4600000E#32, fun w => .ceilWS (regAt w 6) (regAt w 11)⟩
def rowFloorWS : Row :=
  ⟨"floor.w.s", .S, 0xFFFF003F#32, 0x4600000F#32, fun w => .floorWS (regAt w 6) (regAt w 11)⟩
def rowCvtSW : Row :=
  ⟨"cvt.s.w", .K, 0xFFFF003F#32, 0x46800020#32, fun w => .cvtSW (regAt w 6) (regAt w 11)⟩
def rowCFS : Row :=
  ⟨"c.f.s", .S, 0xFFE007FF#32, 0x46000030#32, fun w => .cFS (regAt w 11) (regAt w 16)⟩
def rowCUnS : Row :=
  ⟨"c.un.s", .S, 0xFFE007FF#32, 0x46000031#32, fun w => .cUnS (regAt w 11) (regAt w 16)⟩
def rowCEqS : Row :=
  ⟨"c.eq.s", .S, 0xFFE007FF#32, 0x46000032#32, fun w => .cEqS (regAt w 11) (regAt w 16)⟩
def rowCUeqS : Row :=
  ⟨"c.ueq.s", .S, 0xFFE007FF#32, 0x46000033#32, fun w => .cUeqS (regAt w 11) (regAt w 16)⟩
def rowCOltS : Row :=
  ⟨"c.olt.s", .S, 0xFFE007FF#32, 0x46000034#32, fun w => .cOltS (regAt w 11) (regAt w 16)⟩
def rowCUltS : Row :=
  ⟨"c.ult.s", .S, 0xFFE007FF#32, 0x46000035#32, fun w => .cUltS (regAt w 11) (regAt w 16)⟩
def rowCOleS : Row :=
  ⟨"c.ole.s", .S, 0xFFE007FF#32, 0x46000036#32, fun w => .cOleS (regAt w 11) (regAt w 16)⟩
def rowCUleS : Row :=
  ⟨"c.ule.s", .S, 0xFFE007FF#32, 0x46000037#32, fun w => .cUleS (regAt w 11) (regAt w 16)⟩
def rowCSfS : Row :=
  ⟨"c.sf.s", .S, 0xFFE007FF#32, 0x46000038#32, fun w => .cSfS (regAt w 11) (regAt w 16)⟩
def rowCNgleS : Row :=
  ⟨"c.ngle.s", .S, 0xFFE007FF#32, 0x46000039#32, fun w => .cNgleS (regAt w 11) (regAt w 16)⟩
def rowCSeqS : Row :=
  ⟨"c.seq.s", .S, 0xFFE007FF#32, 0x4600003A#32, fun w => .cSeqS (regAt w 11) (regAt w 16)⟩
def rowCNglS : Row :=
  ⟨"c.ngl.s", .S, 0xFFE007FF#32, 0x4600003B#32, fun w => .cNglS (regAt w 11) (regAt w 16)⟩
def rowCLtS : Row :=
  ⟨"c.lt.s", .S, 0xFFE007FF#32, 0x4600003C#32, fun w => .cLtS (regAt w 11) (regAt w 16)⟩
def rowCNgeS : Row :=
  ⟨"c.nge.s", .S, 0xFFE007FF#32, 0x4600003D#32, fun w => .cNgeS (regAt w 11) (regAt w 16)⟩
def rowCLeS : Row :=
  ⟨"c.le.s", .S, 0xFFE007FF#32, 0x4600003E#32, fun w => .cLeS (regAt w 11) (regAt w 16)⟩
def rowCNgtS : Row :=
  ⟨"c.ngt.s", .S, 0xFFE007FF#32, 0x4600003F#32, fun w => .cNgtS (regAt w 11) (regAt w 16)⟩
def rowCtc1 : Row :=
  ⟨"ctc1", .S, 0xFFE007FF#32, 0x44C00000#32, fun w => .ctc1 (regAt w 16) (regAt w 11)⟩
def rowCfc1 : Row :=
  ⟨"cfc1", .S, 0xFFE007FF#32, 0x44400000#32, fun w => .cfc1 (regAt w 16) (regAt w 11)⟩
def rowMfc1 : Row :=
  ⟨"mfc1", .S, 0xFFE007FF#32, 0x44000000#32, fun w => .mfc1 (regAt w 16) (regAt w 11)⟩
def rowMtc1 : Row :=
  ⟨"mtc1", .S, 0xFFE007FF#32, 0x44800000#32, fun w => .mtc1 (regAt w 16) (regAt w 11)⟩

/-! ### Rows: VFPU prefix setters (spec/45_vfpu_regs_prefix.md) -/

def rowVpfxs : Row :=
  ⟨"vpfxs", .K, 0xFF000000#32, 0xDC000000#32, fun w => .vpfxs (w.extractLsb' 0 20)⟩
def rowVpfxt : Row :=
  ⟨"vpfxt", .K, 0xFF000000#32, 0xDD000000#32, fun w => .vpfxt (w.extractLsb' 0 20)⟩
def rowVpfxd : Row :=
  ⟨"vpfxd", .K, 0xFF000000#32, 0xDE000000#32, fun w => .vpfxd (w.extractLsb' 0 12)⟩

/-! ### Rows: VFPU loads and stores (spec/46_vfpu_ops.md) -/

def rowLvQ : Row :=
  ⟨"lv.q", .S, 0xFC000002#32, 0xD8000000#32, fun w => .lvQ (quadSelAt w) (w.extractLsb' 2 14) (regAt w 21)⟩
def rowSvQ : Row :=
  ⟨"sv.q", .S, 0xFC000002#32, 0xF8000000#32, fun w => .svQ (quadSelAt w) (w.extractLsb' 2 14) (regAt w 21)⟩
def rowLvlQ : Row :=
  ⟨"lvl.q", .S, 0xFC000002#32, 0xD4000000#32, fun w => .lvlQ (quadSelAt w) (w.extractLsb' 2 14) (regAt w 21)⟩
def rowLvrQ : Row :=
  ⟨"lvr.q", .S, 0xFC000002#32, 0xD4000002#32, fun w => .lvrQ (quadSelAt w) (w.extractLsb' 2 14) (regAt w 21)⟩
def rowSvlQ : Row :=
  ⟨"svl.q", .S, 0xFC000002#32, 0xF4000000#32, fun w => .svlQ (quadSelAt w) (w.extractLsb' 2 14) (regAt w 21)⟩
def rowSvrQ : Row :=
  ⟨"svr.q", .S, 0xFC000002#32, 0xF4000002#32, fun w => .svrQ (quadSelAt w) (w.extractLsb' 2 14) (regAt w 21)⟩
def rowLvS : Row :=
  ⟨"lv.s", .K, 0xFC000000#32, 0xC8000000#32, fun w => .lvS (singleSelAt w) (w.extractLsb' 2 14) (regAt w 21)⟩
def rowSvS : Row :=
  ⟨"sv.s", .K, 0xFC000000#32, 0xE8000000#32, fun w => .svS (singleSelAt w) (w.extractLsb' 2 14) (regAt w 21)⟩

/-! ### Rows: VFPU operations (spec/46_vfpu_ops.md) -/

def rowVmzero : Row :=
  ⟨"vmzero", .S, 0xFFFF7F00#32, 0xF3860000#32, fun w => .vmzero (sizeAt w) (selAt w 0)⟩
def rowVmone : Row :=
  ⟨"vmone", .S, 0xFFFF7F00#32, 0xF3870000#32, fun w => .vmone (sizeAt w) (selAt w 0)⟩
def rowVmidt : Row :=
  ⟨"vmidt", .S, 0xFFFF7F00#32, 0xF3830000#32, fun w => .vmidt (sizeAt w) (selAt w 0)⟩
def rowVmmov : Row :=
  ⟨"vmmov", .S, 0xFFFF0000#32, 0xF3800000#32, fun w => .vmmov (sizeAt w) (selAt w 0) (selAt w 8)⟩
def rowVmmul : Row :=
  ⟨"vmmul", .S, 0xFF800000#32, 0xF0000000#32, fun w => .vmmul (sizeAt w) (selAt w 0) (selAt w 8) (selAt w 16)⟩
def rowVrot : Row :=
  ⟨"vrot", .S, 0xFFE00000#32, 0xF3A00000#32, fun w => .vrot (sizeAt w) (selAt w 0) (selAt w 8) (w.extractLsb' 16 5)⟩
def rowVt4444Q : Row :=
  ⟨"vt4444.q", .S, 0xFFFF0000#32, 0xD0590000#32, fun w => .vt4444Q (sizeAt w) (selAt w 0) (selAt w 8)⟩
def rowVt5551Q : Row :=
  ⟨"vt5551.q", .S, 0xFFFF0000#32, 0xD05A0000#32, fun w => .vt5551Q (sizeAt w) (selAt w 0) (selAt w 8)⟩
def rowVt5650Q : Row :=
  ⟨"vt5650.q", .S, 0xFFFF0000#32, 0xD05B0000#32, fun w => .vt5650Q (sizeAt w) (selAt w 0) (selAt w 8)⟩
def rowVadd : Row :=
  ⟨"vadd", .K, 0xFF800000#32, 0x60000000#32, fun w => .vadd (sizeAt w) (selAt w 0) (selAt w 8) (selAt w 16)⟩
def rowVsub : Row :=
  ⟨"vsub", .K, 0xFF800000#32, 0x60800000#32, fun w => .vsub (sizeAt w) (selAt w 0) (selAt w 8) (selAt w 16)⟩
def rowVmul : Row :=
  ⟨"vmul", .K, 0xFF800000#32, 0x64000000#32, fun w => .vmul (sizeAt w) (selAt w 0) (selAt w 8) (selAt w 16)⟩
def rowVdiv : Row :=
  ⟨"vdiv", .K, 0xFF800000#32, 0x63800000#32, fun w => .vdiv (sizeAt w) (selAt w 0) (selAt w 8) (selAt w 16)⟩
def rowVmov : Row :=
  ⟨"vmov", .K, 0xFFFF0000#32, 0xD0000000#32, fun w => .vmov (sizeAt w) (selAt w 0) (selAt w 8)⟩
def rowVabs : Row :=
  ⟨"vabs", .K, 0xFFFF0000#32, 0xD0010000#32, fun w => .vabs (sizeAt w) (selAt w 0) (selAt w 8)⟩
def rowVneg : Row :=
  ⟨"vneg", .K, 0xFFFF0000#32, 0xD0020000#32, fun w => .vneg (sizeAt w) (selAt w 0) (selAt w 8)⟩
def rowVzero : Row :=
  ⟨"vzero", .K, 0xFFFF7F00#32, 0xD0060000#32, fun w => .vzero (sizeAt w) (selAt w 0)⟩
def rowVone : Row :=
  ⟨"vone", .K, 0xFFFF7F00#32, 0xD0070000#32, fun w => .vone (sizeAt w) (selAt w 0)⟩
def rowVscl : Row :=
  ⟨"vscl", .K, 0xFF800000#32, 0x65000000#32, fun w => .vscl (sizeAt w) (selAt w 0) (selAt w 8) (selAt w 16)⟩
def rowVdot : Row :=
  ⟨"vdot", .K, 0xFF800000#32, 0x64800000#32, fun w => .vdot (sizeAt w) (selAt w 0) (selAt w 8) (selAt w 16)⟩
def rowViimS : Row :=
  ⟨"viim.s", .K, 0xFF800000#32, 0xDF000000#32, fun w => .viimS (selAt w 16) (w.extractLsb' 0 16)⟩
def rowMtv : Row :=
  ⟨"mtv", .K, 0xFFE0FF80#32, 0x48E00000#32, fun w => .mtv (regAt w 16) (selAt w 0)⟩
def rowMfv : Row :=
  ⟨"mfv", .K, 0xFFE0FF80#32, 0x48600000#32, fun w => .mfv (regAt w 16) (selAt w 0)⟩
def rowVnop : Row :=
  ⟨"vnop", .K, 0xFFFFFFFF#32, 0xFFFF0000#32, fun _ => .vnop⟩
def rowVsync : Row :=
  ⟨"vsync", .K, 0xFFFFFFFF#32, 0xFFFF0320#32, fun _ => .vsync⟩
def rowVflush : Row :=
  ⟨"vflush", .K, 0xFFFFFFFF#32, 0xFFFF040D#32, fun _ => .vflush⟩

/-! ### Rows: VFPU rows of Tier U (spec/47_vfpu_unimplemented.md) -/

def rowVsin : Row :=
  ⟨"vsin", .U, 0xFFFF0000#32, 0xD0120000#32, fun w => .vsin (sizeAt w) (selAt w 0) (selAt w 8)⟩
def rowVcos : Row :=
  ⟨"vcos", .U, 0xFFFF0000#32, 0xD0130000#32, fun w => .vcos (sizeAt w) (selAt w 0) (selAt w 8)⟩
def rowVsqrt : Row :=
  ⟨"vsqrt", .U, 0xFFFF0000#32, 0xD0160000#32, fun w => .vsqrt (sizeAt w) (selAt w 0) (selAt w 8)⟩
def rowVtfm2 : Row :=
  ⟨"vtfm2", .U, 0xFF808080#32, 0xF0800080#32, fun w => .vtfm2 (selAt w 0) (selAt w 8) (selAt w 16)⟩
def rowVtfm3 : Row :=
  ⟨"vtfm3", .U, 0xFF808080#32, 0xF1008000#32, fun w => .vtfm3 (selAt w 0) (selAt w 8) (selAt w 16)⟩
def rowVtfm4 : Row :=
  ⟨"vtfm4", .U, 0xFF808080#32, 0xF1808080#32, fun w => .vtfm4 (selAt w 0) (selAt w 8) (selAt w 16)⟩
def rowVcrsT : Row :=
  ⟨"vcrs.t", .U, 0xFF808080#32, 0x66808000#32, fun w => .vcrsT (selAt w 0) (selAt w 8) (selAt w 16)⟩
def rowVsrt1 : Row :=
  ⟨"vsrt1", .U, 0xFFFF0000#32, 0xD0400000#32, fun w => .vsrt1 (sizeAt w) (selAt w 0) (selAt w 8)⟩
def rowVsrt2 : Row :=
  ⟨"vsrt2", .U, 0xFFFF0000#32, 0xD0410000#32, fun w => .vsrt2 (sizeAt w) (selAt w 0) (selAt w 8)⟩
def rowVsrt3 : Row :=
  ⟨"vsrt3", .U, 0xFFFF0000#32, 0xD0480000#32, fun w => .vsrt3 (sizeAt w) (selAt w 0) (selAt w 8)⟩
def rowVsrt4 : Row :=
  ⟨"vsrt4", .U, 0xFFFF0000#32, 0xD0490000#32, fun w => .vsrt4 (sizeAt w) (selAt w 0) (selAt w 8)⟩
def rowVhtfm2 : Row :=
  ⟨"vhtfm2", .U, 0xFF808080#32, 0xF0800000#32, fun w => .vhtfm2 (selAt w 0) (selAt w 8) (selAt w 16)⟩
def rowVhtfm3 : Row :=
  ⟨"vhtfm3", .U, 0xFF808080#32, 0xF1000080#32, fun w => .vhtfm3 (selAt w 0) (selAt w 8) (selAt w 16)⟩
def rowVhtfm4 : Row :=
  ⟨"vhtfm4", .U, 0xFF808080#32, 0xF1808000#32, fun w => .vhtfm4 (selAt w 0) (selAt w 8) (selAt w 16)⟩
def rowVsbn : Row :=
  ⟨"vsbn", .U, 0xFF800000#32, 0x61000000#32, fun w => .vsbn (sizeAt w) (selAt w 0) (selAt w 8) (selAt w 16)⟩
def rowVhdp : Row :=
  ⟨"vhdp", .U, 0xFF800000#32, 0x66000000#32, fun w => .vhdp (sizeAt w) (selAt w 0) (selAt w 8) (selAt w 16)⟩
def rowVdet : Row :=
  ⟨"vdet", .U, 0xFF800000#32, 0x67000000#32, fun w => .vdet (sizeAt w) (selAt w 0) (selAt w 8) (selAt w 16)⟩
def rowVcmp : Row :=
  ⟨"vcmp", .U, 0xFF800070#32, 0x6C000000#32, fun w => .vcmp (sizeAt w) (w.extractLsb' 0 4) (selAt w 8) (selAt w 16)⟩
def rowVmin : Row :=
  ⟨"vmin", .U, 0xFF800000#32, 0x6D000000#32, fun w => .vmin (sizeAt w) (selAt w 0) (selAt w 8) (selAt w 16)⟩
def rowVmax : Row :=
  ⟨"vmax", .U, 0xFF800000#32, 0x6D800000#32, fun w => .vmax (sizeAt w) (selAt w 0) (selAt w 8) (selAt w 16)⟩
def rowVscmp : Row :=
  ⟨"vscmp", .U, 0xFF800000#32, 0x6E800000#32, fun w => .vscmp (sizeAt w) (selAt w 0) (selAt w 8) (selAt w 16)⟩
def rowVsge : Row :=
  ⟨"vsge", .U, 0xFF800000#32, 0x6F000000#32, fun w => .vsge (sizeAt w) (selAt w 0) (selAt w 8) (selAt w 16)⟩
def rowVslt : Row :=
  ⟨"vslt", .U, 0xFF800000#32, 0x6F800000#32, fun w => .vslt (sizeAt w) (selAt w 0) (selAt w 8) (selAt w 16)⟩
def rowVidt : Row :=
  ⟨"vidt", .U, 0xFFFF7F00#32, 0xD0030000#32, fun w => .vidt (sizeAt w) (selAt w 0)⟩
def rowVsat0 : Row :=
  ⟨"vsat0", .U, 0xFFFF0000#32, 0xD0040000#32, fun w => .vsat0 (sizeAt w) (selAt w 0) (selAt w 8)⟩
def rowVsat1 : Row :=
  ⟨"vsat1", .U, 0xFFFF0000#32, 0xD0050000#32, fun w => .vsat1 (sizeAt w) (selAt w 0) (selAt w 8)⟩
def rowVrcp : Row :=
  ⟨"vrcp", .U, 0xFFFF0000#32, 0xD0100000#32, fun w => .vrcp (sizeAt w) (selAt w 0) (selAt w 8)⟩
def rowVrsq : Row :=
  ⟨"vrsq", .U, 0xFFFF0000#32, 0xD0110000#32, fun w => .vrsq (sizeAt w) (selAt w 0) (selAt w 8)⟩
def rowVexp2 : Row :=
  ⟨"vexp2", .U, 0xFFFF0000#32, 0xD0140000#32, fun w => .vexp2 (sizeAt w) (selAt w 0) (selAt w 8)⟩
def rowVlog2 : Row :=
  ⟨"vlog2", .U, 0xFFFF0000#32, 0xD0150000#32, fun w => .vlog2 (sizeAt w) (selAt w 0) (selAt w 8)⟩
def rowVasin : Row :=
  ⟨"vasin", .U, 0xFFFF0000#32, 0xD0170000#32, fun w => .vasin (sizeAt w) (selAt w 0) (selAt w 8)⟩
def rowVnrcp : Row :=
  ⟨"vnrcp", .U, 0xFFFF0000#32, 0xD0180000#32, fun w => .vnrcp (sizeAt w) (selAt w 0) (selAt w 8)⟩
def rowVnsin : Row :=
  ⟨"vnsin", .U, 0xFFFF0000#32, 0xD01A0000#32, fun w => .vnsin (sizeAt w) (selAt w 0) (selAt w 8)⟩
def rowVrexp2 : Row :=
  ⟨"vrexp2", .U, 0xFFFF0000#32, 0xD01C0000#32, fun w => .vrexp2 (sizeAt w) (selAt w 0) (selAt w 8)⟩
def rowVrnds : Row :=
  ⟨"vrnds", .U, 0xFFFF007F#32, 0xD0200000#32, fun w => .vrnds (sizeAt w) (selAt w 8)⟩
def rowVrndi : Row :=
  ⟨"vrndi", .U, 0xFFFF7F00#32, 0xD0210000#32, fun w => .vrndi (sizeAt w) (selAt w 0)⟩
def rowVrndf1 : Row :=
  ⟨"vrndf1", .U, 0xFFFF7F00#32, 0xD0220000#32, fun w => .vrndf1 (sizeAt w) (selAt w 0)⟩
def rowVrndf2 : Row :=
  ⟨"vrndf2", .U, 0xFFFF7F00#32, 0xD0230000#32, fun w => .vrndf2 (sizeAt w) (selAt w 0)⟩
def rowVf2h : Row :=
  ⟨"vf2h", .U, 0xFFFF0000#32, 0xD0320000#32, fun w => .vf2h (sizeAt w) (selAt w 0) (selAt w 8)⟩
def rowVh2f : Row :=
  ⟨"vh2f", .U, 0xFFFF0000#32, 0xD0330000#32, fun w => .vh2f (sizeAt w) (selAt w 0) (selAt w 8)⟩
def rowVsbz : Row :=
  ⟨"vsbz", .U, 0xFFFF0000#32, 0xD0360000#32, fun w => .vsbz (sizeAt w) (selAt w 0) (selAt w 8)⟩
def rowVlgb : Row :=
  ⟨"vlgb", .U, 0xFFFF0000#32, 0xD0370000#32, fun w => .vlgb (sizeAt w) (selAt w 0) (selAt w 8)⟩
def rowVuc2i : Row :=
  ⟨"vuc2i", .U, 0xFFFF0000#32, 0xD0380000#32, fun w => .vuc2i (sizeAt w) (selAt w 0) (selAt w 8)⟩
def rowVc2i : Row :=
  ⟨"vc2i", .U, 0xFFFF0000#32, 0xD0390000#32, fun w => .vc2i (sizeAt w) (selAt w 0) (selAt w 8)⟩
def rowVus2i : Row :=
  ⟨"vus2i", .U, 0xFFFF0000#32, 0xD03A0000#32, fun w => .vus2i (sizeAt w) (selAt w 0) (selAt w 8)⟩
def rowVs2i : Row :=
  ⟨"vs2i", .U, 0xFFFF0000#32, 0xD03B0000#32, fun w => .vs2i (sizeAt w) (selAt w 0) (selAt w 8)⟩
def rowVi2uc : Row :=
  ⟨"vi2uc", .U, 0xFFFF0000#32, 0xD03C0000#32, fun w => .vi2uc (sizeAt w) (selAt w 0) (selAt w 8)⟩
def rowVi2c : Row :=
  ⟨"vi2c", .U, 0xFFFF0000#32, 0xD03D0000#32, fun w => .vi2c (sizeAt w) (selAt w 0) (selAt w 8)⟩
def rowVi2us : Row :=
  ⟨"vi2us", .U, 0xFFFF0000#32, 0xD03E0000#32, fun w => .vi2us (sizeAt w) (selAt w 0) (selAt w 8)⟩
def rowVi2s : Row :=
  ⟨"vi2s", .U, 0xFFFF0000#32, 0xD03F0000#32, fun w => .vi2s (sizeAt w) (selAt w 0) (selAt w 8)⟩
def rowVbfy1 : Row :=
  ⟨"vbfy1", .U, 0xFFFF0000#32, 0xD0420000#32, fun w => .vbfy1 (sizeAt w) (selAt w 0) (selAt w 8)⟩
def rowVbfy2 : Row :=
  ⟨"vbfy2", .U, 0xFFFF0000#32, 0xD0430000#32, fun w => .vbfy2 (sizeAt w) (selAt w 0) (selAt w 8)⟩
def rowVocp : Row :=
  ⟨"vocp", .U, 0xFFFF0000#32, 0xD0440000#32, fun w => .vocp (sizeAt w) (selAt w 0) (selAt w 8)⟩
def rowVsocp : Row :=
  ⟨"vsocp", .U, 0xFFFF0000#32, 0xD0450000#32, fun w => .vsocp (sizeAt w) (selAt w 0) (selAt w 8)⟩
def rowVfad : Row :=
  ⟨"vfad", .U, 0xFFFF0000#32, 0xD0460000#32, fun w => .vfad (sizeAt w) (selAt w 0) (selAt w 8)⟩
def rowVavg : Row :=
  ⟨"vavg", .U, 0xFFFF0000#32, 0xD0470000#32, fun w => .vavg (sizeAt w) (selAt w 0) (selAt w 8)⟩
def rowVsgn : Row :=
  ⟨"vsgn", .U, 0xFFFF0000#32, 0xD04A0000#32, fun w => .vsgn (sizeAt w) (selAt w 0) (selAt w 8)⟩
def rowVmfvc : Row :=
  ⟨"vmfvc", .U, 0xFFFF8080#32, 0xD0508000#32, fun w => .vmfvc (selAt w 0) (w.extractLsb' 8 7)⟩
def rowVmtvc : Row :=
  ⟨"vmtvc", .U, 0xFFFF8080#32, 0xD0510080#32, fun w => .vmtvc (w.extractLsb' 0 7) (selAt w 8)⟩
def rowVcst : Row :=
  ⟨"vcst", .U, 0xFFE07F00#32, 0xD0600000#32, fun w => .vcst (sizeAt w) (selAt w 0) (w.extractLsb' 16 5)⟩
def rowVf2in : Row :=
  ⟨"vf2in", .U, 0xFFE00000#32, 0xD2000000#32, fun w => .vf2in (sizeAt w) (selAt w 0) (selAt w 8) (w.extractLsb' 16 5)⟩
def rowVf2iz : Row :=
  ⟨"vf2iz", .U, 0xFFE00000#32, 0xD2200000#32, fun w => .vf2iz (sizeAt w) (selAt w 0) (selAt w 8) (w.extractLsb' 16 5)⟩
def rowVf2iu : Row :=
  ⟨"vf2iu", .U, 0xFFE00000#32, 0xD2400000#32, fun w => .vf2iu (sizeAt w) (selAt w 0) (selAt w 8) (w.extractLsb' 16 5)⟩
def rowVf2id : Row :=
  ⟨"vf2id", .U, 0xFFE00000#32, 0xD2600000#32, fun w => .vf2id (sizeAt w) (selAt w 0) (selAt w 8) (w.extractLsb' 16 5)⟩
def rowVi2f : Row :=
  ⟨"vi2f", .U, 0xFFE00000#32, 0xD2800000#32, fun w => .vi2f (sizeAt w) (selAt w 0) (selAt w 8) (w.extractLsb' 16 5)⟩
def rowVcmovt : Row :=
  ⟨"vcmovt", .U, 0xFFF80000#32, 0xD2A00000#32, fun w => .vcmovt (sizeAt w) (selAt w 0) (selAt w 8) (w.extractLsb' 16 3)⟩
def rowVcmovf : Row :=
  ⟨"vcmovf", .U, 0xFFF80000#32, 0xD2A80000#32, fun w => .vcmovf (sizeAt w) (selAt w 0) (selAt w 8) (w.extractLsb' 16 3)⟩
def rowVwbn : Row :=
  ⟨"vwbn", .U, 0xFF000000#32, 0xD3000000#32, fun w => .vwbn (sizeAt w) (selAt w 0) (selAt w 8) (w.extractLsb' 16 8)⟩
def rowVmscl : Row :=
  ⟨"vmscl", .U, 0xFF800000#32, 0xF2000000#32, fun w => .vmscl (sizeAt w) (selAt w 0) (selAt w 8) (selAt w 16)⟩
def rowVcrspT : Row :=
  ⟨"vcrsp.t", .U, 0xFF808080#32, 0xF2808000#32, fun w => .vcrspT (selAt w 0) (selAt w 8) (selAt w 16)⟩
def rowVqmulQ : Row :=
  ⟨"vqmul.q", .U, 0xFF808080#32, 0xF2808080#32, fun w => .vqmulQ (selAt w 0) (selAt w 8) (selAt w 16)⟩
def rowVfimS : Row :=
  ⟨"vfim.s", .U, 0xFF800000#32, 0xDF800000#32, fun w => .vfimS (selAt w 16) (w.extractLsb' 0 16)⟩
def rowMfvc : Row :=
  ⟨"mfvc", .U, 0xFFE0FF80#32, 0x48600080#32, fun w => .mfvc (regAt w 16) (selAt w 0)⟩
def rowMtvc : Row :=
  ⟨"mtvc", .U, 0xFFE0FF80#32, 0x48E00080#32, fun w => .mtvc (regAt w 16) (selAt w 0)⟩

/-! ### Rows: system instructions (spec/48_system.md) -/

def rowSyscall : Row :=
  ⟨"syscall", .S, 0xFC00003F#32, 0x0000000C#32, fun w => .syscall (w.extractLsb' 6 20)⟩
def rowBrk : Row :=
  ⟨"break", .S, 0xFC00003F#32, 0x0000000D#32, fun w => .brk (w.extractLsb' 6 20)⟩
def rowSync : Row :=
  ⟨"sync", .K, 0xFFFFFFFF#32, 0x0000000F#32, fun _ => .sync⟩
def rowCache : Row :=
  ⟨"cache", .K, 0xFC000000#32, 0xBC000000#32, fun w => .cache (w.extractLsb' 0 16) (regAt w 21)⟩
def rowMfic : Row :=
  ⟨"mfic", .K, 0xFC1FFFFF#32, 0x70000024#32, fun w => .mfic (regAt w 21)⟩
def rowMtic : Row :=
  ⟨"mtic", .K, 0xFC1FFFFF#32, 0x70000026#32, fun w => .mtic (regAt w 21)⟩
def rowMfc0 : Row :=
  ⟨"mfc0", .U, 0xFFE007FF#32, 0x40000000#32, fun _ => .mfc0⟩
def rowMtc0 : Row :=
  ⟨"mtc0", .U, 0xFFE007FF#32, 0x40800000#32, fun _ => .mtc0⟩
def rowCfc0 : Row :=
  ⟨"cfc0", .U, 0xFFE007FF#32, 0x40400000#32, fun _ => .cfc0⟩
def rowCtc0 : Row :=
  ⟨"ctc0", .U, 0xFFE007FF#32, 0x40C00000#32, fun _ => .ctc0⟩
def rowEret : Row :=
  ⟨"eret", .U, 0xFFFFFFFF#32, 0x42000018#32, fun _ => .eret⟩
def rowHalt : Row :=
  ⟨"halt", .U, 0xFFFFFFFF#32, 0x70000000#32, fun _ => .halt⟩
def rowDret : Row :=
  ⟨"dret", .U, 0xFFFFFFFF#32, 0x7000003E#32, fun _ => .dret⟩
def rowDbreak : Row :=
  ⟨"dbreak", .U, 0xFFFFFFFF#32, 0x7000003F#32, fun _ => .dbreak⟩
def rowMfdr : Row :=
  ⟨"mfdr", .U, 0xFFE007FF#32, 0x7000003D#32, fun _ => .mfdr⟩
def rowMtdr : Row :=
  ⟨"mtdr", .U, 0xFFE007FF#32, 0x7080003D#32, fun _ => .mtdr⟩

/-- The rows of integer ALU. -/
def aluRows : List Row :=
  [rowAdd, rowAddu, rowAddi, rowAddiu,
   rowSub, rowSubu, rowAnd, rowOr,
   rowXor, rowNor, rowAndi, rowOri,
   rowXori, rowLui, rowSlt, rowSltu,
   rowSlti, rowSltiu, rowSll, rowSrl,
   rowSra, rowSllv, rowSrlv, rowSrav,
   rowRotr, rowRotrv, rowExt, rowIns,
   rowClz, rowClo, rowSeb, rowSeh,
   rowWsbh, rowWsbw, rowBitrev, rowMovz,
   rowMovn, rowMax, rowMin]

/-- The rows of multiply, divide and the accumulator. -/
def mulDivRows : List Row :=
  [rowMult, rowMultu, rowDiv, rowDivu,
   rowMadd, rowMaddu, rowMsub, rowMsubu,
   rowMfhi, rowMflo, rowMthi, rowMtlo]

/-- The rows of scalar loads and stores. -/
def loadStoreRows : List Row :=
  [rowLb, rowLbu, rowLh, rowLhu,
   rowLw, rowSb, rowSh, rowSw,
   rowLwl, rowLwr, rowSwl, rowSwr,
   rowLwc1, rowSwc1, rowLl, rowSc]

/-- The rows of branches and jumps. -/
def branchRows : List Row :=
  [rowBeq, rowBne, rowBlez, rowBgtz,
   rowBltz, rowBgez, rowJ, rowJal,
   rowJr, rowJalr, rowBltzal, rowBgezal,
   rowBltzall, rowBgezall, rowBeql, rowBnel,
   rowBlezl, rowBgtzl, rowBltzl, rowBgezl,
   rowBc1f, rowBc1t, rowBc1fl, rowBc1tl,
   rowBvf, rowBvt, rowBvfl, rowBvtl]

/-- The rows of scalar floating point. -/
def fpuRows : List Row :=
  [rowAddS, rowSubS, rowMulS, rowDivS,
   rowSqrtS, rowAbsS, rowMovS, rowNegS,
   rowCvtWS, rowRoundWS, rowTruncWS, rowCeilWS,
   rowFloorWS, rowCvtSW, rowCFS, rowCUnS,
   rowCEqS, rowCUeqS, rowCOltS, rowCUltS,
   rowCOleS, rowCUleS, rowCSfS, rowCNgleS,
   rowCSeqS, rowCNglS, rowCLtS, rowCNgeS,
   rowCLeS, rowCNgtS, rowCtc1, rowCfc1,
   rowMfc1, rowMtc1]

/-- The rows of VFPU prefix setters. -/
def vfpuPfxRows : List Row :=
  [rowVpfxs, rowVpfxt, rowVpfxd]

/-- The rows of VFPU loads and stores. -/
def vfpuMemRows : List Row :=
  [rowLvQ, rowSvQ, rowLvlQ, rowLvrQ,
   rowSvlQ, rowSvrQ, rowLvS, rowSvS]

/-- The rows of VFPU operations. -/
def vfpuOpsRows : List Row :=
  [rowVmzero, rowVmone, rowVmidt, rowVmmov,
   rowVmmul, rowVrot, rowVt4444Q, rowVt5551Q,
   rowVt5650Q, rowVadd, rowVsub, rowVmul,
   rowVdiv, rowVmov, rowVabs, rowVneg,
   rowVzero, rowVone, rowVscl, rowVdot,
   rowViimS, rowMtv, rowMfv, rowVnop,
   rowVsync, rowVflush]

/-- The rows of VFPU rows of Tier U. -/
def vfpuUnimplementedRows : List Row :=
  [rowVsin, rowVcos, rowVsqrt, rowVtfm2,
   rowVtfm3, rowVtfm4, rowVcrsT, rowVsrt1,
   rowVsrt2, rowVsrt3, rowVsrt4, rowVhtfm2,
   rowVhtfm3, rowVhtfm4, rowVsbn, rowVhdp,
   rowVdet, rowVcmp, rowVmin, rowVmax,
   rowVscmp, rowVsge, rowVslt, rowVidt,
   rowVsat0, rowVsat1, rowVrcp, rowVrsq,
   rowVexp2, rowVlog2, rowVasin, rowVnrcp,
   rowVnsin, rowVrexp2, rowVrnds, rowVrndi,
   rowVrndf1, rowVrndf2, rowVf2h, rowVh2f,
   rowVsbz, rowVlgb, rowVuc2i, rowVc2i,
   rowVus2i, rowVs2i, rowVi2uc, rowVi2c,
   rowVi2us, rowVi2s, rowVbfy1, rowVbfy2,
   rowVocp, rowVsocp, rowVfad, rowVavg,
   rowVsgn, rowVmfvc, rowVmtvc, rowVcst,
   rowVf2in, rowVf2iz, rowVf2iu, rowVf2id,
   rowVi2f, rowVcmovt, rowVcmovf, rowVwbn,
   rowVmscl, rowVcrspT, rowVqmulQ, rowVfimS,
   rowMfvc, rowMtvc]

/-- The rows of system instructions. -/
def systemRows : List Row :=
  [rowSyscall, rowBrk, rowSync, rowCache,
   rowMfic, rowMtic, rowMfc0, rowMtc0,
   rowCfc0, rowCtc0, rowEret, rowHalt,
   rowDret, rowDbreak, rowMfdr, rowMtdr]

/-- The opcode table: 256 rows (R6, R116). -/
def table : List Row :=
  aluRows ++
  mulDivRows ++
  loadStoreRows ++
  branchRows ++
  fpuRows ++
  vfpuPfxRows ++
  vfpuMemRows ++
  vfpuOpsRows ++
  vfpuUnimplementedRows ++
  systemRows

/-- The row a word matches, if one does (R116). -/
def lookup (w : Word) : Option Row := table.find? (·.accepts w)

/-- Why bytes do not decode. -/
inductive Reject where
  /-- Fewer than four bytes stand there (R100: every instruction is one word). -/
  | tooFewBytes (given : Nat)
  /-- The word matches no row: "sentinel 'invalid instruction' entry" (R116, R124). -/
  | invalidInstruction (word : Word)
  deriving DecidableEq, Repr

/-- Decoding a word (R116). -/
def decodeWord (w : Word) : Except Reject Instr :=
  match lookup w with
  | some r => .ok (r.build w)
  | none   => .error (.invalidInstruction w)

/-- The four bytes of a word as memory holds them, the lowest address first (R74, R100). -/
def wordBytes (w : Word) : List Byte :=
  [w.extractLsb' 0 8, w.extractLsb' 8 8, w.extractLsb' 16 8, w.extractLsb' 24 8]

/-- The word that four bytes make, the first the least significant (R74, R100). -/
def wordOfBytes (b0 b1 b2 b3 : Byte) : Word := b3 ++ b2 ++ b1 ++ b0

/-- Decoding the instruction at the head of a list of bytes, with the bytes that follow it. -/
def decode : List Byte → Except Reject (Instr × List Byte)
  | b0 :: b1 :: b2 :: b3 :: rest =>
    match decodeWord (wordOfBytes b0 b1 b2 b3) with
    | .ok i    => .ok (i, rest)
    | .error e => .error e
  | few => .error (.tooFewBytes few.length)

/-- What the decoder reads from an instruction whose bits are `w`, numbered as the opcode table numbers
them; every bit from `nbits` up is zero. -/
def decodeTableWord (nbits w : Nat) : Option Instr :=
  match decode (wordBytes (BitVec.ofNat 32 (w % 2 ^ nbits))) with
  | .ok (i, _) => some i
  | .error _   => none

/-! ### The encoder: the formats of spec/30_encoding.md section 2, bit 31 first -/

/-- The bit `two` of a size (R110). -/
def VSize.two : VSize → BitVec 1
  | .single => 0
  | .pair   => 0
  | .triple => 1
  | .quad   => 1

/-- The bit `one` of a size (R110). -/
def VSize.one : VSize → BitVec 1
  | .single => 0
  | .pair   => 1
  | .triple => 0
  | .quad   => 1

/-- Format R (R103); COP1, SPECIAL2 and SPECIAL3 words have the same fields (R106, R107). -/
def fR (op : BitVec 6) (rs : BitVec 5) (rt : BitVec 5) (rd : BitVec 5) (sa : BitVec 5) (fn : BitVec 6) : Word :=
  (op ++ rs ++ rt ++ rd ++ sa ++ fn : BitVec (6 + 5 + 5 + 5 + 5 + 6))

/-- Format I and REGIMM (R102, R105). -/
def fI (op : BitVec 6) (rs : BitVec 5) (rt : BitVec 5) (imm : BitVec 16) : Word :=
  (op ++ rs ++ rt ++ imm : BitVec (6 + 5 + 5 + 16))

/-- Format J (R104). -/
def fJ (op : BitVec 6) (target : BitVec 26) : Word :=
  (op ++ target : BitVec (6 + 26))

/-- Format code (R109). -/
def fCode (op : BitVec 6) (code : BitVec 20) (fn : BitVec 6) : Word :=
  (op ++ code ++ fn : BitVec (6 + 20 + 6))

/-- VFPU three-operand and two-operand format (R110, R111). -/
def fV (op : BitVec 6) (sub : BitVec 3) (vt : BitVec 7) (two : BitVec 1) (vs : BitVec 7) (one : BitVec 1) (vd : BitVec 7) : Word :=
  (op ++ sub ++ vt ++ two ++ vs ++ one ++ vd : BitVec (6 + 3 + 7 + 1 + 7 + 1 + 7))

/-- VFPU three-operand format with a condition in the low bits (R123, `vcmp`). -/
def fVcmp (op : BitVec 6) (sub : BitVec 3) (vt : BitVec 7) (two : BitVec 1) (vs : BitVec 7) (one : BitVec 1) (zero : BitVec 3) (cond : BitVec 4) : Word :=
  (op ++ sub ++ vt ++ two ++ vs ++ one ++ zero ++ cond : BitVec (6 + 3 + 7 + 1 + 7 + 1 + 3 + 4))

/-- VFPU two-operand format with a 5-bit field at bits 20:16 (R111, R114, R123). -/
def fVimm5 (op : BitVec 6) (sub : BitVec 5) (imm : BitVec 5) (two : BitVec 1) (vs : BitVec 7) (one : BitVec 1) (vd : BitVec 7) : Word :=
  (op ++ sub ++ imm ++ two ++ vs ++ one ++ vd : BitVec (6 + 5 + 5 + 1 + 7 + 1 + 7))

/-- VFPU two-operand format with a 3-bit field at bits 18:16 (R123). -/
def fVimm3 (op : BitVec 6) (sub : BitVec 7) (imm : BitVec 3) (two : BitVec 1) (vs : BitVec 7) (one : BitVec 1) (vd : BitVec 7) : Word :=
  (op ++ sub ++ imm ++ two ++ vs ++ one ++ vd : BitVec (6 + 7 + 3 + 1 + 7 + 1 + 7))

/-- VFPU two-operand format with an 8-bit field at bits 23:16 (R123). -/
def fVimm8 (op : BitVec 6) (sub : BitVec 2) (imm : BitVec 8) (two : BitVec 1) (vs : BitVec 7) (one : BitVec 1) (vd : BitVec 7) : Word :=
  (op ++ sub ++ imm ++ two ++ vs ++ one ++ vd : BitVec (6 + 2 + 8 + 1 + 7 + 1 + 7))

/-- VFPU quad load and store format (R112). -/
def fVq (op : BitVec 6) (rs : BitVec 5) (vt : BitVec 5) (off : BitVec 14) (x : BitVec 1) (u : BitVec 1) : Word :=
  (op ++ rs ++ vt ++ off ++ x ++ u : BitVec (6 + 5 + 5 + 14 + 1 + 1))

/-- VFPU single load and store format (R112). -/
def fVs (op : BitVec 6) (rs : BitVec 5) (vt : BitVec 5) (off : BitVec 14) (u : BitVec 2) : Word :=
  (op ++ rs ++ vt ++ off ++ u : BitVec (6 + 5 + 5 + 14 + 2))

/-- VFPU source prefix format (R113). -/
def fPfx (op : BitVec 6) (sub : BitVec 2) (skip : BitVec 4) (desc : BitVec 20) : Word :=
  (op ++ sub ++ skip ++ desc : BitVec (6 + 2 + 4 + 20))

/-- VFPU destination prefix format (R113). -/
def fPfxD (op : BitVec 6) (sub : BitVec 2) (skip : BitVec 12) (desc : BitVec 12) : Word :=
  (op ++ sub ++ skip ++ desc : BitVec (6 + 2 + 12 + 12))

/-- VFPU immediate format (R113). -/
def fViim (op : BitVec 6) (sub : BitVec 3) (vd : BitVec 7) (imm : BitVec 16) : Word :=
  (op ++ sub ++ vd ++ imm : BitVec (6 + 3 + 7 + 16))

/-- VFPU branch format (R114). -/
def fVbr (op : BitVec 6) (sub : BitVec 5) (imm : BitVec 3) (lt : BitVec 2) (off : BitVec 16) : Word :=
  (op ++ sub ++ imm ++ lt ++ off : BitVec (6 + 5 + 3 + 2 + 16))

/-- The word of an instruction; ignored bits are 0 (log entry 18). -/
def encode : Instr → Word
  | .add rd rs rt => fR 0 (.ofFin rs) (.ofFin rt) (.ofFin rd) 0 32
  | .addu rd rs rt => fR 0 (.ofFin rs) (.ofFin rt) (.ofFin rd) 0 33
  | .addi rt rs imm16 => fI 8 (.ofFin rs) (.ofFin rt) imm16
  | .addiu rt rs imm16 => fI 9 (.ofFin rs) (.ofFin rt) imm16
  | .sub rd rs rt => fR 0 (.ofFin rs) (.ofFin rt) (.ofFin rd) 0 34
  | .subu rd rs rt => fR 0 (.ofFin rs) (.ofFin rt) (.ofFin rd) 0 35
  | .and rd rs rt => fR 0 (.ofFin rs) (.ofFin rt) (.ofFin rd) 0 36
  | .or rd rs rt => fR 0 (.ofFin rs) (.ofFin rt) (.ofFin rd) 0 37
  | .xor rd rs rt => fR 0 (.ofFin rs) (.ofFin rt) (.ofFin rd) 0 38
  | .nor rd rs rt => fR 0 (.ofFin rs) (.ofFin rt) (.ofFin rd) 0 39
  | .andi rt rs imm16 => fI 12 (.ofFin rs) (.ofFin rt) imm16
  | .ori rt rs imm16 => fI 13 (.ofFin rs) (.ofFin rt) imm16
  | .xori rt rs imm16 => fI 14 (.ofFin rs) (.ofFin rt) imm16
  | .lui rt imm16 => fI 15 0 (.ofFin rt) imm16
  | .slt rd rs rt => fR 0 (.ofFin rs) (.ofFin rt) (.ofFin rd) 0 42
  | .sltu rd rs rt => fR 0 (.ofFin rs) (.ofFin rt) (.ofFin rd) 0 43
  | .slti rt rs imm16 => fI 10 (.ofFin rs) (.ofFin rt) imm16
  | .sltiu rt rs imm16 => fI 11 (.ofFin rs) (.ofFin rt) imm16
  | .sll rd rt sa => fR 0 0 (.ofFin rt) (.ofFin rd) (.ofFin sa) 0
  | .srl rd rt sa => fR 0 0 (.ofFin rt) (.ofFin rd) (.ofFin sa) 2
  | .sra rd rt sa => fR 0 0 (.ofFin rt) (.ofFin rd) (.ofFin sa) 3
  | .sllv rd rt rs => fR 0 (.ofFin rs) (.ofFin rt) (.ofFin rd) 0 4
  | .srlv rd rt rs => fR 0 (.ofFin rs) (.ofFin rt) (.ofFin rd) 0 6
  | .srav rd rt rs => fR 0 (.ofFin rs) (.ofFin rt) (.ofFin rd) 0 7
  | .rotr rd rt sa => fR 0 1 (.ofFin rt) (.ofFin rd) (.ofFin sa) 2
  | .rotrv rd rt rs => fR 0 (.ofFin rs) (.ofFin rt) (.ofFin rd) 1 6
  | .ext rt rs lsb msb => fR 31 (.ofFin rs) (.ofFin rt) (.ofFin msb) (.ofFin lsb) 0
  | .ins rt rs lsb msb => fR 31 (.ofFin rs) (.ofFin rt) (.ofFin msb) (.ofFin lsb) 4
  | .clz rd rs => fR 0 (.ofFin rs) 0 (.ofFin rd) 0 22
  | .clo rd rs => fR 0 (.ofFin rs) 0 (.ofFin rd) 0 23
  | .seb rd rt => fR 31 0 (.ofFin rt) (.ofFin rd) 16 32
  | .seh rd rt => fR 31 0 (.ofFin rt) (.ofFin rd) 24 32
  | .wsbh rd rt => fR 31 0 (.ofFin rt) (.ofFin rd) 2 32
  | .wsbw rd rt => fR 31 0 (.ofFin rt) (.ofFin rd) 3 32
  | .bitrev rd rt => fR 31 0 (.ofFin rt) (.ofFin rd) 20 32
  | .movz rd rs rt => fR 0 (.ofFin rs) (.ofFin rt) (.ofFin rd) 0 10
  | .movn rd rs rt => fR 0 (.ofFin rs) (.ofFin rt) (.ofFin rd) 0 11
  | .max rd rs rt => fR 0 (.ofFin rs) (.ofFin rt) (.ofFin rd) 0 44
  | .min rd rs rt => fR 0 (.ofFin rs) (.ofFin rt) (.ofFin rd) 0 45
  | .mult rs rt => fR 0 (.ofFin rs) (.ofFin rt) 0 0 24
  | .multu rs rt => fR 0 (.ofFin rs) (.ofFin rt) 0 0 25
  | .div rs rt => fR 0 (.ofFin rs) (.ofFin rt) 0 0 26
  | .divu rs rt => fR 0 (.ofFin rs) (.ofFin rt) 0 0 27
  | .madd rs rt => fR 0 (.ofFin rs) (.ofFin rt) 0 0 28
  | .maddu rs rt => fR 0 (.ofFin rs) (.ofFin rt) 0 0 29
  | .msub rs rt => fR 0 (.ofFin rs) (.ofFin rt) 0 0 46
  | .msubu rs rt => fR 0 (.ofFin rs) (.ofFin rt) 0 0 47
  | .mfhi rd => fR 0 0 0 (.ofFin rd) 0 16
  | .mflo rd => fR 0 0 0 (.ofFin rd) 0 18
  | .mthi rs => fR 0 (.ofFin rs) 0 0 0 17
  | .mtlo rs => fR 0 (.ofFin rs) 0 0 0 19
  | .lb rt off16 rs => fI 32 (.ofFin rs) (.ofFin rt) off16
  | .lbu rt off16 rs => fI 36 (.ofFin rs) (.ofFin rt) off16
  | .lh rt off16 rs => fI 33 (.ofFin rs) (.ofFin rt) off16
  | .lhu rt off16 rs => fI 37 (.ofFin rs) (.ofFin rt) off16
  | .lw rt off16 rs => fI 35 (.ofFin rs) (.ofFin rt) off16
  | .sb rt off16 rs => fI 40 (.ofFin rs) (.ofFin rt) off16
  | .sh rt off16 rs => fI 41 (.ofFin rs) (.ofFin rt) off16
  | .sw rt off16 rs => fI 43 (.ofFin rs) (.ofFin rt) off16
  | .lwl rt off16 rs => fI 34 (.ofFin rs) (.ofFin rt) off16
  | .lwr rt off16 rs => fI 38 (.ofFin rs) (.ofFin rt) off16
  | .swl rt off16 rs => fI 42 (.ofFin rs) (.ofFin rt) off16
  | .swr rt off16 rs => fI 46 (.ofFin rs) (.ofFin rt) off16
  | .lwc1 ft off16 rs => fI 49 (.ofFin rs) (.ofFin ft) off16
  | .swc1 ft off16 rs => fI 57 (.ofFin rs) (.ofFin ft) off16
  | .ll rt off16 rs => fI 48 (.ofFin rs) (.ofFin rt) off16
  | .sc rt off16 rs => fI 56 (.ofFin rs) (.ofFin rt) off16
  | .beq rs rt off16 => fI 4 (.ofFin rs) (.ofFin rt) off16
  | .bne rs rt off16 => fI 5 (.ofFin rs) (.ofFin rt) off16
  | .blez rs off16 => fI 6 (.ofFin rs) 0 off16
  | .bgtz rs off16 => fI 7 (.ofFin rs) 0 off16
  | .bltz rs off16 => fI 1 (.ofFin rs) 0 off16
  | .bgez rs off16 => fI 1 (.ofFin rs) 1 off16
  | .j imm26 => fJ 2 imm26
  | .jal imm26 => fJ 3 imm26
  | .jr rs => fR 0 (.ofFin rs) 0 0 0 8
  | .jalr rd rs => fR 0 (.ofFin rs) 0 (.ofFin rd) 0 9
  | .bltzal rs off16 => fI 1 (.ofFin rs) 16 off16
  | .bgezal rs off16 => fI 1 (.ofFin rs) 17 off16
  | .bltzall rs off16 => fI 1 (.ofFin rs) 18 off16
  | .bgezall rs off16 => fI 1 (.ofFin rs) 19 off16
  | .beql rs rt off16 => fI 20 (.ofFin rs) (.ofFin rt) off16
  | .bnel rs rt off16 => fI 21 (.ofFin rs) (.ofFin rt) off16
  | .blezl rs off16 => fI 22 (.ofFin rs) 0 off16
  | .bgtzl rs off16 => fI 23 (.ofFin rs) 0 off16
  | .bltzl rs off16 => fI 1 (.ofFin rs) 2 off16
  | .bgezl rs off16 => fI 1 (.ofFin rs) 3 off16
  | .bc1f off16 => fI 17 8 0 off16
  | .bc1t off16 => fI 17 8 1 off16
  | .bc1fl off16 => fI 17 8 2 off16
  | .bc1tl off16 => fI 17 8 3 off16
  | .bvf imm3 off16 => fVbr 18 8 imm3 0 off16
  | .bvt imm3 off16 => fVbr 18 8 imm3 1 off16
  | .bvfl imm3 off16 => fVbr 18 8 imm3 2 off16
  | .bvtl imm3 off16 => fVbr 18 8 imm3 3 off16
  | .addS fd fs ft => fR 17 16 (.ofFin ft) (.ofFin fs) (.ofFin fd) 0
  | .subS fd fs ft => fR 17 16 (.ofFin ft) (.ofFin fs) (.ofFin fd) 1
  | .mulS fd fs ft => fR 17 16 (.ofFin ft) (.ofFin fs) (.ofFin fd) 2
  | .divS fd fs ft => fR 17 16 (.ofFin ft) (.ofFin fs) (.ofFin fd) 3
  | .sqrtS fd fs => fR 17 16 0 (.ofFin fs) (.ofFin fd) 4
  | .absS fd fs => fR 17 16 0 (.ofFin fs) (.ofFin fd) 5
  | .movS fd fs => fR 17 16 0 (.ofFin fs) (.ofFin fd) 6
  | .negS fd fs => fR 17 16 0 (.ofFin fs) (.ofFin fd) 7
  | .cvtWS fd fs => fR 17 16 0 (.ofFin fs) (.ofFin fd) 36
  | .roundWS fd fs => fR 17 16 0 (.ofFin fs) (.ofFin fd) 12
  | .truncWS fd fs => fR 17 16 0 (.ofFin fs) (.ofFin fd) 13
  | .ceilWS fd fs => fR 17 16 0 (.ofFin fs) (.ofFin fd) 14
  | .floorWS fd fs => fR 17 16 0 (.ofFin fs) (.ofFin fd) 15
  | .cvtSW fd fs => fR 17 20 0 (.ofFin fs) (.ofFin fd) 32
  | .cFS fs ft => fR 17 16 (.ofFin ft) (.ofFin fs) 0 48
  | .cUnS fs ft => fR 17 16 (.ofFin ft) (.ofFin fs) 0 49
  | .cEqS fs ft => fR 17 16 (.ofFin ft) (.ofFin fs) 0 50
  | .cUeqS fs ft => fR 17 16 (.ofFin ft) (.ofFin fs) 0 51
  | .cOltS fs ft => fR 17 16 (.ofFin ft) (.ofFin fs) 0 52
  | .cUltS fs ft => fR 17 16 (.ofFin ft) (.ofFin fs) 0 53
  | .cOleS fs ft => fR 17 16 (.ofFin ft) (.ofFin fs) 0 54
  | .cUleS fs ft => fR 17 16 (.ofFin ft) (.ofFin fs) 0 55
  | .cSfS fs ft => fR 17 16 (.ofFin ft) (.ofFin fs) 0 56
  | .cNgleS fs ft => fR 17 16 (.ofFin ft) (.ofFin fs) 0 57
  | .cSeqS fs ft => fR 17 16 (.ofFin ft) (.ofFin fs) 0 58
  | .cNglS fs ft => fR 17 16 (.ofFin ft) (.ofFin fs) 0 59
  | .cLtS fs ft => fR 17 16 (.ofFin ft) (.ofFin fs) 0 60
  | .cNgeS fs ft => fR 17 16 (.ofFin ft) (.ofFin fs) 0 61
  | .cLeS fs ft => fR 17 16 (.ofFin ft) (.ofFin fs) 0 62
  | .cNgtS fs ft => fR 17 16 (.ofFin ft) (.ofFin fs) 0 63
  | .ctc1 rt cr => fR 17 6 (.ofFin rt) (.ofFin cr) 0 0
  | .cfc1 rt cr => fR 17 2 (.ofFin rt) (.ofFin cr) 0 0
  | .mfc1 rt fs => fR 17 0 (.ofFin rt) (.ofFin fs) 0 0
  | .mtc1 rt fs => fR 17 4 (.ofFin rt) (.ofFin fs) 0 0
  | .vpfxs imm20 => fPfx 55 0 0 imm20
  | .vpfxt imm20 => fPfx 55 1 0 imm20
  | .vpfxd imm12 => fPfxD 55 2 0 imm12
  | .lvQ vt6 off14 rs => fVq 54 (.ofFin rs) (vt6.extractLsb' 0 5) off14 0 (vt6.extractLsb' 5 1)
  | .svQ vt6 off14 rs => fVq 62 (.ofFin rs) (vt6.extractLsb' 0 5) off14 0 (vt6.extractLsb' 5 1)
  | .lvlQ vt6 off14 rs => fVq 53 (.ofFin rs) (vt6.extractLsb' 0 5) off14 0 (vt6.extractLsb' 5 1)
  | .lvrQ vt6 off14 rs => fVq 53 (.ofFin rs) (vt6.extractLsb' 0 5) off14 1 (vt6.extractLsb' 5 1)
  | .svlQ vt6 off14 rs => fVq 61 (.ofFin rs) (vt6.extractLsb' 0 5) off14 0 (vt6.extractLsb' 5 1)
  | .svrQ vt6 off14 rs => fVq 61 (.ofFin rs) (vt6.extractLsb' 0 5) off14 1 (vt6.extractLsb' 5 1)
  | .lvS vt off14 rs => fVs 50 (.ofFin rs) (vt.extractLsb' 0 5) off14 (vt.extractLsb' 5 2)
  | .svS vt off14 rs => fVs 58 (.ofFin rs) (vt.extractLsb' 0 5) off14 (vt.extractLsb' 5 2)
  | .vmzero sz vd => fV 60 7 6 sz.two 0 sz.one vd
  | .vmone sz vd => fV 60 7 7 sz.two 0 sz.one vd
  | .vmidt sz vd => fV 60 7 3 sz.two 0 sz.one vd
  | .vmmov sz vd vs => fV 60 7 0 sz.two vs sz.one vd
  | .vmmul sz vd vs vt => fV 60 0 vt sz.two vs sz.one vd
  | .vrot sz vd vs imm5 => fVimm5 60 29 imm5 sz.two vs sz.one vd
  | .vt4444Q sz vd vs => fV 52 0 89 sz.two vs sz.one vd
  | .vt5551Q sz vd vs => fV 52 0 90 sz.two vs sz.one vd
  | .vt5650Q sz vd vs => fV 52 0 91 sz.two vs sz.one vd
  | .vadd sz vd vs vt => fV 24 0 vt sz.two vs sz.one vd
  | .vsub sz vd vs vt => fV 24 1 vt sz.two vs sz.one vd
  | .vmul sz vd vs vt => fV 25 0 vt sz.two vs sz.one vd
  | .vdiv sz vd vs vt => fV 24 7 vt sz.two vs sz.one vd
  | .vmov sz vd vs => fV 52 0 0 sz.two vs sz.one vd
  | .vabs sz vd vs => fV 52 0 1 sz.two vs sz.one vd
  | .vneg sz vd vs => fV 52 0 2 sz.two vs sz.one vd
  | .vzero sz vd => fV 52 0 6 sz.two 0 sz.one vd
  | .vone sz vd => fV 52 0 7 sz.two 0 sz.one vd
  | .vscl sz vd vs vt => fV 25 2 vt sz.two vs sz.one vd
  | .vdot sz vd vs vt => fV 25 1 vt sz.two vs sz.one vd
  | .viimS vt imm16 => fViim 55 6 vt imm16
  | .mtv rt vd => fVimm5 18 7 (.ofFin rt) 0 0 0 vd
  | .mfv rt vd => fVimm5 18 3 (.ofFin rt) 0 0 0 vd
  | .vnop => fI 63 31 31 0
  | .vsync => fI 63 31 31 800
  | .vflush => fI 63 31 31 1037
  | .vsin sz vd vs => fV 52 0 18 sz.two vs sz.one vd
  | .vcos sz vd vs => fV 52 0 19 sz.two vs sz.one vd
  | .vsqrt sz vd vs => fV 52 0 22 sz.two vs sz.one vd
  | .vtfm2 vd vs vt => fV 60 1 vt 0 vs 1 vd
  | .vtfm3 vd vs vt => fV 60 2 vt 1 vs 0 vd
  | .vtfm4 vd vs vt => fV 60 3 vt 1 vs 1 vd
  | .vcrsT vd vs vt => fV 25 5 vt 1 vs 0 vd
  | .vsrt1 sz vd vs => fV 52 0 64 sz.two vs sz.one vd
  | .vsrt2 sz vd vs => fV 52 0 65 sz.two vs sz.one vd
  | .vsrt3 sz vd vs => fV 52 0 72 sz.two vs sz.one vd
  | .vsrt4 sz vd vs => fV 52 0 73 sz.two vs sz.one vd
  | .vhtfm2 vd vs vt => fV 60 1 vt 0 vs 0 vd
  | .vhtfm3 vd vs vt => fV 60 2 vt 0 vs 1 vd
  | .vhtfm4 vd vs vt => fV 60 3 vt 1 vs 0 vd
  | .vsbn sz vd vs vt => fV 24 2 vt sz.two vs sz.one vd
  | .vhdp sz vd vs vt => fV 25 4 vt sz.two vs sz.one vd
  | .vdet sz vd vs vt => fV 25 6 vt sz.two vs sz.one vd
  | .vcmp sz imm4 vs vt => fVcmp 27 0 vt sz.two vs sz.one 0 imm4
  | .vmin sz vd vs vt => fV 27 2 vt sz.two vs sz.one vd
  | .vmax sz vd vs vt => fV 27 3 vt sz.two vs sz.one vd
  | .vscmp sz vd vs vt => fV 27 5 vt sz.two vs sz.one vd
  | .vsge sz vd vs vt => fV 27 6 vt sz.two vs sz.one vd
  | .vslt sz vd vs vt => fV 27 7 vt sz.two vs sz.one vd
  | .vidt sz vd => fV 52 0 3 sz.two 0 sz.one vd
  | .vsat0 sz vd vs => fV 52 0 4 sz.two vs sz.one vd
  | .vsat1 sz vd vs => fV 52 0 5 sz.two vs sz.one vd
  | .vrcp sz vd vs => fV 52 0 16 sz.two vs sz.one vd
  | .vrsq sz vd vs => fV 52 0 17 sz.two vs sz.one vd
  | .vexp2 sz vd vs => fV 52 0 20 sz.two vs sz.one vd
  | .vlog2 sz vd vs => fV 52 0 21 sz.two vs sz.one vd
  | .vasin sz vd vs => fV 52 0 23 sz.two vs sz.one vd
  | .vnrcp sz vd vs => fV 52 0 24 sz.two vs sz.one vd
  | .vnsin sz vd vs => fV 52 0 26 sz.two vs sz.one vd
  | .vrexp2 sz vd vs => fV 52 0 28 sz.two vs sz.one vd
  | .vrnds sz vs => fV 52 0 32 sz.two vs sz.one 0
  | .vrndi sz vd => fV 52 0 33 sz.two 0 sz.one vd
  | .vrndf1 sz vd => fV 52 0 34 sz.two 0 sz.one vd
  | .vrndf2 sz vd => fV 52 0 35 sz.two 0 sz.one vd
  | .vf2h sz vd vs => fV 52 0 50 sz.two vs sz.one vd
  | .vh2f sz vd vs => fV 52 0 51 sz.two vs sz.one vd
  | .vsbz sz vd vs => fV 52 0 54 sz.two vs sz.one vd
  | .vlgb sz vd vs => fV 52 0 55 sz.two vs sz.one vd
  | .vuc2i sz vd vs => fV 52 0 56 sz.two vs sz.one vd
  | .vc2i sz vd vs => fV 52 0 57 sz.two vs sz.one vd
  | .vus2i sz vd vs => fV 52 0 58 sz.two vs sz.one vd
  | .vs2i sz vd vs => fV 52 0 59 sz.two vs sz.one vd
  | .vi2uc sz vd vs => fV 52 0 60 sz.two vs sz.one vd
  | .vi2c sz vd vs => fV 52 0 61 sz.two vs sz.one vd
  | .vi2us sz vd vs => fV 52 0 62 sz.two vs sz.one vd
  | .vi2s sz vd vs => fV 52 0 63 sz.two vs sz.one vd
  | .vbfy1 sz vd vs => fV 52 0 66 sz.two vs sz.one vd
  | .vbfy2 sz vd vs => fV 52 0 67 sz.two vs sz.one vd
  | .vocp sz vd vs => fV 52 0 68 sz.two vs sz.one vd
  | .vsocp sz vd vs => fV 52 0 69 sz.two vs sz.one vd
  | .vfad sz vd vs => fV 52 0 70 sz.two vs sz.one vd
  | .vavg sz vd vs => fV 52 0 71 sz.two vs sz.one vd
  | .vsgn sz vd vs => fV 52 0 74 sz.two vs sz.one vd
  | .vmfvc vd imm7 => fV 52 0 80 1 imm7 0 vd
  | .vmtvc imm7 vs => fV 52 0 81 0 vs 1 imm7
  | .vcst sz vd imm5 => fVimm5 52 3 imm5 sz.two 0 sz.one vd
  | .vf2in sz vd vs imm5 => fVimm5 52 16 imm5 sz.two vs sz.one vd
  | .vf2iz sz vd vs imm5 => fVimm5 52 17 imm5 sz.two vs sz.one vd
  | .vf2iu sz vd vs imm5 => fVimm5 52 18 imm5 sz.two vs sz.one vd
  | .vf2id sz vd vs imm5 => fVimm5 52 19 imm5 sz.two vs sz.one vd
  | .vi2f sz vd vs imm5 => fVimm5 52 20 imm5 sz.two vs sz.one vd
  | .vcmovt sz vd vs imm3 => fVimm3 52 84 imm3 sz.two vs sz.one vd
  | .vcmovf sz vd vs imm3 => fVimm3 52 85 imm3 sz.two vs sz.one vd
  | .vwbn sz vd vs imm8 => fVimm8 52 3 imm8 sz.two vs sz.one vd
  | .vmscl sz vd vs vt => fV 60 4 vt sz.two vs sz.one vd
  | .vcrspT vd vs vt => fV 60 5 vt 1 vs 0 vd
  | .vqmulQ vd vs vt => fV 60 5 vt 1 vs 1 vd
  | .vfimS vt imm16 => fViim 55 7 vt imm16
  | .mfvc rt vd => fVimm5 18 3 (.ofFin rt) 0 0 1 vd
  | .mtvc rt vd => fVimm5 18 7 (.ofFin rt) 0 0 1 vd
  | .syscall code20 => fCode 0 code20 12
  | .brk code20 => fCode 0 code20 13
  | .sync => fR 0 0 0 0 0 15
  | .cache off16 rs => fI 47 (.ofFin rs) 0 off16
  | .mfic rt => fR 28 (.ofFin rt) 0 0 0 36
  | .mtic rt => fR 28 (.ofFin rt) 0 0 0 38
  | .mfc0 => fR 16 0 0 0 0 0
  | .mtc0 => fR 16 4 0 0 0 0
  | .cfc0 => fR 16 2 0 0 0 0
  | .ctc0 => fR 16 6 0 0 0 0
  | .eret => fR 16 16 0 0 0 24
  | .halt => fR 28 0 0 0 0 0
  | .dret => fR 28 0 0 0 0 62
  | .dbreak => fR 28 0 0 0 0 63
  | .mfdr => fR 28 0 0 0 0 61
  | .mtdr => fR 28 4 0 0 0 61

/-- The row of an instruction. -/
def Instr.row : Instr → Row
  | .add .. => rowAdd
  | .addu .. => rowAddu
  | .addi .. => rowAddi
  | .addiu .. => rowAddiu
  | .sub .. => rowSub
  | .subu .. => rowSubu
  | .and .. => rowAnd
  | .or .. => rowOr
  | .xor .. => rowXor
  | .nor .. => rowNor
  | .andi .. => rowAndi
  | .ori .. => rowOri
  | .xori .. => rowXori
  | .lui .. => rowLui
  | .slt .. => rowSlt
  | .sltu .. => rowSltu
  | .slti .. => rowSlti
  | .sltiu .. => rowSltiu
  | .sll .. => rowSll
  | .srl .. => rowSrl
  | .sra .. => rowSra
  | .sllv .. => rowSllv
  | .srlv .. => rowSrlv
  | .srav .. => rowSrav
  | .rotr .. => rowRotr
  | .rotrv .. => rowRotrv
  | .ext .. => rowExt
  | .ins .. => rowIns
  | .clz .. => rowClz
  | .clo .. => rowClo
  | .seb .. => rowSeb
  | .seh .. => rowSeh
  | .wsbh .. => rowWsbh
  | .wsbw .. => rowWsbw
  | .bitrev .. => rowBitrev
  | .movz .. => rowMovz
  | .movn .. => rowMovn
  | .max .. => rowMax
  | .min .. => rowMin
  | .mult .. => rowMult
  | .multu .. => rowMultu
  | .div .. => rowDiv
  | .divu .. => rowDivu
  | .madd .. => rowMadd
  | .maddu .. => rowMaddu
  | .msub .. => rowMsub
  | .msubu .. => rowMsubu
  | .mfhi .. => rowMfhi
  | .mflo .. => rowMflo
  | .mthi .. => rowMthi
  | .mtlo .. => rowMtlo
  | .lb .. => rowLb
  | .lbu .. => rowLbu
  | .lh .. => rowLh
  | .lhu .. => rowLhu
  | .lw .. => rowLw
  | .sb .. => rowSb
  | .sh .. => rowSh
  | .sw .. => rowSw
  | .lwl .. => rowLwl
  | .lwr .. => rowLwr
  | .swl .. => rowSwl
  | .swr .. => rowSwr
  | .lwc1 .. => rowLwc1
  | .swc1 .. => rowSwc1
  | .ll .. => rowLl
  | .sc .. => rowSc
  | .beq .. => rowBeq
  | .bne .. => rowBne
  | .blez .. => rowBlez
  | .bgtz .. => rowBgtz
  | .bltz .. => rowBltz
  | .bgez .. => rowBgez
  | .j .. => rowJ
  | .jal .. => rowJal
  | .jr .. => rowJr
  | .jalr .. => rowJalr
  | .bltzal .. => rowBltzal
  | .bgezal .. => rowBgezal
  | .bltzall .. => rowBltzall
  | .bgezall .. => rowBgezall
  | .beql .. => rowBeql
  | .bnel .. => rowBnel
  | .blezl .. => rowBlezl
  | .bgtzl .. => rowBgtzl
  | .bltzl .. => rowBltzl
  | .bgezl .. => rowBgezl
  | .bc1f .. => rowBc1f
  | .bc1t .. => rowBc1t
  | .bc1fl .. => rowBc1fl
  | .bc1tl .. => rowBc1tl
  | .bvf .. => rowBvf
  | .bvt .. => rowBvt
  | .bvfl .. => rowBvfl
  | .bvtl .. => rowBvtl
  | .addS .. => rowAddS
  | .subS .. => rowSubS
  | .mulS .. => rowMulS
  | .divS .. => rowDivS
  | .sqrtS .. => rowSqrtS
  | .absS .. => rowAbsS
  | .movS .. => rowMovS
  | .negS .. => rowNegS
  | .cvtWS .. => rowCvtWS
  | .roundWS .. => rowRoundWS
  | .truncWS .. => rowTruncWS
  | .ceilWS .. => rowCeilWS
  | .floorWS .. => rowFloorWS
  | .cvtSW .. => rowCvtSW
  | .cFS .. => rowCFS
  | .cUnS .. => rowCUnS
  | .cEqS .. => rowCEqS
  | .cUeqS .. => rowCUeqS
  | .cOltS .. => rowCOltS
  | .cUltS .. => rowCUltS
  | .cOleS .. => rowCOleS
  | .cUleS .. => rowCUleS
  | .cSfS .. => rowCSfS
  | .cNgleS .. => rowCNgleS
  | .cSeqS .. => rowCSeqS
  | .cNglS .. => rowCNglS
  | .cLtS .. => rowCLtS
  | .cNgeS .. => rowCNgeS
  | .cLeS .. => rowCLeS
  | .cNgtS .. => rowCNgtS
  | .ctc1 .. => rowCtc1
  | .cfc1 .. => rowCfc1
  | .mfc1 .. => rowMfc1
  | .mtc1 .. => rowMtc1
  | .vpfxs .. => rowVpfxs
  | .vpfxt .. => rowVpfxt
  | .vpfxd .. => rowVpfxd
  | .lvQ .. => rowLvQ
  | .svQ .. => rowSvQ
  | .lvlQ .. => rowLvlQ
  | .lvrQ .. => rowLvrQ
  | .svlQ .. => rowSvlQ
  | .svrQ .. => rowSvrQ
  | .lvS .. => rowLvS
  | .svS .. => rowSvS
  | .vmzero .. => rowVmzero
  | .vmone .. => rowVmone
  | .vmidt .. => rowVmidt
  | .vmmov .. => rowVmmov
  | .vmmul .. => rowVmmul
  | .vrot .. => rowVrot
  | .vt4444Q .. => rowVt4444Q
  | .vt5551Q .. => rowVt5551Q
  | .vt5650Q .. => rowVt5650Q
  | .vadd .. => rowVadd
  | .vsub .. => rowVsub
  | .vmul .. => rowVmul
  | .vdiv .. => rowVdiv
  | .vmov .. => rowVmov
  | .vabs .. => rowVabs
  | .vneg .. => rowVneg
  | .vzero .. => rowVzero
  | .vone .. => rowVone
  | .vscl .. => rowVscl
  | .vdot .. => rowVdot
  | .viimS .. => rowViimS
  | .mtv .. => rowMtv
  | .mfv .. => rowMfv
  | .vnop => rowVnop
  | .vsync => rowVsync
  | .vflush => rowVflush
  | .vsin .. => rowVsin
  | .vcos .. => rowVcos
  | .vsqrt .. => rowVsqrt
  | .vtfm2 .. => rowVtfm2
  | .vtfm3 .. => rowVtfm3
  | .vtfm4 .. => rowVtfm4
  | .vcrsT .. => rowVcrsT
  | .vsrt1 .. => rowVsrt1
  | .vsrt2 .. => rowVsrt2
  | .vsrt3 .. => rowVsrt3
  | .vsrt4 .. => rowVsrt4
  | .vhtfm2 .. => rowVhtfm2
  | .vhtfm3 .. => rowVhtfm3
  | .vhtfm4 .. => rowVhtfm4
  | .vsbn .. => rowVsbn
  | .vhdp .. => rowVhdp
  | .vdet .. => rowVdet
  | .vcmp .. => rowVcmp
  | .vmin .. => rowVmin
  | .vmax .. => rowVmax
  | .vscmp .. => rowVscmp
  | .vsge .. => rowVsge
  | .vslt .. => rowVslt
  | .vidt .. => rowVidt
  | .vsat0 .. => rowVsat0
  | .vsat1 .. => rowVsat1
  | .vrcp .. => rowVrcp
  | .vrsq .. => rowVrsq
  | .vexp2 .. => rowVexp2
  | .vlog2 .. => rowVlog2
  | .vasin .. => rowVasin
  | .vnrcp .. => rowVnrcp
  | .vnsin .. => rowVnsin
  | .vrexp2 .. => rowVrexp2
  | .vrnds .. => rowVrnds
  | .vrndi .. => rowVrndi
  | .vrndf1 .. => rowVrndf1
  | .vrndf2 .. => rowVrndf2
  | .vf2h .. => rowVf2h
  | .vh2f .. => rowVh2f
  | .vsbz .. => rowVsbz
  | .vlgb .. => rowVlgb
  | .vuc2i .. => rowVuc2i
  | .vc2i .. => rowVc2i
  | .vus2i .. => rowVus2i
  | .vs2i .. => rowVs2i
  | .vi2uc .. => rowVi2uc
  | .vi2c .. => rowVi2c
  | .vi2us .. => rowVi2us
  | .vi2s .. => rowVi2s
  | .vbfy1 .. => rowVbfy1
  | .vbfy2 .. => rowVbfy2
  | .vocp .. => rowVocp
  | .vsocp .. => rowVsocp
  | .vfad .. => rowVfad
  | .vavg .. => rowVavg
  | .vsgn .. => rowVsgn
  | .vmfvc .. => rowVmfvc
  | .vmtvc .. => rowVmtvc
  | .vcst .. => rowVcst
  | .vf2in .. => rowVf2in
  | .vf2iz .. => rowVf2iz
  | .vf2iu .. => rowVf2iu
  | .vf2id .. => rowVf2id
  | .vi2f .. => rowVi2f
  | .vcmovt .. => rowVcmovt
  | .vcmovf .. => rowVcmovf
  | .vwbn .. => rowVwbn
  | .vmscl .. => rowVmscl
  | .vcrspT .. => rowVcrspT
  | .vqmulQ .. => rowVqmulQ
  | .vfimS .. => rowVfimS
  | .mfvc .. => rowMfvc
  | .mtvc .. => rowMtvc
  | .syscall .. => rowSyscall
  | .brk .. => rowBrk
  | .sync => rowSync
  | .cache .. => rowCache
  | .mfic .. => rowMfic
  | .mtic .. => rowMtic
  | .mfc0 => rowMfc0
  | .mtc0 => rowMtc0
  | .cfc0 => rowCfc0
  | .ctc0 => rowCtc0
  | .eret => rowEret
  | .halt => rowHalt
  | .dret => rowDret
  | .dbreak => rowDbreak
  | .mfdr => rowMfdr
  | .mtdr => rowMtdr

end Sys2Proof
end

