-- ==== Sys2Proof/Config.lean ====
section
/-! DEFINITION. The open parameters of spec/00_scope.md R7 and spec/92_eei_decisions.md section 2.
Those that are plain data form `Config`, which State holds, so that every statement about every state
holds for every value of them (log entry 1). The values no rule gives are opaque constants without a
body: nothing can be proved of them (log entries 7 to 10). -/
namespace Sys2Proof

/-- The `kind` of a memory access (spec/20_memory.md R73). -/
inductive AccessKind where
  | fetch
  | load
  | store
  deriving DecidableEq, Repr

/-- One admitted range of `MEM_ADMIT` (R73): masked addresses from `lo` to `hi`, of one size or of
every size, of one kind or of every kind. A list of these can give any predicate over address, size and
kind (log entry 3). -/
structure AdmitRange where
  lo   : Word
  hi   : Word
  size : Option Nat
  kind : Option AccessKind
  deriving DecidableEq, Repr

/-- A range of words, both ends included. -/
structure WordRange where
  lo : Word
  hi : Word
  deriving DecidableEq, Repr

/-- `EXT_INS_SIZE_CODING`: the two readings of the size field of `ext` and `ins` (R108). -/
inductive SizeCoding where
  | asSource
  | asMIPS32R2
  deriving DecidableEq, Repr

/-- The five arithmetic operations of the record `FLOAT` (spec/44_fpu.md R301). -/
inductive FloatOp where
  | add
  | sub
  | mul
  | div
  | sqrt
  deriving DecidableEq, Repr

/-- One lane of `VREG` (R362): lane `lane` of the vector group of this selector and size is `slot`. -/
structure VregLane where
  sel  : Sel
  size : VSize
  lane : Nat
  slot : Slot
  deriving DecidableEq, Repr

/-- One matrix entry of `VREG` (R363): `e[col][row]` of the matrix of this selector and side is `slot`. -/
structure VregEntry where
  sel  : Sel
  size : VSize
  col  : Nat
  row  : Nat
  slot : Slot
  deriving DecidableEq, Repr

/-- The parameters of R7 that are plain data. No step changes any of them. -/
structure Config where
  /-- `ADDR_MASK` (R72). -/
  addrMask : Word
  /-- `MEM_ADMIT` (R73). -/
  memAdmit : List AdmitRange
  /-- `FPR_ALIAS` (R33): the slot of each scalar float register, or none where it is a register of its own. -/
  fprAlias : Vector (Option Slot) 32
  /-- `FCR0_VALUE` (R40). -/
  fcr0 : Word
  /-- `FCR25_VALUE` (R41). -/
  fcr25 : Word
  /-- `FCR26_VALUE` (R41). -/
  fcr26 : Word
  /-- `FCR27_VALUE` (R41). -/
  fcr27 : Word
  /-- `FCR28_VALUE` (R41). -/
  fcr28 : Word
  /-- `FCR31_RM` (R37): the low bit of the two-bit rounding field. -/
  rmLow : Fin 31
  /-- `FCR31_CC` (R37). -/
  ccBit : Fin 32
  /-- `FCR31_FS` (R37). -/
  fsBit : Fin 32
  /-- `FCR31_NAN_MASK` (R38). -/
  nanMask : Word
  /-- `FCR31_INF_MASK` (R38). -/
  infMask : Word
  /-- `FCR31_WMASK` (R347). -/
  wmask : Word
  /-- `FCR31_RESET` (R39). -/
  fcr31Reset : Word
  /-- `MUL_S_FLUSH` (R312): the product words that count as near zero (log entry 6). -/
  mulFlush : List WordRange
  /-- `EXT_INS_SIZE_CODING` (R108). -/
  sizeCoding : SizeCoding
  /-- `VREG` for vectors (R362): the lanes whose slot the parameter gives; a lane it does not list has the slot of
  the suggested formula, so that such lists give every slot function (log entry 30). -/
  vregLanes : List VregLane
  /-- `VREG` for matrices (R363), likewise. -/
  vregEntries : List VregEntry
  /-- `VPFX_CONST(0, k)` (R372). -/
  vpfxConst : Vector Word 4
  /-- `VPFX_CONST(1, k)` (R372). -/
  vpfxConstAbs : Vector Word 4
  /-- `ADMIT_TIER_K` (R6). -/
  admitTierK : Bool
  deriving DecidableEq, Repr

/-- FREE VALUE (log entry 8): a word that decides which NaN an operation of `FLOAT` produces from its
operands (R301: "*which* NaN (sign and payload) is not fixed by the source"); for `sqrt` the second
operand is zero. -/
opaque Config.nanResult : FloatOp → Word → Word → Word

/-- FREE VALUE (log entry 7): `CVT_INVALID(w, mode)`, the word a conversion to integer gives for a NaN,
an infinity or an out-of-range input (R321). -/
opaque Config.cvtInvalid : Word → BitVec 2 → Word

/-- FREE VALUE (log entries 9, 10): the candidate for `VSIN(x)` (R420, decision D23). -/
opaque Config.sineFree : Word → Word

/-- FREE VALUE (log entries 9, 10): the candidate for `VCOS(x)` (R420, decision D23). -/
opaque Config.cosineFree : Word → Word

/-- The suggested parameter values of R7, as spec/95_test_vectors.md uses them: every address admitted,
`asMIPS32R2` (PRESUMED and DESIGN CHOICE, log entries 2 to 6 and 30). Only `State.reset` holds them. -/
def Config.suggested : Config where
  addrMask := 0x0FFFFFFF#32
  memAdmit := [⟨0#32, 0xFFFFFFFF#32, none, none⟩]
  fprAlias := Vector.replicate 32 none
  fcr0 := 0x00003351#32
  fcr25 := 0#32
  fcr26 := 0#32
  fcr27 := 0#32
  fcr28 := 0#32
  rmLow := 0
  ccBit := 23
  fsBit := 24
  nanMask := 0x00010040#32
  infMask := 0x00005014#32
  wmask := 0x0183FFFF#32
  fcr31Reset := 0x00000E00#32
  mulFlush := [⟨0x00000000#32, 0x1FEC1E4A#32⟩, ⟨0x80000000#32, 0x9FEC1E4A#32⟩]
  sizeCoding := .asMIPS32R2
  vregLanes := []
  vregEntries := []
  vpfxConst := #v[0x00000000#32, 0x3F800000#32, 0x40000000#32, 0x3F000000#32]
  vpfxConstAbs := #v[0x40400000#32, 0x3EAAAAAB#32, 0x3E800000#32, 0x3E2AAAAB#32]
  admitTierK := true

end Sys2Proof
end

