-- ==== Sys2Proof/Machine/Float.lean ====
section
/-! DEFINITION. The record `FLOAT` (spec/44_fpu.md R301, spec/45_vfpu_regs_prefix.md R380): IEEE 754
binary32 on words, exact in integers and rounded once, to nearest, ties to even. Every finite value is an
integer times 2^-149; "units" below are units of 2^-149. Nothing here reads or writes the state. -/
namespace Sys2Proof.Machine

/-! ### Classes and values (R10) -/

/-- The exponent field. -/
def f32Exp (w : Word) : Nat := (w.extractLsb' 23 8).toNat

/-- The fraction field. -/
def f32Frac (w : Word) : Nat := (w.extractLsb' 0 23).toNat

/-- The sign bit. -/
def f32Neg (w : Word) : Bool := w.getLsbD 31

/-- `isNaN` (R10). -/
def isNaN (w : Word) : Bool := f32Exp w == 255 && f32Frac w != 0

/-- `isInf` (R10). -/
def isInf (w : Word) : Bool := f32Exp w == 255 && f32Frac w == 0

/-- Plus or minus zero. -/
def isZero (w : Word) : Bool := f32Exp w == 0 && f32Frac w == 0

/-- The magnitude of a finite word, in units. -/
def f32Mag (w : Word) : Nat :=
  if f32Exp w = 0 then f32Frac w else (2 ^ 23 + f32Frac w) * 2 ^ (f32Exp w - 1)

/-- The value of a finite word, in units. -/
def f32Scaled (w : Word) : Int := if f32Neg w then -(f32Mag w : Int) else (f32Mag w : Int)

/-- The number of units in 1.0. -/
def f32One : Nat := 2 ^ 149

/-- `w & 0x7FFFFFFF` (R315). -/
def f32Abs (w : Word) : Word := w &&& 0x7FFFFFFF#32

/-- `w ^ 0x80000000` (R317). -/
def f32Flip (w : Word) : Word := w ^^^ 0x80000000#32

/-- The sign bit as a word. -/
def signWord (neg : Bool) : Word := if neg then 0x80000000#32 else 0#32

/-- A signed infinity. -/
def infWord (neg : Bool) : Word := signWord neg ||| 0x7F800000#32

/-! ### Rounding -/

/-- The integer nearest to `n / d`, ties to even. -/
def roundDiv (n d : Nat) : Nat :=
  if 2 * (n % d) < d then n / d
  else if d < 2 * (n % d) then n / d + 1
  else n / d + n / d % 2

/-- How many low bits of a magnitude of `q` units a binary32 word cannot hold. -/
def excessBits (q : Nat) : Nat := if q < 2 ^ 24 then 0 else Nat.log2 q - 23

/-- The non-negative word nearest to `n / d` units, ties to even; infinity from the overflow threshold on
(R301). -/
def roundMag (n d : Nat) : Word :=
  if 0x7F800000 ≤ excessBits (n / d) * 2 ^ 23 + roundDiv n (d * 2 ^ excessBits (n / d)) then 0x7F800000#32
  else BitVec.ofNat 32 (excessBits (n / d) * 2 ^ 23 + roundDiv n (d * 2 ^ excessBits (n / d)))

/-- A word made a NaN: exponent all ones, fraction not zero. -/
def asNaN (w : Word) : Word :=
  if isNaN (w ||| 0x7F800000#32) then w ||| 0x7F800000#32 else w ||| 0x7FC00000#32

/-- The NaN an operation produces; which one is free (R301, log entry 8). -/
def nanOf (op : FloatOp) (a b : Word) : Word := asNaN (Config.nanResult op a b)

/-! ### Arithmetic (R301) -/

/-- The finite sum of `z` units; an exact zero is `+0.0`, or `-0.0` where both addends are negative
(log entry 28). -/
def sumWord (z : Int) (bothNeg : Bool) : Word :=
  if z = 0 then signWord bothNeg else signWord (decide (z < 0)) ||| roundMag z.natAbs 1

/-- The sum of `a` and `b`; `nan` is the word where it is a NaN. -/
def addWith (nan a b : Word) : Word :=
  if isNaN a || isNaN b then nan
  else if isInf a then (if isInf b && f32Neg a != f32Neg b then nan else a)
  else if isInf b then b
  else sumWord (f32Scaled a + f32Scaled b) (f32Neg a && f32Neg b)

/-- `fadd` (R301). -/
def fadd (a b : Word) : Word := addWith (nanOf .add a b) a b

/-- `fsub` (R301): the sum with the sign of the second operand flipped. -/
def fsub (a b : Word) : Word := addWith (nanOf .sub a b) a (f32Flip b)

/-- `fmul` (R301). -/
def fmul (a b : Word) : Word :=
  if isNaN a || isNaN b then nanOf .mul a b
  else if isInf a || isInf b then
    (if isZero a || isZero b then nanOf .mul a b else infWord (f32Neg a != f32Neg b))
  else signWord (f32Neg a != f32Neg b) ||| roundMag (f32Mag a * f32Mag b) f32One

/-- `fdiv` (R301). -/
def fdiv (a b : Word) : Word :=
  if isNaN a || isNaN b then nanOf .div a b
  else if isInf a then (if isInf b then nanOf .div a b else infWord (f32Neg a != f32Neg b))
  else if isInf b then signWord (f32Neg a != f32Neg b)
  else if isZero b then (if isZero a then nanOf .div a b else infWord (f32Neg a != f32Neg b))
  else signWord (f32Neg a != f32Neg b) ||| roundMag (f32Mag a * f32One) (f32Mag b)

/-- The integer square root, bit by bit from bit `k - 1` down, above the root `r` found so far. -/
def isqrtFrom (n : Nat) : Nat → Nat → Nat
  | 0, r => r
  | k + 1, r => if (r + 2 ^ k) * (r + 2 ^ k) ≤ n then isqrtFrom n k (r + 2 ^ k) else isqrtFrom n k r

/-- The integer square root of a number below 2^428. -/
def isqrt (n : Nat) : Nat := isqrtFrom n 214 0

/-- The square root of `n` as half units, the remainder folded into the lowest place. -/
def sqrtHalves (n : Nat) : Nat :=
  2 * isqrt n + (if isqrt n * isqrt n = n then 0 else 1)

/-- `fsqrt` (R301). -/
def fsqrt (a : Word) : Word :=
  if isNaN a then nanOf .sqrt a 0#32
  else if isZero a then a
  else if f32Neg a then nanOf .sqrt a 0#32
  else if isInf a then a
  else roundMag (sqrtHalves (f32Mag a * f32One)) 2

/-! ### Comparison (R330) -/

/-- An integer that orders the words that are no NaN as their values. -/
def f32Key (w : Word) : Int := if f32Neg w then -((f32Abs w).toNat : Int) else ((f32Abs w).toNat : Int)

/-- Unordered: one of the two is a NaN (R330). -/
def f32Unordered (a b : Word) : Bool := isNaN a || isNaN b

/-- The IEEE comparison `a = b` (R330). -/
def f32Eq (a b : Word) : Bool := !f32Unordered a b && decide (f32Key a = f32Key b)

/-- The IEEE comparison `a < b` (R330). -/
def f32Lt (a b : Word) : Bool := !f32Unordered a b && decide (f32Key a < f32Key b)

/-- The compare predicate of a 4-bit `cond` (R330); its bit 3 has no effect. -/
def compareCond (cond : BitVec 4) (a b : Word) : Bool :=
  (f32Unordered a b && cond.getLsbD 0) || (f32Eq a b && cond.getLsbD 1) || (f32Lt a b && cond.getLsbD 2)

/-! ### Conversion (R320, R321, R327) -/

/-- `roundToInt(v, mode)` for `v` of `z` units (R320): 0 nearest, ties to even; 1 toward zero; 2 up;
3 down. -/
def roundToInt (z : Int) (mode : BitVec 2) : Int :=
  if mode = 0#2 then (if z < 0 then -(roundDiv z.natAbs f32One : Int) else (roundDiv z.natAbs f32One : Int))
  else if mode = 1#2 then z.tdiv f32One
  else if mode = 2#2 then -((-z) / f32One)
  else z / f32One

/-- The rounded value fits a word (R321). -/
def fitsWord (i : Int) : Bool := decide (-2 ^ 31 ≤ i) && decide (i ≤ 2 ^ 31 - 1)

/-- `toWord(w, mode)` (R321); the word of an invalid input is free (log entry 7). -/
def toWord (w : Word) (mode : BitVec 2) : Word :=
  if isNaN w || isInf w || !fitsWord (roundToInt (f32Scaled w) mode) then Config.cvtInvalid w mode
  else BitVec.ofInt 32 (roundToInt (f32Scaled w) mode)

/-- `bits(float32_of_int(i))` (R327, R441): nearest, ties to even. -/
def f32OfInt (i : Int) : Word := signWord (decide (i < 0)) ||| roundMag (i.natAbs * f32One) 1

/-! ### Sine and cosine in quarter turns (R420, decision D23; log entries 9 and 10) -/

/-- The fixed-point unit of the approximation: 2^96 for 1.0. -/
def fixOne : Nat := 2 ^ 96

/-- Half of pi in the fixed-point unit, rounded down (PRESUMED: a constant of mathematics, log entry 9). -/
def fixHalfPi : Nat := 124451306656115542615260972311

/-- The series of the sine divided by its argument, from the square of the argument: thirteen terms in
Horner's form. -/
def sineSeries (u : Nat) : Nat :=
  [12, 11, 10, 9, 8, 7, 6, 5, 4, 3, 2, 1].foldl
    (fun acc k => fixOne - u * acc / fixOne / (2 * k * (2 * k + 1))) fixOne

/-- The sine of a fraction `f` of a quarter turn, both in the fixed-point unit. -/
def sineQuarter (f : Nat) : Nat :=
  (f * fixHalfPi / fixOne) *
    sineSeries ((f * fixHalfPi / fixOne) * (f * fixHalfPi / fixOne) / fixOne) / fixOne

/-- The sine of `z` units of a quarter turn, in the fixed-point unit. -/
def sineFix (z : Int) : Int :=
  match (z / f32One % 4).toNat with
  | 0 => sineQuarter ((z % f32One).toNat / 2 ^ 53)
  | 1 => sineQuarter (fixOne - (z % f32One).toNat / 2 ^ 53)
  | 2 => -(sineQuarter ((z % f32One).toNat / 2 ^ 53) : Int)
  | _ => -(sineQuarter (fixOne - (z % f32One).toNat / 2 ^ 53) : Int)

/-- The value of `z` units at an integer number of quarter turns: 0, 1, 0, -1 (R420). -/
def sineExact (z : Int) : Word :=
  match (z / f32One % 4).toNat with
  | 1 => 0x3F800000#32
  | 3 => 0xBF800000#32
  | _ => 0#32

/-- A word is finite and within 2^-20 of the sine that a fixed-point value stands for: the value itself is
within 2^-50 of it (log entry 9). -/
def nearFix (w : Word) (v : Int) : Bool :=
  !isNaN w && !isInf w && decide ((f32Scaled w - v * 2 ^ 53).natAbs ≤ 2 ^ 129 - 2 ^ 99)

/-- The word nearest to a fixed-point value. -/
def fixWord (v : Int) : Word := signWord (decide (v < 0)) ||| roundMag (v.natAbs * 2 ^ 53) 1

/-- The sine of `z` units of a quarter turn: exact at an integer number of quarter turns; elsewhere the
free candidate where the bound of R420 admits it, else the nearest word. -/
def sineOf (candidate : Word) (z : Int) : Word :=
  if z % f32One = 0 then sineExact z
  else if nearFix candidate (sineFix z) then candidate
  else fixWord (sineFix z)

/-- `VSIN(x)` (R420); of a NaN or an infinity wholly free (log entry 10). -/
def vsin (x : Word) : Word :=
  if isNaN x || isInf x then Config.sineFree x else sineOf (Config.sineFree x) (f32Scaled x)

/-- `VCOS(x)` (R420): the sine one quarter turn on. -/
def vcos (x : Word) : Word :=
  if isNaN x || isInf x then Config.cosineFree x else sineOf (Config.cosineFree x) (f32Scaled x + f32One)

end Sys2Proof.Machine
end

