-- ==== Sys2Proof/Machine/State.lean ====
section
/-! DEFINITION. The state of a context with its memory (spec/10_state.md), the outcomes of a step
(spec/60_exceptions.md R631 to R634), and the state at creation (R49). Plain data throughout.
Reading and writing a register goes through Machine/Ops.lean. -/
namespace Sys2Proof.Machine

/-- The `kind` of a trap (R633, decision D21). -/
inductive TrapKind where
  | syscall
  | brk
  deriving DecidableEq, Repr

/-- The tagged outcome of the last step where it was no fault (R630 step 7). -/
inductive StepOutcome where
  /-- `Continue` (R631). -/
  | continued
  /-- `Paused(at)` (R632). -/
  | paused (pc : Word)
  /-- `Trap(kind, code)` (R633). -/
  | trap (kind : TrapKind) (code : BitVec 20)
  deriving DecidableEq, Repr

/-- The `access` of an invalid control register (R634 code 8). -/
inductive RegAccess where
  | read
  | write
  deriving DecidableEq, Repr

/-- A VFPU prefix latch: an enabled flag and a descriptor (R42). The value is held zero-extended
(log entry 25). -/
structure PrefixLatch where
  enabled : Bool
  value   : Word
  deriving DecidableEq, Repr

/-- Memory: the listed bytes, by masked address (R70, R75); an unlisted byte is
`Memory.background` (log entry 11). Machine/Ops.lean has its canonical form and its operations. -/
abbrev Memory := List Host.Cell

/-- The whole state of a context (spec/10_state.md), its memory (spec/20_memory.md) and its
parameters (spec/00_scope.md R7). -/
structure State where
  /-- The open parameters of R7; no step changes them (log entry 1). -/
  cfg       : Config
  /-- `x[0]` to `x[31]` (R20); `x[0]` is read as 0 by `readGpr`. -/
  gpr       : Vector Word 32
  /-- `PC` (R24). -/
  pc        : Word
  /-- `nPC` (R25). -/
  npc       : Word
  /-- `HI` (R35). -/
  hi        : Word
  /-- `LO` (R35). -/
  lo        : Word
  /-- `F[0]` to `F[31]` (R32), where `FPR_ALIAS` leaves them registers of their own (R33). -/
  fpr       : Vector Word 32
  /-- `V[0]` to `V[127]` (R34). -/
  vfr       : Vector Word 128
  /-- `FCR31` (R36). -/
  fcr31     : Word
  /-- `PFXS` (R42). -/
  pfxs      : PrefixLatch
  /-- `PFXT` (R42). -/
  pfxt      : PrefixLatch
  /-- `PFXD` (R42). -/
  pfxd      : PrefixLatch
  /-- `IC` (R44). -/
  ic        : Word
  /-- `IR` (R45). -/
  ir        : Word
  /-- `COUNT` (R46). -/
  count     : Nat
  /-- `BP_SET` (R50), a set held as a list (log entry 20). -/
  bpSet     : List Word
  /-- `BP_ENABLED` (R50). -/
  bpEnabled : Bool
  /-- The memory of the context (R70). -/
  mem       : Memory
  /-- The outcome of the last step; the model's own field (log entry 15). -/
  outcome   : StepOutcome
  deriving DecidableEq, Repr

/-- The faults of R634, one constructor a code. A faulting step commits nothing (R635); that the
outcome carries no state leaves out `IR` alone, which `afterFault` gives (log entry 14). -/
inductive Fault where
  /-- Code 1. Raised by `step` where no row matches the word (R116, R124). Safe: the spec's own stop. -/
  | invalidInstruction (pc word : Word)
  /-- Code 2. Raised by every Tier U meaning, and by `step` for a Tier K row that is not admitted
  (R460, R609, R6). Safe: the spec's own stop. -/
  | unimplemented (pc : Word) (mnemonic : String)
  /-- Code 3. Raised by loads, stores and the fetch where `MEM_ADMIT` refuses (R73). Safe: the spec's own
  stop. -/
  | memoryAccess (addr : Word) (size : Nat) (kind : AccessKind)
  /-- Code 4. Raised by loads and stores on a masked address that is not aligned (R78), by the fetch on a `PC` that is
  not (R77). Safe: the spec's own stop. -/
  | misaligned (addr : Word) (size : Nat) (kind : AccessKind)
  /-- Code 5. Raised by every branch and jump while a redirect is pending (R252). Safe: the spec's own
  stop. -/
  | controlTransferInDelaySlot (pc word : Word)
  /-- Code 6. Raised by `jr` and `jalr` (R264). Safe: the spec's own stop. -/
  | misalignedJumpTarget (pc target : Word)
  /-- Code 7. Raised by `ext` and `ins` (R170), by a swizzle outside the group (R373), by matrix
  instructions of side 1 (R400) and by colour conversions that are not quad (R425). Safe: the spec's own
  stop. -/
  | reservedOperand (pc word : Word)
  /-- Code 8. Raised by `cfc1` and `ctc1` (R347, R348). Safe: the spec's own stop. -/
  | invalidControlRegister (pc : Word) (number : Nat) (access : RegAccess)
  /-- Code 9. Raised by `div` (R202). Safe: the spec's own stop. -/
  | divideByZero (pc : Word)
  deriving DecidableEq, Repr

/-- Why an instruction has no meaning here. -/
inductive Refusal where
  /-- The instruction has no meaning in the model yet; raised by an arm of `exec`. Safe. No arm of this
  model raises it. -/
  | notModelled (mnemonic : String)
  deriving DecidableEq, Repr

/-- What an instruction, and a step, answers. -/
abbrev Result := Host.Outcome State Fault Refusal

/-- A context as it is created (R49, R680, R681), with its parameters, its entry point and the memory the
host gives it. -/
def State.create (cfg : Config) (entryPc : Word) (mem : Memory) : State where
  cfg := cfg
  gpr := Vector.replicate 32 0#32
  pc := entryPc
  npc := entryPc + 4#32
  hi := 0#32
  lo := 0#32
  fpr := Vector.replicate 32 0#32
  vfr := Vector.replicate 128 0#32
  fcr31 := cfg.fcr31Reset
  pfxs := ⟨false, 0#32⟩
  pfxt := ⟨false, 0#32⟩
  pfxd := ⟨false, 0#32⟩
  ic := 0#32
  ir := 0#32
  count := 0
  bpSet := []
  bpEnabled := false
  mem := mem
  outcome := .continued

/-- The state after reset: a context created with the suggested parameters at `ENTRY_PC = 0` (the source's
one scenario, R49), no byte of memory listed (log entries 2, 11 to 13). -/
def State.reset : State := State.create Config.suggested 0#32 []

end Sys2Proof.Machine
end

