-- ==== Sys2Proof/Machine/Ops.lean ====
section
/-! DEFINITION. The operations that every instruction shares: registers (spec/10_state.md), memory
(spec/20_memory.md), the three transitions of the program counter (R28 to R30), the ends of a step
(spec/60_exceptions.md), the fetch. -/
namespace Sys2Proof.Machine

/-! ### Registers -/

/-- `x[r]` (R11, R20): register 0 reads as 0. -/
def readGpr (s : State) (r : Reg) : Word := if r = 0 then 0#32 else s.gpr[r.val]

/-- `x[r] <- v` (R11, R20): a write to register 0 is discarded. -/
def writeGpr (s : State) (r : Reg) (v : Word) : State :=
  { s with gpr := if r = 0 then s.gpr else s.gpr.set r.val v }

/-- `F[f]` (R32): the slot that `FPR_ALIAS` gives, or the register of its own (R33). -/
def readFpr (s : State) (f : FReg) : Word :=
  match s.cfg.fprAlias[f.val] with
  | none   => s.fpr[f.val]
  | some k => s.vfr[k.val]

/-- `F[f] <- v` (R32, R33). -/
def writeFpr (s : State) (f : FReg) (v : Word) : State :=
  { s with
    fpr := match s.cfg.fprAlias[f.val] with
      | none   => s.fpr.set f.val v
      | some _ => s.fpr
    vfr := match s.cfg.fprAlias[f.val] with
      | none   => s.vfr
      | some k => s.vfr.set k.val v }

/-- `V[k]` (R34). -/
def readVfr (s : State) (k : Slot) : Word := s.vfr[k.val]

/-- `V[k] <- v` (R34). -/
def writeVfr (s : State) (k : Slot) (v : Word) : State := { s with vfr := s.vfr.set k.val v }

/-- `HILO`, the 64-bit value `HI || LO` (R35). -/
def readHilo (s : State) : BitVec 64 := s.hi ++ s.lo

/-- `HILO <- v` (R35). -/
def writeHilo (s : State) (v : BitVec 64) : State :=
  { s with hi := v.extractLsb' 32 32, lo := v.extractLsb' 0 32 }

/-! ### Memory -/

/-- What a byte that memory does not list reads as (log entry 11: DESIGN CHOICE; the contents are the
host's, R86). -/
def Memory.background : Byte := 0#8

/-- `M[a]` (R75). -/
def Memory.byte : Memory → Nat → Byte
  | [], _ => Memory.background
  | (k, b) :: m, a => if k = a then b else Memory.byte m a

/-- Memory without the address `a`. -/
def Memory.remove : Memory → Nat → Memory
  | [], _ => []
  | (k, b) :: m, a => if k = a then Memory.remove m a else (k, b) :: Memory.remove m a

/-- Memory with the cell `(a, v)` before the first higher address. -/
def Memory.place : Memory → Nat → Byte → Memory
  | [], a, v => [(a, v)]
  | (k, b) :: m, a, v => if a < k then (a, v) :: (k, b) :: m else (k, b) :: Memory.place m a v

/-- `M[a] <- v` (R76), keeping the canonical form: writing what an unlisted byte reads as removes the
entry. -/
def Memory.setByte (m : Memory) (a : Nat) (v : Byte) : Memory :=
  if v = Memory.background then m.remove a else (m.remove a).place a v

/-- The canonical form from address `lo` up: addresses strictly rising, inside the address space, and no
entry equal to the background. -/
def Memory.wfFrom (lo : Nat) : Memory → Bool
  | [] => true
  | (k, b) :: m => decide (lo ≤ k) && decide (k < 2 ^ 32) && (b != Memory.background) && Memory.wfFrom (k + 1) m

/-- Memory is in its canonical form. -/
def Memory.wf (m : Memory) : Bool := Memory.wfFrom 0 m

/-- The key of the byte `i` after masked address `a` (log entry 22). -/
def byteKey (a : Word) (i : Nat) : Nat := (a + BitVec.ofNat 32 i).toNat

/-- Two bytes, little-endian (R74, R75). -/
def Memory.half (m : Memory) (a : Word) : BitVec 16 :=
  m.byte (byteKey a 1) ++ m.byte (byteKey a 0)

/-- Four bytes, little-endian (R74, R75). -/
def Memory.word (m : Memory) (a : Word) : Word :=
  m.byte (byteKey a 3) ++ m.byte (byteKey a 2) ++ m.byte (byteKey a 1) ++ m.byte (byteKey a 0)

/-- Storing one byte (R76). -/
def Memory.setByteAt (m : Memory) (a : Word) (v : Byte) : Memory := m.setByte (byteKey a 0) v

/-- Storing two bytes, little-endian (R74, R76). -/
def Memory.setHalf (m : Memory) (a : Word) (v : BitVec 16) : Memory :=
  (m.setByte (byteKey a 0) (v.extractLsb' 0 8)).setByte (byteKey a 1) (v.extractLsb' 8 8)

/-- Storing four bytes, little-endian (R74, R76). -/
def Memory.setWord (m : Memory) (a : Word) (v : Word) : Memory :=
  (((m.setByte (byteKey a 0) (v.extractLsb' 0 8)).setByte (byteKey a 1) (v.extractLsb' 8 8)).setByte
    (byteKey a 2) (v.extractLsb' 16 8)).setByte (byteKey a 3) (v.extractLsb' 24 8)

/-- `addr & ADDR_MASK` (R72). -/
def maskAddr (s : State) (addr : Word) : Word := addr &&& s.cfg.addrMask

/-- `MEM_ADMIT(a, n, kind)` (R73): some admitted range covers the access (log entry 3). -/
def memAdmitted (s : State) (a : Word) (n : Nat) (kind : AccessKind) : Bool :=
  s.cfg.memAdmit.any fun r =>
    decide (r.lo.toNat ≤ a.toNat) && decide (a.toNat ≤ r.hi.toNat) &&
    (r.size == none || r.size == some n) && (r.kind == none || r.kind == some kind)

/-- The fault an access of `n` bytes at `addr` meets, if any: alignment of the masked address first, then
admission (R75, R76, R78). -/
def accessFault (s : State) (addr : Word) (n : Nat) (kind : AccessKind) : Option Fault :=
  if (maskAddr s addr).toNat % n ≠ 0 then some (.misaligned (maskAddr s addr) n kind)
  else if memAdmitted s (maskAddr s addr) n kind then none
  else some (.memoryAccess (maskAddr s addr) n kind)

/-- `MemRead(addr, 1)` (R75). -/
def memRead8 (s : State) (addr : Word) : Except Fault Byte :=
  match accessFault s addr 1 .load with
  | some f => .error f
  | none   => .ok (s.mem.byte (byteKey (maskAddr s addr) 0))

/-- `MemRead(addr, 2)` (R75). -/
def memRead16 (s : State) (addr : Word) : Except Fault (BitVec 16) :=
  match accessFault s addr 2 .load with
  | some f => .error f
  | none   => .ok (s.mem.half (maskAddr s addr))

/-- `MemRead(addr, 4)` (R75). -/
def memRead32 (s : State) (addr : Word) : Except Fault Word :=
  match accessFault s addr 4 .load with
  | some f => .error f
  | none   => .ok (s.mem.word (maskAddr s addr))

/-- `MemWrite(addr, 1, v)` (R76). -/
def memWrite8 (s : State) (addr : Word) (v : Byte) : Except Fault State :=
  match accessFault s addr 1 .store with
  | some f => .error f
  | none   => .ok { s with mem := s.mem.setByteAt (maskAddr s addr) v }

/-- `MemWrite(addr, 2, v)` (R76). -/
def memWrite16 (s : State) (addr : Word) (v : BitVec 16) : Except Fault State :=
  match accessFault s addr 2 .store with
  | some f => .error f
  | none   => .ok { s with mem := s.mem.setHalf (maskAddr s addr) v }

/-- `MemWrite(addr, 4, v)` (R76). -/
def memWrite32 (s : State) (addr : Word) (v : Word) : Except Fault State :=
  match accessFault s addr 4 .store with
  | some f => .error f
  | none   => .ok { s with mem := s.mem.setWord (maskAddr s addr) v }

/-- The first fault among word accesses at these addresses, in the order given (R635, R639; log
entry 19). -/
def firstWordFault (s : State) (kind : AccessKind) : List Word → Option Fault
  | [] => none
  | a :: as =>
    match accessFault s a 4 kind with
    | some f => some f
    | none   => firstWordFault s kind as

/-- The word at `addr`, where the access was found sound before (spec/46_vfpu_ops.md section 1). -/
def wordAt (s : State) (addr : Word) : Word := s.mem.word (maskAddr s addr)

/-- Word stores in the order given, where every access was found sound before (spec/46_vfpu_ops.md
section 1). -/
def storeWords (s : State) : List (Word × Word) → State
  | [] => s
  | (a, v) :: rest => storeWords { s with mem := s.mem.setWord (maskAddr s a) v } rest

/-! ### The ends of an instruction -/

/-- The sequential transition (R28). -/
def sequential (s : State) : State := { s with pc := s.npc, npc := s.npc + 4#32 }

/-- The redirect transition (R29). -/
def redirect (s : State) (target : Word) : State := { s with pc := s.npc, npc := target }

/-- The squash transition (R30). -/
def squash (s : State) : State := { s with pc := s.npc + 4#32, npc := s.npc + 8#32 }

/-- `COUNT + 1`, and the outcome of the step (R46, R631, R633). -/
def retire (s : State) (o : StepOutcome) : State := { s with count := s.count + 1, outcome := o }

/-- An instruction completes in sequence (R28, R631). -/
def complete (s : State) : Result := .next (retire (sequential s) .continued)

/-- A control transfer completes, taken to `target` (R29, R631). -/
def completeJump (s : State) (target : Word) : Result := .next (retire (redirect s target) .continued)

/-- A likely branch completes and squashes its delay slot (R30, R631). -/
def completeSquash (s : State) : Result := .next (retire (squash s) .continued)

/-- TAKING A TRAP, the one operation of `syscall` and `break` (R633): the sequential transition and
`COUNT + 1` are committed, then the outcome is `Trap(kind, code)`. There is no vector, no saved state and
no return inside the core (R637, R641). -/
def raiseTrap (s : State) (kind : TrapKind) (code : BitVec 20) : Result :=
  .next (retire (sequential s) (.trap kind code))

/-- TAKING A FAULT, the one operation of every fault (R634, R635): the step ends and commits nothing. -/
def raiseFault (f : Fault) : Result := .fault f

/-- The reserved-operand fault of the instruction in `IR` (R634 code 7). -/
def reservedOperand (s : State) : Result := raiseFault (.reservedOperand s.pc s.ir)

/-- The fault of a Tier U instruction (R460, R609). -/
def unimplemented (s : State) (mnemonic : String) : Result := raiseFault (.unimplemented s.pc mnemonic)

/-- An instruction that goes on with a value, or ends with the fault met on the way to it. -/
def orFault {α : Type} (e : Except Fault α) (k : α → Result) : Result :=
  match e with
  | .error f => raiseFault f
  | .ok v    => k v

/-! ### Control transfers (spec/43_branch_jump.md section 0) -/

/-- A redirect is pending: the instruction stands in a delay slot (R27). -/
def redirectPending (s : State) : Bool := s.npc != s.pc + 4#32

/-- The test every control transfer makes first (R252). -/
def controlTransfer (s : State) (r : Result) : Result :=
  if redirectPending s then raiseFault (.controlTransferInDelaySlot s.pc s.ir) else r

/-- The branch target `bt` (R251). -/
def branchTarget (s : State) (off : BitVec 16) : Word := s.npc + (off.signExtend 32 <<< 2)

/-- The jump target `jt` (R260). -/
def jumpTarget (s : State) (target : BitVec 26) : Word :=
  (s.npc &&& 0xF0000000#32) ||| (target.zeroExtend 32 <<< 2)

/-- The link value (R253). -/
def linkValue (s : State) : Word := s.npc + 4#32

/-- The end of a branch that is not likely (R249). -/
def endBranch (s : State) (taken : Bool) (target : Word) : Result :=
  if taken then completeJump s target else complete s

/-- The end of a likely branch (R249). -/
def endLikely (s : State) (taken : Bool) (target : Word) : Result :=
  if taken then completeJump s target else completeSquash s

/-- A branch that is not likely (R249, R252). -/
def branch (s : State) (taken : Bool) (off : BitVec 16) : Result :=
  controlTransfer s (endBranch s taken (branchTarget s off))

/-- A likely branch (R249, R252). -/
def branchLikely (s : State) (taken : Bool) (off : BitVec 16) : Result :=
  controlTransfer s (endLikely s taken (branchTarget s off))

/-- A branch and link that is not likely: register 31 is written whatever the outcome, the condition
having read the old registers (spec/43_branch_jump.md section 3, R252). -/
def branchLink (s : State) (taken : Bool) (off : BitVec 16) : Result :=
  controlTransfer s (endBranch (writeGpr s 31 (linkValue s)) taken (branchTarget s off))

/-- A likely branch and link (spec/43_branch_jump.md section 3, R252). -/
def branchLinkLikely (s : State) (taken : Bool) (off : BitVec 16) : Result :=
  controlTransfer s (endLikely (writeGpr s 31 (linkValue s)) taken (branchTarget s off))

/-- A jump to a register: a target that is not a multiple of 4 faults (R264), else the jump goes on. -/
def registerJump (s : State) (target : Word) (r : Result) : Result :=
  controlTransfer s
    (if target.toNat % 4 ≠ 0 then raiseFault (.misalignedJumpTarget s.pc target) else r)

/-! ### Breakpoints and the fetch (R630 steps 2 to 4) -/

/-- A breakpoint is hit: the address of the instruction, masked or not, is armed (R630 step 3, R650). -/
def breakpointHit (s : State) : Bool :=
  s.bpEnabled && (s.bpSet.contains s.pc || s.bpSet.contains (maskAddr s s.pc))

/-- The step pauses: nothing changes but the outcome (R632). -/
def pause (s : State) : Result := .next { s with outcome := .paused s.pc }

/-- The fault the fetch meets, if any: a `PC` that is no multiple of 4 (R77), and with it a masked address that is none
(R78, R630 step 4); then admission (log entry 17). -/
def fetchFault (s : State) : Option Fault :=
  if s.pc.toNat % 4 ≠ 0 then some (.misaligned (maskAddr s s.pc) 4 .fetch) else accessFault s s.pc 4 .fetch

/-- The fetch (R77). -/
def fetch (s : State) : Except Fault Word :=
  match fetchFault s with
  | some f => .error f
  | none   => .ok (s.mem.word (maskAddr s s.pc))

end Sys2Proof.Machine
end

