-- ==== Sys2Proof/Machine/Operands.lean ====
section
/-! DEFINITION. Operand forms: immediates (spec/30_encoding.md R115), bit fields (R108, R168 to R170),
effective addresses (R220, R229 to R232), the VFPU's slots (spec/45_vfpu_regs_prefix.md R361 to R365) and
prefixes (R370 to R376). -/
namespace Sys2Proof.Machine

/-! ### Immediates and shift amounts (R115) -/

/-- `simm` (R115). -/
def simm (imm : BitVec 16) : Word := imm.signExtend 32

/-- `uimm` (R115). -/
def uimm (imm : BitVec 16) : Word := imm.zeroExtend 32

/-- The variable shift amount, `x[rs] & 0x1F` (R115). -/
def shiftAmount (v : Word) : Nat := (v &&& 0x1F#32).toNat

/-- The comparison result of the `slt` family (R154 to R157). -/
def boolWord (b : Bool) : Word := if b then 1#32 else 0#32

/-- The number of consecutive 0 bits from bit 31 down, among the `k` lowest bits (R171). -/
def leadingZeros (v : Word) : Nat → Nat
  | 0 => 0
  | k + 1 => if v.getLsbD k then 0 else leadingZeros v k + 1

/-- The bits in reverse order (R177). -/
def reverseBits (v : Word) : Word := v.reverse

/-! ### Bit fields (R108, R168 to R170) -/

/-- The decoded size of `ext` (R108). -/
def extSize (c : SizeCoding) (lsb msb : Fin 32) : Int :=
  match c with
  | .asSource    => (msb.val : Int) - lsb.val + 1
  | .asMIPS32R2  => (msb.val : Int) + 1

/-- The decoded size of `ins` (R108). -/
def insSize (c : SizeCoding) (lsb msb : Fin 32) : Int :=
  match c with
  | .asSource    => (msb.val : Int) + 1
  | .asMIPS32R2  => (msb.val : Int) - lsb.val + 1

/-- `1 <= size` and `pos + size <= 32` (R170). -/
def fieldInRange (pos : Fin 32) (size : Int) : Bool :=
  decide (1 ≤ size) && decide ((pos.val : Int) + size ≤ 32)

/-- `2^size - 1` (R168). -/
def lowMask (size : Nat) : Word := BitVec.ofNat 32 (2 ^ size - 1)

/-- The field of `ext` (R168). -/
def extractField (v : Word) (pos size : Nat) : Word := (v >>> pos) &&& lowMask size

/-- The merge of `ins` (R169). -/
def insertField (old v : Word) (pos size : Nat) : Word :=
  (old &&& ~~~(lowMask size <<< pos)) ||| ((v <<< pos) &&& (lowMask size <<< pos))

/-! ### Effective addresses -/

/-- `ea` of a scalar load or store (R220). -/
def effAddr (s : State) (rs : Reg) (off : BitVec 16) : Word := readGpr s rs + off.signExtend 32

/-- `ea` of a vector load or store (R112, spec/46_vfpu_ops.md section 1). -/
def vecAddr (s : State) (rs : Reg) (off : BitVec 14) : Word :=
  readGpr s rs + (off.signExtend 32 <<< 2)

/-- The aligned word that contains an address, `wa` (spec/42_loadstore.md section 3). -/
def wordAddr (ea : Word) : Word := ea &&& ~~~3#32

/-- `n = ea & 3` (spec/42_loadstore.md section 3). -/
def byteLane (ea : Word) : Nat := (ea &&& 3#32).toNat

/-- The merge of `lwl` (R229). -/
def mergeLeft (w old : Word) (n : Nat) : Word :=
  (w <<< ((3 - n) * 8)) ||| (old &&& lowMask ((3 - n) * 8))

/-- The merge of `lwr` (R230). -/
def mergeRight (w old : Word) (n : Nat) : Word :=
  (w >>> (n * 8)) ||| (old &&& ~~~(0xFFFFFFFF#32 >>> (n * 8)))

/-- The word `swl` writes (R231). -/
def storeLeft (w v : Word) (n : Nat) : Word :=
  (v >>> ((3 - n) * 8)) ||| (w &&& ~~~(0xFFFFFFFF#32 >>> ((3 - n) * 8)))

/-- The word `swr` writes (R232). -/
def storeRight (w v : Word) (n : Nat) : Word :=
  (v <<< (n * 8)) ||| (w &&& lowMask (n * 8))

/-! ### Slots (R361 to R365) -/

/-- `slot(m, c, r) = 4*m + c + 32*r` (R361). -/
def bankSlot (m : BitVec 3) (c r : BitVec 2) : Slot := (r ++ m ++ c : BitVec (2 + 3 + 2)).toFin

/-- `mtx` (R361). -/
def selMatrix (sel : Sel) : BitVec 3 := sel.extractLsb' 2 3

/-- `col` (R361). -/
def selCol (sel : Sel) : BitVec 2 := sel.extractLsb' 0 2

/-- `row` for each size (R362, R363). -/
def selRow (sel : Sel) : VSize → BitVec 2
  | .single => sel.extractLsb' 5 2
  | .pair   => sel.extractLsb' 5 2 &&& 2#2
  | .triple => (sel.extractLsb' 6 1).zeroExtend 2
  | .quad   => sel.extractLsb' 5 2 &&& 2#2

/-- `tr`, forced to 0 for a single (R361, R362). -/
def selTransposed (sel : Sel) (sz : VSize) : Bool := sz != .single && sel.getLsbD 5

/-- The suggested formula for lane `i` of a vector group (R362). -/
def laneFormula (sel : Sel) (sz : VSize) (i : Nat) : Slot :=
  if selTransposed sel sz then bankSlot (selMatrix sel) (selRow sel sz + BitVec.ofNat 2 i) (selCol sel)
  else bankSlot (selMatrix sel) (selCol sel) (selRow sel sz + BitVec.ofNat 2 i)

/-- The suggested formula for the entry `e[j][i]` of a matrix (R363). -/
def entryFormula (sel : Sel) (sz : VSize) (j i : Nat) : Slot :=
  if selTransposed sel sz then
    bankSlot (selMatrix sel) (selRow sel sz + BitVec.ofNat 2 i) (selCol sel + BitVec.ofNat 2 j)
  else
    bankSlot (selMatrix sel) (selCol sel + BitVec.ofNat 2 j) (selRow sel sz + BitVec.ofNat 2 i)

/-- `VREG` lists this lane. -/
def listsLane (sel : Sel) (sz : VSize) (i : Nat) (e : VregLane) : Bool :=
  e.sel == sel && e.size == sz && e.lane == i

/-- `VREG` lists this matrix entry. -/
def listsEntry (sel : Sel) (sz : VSize) (j i : Nat) (e : VregEntry) : Bool :=
  e.sel == sel && e.size == sz && e.col == j && e.row == i

/-- Lane `i` of `vecSlots(sel, n)`: the slot `VREG` gives, the suggested formula where it lists none (R7, R362; log
entry 30). -/
def laneSlot (c : Config) (sel : Sel) (sz : VSize) (i : Nat) : Slot :=
  match c.vregLanes.find? (listsLane sel sz i) with
  | some e => e.slot
  | none   => laneFormula sel sz i

/-- `matSlots(sel, n)`'s entry `e[j][i]`: the slot `VREG` gives, the suggested formula where it lists none (R7, R363;
log entry 30). -/
def matSlot (c : Config) (sel : Sel) (sz : VSize) (j i : Nat) : Slot :=
  match c.vregEntries.find? (listsEntry sel sz j i) with
  | some e => e.slot
  | none   => entryFormula sel sz j i

/-- `vecSlots(sel, n)` (R362), lane 0 first. -/
def vecSlots (c : Config) (sel : Sel) (sz : VSize) : List Slot := (List.range sz.lanes).map (laneSlot c sel sz)

/-- The `n * n` slots of `matSlots(sel, n)` (R363), `e[0][0]`, `e[0][1]` and so on. -/
def matSlots (c : Config) (sel : Sel) (sz : VSize) : List Slot :=
  (List.range (sz.lanes * sz.lanes)).map fun k => matSlot c sel sz (k / sz.lanes) (k % sz.lanes)

/-- The slot of a single, `vecSlots(sel, 1)[0]`; by the suggested formula the slot number equals the selector
(R364). -/
def singleSlot (c : Config) (sel : Sel) : Slot := laneSlot c sel .single 0

/-- The selector of a quad load or store: bit 6 is 0 (spec/46_vfpu_ops.md section 1). -/
def quadSel (vt : BitVec 6) : Sel := vt.zeroExtend 7

/-- `ReadVec(sel, n)` (R365). -/
def readVec (s : State) (sel : Sel) (sz : VSize) : List Word := (vecSlots s.cfg sel sz).map (readVfr s)

/-- Words written to slots, those with a mask bit left out (R365). -/
def writeSlots (v : Vector Word 128) : List (Slot × Word × Bool) → Vector Word 128
  | [] => v
  | (k, w, masked) :: rest => writeSlots (if masked then v else v.set k.val w) rest

/-- `WriteVec(sel, n, vals, wm)` (R365): the lanes with their mask bits. -/
def writeVec (s : State) (sel : Sel) (sz : VSize) (vals : List (Word × Bool)) : State :=
  { s with vfr := writeSlots s.vfr ((vecSlots s.cfg sel sz).zip vals) }

/-- `ReadMat(sel, n)` (R365): `X[j][i]`. -/
def readMat (s : State) (sel : Sel) (sz : VSize) (j i : Nat) : Word := readVfr s (matSlot s.cfg sel sz j i)

/-- The slots of a matrix with the words they receive. -/
def matCells (c : Config) (sel : Sel) (sz : VSize) (x : Nat → Nat → Word) : List (Slot × Word × Bool) :=
  (List.range sz.lanes).flatMap fun j =>
    (List.range sz.lanes).map fun i => (matSlot c sel sz j i, x j i, false)

/-- `WriteMat(sel, n, X)` (R365). -/
def writeMat (s : State) (sel : Sel) (sz : VSize) (x : Nat → Nat → Word) : State :=
  { s with vfr := writeSlots s.vfr (matCells s.cfg sel sz x) }

/-! ### Prefixes (R370 to R376) -/

/-- `swz[i]` (R371). -/
def swizzle (d : Word) (i : Nat) : Nat := (d.extractLsb' (2 * i) 2).toNat

/-- `VPFX_CONST(abs, k)` (R372). -/
def prefixConst (c : Config) (abs : Bool) (k : Nat) : Word :=
  if abs then c.vpfxConstAbs[k]?.getD 0#32 else c.vpfxConst[k]?.getD 0#32

/-- Lane `i` of the source transform before its negation; none where the swizzle names a lane outside the
group (R373). -/
def sourceLane (c : Config) (d : Word) (src : List Word) (i : Nat) : Option Word :=
  if d.getLsbD (12 + i) then some (prefixConst c (d.getLsbD (8 + i)) (swizzle d i))
  else match src[swizzle d i]? with
    | none   => none
    | some v => some (if d.getLsbD (8 + i) then f32Abs v else v)

/-- The lanes `i` of a list of lane numbers, negated where `neg[i]` says so (R373). -/
def sourceLanes (c : Config) (d : Word) (src : List Word) : List Nat → Option (List Word)
  | [] => some []
  | i :: is =>
    match sourceLane c d src i, sourceLanes c d src is with
    | some v, some vs => some ((if d.getLsbD (16 + i) then f32Flip v else v) :: vs)
    | _, _ => none

/-- `ApplyST(latch, src, n)` (R373); none is the reserved operand. -/
def applyST (c : Config) (latch : PrefixLatch) (src : List Word) : Option (List Word) :=
  if latch.enabled then sourceLanes c latch.value src (List.range src.length) else some src

/-- The clamp `sat[i]` of a value (R374, R375). -/
def clampLane (sat : Nat) (v : Word) : Word :=
  if sat = 1 then (if f32Lt v 0#32 then 0#32 else if f32Lt 0x3F800000#32 v then 0x3F800000#32 else v)
  else if sat = 3 then
    (if f32Lt v 0xBF800000#32 then 0xBF800000#32 else if f32Lt 0x3F800000#32 v then 0x3F800000#32 else v)
  else v

/-- `ApplyD` on the lanes from `i` on (R375): each value with its mask bit. -/
def applyDFrom (d : Word) (i : Nat) : List Word → List (Word × Bool)
  | [] => []
  | v :: vs => (clampLane (swizzle d i) v, d.getLsbD (8 + i)) :: applyDFrom d (i + 1) vs

/-- `ApplyD(latch, vals, n)` (R375). -/
def applyD (latch : PrefixLatch) (vals : List Word) : List (Word × Bool) :=
  if latch.enabled then applyDFrom latch.value 0 vals else vals.map fun v => (v, false)

/-- `consume` (R376): all three latches are disabled, their values kept. -/
def consume (s : State) : State :=
  { s with
    pfxs := { s.pfxs with enabled := false }
    pfxt := { s.pfxt with enabled := false }
    pfxd := { s.pfxd with enabled := false } }

end Sys2Proof.Machine
end

