-- ==== Sys2Proof/Machine/Alu.lean ====
section
/-! DEFINITION. The integer ALU (spec/40_integer_alu.md). Sequential, no flag, no overflow trap (R185, R186). -/
namespace Sys2Proof.Machine

/-- `add` (R140). -/
def execAdd (rd rs rt : Reg) (s : State) : Result :=
  complete (writeGpr s rd (readGpr s rs + readGpr s rt))

/-- `addu` (R141). -/
def execAddu (rd rs rt : Reg) (s : State) : Result :=
  complete (writeGpr s rd (readGpr s rs + readGpr s rt))

/-- `addi` (R142). -/
def execAddi (rt rs : Reg) (imm16 : BitVec 16) (s : State) : Result :=
  complete (writeGpr s rt (readGpr s rs + simm imm16))

/-- `addiu` (R143). -/
def execAddiu (rt rs : Reg) (imm16 : BitVec 16) (s : State) : Result :=
  complete (writeGpr s rt (readGpr s rs + simm imm16))

/-- `sub` (R144). -/
def execSub (rd rs rt : Reg) (s : State) : Result :=
  complete (writeGpr s rd (readGpr s rs - readGpr s rt))

/-- `subu` (R145). -/
def execSubu (rd rs rt : Reg) (s : State) : Result :=
  complete (writeGpr s rd (readGpr s rs - readGpr s rt))

/-- `and` (R146). -/
def execAnd (rd rs rt : Reg) (s : State) : Result :=
  complete (writeGpr s rd (readGpr s rs &&& readGpr s rt))

/-- `or` (R147). -/
def execOr (rd rs rt : Reg) (s : State) : Result :=
  complete (writeGpr s rd (readGpr s rs ||| readGpr s rt))

/-- `xor` (R148). -/
def execXor (rd rs rt : Reg) (s : State) : Result :=
  complete (writeGpr s rd (readGpr s rs ^^^ readGpr s rt))

/-- `nor` (R149). -/
def execNor (rd rs rt : Reg) (s : State) : Result :=
  complete (writeGpr s rd (~~~(readGpr s rs ||| readGpr s rt)))

/-- `andi` (R150). -/
def execAndi (rt rs : Reg) (imm16 : BitVec 16) (s : State) : Result :=
  complete (writeGpr s rt (readGpr s rs &&& uimm imm16))

/-- `ori` (R151). -/
def execOri (rt rs : Reg) (imm16 : BitVec 16) (s : State) : Result :=
  complete (writeGpr s rt (readGpr s rs ||| uimm imm16))

/-- `xori` (R152). -/
def execXori (rt rs : Reg) (imm16 : BitVec 16) (s : State) : Result :=
  complete (writeGpr s rt (readGpr s rs ^^^ uimm imm16))

/-- `lui` (R153). -/
def execLui (rt : Reg) (imm16 : BitVec 16) (s : State) : Result :=
  complete (writeGpr s rt (uimm imm16 <<< 16))

/-- `slt` (R154). -/
def execSlt (rd rs rt : Reg) (s : State) : Result :=
  complete (writeGpr s rd (boolWord ((readGpr s rs).slt (readGpr s rt))))

/-- `sltu` (R155). -/
def execSltu (rd rs rt : Reg) (s : State) : Result :=
  complete (writeGpr s rd (boolWord ((readGpr s rs).ult (readGpr s rt))))

/-- `slti` (R156). -/
def execSlti (rt rs : Reg) (imm16 : BitVec 16) (s : State) : Result :=
  complete (writeGpr s rt (boolWord ((readGpr s rs).slt (simm imm16))))

/-- `sltiu` (R157). -/
def execSltiu (rt rs : Reg) (imm16 : BitVec 16) (s : State) : Result :=
  complete (writeGpr s rt (boolWord ((readGpr s rs).ult (simm imm16))))

/-- `sll` (R158). -/
def execSll (rd rt : Reg) (sa : Fin 32) (s : State) : Result :=
  complete (writeGpr s rd (readGpr s rt <<< sa.val))

/-- `srl` (R159). -/
def execSrl (rd rt : Reg) (sa : Fin 32) (s : State) : Result :=
  complete (writeGpr s rd (readGpr s rt >>> sa.val))

/-- `sra` (R160). -/
def execSra (rd rt : Reg) (sa : Fin 32) (s : State) : Result :=
  complete (writeGpr s rd ((readGpr s rt).sshiftRight sa.val))

/-- `sllv` (R161). -/
def execSllv (rd rt rs : Reg) (s : State) : Result :=
  complete (writeGpr s rd (readGpr s rt <<< shiftAmount (readGpr s rs)))

/-- `srlv` (R162). -/
def execSrlv (rd rt rs : Reg) (s : State) : Result :=
  complete (writeGpr s rd (readGpr s rt >>> shiftAmount (readGpr s rs)))

/-- `srav` (R163). -/
def execSrav (rd rt rs : Reg) (s : State) : Result :=
  complete (writeGpr s rd ((readGpr s rt).sshiftRight (shiftAmount (readGpr s rs))))

/-- `rotr` (R164). -/
def execRotr (rd rt : Reg) (sa : Fin 32) (s : State) : Result :=
  complete (writeGpr s rd ((readGpr s rt).rotateRight sa.val))

/-- `rotrv` (R165). -/
def execRotrv (rd rt rs : Reg) (s : State) : Result :=
  complete (writeGpr s rd ((readGpr s rt).rotateRight (shiftAmount (readGpr s rs))))

/-- `ext` (R168); a size out of range is a reserved operand (R170). -/
def execExt (rt rs : Reg) (lsb msb : Fin 32) (s : State) : Result :=
  if fieldInRange lsb (extSize s.cfg.sizeCoding lsb msb) then
    complete (writeGpr s rt
      (extractField (readGpr s rs) lsb.val (extSize s.cfg.sizeCoding lsb msb).toNat))
  else reservedOperand s

/-- `ins` (R169); a size out of range is a reserved operand (R170). -/
def execIns (rt rs : Reg) (lsb msb : Fin 32) (s : State) : Result :=
  if fieldInRange lsb (insSize s.cfg.sizeCoding lsb msb) then
    complete (writeGpr s rt
      (insertField (readGpr s rt) (readGpr s rs) lsb.val (insSize s.cfg.sizeCoding lsb msb).toNat))
  else reservedOperand s

/-- `clz` (R171). -/
def execClz (rd rs : Reg) (s : State) : Result :=
  complete (writeGpr s rd (BitVec.ofNat 32 (leadingZeros (readGpr s rs) 32)))

/-- `clo` (R172). -/
def execClo (rd rs : Reg) (s : State) : Result :=
  complete (writeGpr s rd (BitVec.ofNat 32 (leadingZeros (~~~(readGpr s rs)) 32)))

/-- `seb` (R173). -/
def execSeb (rd rt : Reg) (s : State) : Result :=
  complete (writeGpr s rd (((readGpr s rt).extractLsb' 0 8).signExtend 32))

/-- `seh` (R174). -/
def execSeh (rd rt : Reg) (s : State) : Result :=
  complete (writeGpr s rd (((readGpr s rt).extractLsb' 0 16).signExtend 32))

/-- `wsbh` (R175). -/
def execWsbh (rd rt : Reg) (s : State) : Result :=
  complete (writeGpr s rd (((readGpr s rt &&& 0x00FF00FF#32) <<< 8) ||| ((readGpr s rt >>> 8) &&& 0x00FF00FF#32)))

/-- `wsbw` (R176). -/
def execWsbw (rd rt : Reg) (s : State) : Result :=
  complete (writeGpr s rd ((readGpr s rt).extractLsb' 0 8 ++ (readGpr s rt).extractLsb' 8 8 ++ (readGpr s rt).extractLsb' 16 8 ++ (readGpr s rt).extractLsb' 24 8))

/-- `bitrev` (R177). -/
def execBitrev (rd rt : Reg) (s : State) : Result :=
  complete (writeGpr s rd (reverseBits (readGpr s rt)))

/-- `movz` (R178). -/
def execMovz (rd rs rt : Reg) (s : State) : Result :=
  complete (if readGpr s rt = 0#32 then writeGpr s rd (readGpr s rs) else s)

/-- `movn` (R179). -/
def execMovn (rd rs rt : Reg) (s : State) : Result :=
  complete (if readGpr s rt ≠ 0#32 then writeGpr s rd (readGpr s rs) else s)

/-- `max` (R180). -/
def execMax (rd rs rt : Reg) (s : State) : Result :=
  complete (writeGpr s rd (if (readGpr s rt).slt (readGpr s rs) then readGpr s rs else readGpr s rt))

/-- `min` (R181). -/
def execMin (rd rs rt : Reg) (s : State) : Result :=
  complete (writeGpr s rd (if (readGpr s rs).slt (readGpr s rt) then readGpr s rs else readGpr s rt))

end Sys2Proof.Machine
end

