-- ==== Sys2Proof/Machine/Flags.lean ====
section
/-! DEFINITION. The fields of `FCR31` (spec/10_state.md R36 to R38) and every computation of a flag. There is
no other flag: the integer unit has none (R47). -/
namespace Sys2Proof.Machine

/-- The field `RM` (R37). -/
def roundingMode (s : State) : BitVec 2 := s.fcr31.extractLsb' s.cfg.rmLow.val 2

/-- The bit `CC` (R37). -/
def conditionCode (s : State) : Bool := s.fcr31.getLsbD s.cfg.ccBit.val

/-- The bit `FS` (R37). -/
def flushRequested (s : State) : Bool := s.fcr31.getLsbD s.cfg.fsBit.val

/-- The word with the one bit `b`. -/
def bitMask (b : Fin 32) : Word := 1#32 <<< b.val

/-- `CC <- c` (R330); no other bit of `FCR31` changes. -/
def writeConditionCode (s : State) (c : Bool) : State :=
  { s with fcr31 :=
      if c then s.fcr31 ||| bitMask s.cfg.ccBit else s.fcr31 &&& ~~~(bitMask s.cfg.ccBit) }

/-- The sticky bits a result sets (R38). -/
def stickyBits (c : Config) (r : Word) : Word :=
  (if isNaN r then c.nanMask else 0#32) ||| (if isInf r then c.infMask else 0#32)

/-- "Note the result `r`" (R38, R302). -/
def noteResult (s : State) (r : Word) : State := { s with fcr31 := s.fcr31 ||| stickyBits s.cfg r }

/-- `MUL_S_FLUSH(p)` (R312): a NaN is never near zero (log entry 6). -/
def mulFlushes (c : Config) (p : Word) : Bool :=
  !isNaN p && c.mulFlush.any fun r => decide (r.lo.toNat ≤ p.toNat) && decide (p.toNat ≤ r.hi.toNat)

/-- The product that `mul.s` writes (R312): flushed to `+0.0` where `FS` asks for it. -/
def flushProduct (s : State) (p : Word) : Word :=
  if flushRequested s && mulFlushes s.cfg p then 0#32 else p

/-- The write of `ctc1` to `FCR31` (R347). -/
def writeFcr31 (s : State) (v : Word) : State :=
  { s with fcr31 := (v &&& s.cfg.wmask) ||| (s.fcr31 &&& ~~~s.cfg.wmask) }

/-- The value of a readable control register (R348, R40, R41). -/
def readControl (s : State) (n : Fin 32) : Option Word :=
  if n.val = 0 then some s.cfg.fcr0
  else if n.val = 25 then some s.cfg.fcr25
  else if n.val = 26 then some s.cfg.fcr26
  else if n.val = 27 then some s.cfg.fcr27
  else if n.val = 28 then some s.cfg.fcr28
  else if n.val = 31 then some s.fcr31
  else none

end Sys2Proof.Machine
end

