-- ==== Sys2Proof/Machine/Branch.lean ====
section
/-! DEFINITION. Branches and jumps (spec/43_branch_jump.md): every one tests first for a pending redirect
(R252). -/
namespace Sys2Proof.Machine

/-- `beq` (R254). -/
def execBeq (rs rt : Reg) (off16 : BitVec 16) (s : State) : Result :=
  branch s (decide (readGpr s rs = readGpr s rt)) off16

/-- `bne` (R255). -/
def execBne (rs rt : Reg) (off16 : BitVec 16) (s : State) : Result :=
  branch s (decide (readGpr s rs ≠ readGpr s rt)) off16

/-- `blez` (R256). -/
def execBlez (rs : Reg) (off16 : BitVec 16) (s : State) : Result :=
  branch s (!(0#32).slt (readGpr s rs)) off16

/-- `bgtz` (R257). -/
def execBgtz (rs : Reg) (off16 : BitVec 16) (s : State) : Result :=
  branch s ((0#32).slt (readGpr s rs)) off16

/-- `bltz` (R258). -/
def execBltz (rs : Reg) (off16 : BitVec 16) (s : State) : Result :=
  branch s ((readGpr s rs).slt 0#32) off16

/-- `bgez` (R259). -/
def execBgez (rs : Reg) (off16 : BitVec 16) (s : State) : Result :=
  branch s (!(readGpr s rs).slt 0#32) off16

/-- `j` (R260). -/
def execJ (imm26 : BitVec 26) (s : State) : Result :=
  controlTransfer s (completeJump s (jumpTarget s imm26))

/-- `jal` (R262). -/
def execJal (imm26 : BitVec 26) (s : State) : Result :=
  controlTransfer s (completeJump (writeGpr s 31 (linkValue s)) (jumpTarget s imm26))

/-- `jr` (R263). -/
def execJr (rs : Reg) (s : State) : Result :=
  registerJump s (readGpr s rs) (completeJump s (readGpr s rs))

/-- `jalr` (R265): the target is read before the link is written. -/
def execJalr (rd rs : Reg) (s : State) : Result :=
  registerJump s (readGpr s rs) (completeJump (writeGpr s rd (linkValue s)) (readGpr s rs))

/-- `bltzal` (R270). -/
def execBltzal (rs : Reg) (off16 : BitVec 16) (s : State) : Result :=
  branchLink s ((readGpr s rs).slt 0#32) off16

/-- `bgezal` (R271). -/
def execBgezal (rs : Reg) (off16 : BitVec 16) (s : State) : Result :=
  branchLink s (!(readGpr s rs).slt 0#32) off16

/-- `bltzall` (R272). -/
def execBltzall (rs : Reg) (off16 : BitVec 16) (s : State) : Result :=
  branchLinkLikely s ((readGpr s rs).slt 0#32) off16

/-- `bgezall` (R273). -/
def execBgezall (rs : Reg) (off16 : BitVec 16) (s : State) : Result :=
  branchLinkLikely s (!(readGpr s rs).slt 0#32) off16

/-- `beql` (R274). -/
def execBeql (rs rt : Reg) (off16 : BitVec 16) (s : State) : Result :=
  branchLikely s (decide (readGpr s rs = readGpr s rt)) off16

/-- `bnel` (R275). -/
def execBnel (rs rt : Reg) (off16 : BitVec 16) (s : State) : Result :=
  branchLikely s (decide (readGpr s rs ≠ readGpr s rt)) off16

/-- `blezl` (R276). -/
def execBlezl (rs : Reg) (off16 : BitVec 16) (s : State) : Result :=
  branchLikely s (!(0#32).slt (readGpr s rs)) off16

/-- `bgtzl` (R277). -/
def execBgtzl (rs : Reg) (off16 : BitVec 16) (s : State) : Result :=
  branchLikely s ((0#32).slt (readGpr s rs)) off16

/-- `bltzl` (R278). -/
def execBltzl (rs : Reg) (off16 : BitVec 16) (s : State) : Result :=
  branchLikely s ((readGpr s rs).slt 0#32) off16

/-- `bgezl` (R279). -/
def execBgezl (rs : Reg) (off16 : BitVec 16) (s : State) : Result :=
  branchLikely s (!(readGpr s rs).slt 0#32) off16

/-- `bc1f` (R280). -/
def execBc1f (off16 : BitVec 16) (s : State) : Result :=
  branch s (!conditionCode s) off16

/-- `bc1t` (R281). -/
def execBc1t (off16 : BitVec 16) (s : State) : Result :=
  branch s (conditionCode s) off16

/-- `bc1fl` (R282). -/
def execBc1fl (off16 : BitVec 16) (s : State) : Result :=
  branchLikely s (!conditionCode s) off16

/-- `bc1tl` (R283). -/
def execBc1tl (off16 : BitVec 16) (s : State) : Result :=
  branchLikely s (conditionCode s) off16

/-- `bvf` (R284, Tier U). -/
def execBvf (_imm3 : BitVec 3) (_off16 : BitVec 16) (s : State) : Result :=
  controlTransfer s (unimplemented s "bvf")

/-- `bvt` (R285, Tier U). -/
def execBvt (_imm3 : BitVec 3) (_off16 : BitVec 16) (s : State) : Result :=
  controlTransfer s (unimplemented s "bvt")

/-- `bvfl` (R286, Tier U). -/
def execBvfl (_imm3 : BitVec 3) (_off16 : BitVec 16) (s : State) : Result :=
  controlTransfer s (unimplemented s "bvfl")

/-- `bvtl` (R287, Tier U). -/
def execBvtl (_imm3 : BitVec 3) (_off16 : BitVec 16) (s : State) : Result :=
  controlTransfer s (unimplemented s "bvtl")

end Sys2Proof.Machine
end

