-- ==== Sys2Proof/Machine/Fpu.lean ====
section
/-! DEFINITION. The scalar floating-point unit (spec/44_fpu.md). No instruction traps on a value (R300). -/
namespace Sys2Proof.Machine

/-- The end of the arithmetic instructions: write the result and note it (R302). -/
def arithResult (s : State) (fd : FReg) (r : Word) : Result := complete (noteResult (writeFpr s fd r) r)

/-- The end of a compare instruction (R330). -/
def compareResult (s : State) (cond : BitVec 4) (fs ft : FReg) : Result :=
  complete (writeConditionCode s (compareCond cond (readFpr s fs) (readFpr s ft)))

/-- `add.s` (R310). -/
def execAddS (fd fs ft : FReg) (s : State) : Result :=
  arithResult s fd (fadd (readFpr s fs) (readFpr s ft))

/-- `sub.s` (R311). -/
def execSubS (fd fs ft : FReg) (s : State) : Result :=
  arithResult s fd (fsub (readFpr s fs) (readFpr s ft))

/-- `mul.s` (R312). -/
def execMulS (fd fs ft : FReg) (s : State) : Result :=
  arithResult s fd (flushProduct s (fmul (readFpr s fs) (readFpr s ft)))

/-- `div.s` (R313). -/
def execDivS (fd fs ft : FReg) (s : State) : Result :=
  arithResult s fd (fdiv (readFpr s fs) (readFpr s ft))

/-- `sqrt.s` (R314). -/
def execSqrtS (fd fs : FReg) (s : State) : Result :=
  arithResult s fd (fsqrt (readFpr s fs))

/-- `abs.s` (R315). -/
def execAbsS (fd fs : FReg) (s : State) : Result :=
  arithResult s fd (f32Abs (readFpr s fs))

/-- `mov.s` (R316). -/
def execMovS (fd fs : FReg) (s : State) : Result :=
  arithResult s fd (readFpr s fs)

/-- `neg.s` (R317). -/
def execNegS (fd fs : FReg) (s : State) : Result :=
  arithResult s fd (f32Flip (readFpr s fs))

/-- `cvt.w.s` (R322). -/
def execCvtWS (fd fs : FReg) (s : State) : Result :=
  complete (writeFpr s fd (toWord (readFpr s fs) (roundingMode s)))

/-- `round.w.s` (R323). -/
def execRoundWS (fd fs : FReg) (s : State) : Result :=
  complete (writeFpr s fd (toWord (readFpr s fs) 0#2))

/-- `trunc.w.s` (R324). -/
def execTruncWS (fd fs : FReg) (s : State) : Result :=
  complete (writeFpr s fd (toWord (readFpr s fs) 1#2))

/-- `ceil.w.s` (R325). -/
def execCeilWS (fd fs : FReg) (s : State) : Result :=
  complete (writeFpr s fd (toWord (readFpr s fs) 2#2))

/-- `floor.w.s` (R326). -/
def execFloorWS (fd fs : FReg) (s : State) : Result :=
  complete (writeFpr s fd (toWord (readFpr s fs) 3#2))

/-- `cvt.s.w` (R327). -/
def execCvtSW (fd fs : FReg) (s : State) : Result :=
  complete (writeFpr s fd (f32OfInt (readFpr s fs).toInt))

/-- `c.f.s` (R331). -/
def execCFS (fs ft : FReg) (s : State) : Result :=
  compareResult s 0#4 fs ft

/-- `c.un.s` (R332). -/
def execCUnS (fs ft : FReg) (s : State) : Result :=
  compareResult s 1#4 fs ft

/-- `c.eq.s` (R333). -/
def execCEqS (fs ft : FReg) (s : State) : Result :=
  compareResult s 2#4 fs ft

/-- `c.ueq.s` (R334). -/
def execCUeqS (fs ft : FReg) (s : State) : Result :=
  compareResult s 3#4 fs ft

/-- `c.olt.s` (R335). -/
def execCOltS (fs ft : FReg) (s : State) : Result :=
  compareResult s 4#4 fs ft

/-- `c.ult.s` (R336). -/
def execCUltS (fs ft : FReg) (s : State) : Result :=
  compareResult s 5#4 fs ft

/-- `c.ole.s` (R337). -/
def execCOleS (fs ft : FReg) (s : State) : Result :=
  compareResult s 6#4 fs ft

/-- `c.ule.s` (R338). -/
def execCUleS (fs ft : FReg) (s : State) : Result :=
  compareResult s 7#4 fs ft

/-- `c.sf.s` (R339). -/
def execCSfS (fs ft : FReg) (s : State) : Result :=
  compareResult s 8#4 fs ft

/-- `c.ngle.s` (R340). -/
def execCNgleS (fs ft : FReg) (s : State) : Result :=
  compareResult s 9#4 fs ft

/-- `c.seq.s` (R341). -/
def execCSeqS (fs ft : FReg) (s : State) : Result :=
  compareResult s 10#4 fs ft

/-- `c.ngl.s` (R342). -/
def execCNglS (fs ft : FReg) (s : State) : Result :=
  compareResult s 11#4 fs ft

/-- `c.lt.s` (R343). -/
def execCLtS (fs ft : FReg) (s : State) : Result :=
  compareResult s 12#4 fs ft

/-- `c.nge.s` (R344). -/
def execCNgeS (fs ft : FReg) (s : State) : Result :=
  compareResult s 13#4 fs ft

/-- `c.le.s` (R345). -/
def execCLeS (fs ft : FReg) (s : State) : Result :=
  compareResult s 14#4 fs ft

/-- `c.ngt.s` (R346). -/
def execCNgtS (fs ft : FReg) (s : State) : Result :=
  compareResult s 15#4 fs ft

/-- `ctc1` (R347). -/
def execCtc1 (rt : Reg) (cr : Fin 32) (s : State) : Result :=
  if cr.val = 31 then complete (writeFcr31 s (readGpr s rt))
  else raiseFault (.invalidControlRegister s.pc cr.val .write)

/-- `cfc1` (R348). -/
def execCfc1 (rt : Reg) (cr : Fin 32) (s : State) : Result :=
  match readControl s cr with
  | some v => complete (writeGpr s rt v)
  | none   => raiseFault (.invalidControlRegister s.pc cr.val .read)

/-- `mfc1` (R349). -/
def execMfc1 (rt : Reg) (fs : FReg) (s : State) : Result :=
  complete (writeGpr s rt (readFpr s fs))

/-- `mtc1` (R350). -/
def execMtc1 (rt : Reg) (fs : FReg) (s : State) : Result :=
  complete (writeFpr s fs (readGpr s rt))

end Sys2Proof.Machine
end

