-- ==== Sys2Proof/Machine/LoadStore.lean ====
section
/-! DEFINITION. Scalar loads and stores (spec/42_loadstore.md). A fault commits nothing (R220). -/
namespace Sys2Proof.Machine

/-- `lb` (R221). -/
def execLb (rt : Reg) (off16 : BitVec 16) (rs : Reg) (s : State) : Result :=
  orFault (memRead8 s (effAddr s rs off16)) fun v =>
    complete (writeGpr s rt (v.signExtend 32))

/-- `lbu` (R222). -/
def execLbu (rt : Reg) (off16 : BitVec 16) (rs : Reg) (s : State) : Result :=
  orFault (memRead8 s (effAddr s rs off16)) fun v =>
    complete (writeGpr s rt (v.zeroExtend 32))

/-- `lh` (R223). -/
def execLh (rt : Reg) (off16 : BitVec 16) (rs : Reg) (s : State) : Result :=
  orFault (memRead16 s (effAddr s rs off16)) fun v =>
    complete (writeGpr s rt (v.signExtend 32))

/-- `lhu` (R224). -/
def execLhu (rt : Reg) (off16 : BitVec 16) (rs : Reg) (s : State) : Result :=
  orFault (memRead16 s (effAddr s rs off16)) fun v =>
    complete (writeGpr s rt (v.zeroExtend 32))

/-- `lw` (R225). -/
def execLw (rt : Reg) (off16 : BitVec 16) (rs : Reg) (s : State) : Result :=
  orFault (memRead32 s (effAddr s rs off16)) fun v => complete (writeGpr s rt v)

/-- `sb` (R226). -/
def execSb (rt : Reg) (off16 : BitVec 16) (rs : Reg) (s : State) : Result :=
  orFault (memWrite8 s (effAddr s rs off16) ((readGpr s rt).extractLsb' 0 8)) complete

/-- `sh` (R227). -/
def execSh (rt : Reg) (off16 : BitVec 16) (rs : Reg) (s : State) : Result :=
  orFault (memWrite16 s (effAddr s rs off16) ((readGpr s rt).extractLsb' 0 16)) complete

/-- `sw` (R228). -/
def execSw (rt : Reg) (off16 : BitVec 16) (rs : Reg) (s : State) : Result :=
  orFault (memWrite32 s (effAddr s rs off16) (readGpr s rt)) complete

/-- `lwl` (R229). -/
def execLwl (rt : Reg) (off16 : BitVec 16) (rs : Reg) (s : State) : Result :=
  orFault (memRead32 s (wordAddr (effAddr s rs off16))) fun w =>
    complete (writeGpr s rt (mergeLeft w (readGpr s rt) (byteLane (effAddr s rs off16))))

/-- `lwr` (R230). -/
def execLwr (rt : Reg) (off16 : BitVec 16) (rs : Reg) (s : State) : Result :=
  orFault (memRead32 s (wordAddr (effAddr s rs off16))) fun w =>
    complete (writeGpr s rt (mergeRight w (readGpr s rt) (byteLane (effAddr s rs off16))))

/-- `swl` (R231): a read and a write of the aligned word, each asked for admission. -/
def execSwl (rt : Reg) (off16 : BitVec 16) (rs : Reg) (s : State) : Result :=
  orFault (memRead32 s (wordAddr (effAddr s rs off16))) fun w =>
    orFault (memWrite32 s (wordAddr (effAddr s rs off16))
      (storeLeft w (readGpr s rt) (byteLane (effAddr s rs off16)))) complete

/-- `swr` (R232): a read and a write of the aligned word, each asked for admission. -/
def execSwr (rt : Reg) (off16 : BitVec 16) (rs : Reg) (s : State) : Result :=
  orFault (memRead32 s (wordAddr (effAddr s rs off16))) fun w =>
    orFault (memWrite32 s (wordAddr (effAddr s rs off16))
      (storeRight w (readGpr s rt) (byteLane (effAddr s rs off16)))) complete

/-- `lwc1` (R235). -/
def execLwc1 (ft : FReg) (off16 : BitVec 16) (rs : Reg) (s : State) : Result :=
  orFault (memRead32 s (effAddr s rs off16)) fun v => complete (writeFpr s ft v)

/-- `swc1` (R236). -/
def execSwc1 (ft : FReg) (off16 : BitVec 16) (rs : Reg) (s : State) : Result :=
  orFault (memWrite32 s (effAddr s rs off16) (readFpr s ft)) complete

/-- `ll` (R240): as `lw`; no reservation is recorded. -/
def execLl (rt : Reg) (off16 : BitVec 16) (rs : Reg) (s : State) : Result :=
  orFault (memRead32 s (effAddr s rs off16)) fun v => complete (writeGpr s rt v)

/-- `sc` (R241): the store always succeeds and writes 1. -/
def execSc (rt : Reg) (off16 : BitVec 16) (rs : Reg) (s : State) : Result :=
  orFault (memWrite32 s (effAddr s rs off16) (readGpr s rt)) fun t => complete (writeGpr t rt 1#32)

end Sys2Proof.Machine
end

