-- ==== Sys2Proof/Machine/MulDiv.lean ====
section
/-! DEFINITION. Multiply, divide and the accumulator `HILO` (spec/41_muldiv.md). -/
namespace Sys2Proof.Machine

/-- The signed 64-bit product (R200). -/
def signedProduct (a b : Word) : BitVec 64 := a.signExtend 64 * b.signExtend 64

/-- The unsigned 64-bit product (R201). -/
def unsignedProduct (a b : Word) : BitVec 64 := a.zeroExtend 64 * b.zeroExtend 64

/-- `mult` (R200). -/
def execMult (rs rt : Reg) (s : State) : Result :=
  complete (writeHilo s (signedProduct (readGpr s rs) (readGpr s rt)))

/-- `multu` (R201). -/
def execMultu (rs rt : Reg) (s : State) : Result :=
  complete (writeHilo s (unsignedProduct (readGpr s rs) (readGpr s rt)))

/-- `div` (R202): truncating; the quotient of the most negative number by -1 wraps. -/
def execDiv (rs rt : Reg) (s : State) : Result :=
  if readGpr s rt = 0#32 then raiseFault (.divideByZero s.pc)
  else complete { s with lo := (readGpr s rs).sdiv (readGpr s rt), hi := (readGpr s rs).srem (readGpr s rt) }

/-- `divu` (R203): a zero divisor gives 0 and 0. -/
def execDivu (rs rt : Reg) (s : State) : Result :=
  if readGpr s rt = 0#32 then complete { s with lo := 0#32, hi := 0#32 }
  else complete { s with lo := readGpr s rs / readGpr s rt, hi := readGpr s rs % readGpr s rt }

/-- `madd` (R204). -/
def execMadd (rs rt : Reg) (s : State) : Result :=
  complete (writeHilo s (readHilo s + signedProduct (readGpr s rs) (readGpr s rt)))

/-- `maddu` (R205). -/
def execMaddu (rs rt : Reg) (s : State) : Result :=
  complete (writeHilo s (readHilo s + unsignedProduct (readGpr s rs) (readGpr s rt)))

/-- `msub` (R206). -/
def execMsub (rs rt : Reg) (s : State) : Result :=
  complete (writeHilo s (readHilo s - signedProduct (readGpr s rs) (readGpr s rt)))

/-- `msubu` (R207). -/
def execMsubu (rs rt : Reg) (s : State) : Result :=
  complete (writeHilo s (readHilo s - unsignedProduct (readGpr s rs) (readGpr s rt)))

/-- `mfhi` (R208). -/
def execMfhi (rd : Reg) (s : State) : Result :=
  complete (writeGpr s rd (s.hi))

/-- `mflo` (R209). -/
def execMflo (rd : Reg) (s : State) : Result :=
  complete (writeGpr s rd (s.lo))

/-- `mthi` (R210). -/
def execMthi (rs : Reg) (s : State) : Result :=
  complete { s with hi := readGpr s rs }

/-- `mtlo` (R211). -/
def execMtlo (rs : Reg) (s : State) : Result :=
  complete { s with lo := readGpr s rs }

end Sys2Proof.Machine
end

