-- ==== Sys2Proof/Machine/System.lean ====
section
/-! DEFINITION. System instructions (spec/48_system.md). -/
namespace Sys2Proof.Machine

/-- `syscall` (R600). -/
def execSyscall (code20 : BitVec 20) (s : State) : Result :=
  raiseTrap s .syscall code20

/-- `break` (R601). -/
def execBrk (code20 : BitVec 20) (s : State) : Result :=
  raiseTrap s .brk code20

/-- `sync` (R603). -/
def execSync (s : State) : Result :=
  complete s

/-- `cache` (R604): no address is formed, nothing is touched. -/
def execCache (_off16 : BitVec 16) (_rs : Reg) (s : State) : Result :=
  complete s

/-- `mfic` (R606). -/
def execMfic (rt : Reg) (s : State) : Result :=
  complete (writeGpr s rt (s.ic))

/-- `mtic` (R607). -/
def execMtic (rt : Reg) (s : State) : Result :=
  complete { s with ic := readGpr s rt }

/-- `mfc0` (R610, Tier U). -/
def execMfc0 (s : State) : Result :=
  unimplemented s "mfc0"

/-- `mtc0` (R611, Tier U). -/
def execMtc0 (s : State) : Result :=
  unimplemented s "mtc0"

/-- `cfc0` (R612, Tier U). -/
def execCfc0 (s : State) : Result :=
  unimplemented s "cfc0"

/-- `ctc0` (R613, Tier U). -/
def execCtc0 (s : State) : Result :=
  unimplemented s "ctc0"

/-- `eret` (R614, Tier U). -/
def execEret (s : State) : Result :=
  unimplemented s "eret"

/-- `halt` (R615, Tier U). -/
def execHalt (s : State) : Result :=
  unimplemented s "halt"

/-- `dret` (R616, Tier U). -/
def execDret (s : State) : Result :=
  unimplemented s "dret"

/-- `dbreak` (R617, Tier U). -/
def execDbreak (s : State) : Result :=
  unimplemented s "dbreak"

/-- `mfdr` (R618, Tier U). -/
def execMfdr (s : State) : Result :=
  unimplemented s "mfdr"

/-- `mtdr` (R619, Tier U). -/
def execMtdr (s : State) : Result :=
  unimplemented s "mtdr"

end Sys2Proof.Machine
end

