-- ==== Sys2Proof/Machine/Vfpu.lean ====
section
/-! DEFINITION. VFPU prefix setters (spec/45_vfpu_regs_prefix.md R377 to R379) and VFPU operations
(spec/46_vfpu_ops.md sections 2 to 7). None touches `FCR31`, `HI`, `LO` (R400). -/
namespace Sys2Proof.Machine

/-- The latch a prefix instruction sets (R370): enabled, with its descriptor. -/
def setLatch (value : Word) : PrefixLatch := ⟨true, value⟩

/-- The end of a vector instruction: the destination transform, the masked write, consumption (R375, R376,
spec/46_vfpu_ops.md section 5). -/
def finishVec (s : State) (sel : Sel) (sz : VSize) (d : List Word) : Result :=
  complete (consume (writeVec s sel sz (applyD s.pfxd d)))

/-- The operand `vs` after its prefix (R373). -/
def operandS (s : State) (vs : Sel) (sz : VSize) : Option (List Word) := applyST s.cfg s.pfxs (readVec s vs sz)

/-- The operand `vt` after its prefix (R373). -/
def operandT (s : State) (vt : Sel) (sz : VSize) : Option (List Word) := applyST s.cfg s.pfxt (readVec s vt sz)

/-- The frame of a two-operand rule (spec/46_vfpu_ops.md section 5). -/
def vectorUnary (f : Word → Word) (sz : VSize) (vd vs : Sel) (s : State) : Result :=
  match operandS s vs sz with
  | some a => finishVec s vd sz (a.map f)
  | none   => reservedOperand s

/-- The frame of a three-operand rule (spec/46_vfpu_ops.md section 5). -/
def vectorBinary (f : Word → Word → Word) (sz : VSize) (vd vs vt : Sel) (s : State) : Result :=
  match operandS s vs sz, operandT s vt sz with
  | some a, some b => finishVec s vd sz (List.zipWith f a b)
  | _, _           => reservedOperand s

/-- Products summed left to right from `+0.0`, each step rounded (R380). -/
def dotFrom (acc : Word) : List (Word × Word) → Word
  | [] => acc
  | (a, b) :: rest => dotFrom (fadd acc (fmul a b)) rest

/-- The frame of a matrix instruction: side 1 is a reserved operand; no prefix is applied, all are consumed
(R376, R400). -/
def matrixResult (s : State) (sz : VSize) (vd : Sel) (x : Nat → Nat → Word) : Result :=
  if sz = .single then reservedOperand s else complete (consume (writeMat s vd sz x))

/-- The entry `D[a][b]` of the product (R414). -/
def productEntry (s : State) (sz : VSize) (vs vt : Sel) (a b : Nat) : Word :=
  dotFrom 0#32 ((List.range sz.lanes).map fun c => (readMat s vs sz b c, readMat s vt sz a c))

/-- The lanes of `vrot`: the cosine wins where both name one lane, `+0.0` elsewhere (R420). -/
def rotationLanes (sz : VSize) (imm5 : BitVec 5) (sn cs : Word) : List Word :=
  (List.range sz.lanes).map fun i =>
    if i = (imm5.extractLsb' 0 2).toNat then cs
    else if i = (imm5.extractLsb' 2 2).toNat then sn
    else 0#32

/-- The sine of `vrot`, negated where `ng` says so (R420). -/
def rotationSine (imm5 : BitVec 5) (a : Word) : Word :=
  if imm5.getLsbD 4 then f32Flip (vsin a) else vsin a

/-- The conversion of `vt4444.q` (R425). -/
def pack4444 (p : Word) : BitVec 16 :=
  p.extractLsb' 28 4 ++ p.extractLsb' 20 4 ++ p.extractLsb' 12 4 ++ p.extractLsb' 4 4

/-- The conversion of `vt5551.q` (R426). -/
def pack5551 (p : Word) : BitVec 16 :=
  p.extractLsb' 31 1 ++ p.extractLsb' 19 5 ++ p.extractLsb' 11 5 ++ p.extractLsb' 3 5

/-- The conversion of `vt5650.q` (R427). -/
def pack5650 (p : Word) : BitVec 16 :=
  p.extractLsb' 19 5 ++ p.extractLsb' 10 6 ++ p.extractLsb' 3 5

/-- The words of the pair a colour conversion writes, from lanes 0 and 1 and lanes 2 and 3
(spec/46_vfpu_ops.md section 4). -/
def packedPair (s : State) (conv : Word → BitVec 16) (vs : Sel) : List (Word × Bool) :=
  [(conv (readVfr s (laneSlot s.cfg vs .quad 1)) ++ conv (readVfr s (laneSlot s.cfg vs .quad 0)), false),
   (conv (readVfr s (laneSlot s.cfg vs .quad 3)) ++ conv (readVfr s (laneSlot s.cfg vs .quad 2)), false)]

/-- The frame of a colour conversion: a size that is not quad is a reserved operand
(spec/46_vfpu_ops.md section 4). -/
def colourPack (conv : Word → BitVec 16) (sz : VSize) (vd vs : Sel) (s : State) : Result :=
  if sz = .quad then complete (consume (writeVec s vd .pair (packedPair s conv vs)))
  else reservedOperand s

/-- `vpfxs` (R377). -/
def execVpfxs (imm20 : BitVec 20) (s : State) : Result :=
  complete { s with pfxs := setLatch (imm20.zeroExtend 32) }

/-- `vpfxt` (R378). -/
def execVpfxt (imm20 : BitVec 20) (s : State) : Result :=
  complete { s with pfxt := setLatch (imm20.zeroExtend 32) }

/-- `vpfxd` (R379). -/
def execVpfxd (imm12 : BitVec 12) (s : State) : Result :=
  complete { s with pfxd := setLatch (imm12.zeroExtend 32) }

/-- `vmzero` (R410). -/
def execVmzero (sz : VSize) (vd : Sel) (s : State) : Result :=
  matrixResult s sz vd fun _ _ => 0#32

/-- `vmone` (R411). -/
def execVmone (sz : VSize) (vd : Sel) (s : State) : Result :=
  matrixResult s sz vd fun _ _ => 0x3F800000#32

/-- `vmidt` (R412). -/
def execVmidt (sz : VSize) (vd : Sel) (s : State) : Result :=
  matrixResult s sz vd fun j i => if i = j then 0x3F800000#32 else 0#32

/-- `vmmov` (R413). -/
def execVmmov (sz : VSize) (vd vs : Sel) (s : State) : Result :=
  matrixResult s sz vd (readMat s vs sz)

/-- `vmmul` (R414). -/
def execVmmul (sz : VSize) (vd vs vt : Sel) (s : State) : Result :=
  matrixResult s sz vd (productEntry s sz vs vt)

/-- `vrot` (R420). -/
def execVrot (sz : VSize) (vd vs : Sel) (imm5 : BitVec 5) (s : State) : Result :=
  match operandS s vs .single with
  | some [a] => finishVec s vd sz (rotationLanes sz imm5 (rotationSine imm5 a) (vcos a))
  | _        => reservedOperand s

/-- `vt4444.q` (R425). -/
def execVt4444Q (sz : VSize) (vd vs : Sel) (s : State) : Result :=
  colourPack pack4444 sz vd vs s

/-- `vt5551.q` (R426). -/
def execVt5551Q (sz : VSize) (vd vs : Sel) (s : State) : Result :=
  colourPack pack5551 sz vd vs s

/-- `vt5650.q` (R427). -/
def execVt5650Q (sz : VSize) (vd vs : Sel) (s : State) : Result :=
  colourPack pack5650 sz vd vs s

/-- `vadd` (R430). -/
def execVadd (sz : VSize) (vd vs vt : Sel) (s : State) : Result :=
  vectorBinary fadd sz vd vs vt s

/-- `vsub` (R431). -/
def execVsub (sz : VSize) (vd vs vt : Sel) (s : State) : Result :=
  vectorBinary fsub sz vd vs vt s

/-- `vmul` (R432). -/
def execVmul (sz : VSize) (vd vs vt : Sel) (s : State) : Result :=
  vectorBinary fmul sz vd vs vt s

/-- `vdiv` (R433). -/
def execVdiv (sz : VSize) (vd vs vt : Sel) (s : State) : Result :=
  vectorBinary fdiv sz vd vs vt s

/-- `vmov` (R434). -/
def execVmov (sz : VSize) (vd vs : Sel) (s : State) : Result :=
  vectorUnary id sz vd vs s

/-- `vabs` (R435). -/
def execVabs (sz : VSize) (vd vs : Sel) (s : State) : Result :=
  vectorUnary f32Abs sz vd vs s

/-- `vneg` (R436). -/
def execVneg (sz : VSize) (vd vs : Sel) (s : State) : Result :=
  vectorUnary f32Flip sz vd vs s

/-- `vzero` (R437). -/
def execVzero (sz : VSize) (vd : Sel) (s : State) : Result :=
  finishVec s vd sz (List.replicate sz.lanes 0#32)

/-- `vone` (R438). -/
def execVone (sz : VSize) (vd : Sel) (s : State) : Result :=
  finishVec s vd sz (List.replicate sz.lanes 0x3F800000#32)

/-- `vscl` (R439). -/
def execVscl (sz : VSize) (vd vs vt : Sel) (s : State) : Result :=
  match operandS s vs sz, operandT s vt .single with
  | some a, some [k] => finishVec s vd sz (a.map fun x => fmul x k)
  | _, _             => reservedOperand s

/-- `vdot` (R440). -/
def execVdot (sz : VSize) (vd vs vt : Sel) (s : State) : Result :=
  match operandS s vs sz, operandT s vt sz with
  | some a, some b => finishVec s vd .single [dotFrom 0#32 (a.zip b)]
  | _, _           => reservedOperand s

/-- `viim.s` (R441). -/
def execViimS (vt : Sel) (imm16 : BitVec 16) (s : State) : Result :=
  finishVec s vt .single [f32OfInt imm16.toInt]

/-- `mtv` (R442). -/
def execMtv (rt : Reg) (vd : Sel) (s : State) : Result :=
  complete (writeVfr s (singleSlot s.cfg vd) (readGpr s rt))

/-- `mfv` (R443). -/
def execMfv (rt : Reg) (vd : Sel) (s : State) : Result :=
  complete (writeGpr s rt (readVfr s (singleSlot s.cfg vd)))

/-- `vnop` (R446). -/
def execVnop (s : State) : Result :=
  complete s

/-- `vsync` (R447). -/
def execVsync (s : State) : Result :=
  complete s

/-- `vflush` (R448). -/
def execVflush (s : State) : Result :=
  complete s

end Sys2Proof.Machine
end

