-- ==== Sys2Proof/Machine/VfpuMem.lean ====
section
/-! DEFINITION. VFPU loads and stores (spec/46_vfpu_ops.md section 1): raw words, no prefix applied, none
consumed; every address is tested before the first write. -/
namespace Sys2Proof.Machine

/-- The test of a vector access: the alignment of its effective address, then every word's admission in
the order given (R401 to R406, R639; log entry 19). -/
def vectorFault (s : State) (ea : Word) (align : Nat) (kind : AccessKind) (addrs : List Word) :
    Option Fault :=
  if (maskAddr s ea).toNat % align ≠ 0 then some (.misaligned (maskAddr s ea) align kind)
  else firstWordFault s kind addrs

/-- A vector load into slots, each with its address (R401 to R407). -/
def vectorLoad (s : State) (fault : Option Fault) (cells : List (Slot × Word)) : Result :=
  match fault with
  | some f => raiseFault f
  | none   => complete { s with vfr := writeSlots s.vfr (cells.map fun c => (c.1, wordAt s c.2, false)) }

/-- A vector store from slots, each with its address (R402 to R408). -/
def vectorStore (s : State) (fault : Option Fault) (cells : List (Slot × Word)) : Result :=
  match fault with
  | some f => raiseFault f
  | none   => complete (storeWords s (cells.map fun c => (c.2, readVfr s c.1)))

/-- The place of `ea` in its 16-byte line, `k = (ea >> 2) & 3` (R403). -/
def lineIndex (ea : Word) : Nat := ((ea >>> 2) &&& 3#32).toNat

/-- The four lanes of a quad with their addresses (R401). -/
def quadCells (c : Config) (vt : BitVec 6) (ea : Word) : List (Slot × Word) :=
  (List.range 4).map fun i => (laneSlot c (quadSel vt) .quad i, ea + BitVec.ofNat 32 (4 * i))

/-- The high lanes and the words up to `ea` (R403). -/
def leftCells (c : Config) (vt : BitVec 6) (ea : Word) : List (Slot × Word) :=
  (List.range (lineIndex ea + 1)).map fun i =>
    (laneSlot c (quadSel vt) .quad (3 - i), ea - BitVec.ofNat 32 (4 * i))

/-- The low lanes and the words from `ea` (R404). -/
def rightCells (c : Config) (vt : BitVec 6) (ea : Word) : List (Slot × Word) :=
  (List.range (4 - lineIndex ea)).map fun i =>
    (laneSlot c (quadSel vt) .quad i, ea + BitVec.ofNat 32 (4 * i))

/-- The addresses of cells, in their order. -/
def cellAddrs (cells : List (Slot × Word)) : List Word := cells.map fun c => c.2

/-- `lv.q` (R401). -/
def execLvQ (vt6 : BitVec 6) (off14 : BitVec 14) (rs : Reg) (s : State) : Result :=
  vectorLoad s (vectorFault s (vecAddr s rs off14) 16 .load (cellAddrs (quadCells s.cfg vt6 (vecAddr s rs off14))))
    (quadCells s.cfg vt6 (vecAddr s rs off14))

/-- `sv.q` (R402). -/
def execSvQ (vt6 : BitVec 6) (off14 : BitVec 14) (rs : Reg) (s : State) : Result :=
  vectorStore s (vectorFault s (vecAddr s rs off14) 16 .store (cellAddrs (quadCells s.cfg vt6 (vecAddr s rs off14))))
    (quadCells s.cfg vt6 (vecAddr s rs off14))

/-- `lvl.q` (R403). -/
def execLvlQ (vt6 : BitVec 6) (off14 : BitVec 14) (rs : Reg) (s : State) : Result :=
  vectorLoad s (vectorFault s (vecAddr s rs off14) 4 .load ((cellAddrs (leftCells s.cfg vt6 (vecAddr s rs off14))).reverse))
    (leftCells s.cfg vt6 (vecAddr s rs off14))

/-- `lvr.q` (R404). -/
def execLvrQ (vt6 : BitVec 6) (off14 : BitVec 14) (rs : Reg) (s : State) : Result :=
  vectorLoad s (vectorFault s (vecAddr s rs off14) 4 .load (cellAddrs (rightCells s.cfg vt6 (vecAddr s rs off14))))
    (rightCells s.cfg vt6 (vecAddr s rs off14))

/-- `svl.q` (R405). -/
def execSvlQ (vt6 : BitVec 6) (off14 : BitVec 14) (rs : Reg) (s : State) : Result :=
  vectorStore s (vectorFault s (vecAddr s rs off14) 4 .store ((cellAddrs (leftCells s.cfg vt6 (vecAddr s rs off14))).reverse))
    (leftCells s.cfg vt6 (vecAddr s rs off14))

/-- `svr.q` (R406). -/
def execSvrQ (vt6 : BitVec 6) (off14 : BitVec 14) (rs : Reg) (s : State) : Result :=
  vectorStore s (vectorFault s (vecAddr s rs off14) 4 .store (cellAddrs (rightCells s.cfg vt6 (vecAddr s rs off14))))
    (rightCells s.cfg vt6 (vecAddr s rs off14))

/-- `lv.s` (R407). -/
def execLvS (vt : Sel) (off14 : BitVec 14) (rs : Reg) (s : State) : Result :=
  orFault (memRead32 s (vecAddr s rs off14)) fun v => complete (writeVfr s (singleSlot s.cfg vt) v)

/-- `sv.s` (R408). -/
def execSvS (vt : Sel) (off14 : BitVec 14) (rs : Reg) (s : State) : Result :=
  orFault (memWrite32 s (vecAddr s rs off14) (readVfr s (singleSlot s.cfg vt))) complete

end Sys2Proof.Machine
end

