-- ==== Sys2Proof/Machine/VfpuUnimplemented.lean ====
section
/-! DEFINITION. The VFPU rows of Tier U (spec/47_vfpu_unimplemented.md): each raises
`Fault(Unimplemented)` with its mnemonic and commits nothing (R460). -/
namespace Sys2Proof.Machine

/-- `vsin` (R461, Tier U). -/
def execVsin (_sz : VSize) (_vd _vs : Sel) (s : State) : Result :=
  unimplemented s "vsin"

/-- `vcos` (R462, Tier U). -/
def execVcos (_sz : VSize) (_vd _vs : Sel) (s : State) : Result :=
  unimplemented s "vcos"

/-- `vsqrt` (R463, Tier U). -/
def execVsqrt (_sz : VSize) (_vd _vs : Sel) (s : State) : Result :=
  unimplemented s "vsqrt"

/-- `vtfm2` (R464, Tier U). -/
def execVtfm2 (_vd _vs _vt : Sel) (s : State) : Result :=
  unimplemented s "vtfm2"

/-- `vtfm3` (R465, Tier U). -/
def execVtfm3 (_vd _vs _vt : Sel) (s : State) : Result :=
  unimplemented s "vtfm3"

/-- `vtfm4` (R466, Tier U). -/
def execVtfm4 (_vd _vs _vt : Sel) (s : State) : Result :=
  unimplemented s "vtfm4"

/-- `vcrs.t` (R467, Tier U). -/
def execVcrsT (_vd _vs _vt : Sel) (s : State) : Result :=
  unimplemented s "vcrs.t"

/-- `vsrt1` (R468, Tier U). -/
def execVsrt1 (_sz : VSize) (_vd _vs : Sel) (s : State) : Result :=
  unimplemented s "vsrt1"

/-- `vsrt2` (R469, Tier U). -/
def execVsrt2 (_sz : VSize) (_vd _vs : Sel) (s : State) : Result :=
  unimplemented s "vsrt2"

/-- `vsrt3` (R470, Tier U). -/
def execVsrt3 (_sz : VSize) (_vd _vs : Sel) (s : State) : Result :=
  unimplemented s "vsrt3"

/-- `vsrt4` (R471, Tier U). -/
def execVsrt4 (_sz : VSize) (_vd _vs : Sel) (s : State) : Result :=
  unimplemented s "vsrt4"

/-- `vhtfm2` (R472, Tier U). -/
def execVhtfm2 (_vd _vs _vt : Sel) (s : State) : Result :=
  unimplemented s "vhtfm2"

/-- `vhtfm3` (R473, Tier U). -/
def execVhtfm3 (_vd _vs _vt : Sel) (s : State) : Result :=
  unimplemented s "vhtfm3"

/-- `vhtfm4` (R474, Tier U). -/
def execVhtfm4 (_vd _vs _vt : Sel) (s : State) : Result :=
  unimplemented s "vhtfm4"

/-- `vsbn` (R475, Tier U). -/
def execVsbn (_sz : VSize) (_vd _vs _vt : Sel) (s : State) : Result :=
  unimplemented s "vsbn"

/-- `vhdp` (R476, Tier U). -/
def execVhdp (_sz : VSize) (_vd _vs _vt : Sel) (s : State) : Result :=
  unimplemented s "vhdp"

/-- `vdet` (R477, Tier U). -/
def execVdet (_sz : VSize) (_vd _vs _vt : Sel) (s : State) : Result :=
  unimplemented s "vdet"

/-- `vcmp` (R478, Tier U). -/
def execVcmp (_sz : VSize) (_imm4 : BitVec 4) (_vs _vt : Sel) (s : State) : Result :=
  unimplemented s "vcmp"

/-- `vmin` (R479, Tier U). -/
def execVmin (_sz : VSize) (_vd _vs _vt : Sel) (s : State) : Result :=
  unimplemented s "vmin"

/-- `vmax` (R480, Tier U). -/
def execVmax (_sz : VSize) (_vd _vs _vt : Sel) (s : State) : Result :=
  unimplemented s "vmax"

/-- `vscmp` (R481, Tier U). -/
def execVscmp (_sz : VSize) (_vd _vs _vt : Sel) (s : State) : Result :=
  unimplemented s "vscmp"

/-- `vsge` (R482, Tier U). -/
def execVsge (_sz : VSize) (_vd _vs _vt : Sel) (s : State) : Result :=
  unimplemented s "vsge"

/-- `vslt` (R483, Tier U). -/
def execVslt (_sz : VSize) (_vd _vs _vt : Sel) (s : State) : Result :=
  unimplemented s "vslt"

/-- `vidt` (R484, Tier U). -/
def execVidt (_sz : VSize) (_vd : Sel) (s : State) : Result :=
  unimplemented s "vidt"

/-- `vsat0` (R485, Tier U). -/
def execVsat0 (_sz : VSize) (_vd _vs : Sel) (s : State) : Result :=
  unimplemented s "vsat0"

/-- `vsat1` (R486, Tier U). -/
def execVsat1 (_sz : VSize) (_vd _vs : Sel) (s : State) : Result :=
  unimplemented s "vsat1"

/-- `vrcp` (R487, Tier U). -/
def execVrcp (_sz : VSize) (_vd _vs : Sel) (s : State) : Result :=
  unimplemented s "vrcp"

/-- `vrsq` (R488, Tier U). -/
def execVrsq (_sz : VSize) (_vd _vs : Sel) (s : State) : Result :=
  unimplemented s "vrsq"

/-- `vexp2` (R489, Tier U). -/
def execVexp2 (_sz : VSize) (_vd _vs : Sel) (s : State) : Result :=
  unimplemented s "vexp2"

/-- `vlog2` (R490, Tier U). -/
def execVlog2 (_sz : VSize) (_vd _vs : Sel) (s : State) : Result :=
  unimplemented s "vlog2"

/-- `vasin` (R491, Tier U). -/
def execVasin (_sz : VSize) (_vd _vs : Sel) (s : State) : Result :=
  unimplemented s "vasin"

/-- `vnrcp` (R492, Tier U). -/
def execVnrcp (_sz : VSize) (_vd _vs : Sel) (s : State) : Result :=
  unimplemented s "vnrcp"

/-- `vnsin` (R493, Tier U). -/
def execVnsin (_sz : VSize) (_vd _vs : Sel) (s : State) : Result :=
  unimplemented s "vnsin"

/-- `vrexp2` (R494, Tier U). -/
def execVrexp2 (_sz : VSize) (_vd _vs : Sel) (s : State) : Result :=
  unimplemented s "vrexp2"

/-- `vrnds` (R495, Tier U). -/
def execVrnds (_sz : VSize) (_vs : Sel) (s : State) : Result :=
  unimplemented s "vrnds"

/-- `vrndi` (R496, Tier U). -/
def execVrndi (_sz : VSize) (_vd : Sel) (s : State) : Result :=
  unimplemented s "vrndi"

/-- `vrndf1` (R497, Tier U). -/
def execVrndf1 (_sz : VSize) (_vd : Sel) (s : State) : Result :=
  unimplemented s "vrndf1"

/-- `vrndf2` (R498, Tier U). -/
def execVrndf2 (_sz : VSize) (_vd : Sel) (s : State) : Result :=
  unimplemented s "vrndf2"

/-- `vf2h` (R499, Tier U). -/
def execVf2h (_sz : VSize) (_vd _vs : Sel) (s : State) : Result :=
  unimplemented s "vf2h"

/-- `vh2f` (R500, Tier U). -/
def execVh2f (_sz : VSize) (_vd _vs : Sel) (s : State) : Result :=
  unimplemented s "vh2f"

/-- `vsbz` (R501, Tier U). -/
def execVsbz (_sz : VSize) (_vd _vs : Sel) (s : State) : Result :=
  unimplemented s "vsbz"

/-- `vlgb` (R502, Tier U). -/
def execVlgb (_sz : VSize) (_vd _vs : Sel) (s : State) : Result :=
  unimplemented s "vlgb"

/-- `vuc2i` (R503, Tier U). -/
def execVuc2i (_sz : VSize) (_vd _vs : Sel) (s : State) : Result :=
  unimplemented s "vuc2i"

/-- `vc2i` (R504, Tier U). -/
def execVc2i (_sz : VSize) (_vd _vs : Sel) (s : State) : Result :=
  unimplemented s "vc2i"

/-- `vus2i` (R505, Tier U). -/
def execVus2i (_sz : VSize) (_vd _vs : Sel) (s : State) : Result :=
  unimplemented s "vus2i"

/-- `vs2i` (R506, Tier U). -/
def execVs2i (_sz : VSize) (_vd _vs : Sel) (s : State) : Result :=
  unimplemented s "vs2i"

/-- `vi2uc` (R507, Tier U). -/
def execVi2uc (_sz : VSize) (_vd _vs : Sel) (s : State) : Result :=
  unimplemented s "vi2uc"

/-- `vi2c` (R508, Tier U). -/
def execVi2c (_sz : VSize) (_vd _vs : Sel) (s : State) : Result :=
  unimplemented s "vi2c"

/-- `vi2us` (R509, Tier U). -/
def execVi2us (_sz : VSize) (_vd _vs : Sel) (s : State) : Result :=
  unimplemented s "vi2us"

/-- `vi2s` (R510, Tier U). -/
def execVi2s (_sz : VSize) (_vd _vs : Sel) (s : State) : Result :=
  unimplemented s "vi2s"

/-- `vbfy1` (R511, Tier U). -/
def execVbfy1 (_sz : VSize) (_vd _vs : Sel) (s : State) : Result :=
  unimplemented s "vbfy1"

/-- `vbfy2` (R512, Tier U). -/
def execVbfy2 (_sz : VSize) (_vd _vs : Sel) (s : State) : Result :=
  unimplemented s "vbfy2"

/-- `vocp` (R513, Tier U). -/
def execVocp (_sz : VSize) (_vd _vs : Sel) (s : State) : Result :=
  unimplemented s "vocp"

/-- `vsocp` (R514, Tier U). -/
def execVsocp (_sz : VSize) (_vd _vs : Sel) (s : State) : Result :=
  unimplemented s "vsocp"

/-- `vfad` (R515, Tier U). -/
def execVfad (_sz : VSize) (_vd _vs : Sel) (s : State) : Result :=
  unimplemented s "vfad"

/-- `vavg` (R516, Tier U). -/
def execVavg (_sz : VSize) (_vd _vs : Sel) (s : State) : Result :=
  unimplemented s "vavg"

/-- `vsgn` (R517, Tier U). -/
def execVsgn (_sz : VSize) (_vd _vs : Sel) (s : State) : Result :=
  unimplemented s "vsgn"

/-- `vmfvc` (R518, Tier U). -/
def execVmfvc (_vd : Sel) (_imm7 : BitVec 7) (s : State) : Result :=
  unimplemented s "vmfvc"

/-- `vmtvc` (R519, Tier U). -/
def execVmtvc (_imm7 : BitVec 7) (_vs : Sel) (s : State) : Result :=
  unimplemented s "vmtvc"

/-- `vcst` (R520, Tier U). -/
def execVcst (_sz : VSize) (_vd : Sel) (_imm5 : BitVec 5) (s : State) : Result :=
  unimplemented s "vcst"

/-- `vf2in` (R521, Tier U). -/
def execVf2in (_sz : VSize) (_vd _vs : Sel) (_imm5 : BitVec 5) (s : State) : Result :=
  unimplemented s "vf2in"

/-- `vf2iz` (R522, Tier U). -/
def execVf2iz (_sz : VSize) (_vd _vs : Sel) (_imm5 : BitVec 5) (s : State) : Result :=
  unimplemented s "vf2iz"

/-- `vf2iu` (R523, Tier U). -/
def execVf2iu (_sz : VSize) (_vd _vs : Sel) (_imm5 : BitVec 5) (s : State) : Result :=
  unimplemented s "vf2iu"

/-- `vf2id` (R524, Tier U). -/
def execVf2id (_sz : VSize) (_vd _vs : Sel) (_imm5 : BitVec 5) (s : State) : Result :=
  unimplemented s "vf2id"

/-- `vi2f` (R525, Tier U). -/
def execVi2f (_sz : VSize) (_vd _vs : Sel) (_imm5 : BitVec 5) (s : State) : Result :=
  unimplemented s "vi2f"

/-- `vcmovt` (R526, Tier U). -/
def execVcmovt (_sz : VSize) (_vd _vs : Sel) (_imm3 : BitVec 3) (s : State) : Result :=
  unimplemented s "vcmovt"

/-- `vcmovf` (R527, Tier U). -/
def execVcmovf (_sz : VSize) (_vd _vs : Sel) (_imm3 : BitVec 3) (s : State) : Result :=
  unimplemented s "vcmovf"

/-- `vwbn` (R528, Tier U). -/
def execVwbn (_sz : VSize) (_vd _vs : Sel) (_imm8 : BitVec 8) (s : State) : Result :=
  unimplemented s "vwbn"

/-- `vmscl` (R529, Tier U). -/
def execVmscl (_sz : VSize) (_vd _vs _vt : Sel) (s : State) : Result :=
  unimplemented s "vmscl"

/-- `vcrsp.t` (R530, Tier U). -/
def execVcrspT (_vd _vs _vt : Sel) (s : State) : Result :=
  unimplemented s "vcrsp.t"

/-- `vqmul.q` (R531, Tier U). -/
def execVqmulQ (_vd _vs _vt : Sel) (s : State) : Result :=
  unimplemented s "vqmul.q"

/-- `vfim.s` (R532, Tier U). -/
def execVfimS (_vt : Sel) (_imm16 : BitVec 16) (s : State) : Result :=
  unimplemented s "vfim.s"

/-- `mfvc` (R533, Tier U). -/
def execMfvc (_rt : Reg) (_vd : Sel) (s : State) : Result :=
  unimplemented s "mfvc"

/-- `mtvc` (R534, Tier U). -/
def execMtvc (_rt : Reg) (_vd : Sel) (s : State) : Result :=
  unimplemented s "mtvc"

end Sys2Proof.Machine
end

