-- ==== Sys2Proof/Machine/Dispatch.lean ====
section
/-! DEFINITION. The one match over instructions: each arm calls the instruction's meaning. -/
namespace Sys2Proof.Machine

/-- Executing an instruction (spec/60_exceptions.md R630 step 6). -/
def exec (i : Instr) (s : State) : Host.Outcome State Fault Refusal :=
  match i with
  | .add rd rs rt => Sys2Proof.Machine.execAdd rd rs rt s
  | .addu rd rs rt => Sys2Proof.Machine.execAddu rd rs rt s
  | .addi rt rs imm16 => Sys2Proof.Machine.execAddi rt rs imm16 s
  | .addiu rt rs imm16 => Sys2Proof.Machine.execAddiu rt rs imm16 s
  | .sub rd rs rt => Sys2Proof.Machine.execSub rd rs rt s
  | .subu rd rs rt => Sys2Proof.Machine.execSubu rd rs rt s
  | .and rd rs rt => Sys2Proof.Machine.execAnd rd rs rt s
  | .or rd rs rt => Sys2Proof.Machine.execOr rd rs rt s
  | .xor rd rs rt => Sys2Proof.Machine.execXor rd rs rt s
  | .nor rd rs rt => Sys2Proof.Machine.execNor rd rs rt s
  | .andi rt rs imm16 => Sys2Proof.Machine.execAndi rt rs imm16 s
  | .ori rt rs imm16 => Sys2Proof.Machine.execOri rt rs imm16 s
  | .xori rt rs imm16 => Sys2Proof.Machine.execXori rt rs imm16 s
  | .lui rt imm16 => Sys2Proof.Machine.execLui rt imm16 s
  | .slt rd rs rt => Sys2Proof.Machine.execSlt rd rs rt s
  | .sltu rd rs rt => Sys2Proof.Machine.execSltu rd rs rt s
  | .slti rt rs imm16 => Sys2Proof.Machine.execSlti rt rs imm16 s
  | .sltiu rt rs imm16 => Sys2Proof.Machine.execSltiu rt rs imm16 s
  | .sll rd rt sa => Sys2Proof.Machine.execSll rd rt sa s
  | .srl rd rt sa => Sys2Proof.Machine.execSrl rd rt sa s
  | .sra rd rt sa => Sys2Proof.Machine.execSra rd rt sa s
  | .sllv rd rt rs => Sys2Proof.Machine.execSllv rd rt rs s
  | .srlv rd rt rs => Sys2Proof.Machine.execSrlv rd rt rs s
  | .srav rd rt rs => Sys2Proof.Machine.execSrav rd rt rs s
  | .rotr rd rt sa => Sys2Proof.Machine.execRotr rd rt sa s
  | .rotrv rd rt rs => Sys2Proof.Machine.execRotrv rd rt rs s
  | .ext rt rs lsb msb => Sys2Proof.Machine.execExt rt rs lsb msb s
  | .ins rt rs lsb msb => Sys2Proof.Machine.execIns rt rs lsb msb s
  | .clz rd rs => Sys2Proof.Machine.execClz rd rs s
  | .clo rd rs => Sys2Proof.Machine.execClo rd rs s
  | .seb rd rt => Sys2Proof.Machine.execSeb rd rt s
  | .seh rd rt => Sys2Proof.Machine.execSeh rd rt s
  | .wsbh rd rt => Sys2Proof.Machine.execWsbh rd rt s
  | .wsbw rd rt => Sys2Proof.Machine.execWsbw rd rt s
  | .bitrev rd rt => Sys2Proof.Machine.execBitrev rd rt s
  | .movz rd rs rt => Sys2Proof.Machine.execMovz rd rs rt s
  | .movn rd rs rt => Sys2Proof.Machine.execMovn rd rs rt s
  | .max rd rs rt => Sys2Proof.Machine.execMax rd rs rt s
  | .min rd rs rt => Sys2Proof.Machine.execMin rd rs rt s
  | .mult rs rt => Sys2Proof.Machine.execMult rs rt s
  | .multu rs rt => Sys2Proof.Machine.execMultu rs rt s
  | .div rs rt => Sys2Proof.Machine.execDiv rs rt s
  | .divu rs rt => Sys2Proof.Machine.execDivu rs rt s
  | .madd rs rt => Sys2Proof.Machine.execMadd rs rt s
  | .maddu rs rt => Sys2Proof.Machine.execMaddu rs rt s
  | .msub rs rt => Sys2Proof.Machine.execMsub rs rt s
  | .msubu rs rt => Sys2Proof.Machine.execMsubu rs rt s
  | .mfhi rd => Sys2Proof.Machine.execMfhi rd s
  | .mflo rd => Sys2Proof.Machine.execMflo rd s
  | .mthi rs => Sys2Proof.Machine.execMthi rs s
  | .mtlo rs => Sys2Proof.Machine.execMtlo rs s
  | .lb rt off16 rs => Sys2Proof.Machine.execLb rt off16 rs s
  | .lbu rt off16 rs => Sys2Proof.Machine.execLbu rt off16 rs s
  | .lh rt off16 rs => Sys2Proof.Machine.execLh rt off16 rs s
  | .lhu rt off16 rs => Sys2Proof.Machine.execLhu rt off16 rs s
  | .lw rt off16 rs => Sys2Proof.Machine.execLw rt off16 rs s
  | .sb rt off16 rs => Sys2Proof.Machine.execSb rt off16 rs s
  | .sh rt off16 rs => Sys2Proof.Machine.execSh rt off16 rs s
  | .sw rt off16 rs => Sys2Proof.Machine.execSw rt off16 rs s
  | .lwl rt off16 rs => Sys2Proof.Machine.execLwl rt off16 rs s
  | .lwr rt off16 rs => Sys2Proof.Machine.execLwr rt off16 rs s
  | .swl rt off16 rs => Sys2Proof.Machine.execSwl rt off16 rs s
  | .swr rt off16 rs => Sys2Proof.Machine.execSwr rt off16 rs s
  | .lwc1 ft off16 rs => Sys2Proof.Machine.execLwc1 ft off16 rs s
  | .swc1 ft off16 rs => Sys2Proof.Machine.execSwc1 ft off16 rs s
  | .ll rt off16 rs => Sys2Proof.Machine.execLl rt off16 rs s
  | .sc rt off16 rs => Sys2Proof.Machine.execSc rt off16 rs s
  | .beq rs rt off16 => Sys2Proof.Machine.execBeq rs rt off16 s
  | .bne rs rt off16 => Sys2Proof.Machine.execBne rs rt off16 s
  | .blez rs off16 => Sys2Proof.Machine.execBlez rs off16 s
  | .bgtz rs off16 => Sys2Proof.Machine.execBgtz rs off16 s
  | .bltz rs off16 => Sys2Proof.Machine.execBltz rs off16 s
  | .bgez rs off16 => Sys2Proof.Machine.execBgez rs off16 s
  | .j imm26 => Sys2Proof.Machine.execJ imm26 s
  | .jal imm26 => Sys2Proof.Machine.execJal imm26 s
  | .jr rs => Sys2Proof.Machine.execJr rs s
  | .jalr rd rs => Sys2Proof.Machine.execJalr rd rs s
  | .bltzal rs off16 => Sys2Proof.Machine.execBltzal rs off16 s
  | .bgezal rs off16 => Sys2Proof.Machine.execBgezal rs off16 s
  | .bltzall rs off16 => Sys2Proof.Machine.execBltzall rs off16 s
  | .bgezall rs off16 => Sys2Proof.Machine.execBgezall rs off16 s
  | .beql rs rt off16 => Sys2Proof.Machine.execBeql rs rt off16 s
  | .bnel rs rt off16 => Sys2Proof.Machine.execBnel rs rt off16 s
  | .blezl rs off16 => Sys2Proof.Machine.execBlezl rs off16 s
  | .bgtzl rs off16 => Sys2Proof.Machine.execBgtzl rs off16 s
  | .bltzl rs off16 => Sys2Proof.Machine.execBltzl rs off16 s
  | .bgezl rs off16 => Sys2Proof.Machine.execBgezl rs off16 s
  | .bc1f off16 => Sys2Proof.Machine.execBc1f off16 s
  | .bc1t off16 => Sys2Proof.Machine.execBc1t off16 s
  | .bc1fl off16 => Sys2Proof.Machine.execBc1fl off16 s
  | .bc1tl off16 => Sys2Proof.Machine.execBc1tl off16 s
  | .bvf imm3 off16 => Sys2Proof.Machine.execBvf imm3 off16 s
  | .bvt imm3 off16 => Sys2Proof.Machine.execBvt imm3 off16 s
  | .bvfl imm3 off16 => Sys2Proof.Machine.execBvfl imm3 off16 s
  | .bvtl imm3 off16 => Sys2Proof.Machine.execBvtl imm3 off16 s
  | .addS fd fs ft => Sys2Proof.Machine.execAddS fd fs ft s
  | .subS fd fs ft => Sys2Proof.Machine.execSubS fd fs ft s
  | .mulS fd fs ft => Sys2Proof.Machine.execMulS fd fs ft s
  | .divS fd fs ft => Sys2Proof.Machine.execDivS fd fs ft s
  | .sqrtS fd fs => Sys2Proof.Machine.execSqrtS fd fs s
  | .absS fd fs => Sys2Proof.Machine.execAbsS fd fs s
  | .movS fd fs => Sys2Proof.Machine.execMovS fd fs s
  | .negS fd fs => Sys2Proof.Machine.execNegS fd fs s
  | .cvtWS fd fs => Sys2Proof.Machine.execCvtWS fd fs s
  | .roundWS fd fs => Sys2Proof.Machine.execRoundWS fd fs s
  | .truncWS fd fs => Sys2Proof.Machine.execTruncWS fd fs s
  | .ceilWS fd fs => Sys2Proof.Machine.execCeilWS fd fs s
  | .floorWS fd fs => Sys2Proof.Machine.execFloorWS fd fs s
  | .cvtSW fd fs => Sys2Proof.Machine.execCvtSW fd fs s
  | .cFS fs ft => Sys2Proof.Machine.execCFS fs ft s
  | .cUnS fs ft => Sys2Proof.Machine.execCUnS fs ft s
  | .cEqS fs ft => Sys2Proof.Machine.execCEqS fs ft s
  | .cUeqS fs ft => Sys2Proof.Machine.execCUeqS fs ft s
  | .cOltS fs ft => Sys2Proof.Machine.execCOltS fs ft s
  | .cUltS fs ft => Sys2Proof.Machine.execCUltS fs ft s
  | .cOleS fs ft => Sys2Proof.Machine.execCOleS fs ft s
  | .cUleS fs ft => Sys2Proof.Machine.execCUleS fs ft s
  | .cSfS fs ft => Sys2Proof.Machine.execCSfS fs ft s
  | .cNgleS fs ft => Sys2Proof.Machine.execCNgleS fs ft s
  | .cSeqS fs ft => Sys2Proof.Machine.execCSeqS fs ft s
  | .cNglS fs ft => Sys2Proof.Machine.execCNglS fs ft s
  | .cLtS fs ft => Sys2Proof.Machine.execCLtS fs ft s
  | .cNgeS fs ft => Sys2Proof.Machine.execCNgeS fs ft s
  | .cLeS fs ft => Sys2Proof.Machine.execCLeS fs ft s
  | .cNgtS fs ft => Sys2Proof.Machine.execCNgtS fs ft s
  | .ctc1 rt cr => Sys2Proof.Machine.execCtc1 rt cr s
  | .cfc1 rt cr => Sys2Proof.Machine.execCfc1 rt cr s
  | .mfc1 rt fs => Sys2Proof.Machine.execMfc1 rt fs s
  | .mtc1 rt fs => Sys2Proof.Machine.execMtc1 rt fs s
  | .vpfxs imm20 => Sys2Proof.Machine.execVpfxs imm20 s
  | .vpfxt imm20 => Sys2Proof.Machine.execVpfxt imm20 s
  | .vpfxd imm12 => Sys2Proof.Machine.execVpfxd imm12 s
  | .lvQ vt6 off14 rs => Sys2Proof.Machine.execLvQ vt6 off14 rs s
  | .svQ vt6 off14 rs => Sys2Proof.Machine.execSvQ vt6 off14 rs s
  | .lvlQ vt6 off14 rs => Sys2Proof.Machine.execLvlQ vt6 off14 rs s
  | .lvrQ vt6 off14 rs => Sys2Proof.Machine.execLvrQ vt6 off14 rs s
  | .svlQ vt6 off14 rs => Sys2Proof.Machine.execSvlQ vt6 off14 rs s
  | .svrQ vt6 off14 rs => Sys2Proof.Machine.execSvrQ vt6 off14 rs s
  | .lvS vt off14 rs => Sys2Proof.Machine.execLvS vt off14 rs s
  | .svS vt off14 rs => Sys2Proof.Machine.execSvS vt off14 rs s
  | .vmzero sz vd => Sys2Proof.Machine.execVmzero sz vd s
  | .vmone sz vd => Sys2Proof.Machine.execVmone sz vd s
  | .vmidt sz vd => Sys2Proof.Machine.execVmidt sz vd s
  | .vmmov sz vd vs => Sys2Proof.Machine.execVmmov sz vd vs s
  | .vmmul sz vd vs vt => Sys2Proof.Machine.execVmmul sz vd vs vt s
  | .vrot sz vd vs imm5 => Sys2Proof.Machine.execVrot sz vd vs imm5 s
  | .vt4444Q sz vd vs => Sys2Proof.Machine.execVt4444Q sz vd vs s
  | .vt5551Q sz vd vs => Sys2Proof.Machine.execVt5551Q sz vd vs s
  | .vt5650Q sz vd vs => Sys2Proof.Machine.execVt5650Q sz vd vs s
  | .vadd sz vd vs vt => Sys2Proof.Machine.execVadd sz vd vs vt s
  | .vsub sz vd vs vt => Sys2Proof.Machine.execVsub sz vd vs vt s
  | .vmul sz vd vs vt => Sys2Proof.Machine.execVmul sz vd vs vt s
  | .vdiv sz vd vs vt => Sys2Proof.Machine.execVdiv sz vd vs vt s
  | .vmov sz vd vs => Sys2Proof.Machine.execVmov sz vd vs s
  | .vabs sz vd vs => Sys2Proof.Machine.execVabs sz vd vs s
  | .vneg sz vd vs => Sys2Proof.Machine.execVneg sz vd vs s
  | .vzero sz vd => Sys2Proof.Machine.execVzero sz vd s
  | .vone sz vd => Sys2Proof.Machine.execVone sz vd s
  | .vscl sz vd vs vt => Sys2Proof.Machine.execVscl sz vd vs vt s
  | .vdot sz vd vs vt => Sys2Proof.Machine.execVdot sz vd vs vt s
  | .viimS vt imm16 => Sys2Proof.Machine.execViimS vt imm16 s
  | .mtv rt vd => Sys2Proof.Machine.execMtv rt vd s
  | .mfv rt vd => Sys2Proof.Machine.execMfv rt vd s
  | .vnop => Sys2Proof.Machine.execVnop s
  | .vsync => Sys2Proof.Machine.execVsync s
  | .vflush => Sys2Proof.Machine.execVflush s
  | .vsin sz vd vs => Sys2Proof.Machine.execVsin sz vd vs s
  | .vcos sz vd vs => Sys2Proof.Machine.execVcos sz vd vs s
  | .vsqrt sz vd vs => Sys2Proof.Machine.execVsqrt sz vd vs s
  | .vtfm2 vd vs vt => Sys2Proof.Machine.execVtfm2 vd vs vt s
  | .vtfm3 vd vs vt => Sys2Proof.Machine.execVtfm3 vd vs vt s
  | .vtfm4 vd vs vt => Sys2Proof.Machine.execVtfm4 vd vs vt s
  | .vcrsT vd vs vt => Sys2Proof.Machine.execVcrsT vd vs vt s
  | .vsrt1 sz vd vs => Sys2Proof.Machine.execVsrt1 sz vd vs s
  | .vsrt2 sz vd vs => Sys2Proof.Machine.execVsrt2 sz vd vs s
  | .vsrt3 sz vd vs => Sys2Proof.Machine.execVsrt3 sz vd vs s
  | .vsrt4 sz vd vs => Sys2Proof.Machine.execVsrt4 sz vd vs s
  | .vhtfm2 vd vs vt => Sys2Proof.Machine.execVhtfm2 vd vs vt s
  | .vhtfm3 vd vs vt => Sys2Proof.Machine.execVhtfm3 vd vs vt s
  | .vhtfm4 vd vs vt => Sys2Proof.Machine.execVhtfm4 vd vs vt s
  | .vsbn sz vd vs vt => Sys2Proof.Machine.execVsbn sz vd vs vt s
  | .vhdp sz vd vs vt => Sys2Proof.Machine.execVhdp sz vd vs vt s
  | .vdet sz vd vs vt => Sys2Proof.Machine.execVdet sz vd vs vt s
  | .vcmp sz imm4 vs vt => Sys2Proof.Machine.execVcmp sz imm4 vs vt s
  | .vmin sz vd vs vt => Sys2Proof.Machine.execVmin sz vd vs vt s
  | .vmax sz vd vs vt => Sys2Proof.Machine.execVmax sz vd vs vt s
  | .vscmp sz vd vs vt => Sys2Proof.Machine.execVscmp sz vd vs vt s
  | .vsge sz vd vs vt => Sys2Proof.Machine.execVsge sz vd vs vt s
  | .vslt sz vd vs vt => Sys2Proof.Machine.execVslt sz vd vs vt s
  | .vidt sz vd => Sys2Proof.Machine.execVidt sz vd s
  | .vsat0 sz vd vs => Sys2Proof.Machine.execVsat0 sz vd vs s
  | .vsat1 sz vd vs => Sys2Proof.Machine.execVsat1 sz vd vs s
  | .vrcp sz vd vs => Sys2Proof.Machine.execVrcp sz vd vs s
  | .vrsq sz vd vs => Sys2Proof.Machine.execVrsq sz vd vs s
  | .vexp2 sz vd vs => Sys2Proof.Machine.execVexp2 sz vd vs s
  | .vlog2 sz vd vs => Sys2Proof.Machine.execVlog2 sz vd vs s
  | .vasin sz vd vs => Sys2Proof.Machine.execVasin sz vd vs s
  | .vnrcp sz vd vs => Sys2Proof.Machine.execVnrcp sz vd vs s
  | .vnsin sz vd vs => Sys2Proof.Machine.execVnsin sz vd vs s
  | .vrexp2 sz vd vs => Sys2Proof.Machine.execVrexp2 sz vd vs s
  | .vrnds sz vs => Sys2Proof.Machine.execVrnds sz vs s
  | .vrndi sz vd => Sys2Proof.Machine.execVrndi sz vd s
  | .vrndf1 sz vd => Sys2Proof.Machine.execVrndf1 sz vd s
  | .vrndf2 sz vd => Sys2Proof.Machine.execVrndf2 sz vd s
  | .vf2h sz vd vs => Sys2Proof.Machine.execVf2h sz vd vs s
  | .vh2f sz vd vs => Sys2Proof.Machine.execVh2f sz vd vs s
  | .vsbz sz vd vs => Sys2Proof.Machine.execVsbz sz vd vs s
  | .vlgb sz vd vs => Sys2Proof.Machine.execVlgb sz vd vs s
  | .vuc2i sz vd vs => Sys2Proof.Machine.execVuc2i sz vd vs s
  | .vc2i sz vd vs => Sys2Proof.Machine.execVc2i sz vd vs s
  | .vus2i sz vd vs => Sys2Proof.Machine.execVus2i sz vd vs s
  | .vs2i sz vd vs => Sys2Proof.Machine.execVs2i sz vd vs s
  | .vi2uc sz vd vs => Sys2Proof.Machine.execVi2uc sz vd vs s
  | .vi2c sz vd vs => Sys2Proof.Machine.execVi2c sz vd vs s
  | .vi2us sz vd vs => Sys2Proof.Machine.execVi2us sz vd vs s
  | .vi2s sz vd vs => Sys2Proof.Machine.execVi2s sz vd vs s
  | .vbfy1 sz vd vs => Sys2Proof.Machine.execVbfy1 sz vd vs s
  | .vbfy2 sz vd vs => Sys2Proof.Machine.execVbfy2 sz vd vs s
  | .vocp sz vd vs => Sys2Proof.Machine.execVocp sz vd vs s
  | .vsocp sz vd vs => Sys2Proof.Machine.execVsocp sz vd vs s
  | .vfad sz vd vs => Sys2Proof.Machine.execVfad sz vd vs s
  | .vavg sz vd vs => Sys2Proof.Machine.execVavg sz vd vs s
  | .vsgn sz vd vs => Sys2Proof.Machine.execVsgn sz vd vs s
  | .vmfvc vd imm7 => Sys2Proof.Machine.execVmfvc vd imm7 s
  | .vmtvc imm7 vs => Sys2Proof.Machine.execVmtvc imm7 vs s
  | .vcst sz vd imm5 => Sys2Proof.Machine.execVcst sz vd imm5 s
  | .vf2in sz vd vs imm5 => Sys2Proof.Machine.execVf2in sz vd vs imm5 s
  | .vf2iz sz vd vs imm5 => Sys2Proof.Machine.execVf2iz sz vd vs imm5 s
  | .vf2iu sz vd vs imm5 => Sys2Proof.Machine.execVf2iu sz vd vs imm5 s
  | .vf2id sz vd vs imm5 => Sys2Proof.Machine.execVf2id sz vd vs imm5 s
  | .vi2f sz vd vs imm5 => Sys2Proof.Machine.execVi2f sz vd vs imm5 s
  | .vcmovt sz vd vs imm3 => Sys2Proof.Machine.execVcmovt sz vd vs imm3 s
  | .vcmovf sz vd vs imm3 => Sys2Proof.Machine.execVcmovf sz vd vs imm3 s
  | .vwbn sz vd vs imm8 => Sys2Proof.Machine.execVwbn sz vd vs imm8 s
  | .vmscl sz vd vs vt => Sys2Proof.Machine.execVmscl sz vd vs vt s
  | .vcrspT vd vs vt => Sys2Proof.Machine.execVcrspT vd vs vt s
  | .vqmulQ vd vs vt => Sys2Proof.Machine.execVqmulQ vd vs vt s
  | .vfimS vt imm16 => Sys2Proof.Machine.execVfimS vt imm16 s
  | .mfvc rt vd => Sys2Proof.Machine.execMfvc rt vd s
  | .mtvc rt vd => Sys2Proof.Machine.execMtvc rt vd s
  | .syscall code20 => Sys2Proof.Machine.execSyscall code20 s
  | .brk code20 => Sys2Proof.Machine.execBrk code20 s
  | .sync => Sys2Proof.Machine.execSync s
  | .cache off16 rs => Sys2Proof.Machine.execCache off16 rs s
  | .mfic rt => Sys2Proof.Machine.execMfic rt s
  | .mtic rt => Sys2Proof.Machine.execMtic rt s
  | .mfc0 => Sys2Proof.Machine.execMfc0 s
  | .mtc0 => Sys2Proof.Machine.execMtc0 s
  | .cfc0 => Sys2Proof.Machine.execCfc0 s
  | .ctc0 => Sys2Proof.Machine.execCtc0 s
  | .eret => Sys2Proof.Machine.execEret s
  | .halt => Sys2Proof.Machine.execHalt s
  | .dret => Sys2Proof.Machine.execDret s
  | .dbreak => Sys2Proof.Machine.execDbreak s
  | .mfdr => Sys2Proof.Machine.execMfdr s
  | .mtdr => Sys2Proof.Machine.execMtdr s

end Sys2Proof.Machine
end

