-- ==== Sys2Proof/Machine/Run.lean ====
section
/-! DEFINITION. What a step does once no breakpoint is hit (spec/60_exceptions.md R630 steps 4 to 7). -/
namespace Sys2Proof.Machine

/-- A Tier K row that `ADMIT_TIER_K` does not admit (R6, R630 step 5). -/
def tierRefused (s : State) (r : Row) : Bool := r.tier == .K && !s.cfg.admitTierK

/-- Steps 5 and 6 of R630 on the fetched word: its row, then the meaning, `IR` holding the word. -/
def runWord (s : State) (w : Word) : Result :=
  match lookup w with
  | none   => raiseFault (.invalidInstruction s.pc w)
  | some r =>
    if tierRefused s r then raiseFault (.unimplemented s.pc r.mnemonic)
    else exec (r.build w) { s with ir := w }

/-- Steps 4 to 7 of R630. -/
def runFetched (s : State) : Result := orFault (fetch s) (runWord s)

/-- The state a step that faults leaves (R630, R635): nothing is committed, but `IR` holds the word where one was
fetched (R45). -/
def afterFault (s : State) : State :=
  match fetch s with
  | .error _ => s
  | .ok w    => { s with ir := w }

/-- A word stored where the next step fetches; breakpoints are switched off only where one would pause that
step (log entries 12 and 29). -/
def placeWord (s : State) (w : Word) : State :=
  { s with
    mem := s.mem.setWord (maskAddr s s.pc) w
    bpEnabled := if breakpointHit s then false else s.bpEnabled }

end Sys2Proof.Machine
end

