-- ==== Sys2Proof/Machine/Step.lean ====
section
/-! DEFINITION. One step of a context (spec/60_exceptions.md R630), and the placing of an instruction where the
next step fetches. -/
namespace Sys2Proof.Machine

/-- One step (R630): a breakpoint pauses; else fetch, decode and execute. -/
def step (s : State) : Host.Outcome State Fault Refusal :=
  if breakpointHit s then pause s else runFetched s

/-- The state with the word `w` of `nbits` bits stored where the next step fetches (log entries 12
and 29). -/
def State.withFetchWord (s : State) (nbits w : Nat) : State :=
  placeWord s (BitVec.ofNat 32 (w % 2 ^ nbits))

end Sys2Proof.Machine
end

