-- ==== Sys2Proof/Machine/Batch.lean ====
section
/-! DEFINITION. The batch (spec/60_exceptions.md R636): steps until the count is used up or a step does not
return `Continue`. -/
namespace Sys2Proof.Machine

/-- How a batch ends: the last outcome (R636). -/
inductive BatchEnd where
  /-- Every step of the batch returned `Continue`; also the batch of no steps. -/
  | exhausted
  | paused (pc : Word)
  | trap (kind : TrapKind) (code : BitVec 20)
  | fault (f : Fault)
  | refused (r : Refusal)
  deriving DecidableEq, Repr

/-- What a batch returns: the final state, the last outcome and the number of steps that returned
`Continue` or `Trap` (R636). -/
structure BatchResult where
  state    : State
  ending   : BatchEnd
  executed : Nat
  deriving DecidableEq, Repr

/-- A step that returned `Continue` counted in front of the rest of its batch. -/
def BatchResult.after (b : BatchResult) : BatchResult := { b with executed := b.executed + 1 }

/-- `run(ctx, mem, N)` (R636); after a fault the host finds the state `afterFault` (log entry 14). -/
def batch : Nat → State → BatchResult
  | 0, s => ⟨s, .exhausted, 0⟩
  | n + 1, s =>
    match step s with
    | .fault f   => ⟨afterFault s, .fault f, 0⟩
    | .refused r => ⟨s, .refused r, 0⟩
    | .next t    =>
      match t.outcome with
      | .continued   => (batch n t).after
      | .paused pc   => ⟨t, .paused pc, 0⟩
      | .trap k code => ⟨t, .trap k code, 1⟩

end Sys2Proof.Machine
end

