-- ==== Sys2Proof/WellFormed.lean ====
section
/-! DEFINITION. Which instructions the spec defines whatever the state (their operands are not reserved), and
which parameters it admits. The decoder accepts every word of a row; an instruction that is not well-formed
decodes and then faults by its own rule (spec/30_encoding.md R124). -/
namespace Sys2Proof

/-- The operands an encoding admits and the operation does not define (R634 codes 7 and 8): sizes of `ext`
and `ins` (R170), matrix operations of side 1 (R400), colour conversions that are not quad (R425), numbers of
control registers (R347, R348). -/
def Instr.wellFormed (coding : SizeCoding) : Instr → Bool
  | .add .. => true
  | .addu .. => true
  | .addi .. => true
  | .addiu .. => true
  | .sub .. => true
  | .subu .. => true
  | .and .. => true
  | .or .. => true
  | .xor .. => true
  | .nor .. => true
  | .andi .. => true
  | .ori .. => true
  | .xori .. => true
  | .lui .. => true
  | .slt .. => true
  | .sltu .. => true
  | .slti .. => true
  | .sltiu .. => true
  | .sll .. => true
  | .srl .. => true
  | .sra .. => true
  | .sllv .. => true
  | .srlv .. => true
  | .srav .. => true
  | .rotr .. => true
  | .rotrv .. => true
  | .ext _ _ lsb msb => Machine.fieldInRange lsb (Machine.extSize coding lsb msb)
  | .ins _ _ lsb msb => Machine.fieldInRange lsb (Machine.insSize coding lsb msb)
  | .clz .. => true
  | .clo .. => true
  | .seb .. => true
  | .seh .. => true
  | .wsbh .. => true
  | .wsbw .. => true
  | .bitrev .. => true
  | .movz .. => true
  | .movn .. => true
  | .max .. => true
  | .min .. => true
  | .mult .. => true
  | .multu .. => true
  | .div .. => true
  | .divu .. => true
  | .madd .. => true
  | .maddu .. => true
  | .msub .. => true
  | .msubu .. => true
  | .mfhi .. => true
  | .mflo .. => true
  | .mthi .. => true
  | .mtlo .. => true
  | .lb .. => true
  | .lbu .. => true
  | .lh .. => true
  | .lhu .. => true
  | .lw .. => true
  | .sb .. => true
  | .sh .. => true
  | .sw .. => true
  | .lwl .. => true
  | .lwr .. => true
  | .swl .. => true
  | .swr .. => true
  | .lwc1 .. => true
  | .swc1 .. => true
  | .ll .. => true
  | .sc .. => true
  | .beq .. => true
  | .bne .. => true
  | .blez .. => true
  | .bgtz .. => true
  | .bltz .. => true
  | .bgez .. => true
  | .j .. => true
  | .jal .. => true
  | .jr .. => true
  | .jalr .. => true
  | .bltzal .. => true
  | .bgezal .. => true
  | .bltzall .. => true
  | .bgezall .. => true
  | .beql .. => true
  | .bnel .. => true
  | .blezl .. => true
  | .bgtzl .. => true
  | .bltzl .. => true
  | .bgezl .. => true
  | .bc1f .. => true
  | .bc1t .. => true
  | .bc1fl .. => true
  | .bc1tl .. => true
  | .bvf .. => true
  | .bvt .. => true
  | .bvfl .. => true
  | .bvtl .. => true
  | .addS .. => true
  | .subS .. => true
  | .mulS .. => true
  | .divS .. => true
  | .sqrtS .. => true
  | .absS .. => true
  | .movS .. => true
  | .negS .. => true
  | .cvtWS .. => true
  | .roundWS .. => true
  | .truncWS .. => true
  | .ceilWS .. => true
  | .floorWS .. => true
  | .cvtSW .. => true
  | .cFS .. => true
  | .cUnS .. => true
  | .cEqS .. => true
  | .cUeqS .. => true
  | .cOltS .. => true
  | .cUltS .. => true
  | .cOleS .. => true
  | .cUleS .. => true
  | .cSfS .. => true
  | .cNgleS .. => true
  | .cSeqS .. => true
  | .cNglS .. => true
  | .cLtS .. => true
  | .cNgeS .. => true
  | .cLeS .. => true
  | .cNgtS .. => true
  | .ctc1 _ cr => cr.val == 31
  | .cfc1 _ cr => cr.val ∈ [0, 25, 26, 27, 28, 31]
  | .mfc1 .. => true
  | .mtc1 .. => true
  | .vpfxs .. => true
  | .vpfxt .. => true
  | .vpfxd .. => true
  | .lvQ .. => true
  | .svQ .. => true
  | .lvlQ .. => true
  | .lvrQ .. => true
  | .svlQ .. => true
  | .svrQ .. => true
  | .lvS .. => true
  | .svS .. => true
  | .vmzero sz _ => sz != .single
  | .vmone sz _ => sz != .single
  | .vmidt sz _ => sz != .single
  | .vmmov sz _ _ => sz != .single
  | .vmmul sz _ _ _ => sz != .single
  | .vrot .. => true
  | .vt4444Q sz _ _ => sz == .quad
  | .vt5551Q sz _ _ => sz == .quad
  | .vt5650Q sz _ _ => sz == .quad
  | .vadd .. => true
  | .vsub .. => true
  | .vmul .. => true
  | .vdiv .. => true
  | .vmov .. => true
  | .vabs .. => true
  | .vneg .. => true
  | .vzero .. => true
  | .vone .. => true
  | .vscl .. => true
  | .vdot .. => true
  | .viimS .. => true
  | .mtv .. => true
  | .mfv .. => true
  | .vnop => true
  | .vsync => true
  | .vflush => true
  | .vsin .. => true
  | .vcos .. => true
  | .vsqrt .. => true
  | .vtfm2 .. => true
  | .vtfm3 .. => true
  | .vtfm4 .. => true
  | .vcrsT .. => true
  | .vsrt1 .. => true
  | .vsrt2 .. => true
  | .vsrt3 .. => true
  | .vsrt4 .. => true
  | .vhtfm2 .. => true
  | .vhtfm3 .. => true
  | .vhtfm4 .. => true
  | .vsbn .. => true
  | .vhdp .. => true
  | .vdet .. => true
  | .vcmp .. => true
  | .vmin .. => true
  | .vmax .. => true
  | .vscmp .. => true
  | .vsge .. => true
  | .vslt .. => true
  | .vidt .. => true
  | .vsat0 .. => true
  | .vsat1 .. => true
  | .vrcp .. => true
  | .vrsq .. => true
  | .vexp2 .. => true
  | .vlog2 .. => true
  | .vasin .. => true
  | .vnrcp .. => true
  | .vnsin .. => true
  | .vrexp2 .. => true
  | .vrnds .. => true
  | .vrndi .. => true
  | .vrndf1 .. => true
  | .vrndf2 .. => true
  | .vf2h .. => true
  | .vh2f .. => true
  | .vsbz .. => true
  | .vlgb .. => true
  | .vuc2i .. => true
  | .vc2i .. => true
  | .vus2i .. => true
  | .vs2i .. => true
  | .vi2uc .. => true
  | .vi2c .. => true
  | .vi2us .. => true
  | .vi2s .. => true
  | .vbfy1 .. => true
  | .vbfy2 .. => true
  | .vocp .. => true
  | .vsocp .. => true
  | .vfad .. => true
  | .vavg .. => true
  | .vsgn .. => true
  | .vmfvc .. => true
  | .vmtvc .. => true
  | .vcst .. => true
  | .vf2in .. => true
  | .vf2iz .. => true
  | .vf2iu .. => true
  | .vf2id .. => true
  | .vi2f .. => true
  | .vcmovt .. => true
  | .vcmovf .. => true
  | .vwbn .. => true
  | .vmscl .. => true
  | .vcrspT .. => true
  | .vqmulQ .. => true
  | .vfimS .. => true
  | .mfvc .. => true
  | .mtvc .. => true
  | .syscall .. => true
  | .brk .. => true
  | .sync => true
  | .cache .. => true
  | .mfic .. => true
  | .mtic .. => true
  | .mfc0 => true
  | .mtc0 => true
  | .cfc0 => true
  | .ctc0 => true
  | .eret => true
  | .halt => true
  | .dret => true
  | .dbreak => true
  | .mfdr => true
  | .mtdr => true

/-- The bits of `RM`, `CC` and `FS` (R37). -/
def Config.fieldBits (c : Config) : Word :=
  (3#32 <<< c.rmLow.val) ||| (1#32 <<< c.ccBit.val) ||| (1#32 <<< c.fsBit.val)

/-- `FPR_ALIAS` is `disjoint`, or a map that sends no two registers to one slot (R33). -/
def Config.aliasAdmissible (c : Config) : Bool :=
  c.fprAlias.toList.all (· == none) || (c.fprAlias.toList.all (· != none) && decide c.fprAlias.toList.Nodup)

/-- `VREG` gives distinct slots to the lanes of each group and to the entries of each matrix it lists any of (R365:
"the lanes of a group are distinct"); the suggested formula does so by itself. -/
def Config.vregAdmissible (c : Config) : Bool :=
  c.vregLanes.all (fun e => decide (Machine.vecSlots c e.sel e.size).Nodup) &&
  c.vregEntries.all (fun e => decide (Machine.matSlots c e.sel e.size).Nodup)

/-- The constraints the spec puts on its parameters: the fields of `FCR31` are apart (R37), the sticky masks
touch none of them (R38), `FCR31_WMASK` contains them all (R347, decision D19), `FPR_ALIAS` is one of the two
kinds (R33), the lanes of a group are distinct (R365) (log entry 24). -/
def Config.wf (c : Config) : Bool :=
  ((3#32 <<< c.rmLow.val) &&& (1#32 <<< c.ccBit.val) == 0#32) &&
  ((3#32 <<< c.rmLow.val) &&& (1#32 <<< c.fsBit.val) == 0#32) &&
  (c.ccBit != c.fsBit) &&
  ((c.nanMask ||| c.infMask) &&& c.fieldBits == 0#32) &&
  ((c.nanMask ||| c.infMask ||| c.fieldBits) &&& ~~~c.wmask == 0#32) &&
  c.aliasAdmissible && c.vregAdmissible

end Sys2Proof
end

