-- ==== Sys2Proof/Safety.lean ====
section
/-! DEFINITION. The terms claims are stated in: what an instruction may change, how a step ends, the invariant
of the machine, the values of binary32 words as numbers, the lanes of the VFPU. Nothing here is used by the
machine; the formulas are written from the spec a second time, as arithmetic. -/
namespace Sys2Proof.Machine

/-! ### What is left unchanged -/

/-- A part of the state a claim may say is unchanged. `PC`, `nPC`, `COUNT` and the outcome are no parts: every
claim says what becomes of them. -/
inductive Part where
  | gpr (r : Reg)
  | hi
  | lo
  | fpr (f : FReg)
  | vfr (k : Slot)
  | fcr31
  | pfxs
  | pfxt
  | pfxd
  | ic
  | ir
  | byte (a : Nat)
  | breakpoints
  | config
  deriving DecidableEq, Repr

/-- The part reads the same in both states; a byte of memory by reading it. -/
def Part.same (s t : State) : Part → Prop
  | .gpr r       => readGpr t r = readGpr s r
  | .hi          => t.hi = s.hi
  | .lo          => t.lo = s.lo
  | .fpr f       => t.fpr[f.val] = s.fpr[f.val]
  | .vfr k       => readVfr t k = readVfr s k
  | .fcr31       => t.fcr31 = s.fcr31
  | .pfxs        => t.pfxs = s.pfxs
  | .pfxt        => t.pfxt = s.pfxt
  | .pfxd        => t.pfxd = s.pfxd
  | .ic          => t.ic = s.ic
  | .ir          => t.ir = s.ir
  | .byte a      => t.mem.byte a = s.mem.byte a
  | .breakpoints => t.bpSet = s.bpSet ∧ t.bpEnabled = s.bpEnabled
  | .config      => t.cfg = s.cfg

/-- Every part outside `may` reads the same. -/
def OnlyChanges (may : Part → Prop) (s t : State) : Prop := ∀ p, ¬ may p → p.same s t

/-- No part may change. -/
def Nothing : Part → Prop := fun _ => False

/-- Where the float register `f` is kept: a register of its own, or the slot `FPR_ALIAS` names (R33). -/
def homeOf (s : State) (f : FReg) : Part :=
  match s.cfg.fprAlias[f.val] with
  | none   => .fpr f
  | some k => .vfr k

/-! ### How a step ends -/

/-- R28: `PC <- npc0`, `nPC <- npc0 + 4`. -/
def Sequential (s t : State) : Prop := t.pc = s.npc ∧ t.npc = s.npc + 4#32

/-- R29: `PC <- npc0`, `nPC <- target`. -/
def Redirected (target : Word) (s t : State) : Prop := t.pc = s.npc ∧ t.npc = target

/-- R30: `PC <- npc0 + 4`, `nPC <- npc0 + 8`. -/
def Squashed (s t : State) : Prop := t.pc = s.npc + 4#32 ∧ t.npc = s.npc + 8#32

/-- R46, R631: `COUNT + 1` and the outcome `Continue`. -/
def Continued (s t : State) : Prop := t.count = s.count + 1 ∧ t.outcome = .continued

/-- `r` is a next state that moved the pipeline as `moves` says, returned `Continue`, changed no part outside
`may`, and has the property `post`. -/
def Ends (r : Result) (s : State) (moves : State → State → Prop) (may : Part → Prop) (post : State → Prop) :
    Prop :=
  ∃ t, r = .next t ∧ moves s t ∧ Continued s t ∧ OnlyChanges may s t ∧ post t

/-- The instruction completes in sequence and changes nothing else. -/
def ChangesNothing (r : Result) (s : State) : Prop := Ends r s Sequential Nothing fun _ => True

/-- The instruction completes in sequence; `x[rd]` is `v` afterwards unless `rd` is 0, and every other
register and part is as before (R20). -/
def WritesGpr (r : Result) (s : State) (rd : Reg) (v : Word) : Prop :=
  Ends r s Sequential (fun p => p = .gpr rd) fun t => readGpr t rd = if rd = 0 then 0#32 else v

/-- The instruction completes in sequence with `HI` and `LO` as given and no other part changed. -/
def WritesHilo (r : Result) (s : State) (hi lo : Word) : Prop :=
  Ends r s Sequential (fun p => p = .hi ∨ p = .lo) fun t => t.hi = hi ∧ t.lo = lo

/-- The instruction completes in sequence; `F[fd]` is `v` and no other part changed. -/
def WritesFpr (r : Result) (s : State) (fd : FReg) (v : Word) : Prop :=
  Ends r s Sequential (fun p => p = homeOf s fd) fun t => readFpr t fd = v

/-- The instruction completes in sequence; the slot `k` is `v` and no other part changed. -/
def WritesVfr (r : Result) (s : State) (k : Slot) (v : Word) : Prop :=
  Ends r s Sequential (fun p => p = .vfr k) fun t => readVfr t k = v

/-- The instruction completes in sequence; the byte `i` of the `n` bytes from `a` is `f i` afterwards, and
every other byte of memory and every other part is as before. -/
def WritesBytes (r : Result) (s : State) (a n : Nat) (f : Nat → Byte) : Prop :=
  Ends r s Sequential (fun p => ∃ i, i < n ∧ p = .byte (a + i)) fun t =>
    ∀ i, i < n → t.mem.byte (a + i) = f i

/-- The byte `i` of a word, the least significant first (R74). -/
def byteOf (v : Word) (i : Nat) : Byte := v.extractLsb' (8 * i) 8

/-! ### Memory accesses -/

/-- The access of `n` bytes at `addr` meets no fault (R75, R76). -/
def Accessible (s : State) (addr : Word) (n : Nat) (kind : AccessKind) : Prop :=
  (maskAddr s addr).toNat % n = 0 ∧ memAdmitted s (maskAddr s addr) n kind = true

/-- The fault of an access of `n` bytes at `addr`: alignment comes first (R75, R76, R639). -/
def FaultsAt (r : Result) (s : State) (addr : Word) (n : Nat) (kind : AccessKind) : Prop :=
  ((maskAddr s addr).toNat % n ≠ 0 → r = .fault (.misaligned (maskAddr s addr) n kind)) ∧
  ((maskAddr s addr).toNat % n = 0 → memAdmitted s (maskAddr s addr) n kind = false →
    r = .fault (.memoryAccess (maskAddr s addr) n kind))

/-- The fetch meets no fault (R77): `PC` is a multiple of 4 and its masked address is admitted. -/
def Fetchable (s : State) : Prop := s.pc.toNat % 4 = 0 ∧ memAdmitted s (maskAddr s s.pc) 4 .fetch = true

/-- The little-endian number in the `n` bytes from address `a` (R74). -/
def littleEndian (s : State) (a : Nat) : Nat → Nat
  | 0 => 0
  | n + 1 => littleEndian s a n + 2 ^ (8 * n) * (s.mem.byte (a + n)).toNat

/-! ### The invariant -/

/-- What every step keeps: the canonical form of memory; `PC` and `nPC` multiples of 4 (R26); register 0 zero
(R20); the descriptors within their 20 and 12 bits (R42). -/
structure Inv (s : State) : Prop where
  memory   : s.mem.wf = true
  pc       : s.pc.toNat % 4 = 0
  npc      : s.npc.toNat % 4 = 0
  zero     : s.gpr[0] = 0#32
  sourceS  : s.pfxs.value.toNat < 2 ^ 20
  sourceT  : s.pfxt.value.toNat < 2 ^ 20
  destD    : s.pfxd.value.toNat < 2 ^ 12

/-- The step completes: neither a fault nor a refusal. -/
def Safe (s : State) : Prop := ∃ t, step s = .next t

end Sys2Proof.Machine

namespace Sys2Proof

/-! ### Instructions by kind -/

/-- The control transfers (spec/43_branch_jump.md). -/
def Instr.isControlTransfer (i : Instr) : Bool :=
  i.row.mnemonic ∈ ["beq", "bne", "blez", "bgtz", "bltz", "bgez", "j", "jal", "jr", "jalr", "bltzal", "bgezal",
    "bltzall", "bgezall", "beql", "bnel", "blezl", "bgtzl", "bltzl", "bgezl", "bc1f", "bc1t", "bc1fl",
    "bc1tl", "bvf", "bvt", "bvfl", "bvtl"]

/-- The instructions that store to memory. -/
def Instr.isStore (i : Instr) : Bool :=
  i.row.mnemonic ∈ ["sb", "sh", "sw", "swl", "swr", "swc1", "sc", "sv.q", "svl.q", "svr.q", "sv.s"]

/-- The instructions that write `HI` or `LO` (R35). -/
def Instr.writesHilo (i : Instr) : Bool :=
  i.row.mnemonic ∈ ["mult", "multu", "div", "divu", "madd", "maddu", "msub", "msubu", "mthi", "mtlo"]

/-- The consuming instructions (R376): the rules of spec/46_vfpu_ops.md sections 2 to 5. -/
def Instr.consumes (i : Instr) : Bool :=
  i.row.mnemonic ∈ ["vmzero", "vmone", "vmidt", "vmmov", "vmmul", "vrot", "vt4444.q", "vt5551.q", "vt5650.q",
    "vadd", "vsub", "vmul", "vdiv", "vmov", "vabs", "vneg", "vzero", "vone", "vscl", "vdot", "viim.s"]

/-- The prefix setters (R377 to R379). -/
def Instr.setsLatch (i : Instr) : Bool := i.row.mnemonic ∈ ["vpfxs", "vpfxt", "vpfxd"]

/-- The sixteen compares (R331 to R346). -/
def Instr.isCompare (i : Instr) : Bool :=
  i.row.mnemonic ∈ ["c.f.s", "c.un.s", "c.eq.s", "c.ueq.s", "c.olt.s", "c.ult.s", "c.ole.s", "c.ule.s",
    "c.sf.s", "c.ngle.s", "c.seq.s", "c.ngl.s", "c.lt.s", "c.nge.s", "c.le.s", "c.ngt.s"]

/-- The eight instructions that note their result (R302). -/
def Instr.notesResult (i : Instr) : Bool :=
  i.row.mnemonic ∈ ["add.s", "sub.s", "mul.s", "div.s", "sqrt.s", "abs.s", "mov.s", "neg.s"]

end Sys2Proof

namespace Sys2Proof.Machine

/-! ### Binary32 words as numbers (R10) -/

/-- The exponent field of a word, by arithmetic. -/
def expOf (w : Word) : Nat := w.toNat / 2 ^ 23 % 256

/-- The fraction field of a word, by arithmetic. -/
def fracOf (w : Word) : Nat := w.toNat % 2 ^ 23

/-- The sign of a word: set where it is negative. -/
def signOf (w : Word) : Prop := 2 ^ 31 ≤ w.toNat

/-- A NaN (R10). -/
def IsNaN (w : Word) : Prop := expOf w = 255 ∧ fracOf w ≠ 0

/-- An infinity (R10). -/
def IsInf (w : Word) : Prop := expOf w = 255 ∧ fracOf w = 0

/-- A finite word. -/
def IsFinite (w : Word) : Prop := expOf w ≠ 255

/-- The magnitude of a finite word. -/
noncomputable def magnitude (w : Word) : ℝ :=
  if expOf w = 0 then fracOf w * (2 : ℝ) ^ (-149 : ℤ)
  else (2 ^ 23 + fracOf w) * (2 : ℝ) ^ ((expOf w : ℤ) - 150)

open Classical in
/-- The value of a finite word. -/
noncomputable def value (w : Word) : ℝ := if signOf w then -magnitude w else magnitude w

/-- `r` is the binary32 word nearest to `x`, ties to even; from 2^128 - 2^103 on, the infinity of its sign
(R301). -/
def NearestTo (x : ℝ) (r : Word) : Prop :=
  (|x| < 2 ^ 128 - 2 ^ 103 → IsFinite r ∧
    (∀ u, IsFinite u → |value r - x| ≤ |value u - x|) ∧
    (∀ u, IsFinite u → value u ≠ value r → |value u - x| = |value r - x| → r.toNat % 2 = 0)) ∧
  ((2 : ℝ) ^ 128 - 2 ^ 103 ≤ |x| → IsInf r ∧ (signOf r ↔ x < 0))

/-- `a < b` of R330: both are numbers, infinities compared as usual. -/
def LessThan (a b : Word) : Prop :=
  ¬ IsNaN a ∧ ¬ IsNaN b ∧
  ((IsFinite a ∧ IsFinite b ∧ value a < value b) ∨
   (IsInf a ∧ signOf a ∧ ¬ (IsInf b ∧ signOf b)) ∨
   (IsInf b ∧ ¬ signOf b ∧ ¬ (IsInf a ∧ ¬ signOf a)))

/-- `a = b` of R330. -/
def EqualTo (a b : Word) : Prop :=
  ¬ IsNaN a ∧ ¬ IsNaN b ∧
  ((IsFinite a ∧ IsFinite b ∧ value a = value b) ∨ (IsInf a ∧ IsInf b ∧ (signOf a ↔ signOf b)))

/-- `i` is `roundToInt(x, mode)` (R320). -/
def RoundsTo (x : ℝ) (mode : BitVec 2) (i : Int) : Prop :=
  (mode = 0#2 → |(i : ℝ) - x| ≤ 1 / 2 ∧ (|(i : ℝ) - x| = 1 / 2 → i % 2 = 0)) ∧
  (mode = 1#2 → (0 ≤ x → i = ⌊x⌋) ∧ (x < 0 → i = ⌈x⌉)) ∧
  (mode = 2#2 → i = ⌈x⌉) ∧
  (mode = 3#2 → i = ⌊x⌋)

/-! ### VFPU lanes (R361 to R376) -/

/-- The lanes of a source prefix are defined for a group of `n` lanes (R373). -/
def SourceDefined (latch : PrefixLatch) (n : Nat) : Prop :=
  latch.enabled = true → ∀ i, i < n →
    latch.value.getLsbD (12 + i) = true ∨ latch.value.toNat / 2 ^ (2 * i) % 4 < n

open Classical in
/-- Lane `i` of an operand after its source prefix (R371 to R373). -/
noncomputable def sourced (c : Config) (latch : PrefixLatch) (lane : Nat → Word) (i : Nat) : Word :=
  if latch.enabled = true then
    (if latch.value.getLsbD (16 + i) then (· ^^^ 0x80000000#32) else id)
      (if latch.value.getLsbD (12 + i) then
        (if latch.value.getLsbD (8 + i) then c.vpfxConstAbs else c.vpfxConst)[latch.value.toNat / 2 ^ (2 * i) % 4]!
      else (if latch.value.getLsbD (8 + i) then (· &&& 0x7FFFFFFF#32) else id)
        (lane (latch.value.toNat / 2 ^ (2 * i) % 4)))
  else lane i

/-- Lane `i` of a destination is left unwritten (R374). -/
def laneMasked (latch : PrefixLatch) (i : Nat) : Bool := latch.enabled && latch.value.getLsbD (8 + i)

open Classical in
/-- Lane `i` of a result after the clamp of the destination prefix (R375). -/
noncomputable def clamped (latch : PrefixLatch) (i : Nat) (v : Word) : Word :=
  if latch.enabled = true then
    if latch.value.toNat / 2 ^ (2 * i) % 4 = 1 then
      if LessThan v 0#32 then 0#32 else if LessThan 0x3F800000#32 v then 0x3F800000#32 else v
    else if latch.value.toNat / 2 ^ (2 * i) % 4 = 3 then
      if LessThan v 0xBF800000#32 then 0xBF800000#32
      else if LessThan 0x3F800000#32 v then 0x3F800000#32 else v
    else v
  else v

/-- The parts a consuming instruction may change beside its destination. -/
def isLatch (p : Part) : Prop := p = .pfxs ∨ p = .pfxt ∨ p = .pfxd

/-- All three latches are disabled and keep their values (R376). -/
def Consumed (s t : State) : Prop :=
  t.pfxs = ⟨false, s.pfxs.value⟩ ∧ t.pfxt = ⟨false, s.pfxt.value⟩ ∧ t.pfxd = ⟨false, s.pfxd.value⟩

/-- The slot of number `i` is the slot of no other of these numbers. Under admissible parameters every lane of a
group and every entry of a matrix is apart (R365). -/
def Apart {α : Type} (among : α → Prop) (slot : α → Slot) (i : α) : Prop := ∀ k, among k → k ≠ i → slot k ≠ slot i

/-- A vector instruction completes: lane `i` of the destination is `f i` clamped, unless masked, where no other lane
names its slot; every other slot and part is as before; the latches are consumed. -/
def WritesLanes (r : Result) (s : State) (vd : Sel) (sz : VSize) (f : Nat → Word) : Prop :=
  Ends r s Sequential (fun p => isLatch p ∨ ∃ i, i < sz.lanes ∧ p = .vfr (laneSlot s.cfg vd sz i)) fun t =>
    Consumed s t ∧
    ∀ i, i < sz.lanes → Apart (· < sz.lanes) (laneSlot s.cfg vd sz) i → readVfr t (laneSlot s.cfg vd sz i) =
      if laneMasked s.pfxd i then readVfr s (laneSlot s.cfg vd sz i) else clamped s.pfxd i (f i)

/-- A matrix instruction completes: the entry `[j][i]` of the destination is `x j i`, where no other entry names its
slot; every other slot and part is as before; the latches are consumed and were not applied. -/
def WritesMatrix (r : Result) (s : State) (vd : Sel) (sz : VSize) (x : Nat → Nat → Word) : Prop :=
  Ends r s Sequential
    (fun p => isLatch p ∨ ∃ j i, j < sz.lanes ∧ i < sz.lanes ∧ p = .vfr (matSlot s.cfg vd sz j i)) fun t =>
    Consumed s t ∧ ∀ j i, j < sz.lanes → i < sz.lanes →
      Apart (fun e : Nat × Nat => e.1 < sz.lanes ∧ e.2 < sz.lanes) (fun e => matSlot s.cfg vd sz e.1 e.2) (j, i) →
      readVfr t (matSlot s.cfg vd sz j i) = x j i

/-- Lane `i` of the group `sel`. -/
def laneOf (s : State) (sel : Sel) (sz : VSize) (i : Nat) : Word := readVfr s (laneSlot s.cfg sel sz i)

/-- Lane `i` of the operand `vs` after `PFXS`. -/
noncomputable def laneS (s : State) (vs : Sel) (sz : VSize) (i : Nat) : Word :=
  sourced s.cfg s.pfxs (laneOf s vs sz) i

/-- Lane `i` of the operand `vt` after `PFXT`. -/
noncomputable def laneT (s : State) (vt : Sel) (sz : VSize) (i : Nat) : Word :=
  sourced s.cfg s.pfxt (laneOf s vt sz) i

/-- The products of `n` lanes summed left to right from `+0.0`, each step rounded (R380). -/
def sumOfProducts (n : Nat) (f g : Nat → Word) : Word :=
  (List.range n).foldl (fun acc i => fadd acc (fmul (f i) (g i))) 0#32

/-! ### Claims about branches -/

/-- In state normal: taken, a redirect to `npc0 + 4 * off` (R251); not taken, the transition given; nothing
else changes (R249). -/
def BranchesIf (taken : Prop) (otherwise : State → State → Prop) (r : Result) (s : State) (off : BitVec 16) :
    Prop :=
  (taken → Ends r s (Redirected (BitVec.ofInt 32 (s.npc.toNat + 4 * off.toInt))) Nothing fun _ => True) ∧
  (¬ taken → Ends r s otherwise Nothing fun _ => True)

/-- As `BranchesIf`, with the link `npc0 + 4` in register 31 either way (R253). -/
def LinksAndBranchesIf (taken : Prop) (otherwise : State → State → Prop) (r : Result) (s : State)
    (off : BitVec 16) : Prop :=
  (taken → Ends r s (Redirected (BitVec.ofInt 32 (s.npc.toNat + 4 * off.toInt))) (fun p => p = .gpr 31)
    fun t => readGpr t 31 = s.npc + 4#32) ∧
  (¬ taken → Ends r s otherwise (fun p => p = .gpr 31) fun t => readGpr t 31 = s.npc + 4#32)

/-- The trap commits the sequential transition and `COUNT + 1` and nothing else (R633). -/
def Traps (r : Result) (s : State) (kind : TrapKind) (code : BitVec 20) : Prop :=
  ∃ t, r = .next t ∧ Sequential s t ∧ t.count = s.count + 1 ∧ t.outcome = .trap kind code ∧
    OnlyChanges Nothing s t

/-! ### Claims about the scalar float unit -/

/-- The two signs differ. -/
def SignsDiffer (a b : Word) : Prop := signOf a ↔ ¬ signOf b

open Classical in
/-- The instruction completes in sequence; `F[fd]` is `v`, the sticky masks that `v` calls for are set in
`FCR31` (R38, R302), and nothing else changes. -/
def WritesAndNotes (r : Result) (s : State) (fd : FReg) (v : Word) : Prop :=
  Ends r s Sequential (fun p => p = homeOf s fd ∨ p = .fcr31) fun t =>
    readFpr t fd = v ∧
    t.fcr31 = s.fcr31 ||| (if IsNaN v then s.cfg.nanMask else 0#32) ||| (if IsInf v then s.cfg.infMask else 0#32)

/-- The integer the word `w` converts to in a rounding mode, where it has one (R321). -/
def ConvertsTo (w : Word) (mode : BitVec 2) (i : Int) : Prop :=
  IsFinite w ∧ RoundsTo (value w) mode i ∧ -2 ^ 31 ≤ i ∧ i ≤ 2 ^ 31 - 1

/-- A conversion completes in sequence: it writes the integer, or the free word where there is none (R321),
and nothing else. -/
def WritesInteger (r : Result) (s : State) (fd : FReg) (w : Word) (mode : BitVec 2) : Prop :=
  ∃ v, WritesFpr r s fd v ∧ (∀ i, ConvertsTo w mode i → v = BitVec.ofInt 32 i) ∧
    ((∀ i, ¬ ConvertsTo w mode i) → v = Config.cvtInvalid w mode)

/-- A compare completes in sequence: `CC` says whether `c` holds and no other bit of `FCR31` and no other
part changes (R330). -/
def SetsCondition (r : Result) (s : State) (c : Prop) : Prop :=
  Ends r s Sequential (fun p => p = .fcr31) fun t =>
    (t.fcr31.getLsbD s.cfg.ccBit.val = true ↔ c) ∧
    ∀ i, i < 32 → i ≠ s.cfg.ccBit.val → t.fcr31.getLsbD i = s.fcr31.getLsbD i

/-! ### Claims about vector memory accesses -/

/-- Every one of `n` word accesses is admitted. -/
def AllAdmitted (s : State) (n : Nat) (addr : Nat → Word) (kind : AccessKind) : Prop :=
  ∀ i, i < n → memAdmitted s (maskAddr s (addr i)) 4 kind = true

/-- A load of `n` words completes in sequence: each slot that no other lane names holds the little-endian word at
its masked address, and no other part changes. -/
def LoadsSlots (r : Result) (s : State) (n : Nat) (slot : Nat → Slot) (addr : Nat → Word) : Prop :=
  Ends r s Sequential (fun p => ∃ i, i < n ∧ p = .vfr (slot i)) fun t =>
    ∀ i, i < n → Apart (· < n) slot i → readVfr t (slot i) = BitVec.ofNat 32 (littleEndian s (maskAddr s (addr i)).toNat 4)

/-- A store of `n` words completes in sequence: the four bytes at each masked address are those of its word,
the later word where two addresses fall together, and no other byte and no other part changes. -/
def StoresWords (r : Result) (s : State) (n : Nat) (addr val : Nat → Word) : Prop :=
  Ends r s Sequential
    (fun p => ∃ i j, i < n ∧ j < 4 ∧ p = .byte ((maskAddr s (addr i)).toNat + j)) fun t =>
    ∀ i j, i < n → j < 4 →
      (∀ k, i < k → k < n → maskAddr s (addr k) ≠ maskAddr s (addr i)) →
      t.mem.byte ((maskAddr s (addr i)).toNat + j) = byteOf (val i) j

/-- The faults of `n` word accesses whose first, `ea`, must be a multiple of `align`; the words are tested in
the order of `addr` (R639). -/
def FaultsInOrder (r : Result) (s : State) (ea : Word) (align n : Nat) (addr : Nat → Word) (kind : AccessKind) :
    Prop :=
  ((maskAddr s ea).toNat % align ≠ 0 → r = .fault (.misaligned (maskAddr s ea) align kind)) ∧
  ((maskAddr s ea).toNat % align = 0 → ∀ j, j < n → AllAdmitted s j addr kind →
    memAdmitted s (maskAddr s (addr j)) 4 kind = false →
    r = .fault (.memoryAccess (maskAddr s (addr j)) 4 kind))

/-! ### Claims about colour conversions -/

/-- A colour conversion completes in sequence: each slot of the destination pair, where the two differ,
holds two converted pixels, the earlier in its low half; the latches are consumed; no other part changes (spec/46_vfpu_ops.md
section 4). -/
def WritesPixels (r : Result) (s : State) (vd vs : Sel) (conv : Nat → Nat) : Prop :=
  Ends r s Sequential (fun p => isLatch p ∨ ∃ i, i < 2 ∧ p = .vfr (laneSlot s.cfg vd .pair i)) fun t =>
    Consumed s t ∧
    ∀ i, i < 2 → Apart (· < 2) (laneSlot s.cfg vd .pair) i → (readVfr t (laneSlot s.cfg vd .pair i)).toNat =
      conv (laneOf s vs .quad (2 * i)).toNat + 2 ^ 16 * conv (laneOf s vs .quad (2 * i + 1)).toNat

end Sys2Proof.Machine
end

