-- ==== Sys2Proof/Certificates/Slice0/Obligations.lean ====
section
/-! DEFINITION. The statements for the provers. Each docstring says what the statement says and which rules or
sections of spec/ it rests on; a clause that rests on a decision of the spec (marked [decision] there) or on a
choice of this model names the decision or the log entry. -/
open Sys2Proof Sys2Proof.Machine

/-- When no breakpoint is hit, PC is a multiple of 4 and its masked form admitted for fetch, the word there
decodes to the instruction i, and i is not a Tier K instruction that the parameters decline, step is exec of i
on the same state with IR holding the word. exec itself moves PC and nPC. The little-endian fetch is the
spec's decision D1, the Tier K test its D3, the masked form of a breakpoint its D25; that PC itself must be
aligned is read from two of its rules together (log entry 17). (spec/60_exceptions.md section 1,
spec/20_memory.md section 2, spec/30_encoding.md section 4.) -/
def Obligations.StepRunsTheDecodedInstruction : Prop :=
  ∀ (s : State) (w : Word) (i : Instr),
    ¬ (s.bpEnabled = true ∧ (s.pc ∈ s.bpSet ∨ maskAddr s s.pc ∈ s.bpSet)) →
    Fetchable s →
    littleEndian s (maskAddr s s.pc).toNat 4 = w.toNat →
    decodeWord w = .ok i →
    (i.row.tier = .K → s.cfg.admitTierK = true) →
    step s = exec i { s with ir := w }

/-- With no breakpoint hit: a PC that is no multiple of 4 faults Misaligned of kind fetch, then one whose masked
form is not admitted faults MemoryAccess of kind fetch, both with the masked PC, then a word of no row faults
InvalidInstruction with PC and the word, then a Tier K row that ADMIT_TIER_K declines faults Unimplemented
with PC and its mnemonic. Alignment and admission as faults are the spec's decisions D5 and D6, the Tier K
test its D3, the little-endian fetch its D1, the masked form of a breakpoint its D25; that PC itself must be
aligned, also where the mask clears its low bits, is read from two of its rules together (log entry 17).
(spec/60_exceptions.md section 1, spec/60_exceptions.md section 2, spec/20_memory.md section 2.) -/
def Obligations.StepFaultsBeforeAnInstructionRuns : Prop :=
  ∀ (s : State) (w : Word),
    ¬ (s.bpEnabled = true ∧ (s.pc ∈ s.bpSet ∨ maskAddr s s.pc ∈ s.bpSet)) →
    (s.pc.toNat % 4 ≠ 0 → step s = .fault (.misaligned (maskAddr s s.pc) 4 .fetch)) ∧
    (s.pc.toNat % 4 = 0 → memAdmitted s (maskAddr s s.pc) 4 .fetch = false →
      step s = .fault (.memoryAccess (maskAddr s s.pc) 4 .fetch)) ∧
    (Fetchable s → littleEndian s (maskAddr s s.pc).toNat 4 = w.toNat →
      ((∀ r ∈ table, w &&& r.mask ≠ r.bits) → step s = .fault (.invalidInstruction s.pc w)) ∧
      (∀ i, decodeWord w = .ok i → i.row.tier = .K → s.cfg.admitTierK = false →
        step s = .fault (.unimplemented s.pc i.row.mnemonic)))

/-- When BP_ENABLED is set and PC is in BP_SET (or, the spec's decision D25, its masked form is), the step answers
the same state with the outcome Paused(PC): PC, nPC, COUNT, IR and everything else are unchanged.
(spec/60_exceptions.md section 1.) -/
def Obligations.BreakpointPausesWithNothingCommitted : Prop :=
  ∀ s : State, s.bpEnabled = true → (s.pc ∈ s.bpSet ∨ maskAddr s s.pc ∈ s.bpSet) →
    step s = .next { s with outcome := .paused s.pc }

/-- For every state with BP_ENABLED false and every other breakpoint set, the step of the state with that set
answers as the step of the state itself: the same fault, or the same next state but for the set.
(spec/60_exceptions.md section 4.) -/
def Obligations.DisabledBreakpointsAreInvisible : Prop :=
  ∀ (s : State) (set : List Word), s.bpEnabled = false →
    (∀ t, step s = .next t → step { s with bpSet := set } = .next { t with bpSet := set }) ∧
    (∀ f, step s = .fault f → step { s with bpSet := set } = .fault f)

/-- From every state in which memory has its canonical form, PC and nPC are multiples of 4, register 0 holds 0 and
the prefix descriptors fit their 20, 20 and 12 bits, a step that answers a next state answers one with the
same properties. The canonical form of memory is the model's (log entry 11); the width of a latch's value is
read from the spec (log entry 25). (spec/10_state.md section 2, spec/10_state.md section 1,
spec/43_branch_jump.md section 2, spec/45_vfpu_regs_prefix.md section 3.) -/
def Obligations.EveryStepKeepsTheInvariant : Prop :=
  ∀ s t : State, Inv s → step s = .next t → Inv t

/-- The state after reset meets the invariant, and so does every context created with any parameters, an entry
point that is a multiple of 4 and a memory in canonical form. The canonical form of memory is the model's (log
entry 11); the width of a latch's value is read from the spec (log entry 25). (spec/70_reset_and_hazards.md
section 1, spec/10_state.md section 7.) -/
def Obligations.ResetMeetsTheInvariant : Prop :=
  Inv State.reset ∧
    ∀ (c : Config) (entry : Word) (m : Memory), entry.toNat % 4 = 0 → m.wf = true →
      Inv (State.create c entry m)

/-- At creation every general register, HI, LO, every float register and slot, IC, IR and COUNT read 0; FCR31 is
FCR31_RESET; the latches are disabled with value 0; PC is the entry point and nPC the entry point plus 4;
breakpoints are empty and disabled; memory is what the host gave. These values are the spec's own decisions
D17 and D18; that reset itself uses the suggested parameters and entry point 0 is the model's choice (log
entries 2, 12, 13). (spec/10_state.md section 7, spec/70_reset_and_hazards.md section 1.) -/
def Obligations.CreationValues : Prop :=
  ∀ (c : Config) (entry : Word) (m : Memory),
    (∀ r, readGpr (State.create c entry m) r = 0#32) ∧
    (∀ f, readFpr (State.create c entry m) f = 0#32) ∧
    (∀ k, readVfr (State.create c entry m) k = 0#32) ∧
    (State.create c entry m).hi = 0#32 ∧ (State.create c entry m).lo = 0#32 ∧
    (State.create c entry m).fcr31 = c.fcr31Reset ∧
    (State.create c entry m).pfxs = ⟨false, 0#32⟩ ∧ (State.create c entry m).pfxt = ⟨false, 0#32⟩ ∧
    (State.create c entry m).pfxd = ⟨false, 0#32⟩ ∧
    (State.create c entry m).pc = entry ∧ (State.create c entry m).npc = entry + 4#32 ∧
    (State.create c entry m).ic = 0#32 ∧ (State.create c entry m).ir = 0#32 ∧
    (State.create c entry m).count = 0 ∧ (State.create c entry m).bpSet = [] ∧
    (State.create c entry m).bpEnabled = false ∧ (State.create c entry m).mem = m

/-- For every step that answers a next state: where the outcome is Paused, COUNT is unchanged; where it is
Continue or Trap, COUNT has grown by exactly one. (spec/10_state.md section 5, spec/60_exceptions.md section
1.) -/
def Obligations.CountCountsCompletedSteps : Prop :=
  ∀ s t : State, step s = .next t →
    ((∃ a, t.outcome = .paused a) → t.count = s.count) ∧
    ((t.outcome = .continued ∨ ∃ k c, t.outcome = .trap k c) → t.count = s.count + 1)

/-- Every step that answers a next state leaves the parameters of the machine, BP_SET and BP_ENABLED as they were.
That the parameters are configuration which nothing writes is the scope file's; that they stand in a field of
the state which no step changes is the model's choice (log entry 1). (spec/10_state.md section 6,
spec/00_scope.md section 3, spec/00_scope.md section 6.) -/
def Obligations.StepKeepsParametersAndBreakpoints : Prop :=
  ∀ s t : State, step s = .next t → t.cfg = s.cfg ∧ t.bpSet = s.bpSet ∧ t.bpEnabled = s.bpEnabled

/-- Where an instruction answers a next state in which HI or LO differs, it is one of mult, multu, div, divu,
madd, maddu, msub, msubu, mthi, mtlo. (spec/10_state.md section 4.) -/
def Obligations.HiloIsWrittenOnlyByItsInstructions : Prop :=
  ∀ (i : Instr) (s t : State), exec i s = .next t → (t.hi ≠ s.hi ∨ t.lo ≠ s.lo) → i.writesHilo = true

/-- Where an instruction answers a next state in which some byte of memory reads differently, it is one of sb, sh,
sw, swl, swr, swc1, sc, sv.q, svl.q, svr.q, sv.s; where FCR31 differs, it is one of the eight arithmetic
instructions, one of the sixteen compares, or ctc1. (spec/20_memory.md section 1, spec/42_loadstore.md section
2, spec/46_vfpu_ops.md section 1, spec/10_state.md section 5, spec/44_fpu.md section 0.) -/
def Obligations.MemoryAndFcr31AreWrittenOnlyByTheirInstructions : Prop :=
  ∀ (i : Instr) (s t : State), exec i s = .next t →
    (∀ a, t.mem.byte a ≠ s.mem.byte a → i.isStore = true) ∧
    (t.fcr31 ≠ s.fcr31 → i.notesResult = true ∨ i.isCompare = true ∨ i.row.mnemonic = "ctc1")

/-- With admissible parameters, every instruction but ctc1 that answers a next state leaves every sticky flag that
was set still set. (spec/44_fpu.md section 0.) -/
def Obligations.StickyFlagsAreClearedOnlyByCtc1 : Prop :=
  ∀ (i : Instr) (s t : State), s.cfg.wf = true → i.row.mnemonic ≠ "ctc1" → exec i s = .next t →
    (i.notesResult = false → t.fcr31 &&& (s.cfg.nanMask ||| s.cfg.infMask) = s.fcr31 &&& (s.cfg.nanMask ||| s.cfg.infMask)) ∧
    s.fcr31 &&& (s.cfg.nanMask ||| s.cfg.infMask) &&& ~~~t.fcr31 = 0#32

/-- With admissible parameters, no step changes a bit of FCR31 that lies outside FCR31_WMASK (the mask is the
spec's parameter, decision D19). (spec/44_fpu.md section 4, spec/10_state.md section 5.) -/
def Obligations.BitsOutsideTheWriteMaskNeverChange : Prop :=
  ∀ s t : State, s.cfg.wf = true → step s = .next t →
    t.fcr31 &&& ~~~s.cfg.wmask = s.fcr31 &&& ~~~s.cfg.wmask

/-- An instruction that answers a next state and is a consuming instruction leaves all three latches disabled with
their values kept; one that is neither consuming nor a prefix setter leaves the latches as they were. Which
instructions consume is the spec's decision D22. (spec/45_vfpu_regs_prefix.md section 2.) -/
def Obligations.LatchesAreSetAndConsumedAsStated : Prop :=
  ∀ (i : Instr) (s t : State), exec i s = .next t →
    (i.consumes = true → Consumed s t) ∧
    (i.consumes = false → i.setsLatch = false → t.pfxs = s.pfxs ∧ t.pfxt = s.pfxt ∧ t.pfxd = s.pfxd)

/-- Where an instruction that is no branch or jump answers a next state, PC is the old nPC and nPC the old nPC
plus 4, so a pending redirect takes effect after the delay slot; a control transfer moves PC to the old nPC
or, squashing, 4 past it. (spec/10_state.md section 2, spec/40_integer_alu.md section 0.) -/
def Obligations.OtherInstructionsAdvanceInSequence : Prop :=
  ∀ (i : Instr) (s t : State), exec i s = .next t →
    (i.isControlTransfer = false → Sequential s t) ∧
    (i.isControlTransfer = true → t.pc = s.npc ∨ Squashed s t)

/-- An instruction that is well-formed raises no InvalidControlRegister, and raises ReservedOperand only where it
is a vector instruction that applies an enabled source prefix; the record holds PC and IR. Where these faults
arise is the spec's own decision: D9 for ext and ins, D19 for cfc1 and ctc1, D22 for the VFPU forms.
(spec/60_exceptions.md section 1, spec/46_vfpu_ops.md section 0.) -/
def Obligations.ReservedOperandsAreRaisedOnlyWhereListed : Prop :=
  ∀ (i : Instr) (s : State), i.wellFormed s.cfg.sizeCoding = true →
    (∀ pc n a, exec i s ≠ .fault (.invalidControlRegister pc n a)) ∧
    (∀ pc w, exec i s = .fault (.reservedOperand pc w) →
      pc = s.pc ∧ w = s.ir ∧ i.row.mnemonic ∈ ["vadd", "vsub", "vmul", "vdiv", "vmov", "vabs", "vneg", "vscl", "vdot", "vrot"] ∧
      (s.pfxs.enabled = true ∨ s.pfxt.enabled = true))

/-- Where a batch of n steps is exhausted, the batch of n + m steps is the batch of m steps from its final state,
with n more steps executed; and the number executed is the growth of COUNT. A batch whose first step faults
ends in that fault with nothing executed and the state as it was but for IR, which holds the word fetched
where PC is a multiple of 4 and its masked form admitted and is unchanged elsewhere. The little-endian fetch
is the spec's decision D1; that the state after a fault is seen through the batch is the model's choice (log
entry 14). (spec/60_exceptions.md section 1, spec/10_state.md section 5.) -/
def Obligations.BatchesCompose : Prop :=
  ∀ (n m : Nat) (s : State),
    ((batch n s).ending = .exhausted →
      (batch n s).executed = n ∧
      batch (n + m) s = { batch m (batch n s).state with executed := (batch m (batch n s).state).executed + n }) ∧
    (batch n s).state.count = s.count + (batch n s).executed ∧
    ∀ f : Fault, step s = .fault f → ∃ w : Word,
      batch (n + 1) s = ⟨{ s with ir := w }, .fault f, 0⟩ ∧
      (Fetchable s → littleEndian s (maskAddr s s.pc).toNat 4 = w.toNat) ∧
      (¬ Fetchable s → w = s.ir)

/-- Reading register 0 gives 0 in every state; writing it changes nothing; writing another register changes that
register alone. (spec/10_state.md section 1.) -/
def Obligations.RegisterZeroReadsZero : Prop :=
  ∀ (s : State) (r q : Reg) (v : Word),
    readGpr s 0 = 0#32 ∧ writeGpr s 0 v = s ∧
    (r ≠ 0 → readGpr (writeGpr s r v) r = v) ∧ (q ≠ r → readGpr (writeGpr s r v) q = readGpr s q) ∧
    writeGpr s r v = { s with gpr := (writeGpr s r v).gpr }

/-- For every instruction of the table, with every operand at every value, the word the encoder gives decodes to
that instruction. (spec/30_encoding.md section 2, spec/30_encoding.md section 4.) -/
def Obligations.EncodedInstructionsDecodeBack : Prop :=
  ∀ i : Instr, decodeWord (encode i) = .ok i

/-- Where a word decodes to an instruction, the word and the encoding of the instruction agree on every bit except
bits 23:20 of the source prefix setters, 23:12 of vpfxd, 20:16 of cache, and 20:11 of mfc0, mtc0, cfc0, ctc0,
mfdr, mtdr, which the decoder ignores and the encoder writes as 0 (log entry 18). (spec/30_encoding.md section
2, spec/30_encoding.md section 4.) -/
def Obligations.DecodedWordsEncodeBack : Prop :=
  ∀ (w : Word) (i : Instr), decodeWord w = .ok i →
    w &&& ~~~(if i.row.mnemonic ∈ ["vpfxs", "vpfxt"] then 0x00F00000#32
      else if i.row.mnemonic = "vpfxd" then 0x00FFF000#32
      else if i.row.mnemonic = "cache" then 0x001F0000#32
      else if i.row.mnemonic ∈ ["mfc0", "mtc0", "cfc0", "ctc0", "mfdr", "mtdr"] then 0x001FF800#32
      else 0#32) = encode i

/-- Two different places of the opcode table, which has 256 rows, hold rows that no word matches both of.
(spec/30_encoding.md section 4.) -/
def Obligations.RowsAreDisjoint : Prop :=
  table.length = 256 ∧
    ∀ (j k : Nat) (hj : j < table.length) (hk : k < table.length) (w : Word), j ≠ k →
      ¬ (table[j].accepts w = true ∧ table[k].accepts w = true)

/-- One word of each family, bits as the spec prints them, decodes to the instruction it stands for; words of no
row are rejected by name. (spec/95_test_vectors.md section 1, spec/95_test_vectors.md section 2,
spec/30_encoding.md section 5.) -/
def Obligations.SampleWordsDecode : Prop :=
  decodeWord 0b00100100000000100000000000000101#32 = .ok (.addiu 2 0 5#16) ∧
    decodeWord 0b00000000001000100001100000100000#32 = .ok (.add 3 1 2) ∧
    decodeWord 0b00000000100001010000000000011000#32 = .ok (.mult 4 5) ∧
    decodeWord 0b10001100100000100000000000001000#32 = .ok (.lw 2 8#16 4) ∧
    decodeWord 0b00010000001000100000000000000100#32 = .ok (.beq 1 2 4#16) ∧
    decodeWord 0b01000110000000100000100011000000#32 = .ok (.addS 3 1 2) ∧
    decodeWord 0b11011100000000011100000001000100#32 = .ok (.vpfxs 0x1C044#20) ∧
    decodeWord 0b11011000100000000000000000010000#32 = .ok (.lvQ 0#6 4#14 4) ∧
    decodeWord 0b11110011101001001000010010000000#32 = .ok (.vrot .quad 0#7 4#7 4#5) ∧
    decodeWord 0b11010000000100100000000000000000#32 = .ok (.vsin .single 0#7 0#7) ∧
    decodeWord 0b00000000000001001000110100001100#32 = .ok (.syscall 0x1234#20) ∧
    decodeWord 0xFFFFFFFF#32 = .error (.invalidInstruction 0xFFFFFFFF#32) ∧
    decodeWord 0x00200861#32 = .error (.invalidInstruction 0x00200861#32)

/-- For every state and operands each of the six completes in sequence, writes the sum or difference modulo 2^32
to its destination (nothing when the destination is register 0), raises no overflow, and changes nothing else.
(R140, R141, R142, R143, R144, R145.) -/
def Obligations.AddAndSubtractWrap : Prop :=
  ∀ (s : State) (rd rs rt : Reg) (imm : BitVec 16),
    WritesGpr (exec (.add rd rs rt) s) s rd (BitVec.ofNat 32 ((readGpr s rs).toNat + (readGpr s rt).toNat)) ∧
    WritesGpr (exec (.addu rd rs rt) s) s rd (BitVec.ofNat 32 ((readGpr s rs).toNat + (readGpr s rt).toNat)) ∧
    WritesGpr (exec (.addi rt rs imm) s) s rt (BitVec.ofInt 32 ((readGpr s rs).toInt + imm.toInt)) ∧
    WritesGpr (exec (.addiu rt rs imm) s) s rt (BitVec.ofInt 32 ((readGpr s rs).toInt + imm.toInt)) ∧
    WritesGpr (exec (.sub rd rs rt) s) s rd (BitVec.ofInt 32 ((readGpr s rs).toInt - (readGpr s rt).toInt)) ∧
    WritesGpr (exec (.subu rd rs rt) s) s rd (BitVec.ofInt 32 ((readGpr s rs).toInt - (readGpr s rt).toInt))

/-- and, or, xor, nor, andi, ori, xori (immediate zero-extended), lui (immediate in the upper half), slt, slti
(signed), sltu, sltiu (unsigned, immediate sign-extended first): each completes in sequence, writes its result
and changes nothing else. (R146, R147, R148, R149, R150, R151, R152, R153, R154, R155, R156, R157.) -/
def Obligations.LogicAndCompareResults : Prop :=
  ∀ (s : State) (rd rs rt : Reg) (imm : BitVec 16),
    WritesGpr (exec (.and rd rs rt) s) s rd (readGpr s rs &&& readGpr s rt) ∧
    WritesGpr (exec (.or rd rs rt) s) s rd (readGpr s rs ||| readGpr s rt) ∧
    WritesGpr (exec (.xor rd rs rt) s) s rd (readGpr s rs ^^^ readGpr s rt) ∧
    WritesGpr (exec (.nor rd rs rt) s) s rd (~~~(readGpr s rs ||| readGpr s rt)) ∧
    WritesGpr (exec (.andi rt rs imm) s) s rt (readGpr s rs &&& BitVec.ofNat 32 imm.toNat) ∧
    WritesGpr (exec (.ori rt rs imm) s) s rt (readGpr s rs ||| BitVec.ofNat 32 imm.toNat) ∧
    WritesGpr (exec (.xori rt rs imm) s) s rt (readGpr s rs ^^^ BitVec.ofNat 32 imm.toNat) ∧
    WritesGpr (exec (.lui rt imm) s) s rt (BitVec.ofNat 32 (2 ^ 16 * imm.toNat)) ∧
    WritesGpr (exec (.slt rd rs rt) s) s rd (if (readGpr s rs).toInt < (readGpr s rt).toInt then 1#32 else 0#32) ∧
    WritesGpr (exec (.sltu rd rs rt) s) s rd (if (readGpr s rs).toNat < (readGpr s rt).toNat then 1#32 else 0#32) ∧
    WritesGpr (exec (.slti rt rs imm) s) s rt (if (readGpr s rs).toInt < imm.toInt then 1#32 else 0#32) ∧
    WritesGpr (exec (.sltiu rt rs imm) s) s rt
      (if ((readGpr s rs).toNat : Int) < imm.toInt % 2 ^ 32 then 1#32 else 0#32)

/-- sll, srl, sra, sllv, srlv, srav, rotr, rotrv: shifts are multiplication or division by a power of two (sra,
srav rounding down on the signed value), the variable amounts are the register modulo 32; bit i of a rotation
is bit i + amount modulo 32 of the source; each completes in sequence and changes nothing else. (R158, R159,
R160, R161, R162, R163, R164, R165.) -/
def Obligations.ShiftAndRotateResults : Prop :=
  ∀ (s : State) (rd rs rt : Reg) (sa : Fin 32),
    WritesGpr (exec (.sll rd rt sa) s) s rd (BitVec.ofNat 32 ((readGpr s rt).toNat * 2 ^ sa.val)) ∧
    WritesGpr (exec (.srl rd rt sa) s) s rd (BitVec.ofNat 32 ((readGpr s rt).toNat / 2 ^ sa.val)) ∧
    WritesGpr (exec (.sra rd rt sa) s) s rd (BitVec.ofInt 32 ((readGpr s rt).toInt / 2 ^ sa.val)) ∧
    WritesGpr (exec (.sllv rd rt rs) s) s rd
      (BitVec.ofNat 32 ((readGpr s rt).toNat * 2 ^ ((readGpr s rs).toNat % 32))) ∧
    WritesGpr (exec (.srlv rd rt rs) s) s rd
      (BitVec.ofNat 32 ((readGpr s rt).toNat / 2 ^ ((readGpr s rs).toNat % 32))) ∧
    WritesGpr (exec (.srav rd rt rs) s) s rd
      (BitVec.ofInt 32 ((readGpr s rt).toInt / 2 ^ ((readGpr s rs).toNat % 32))) ∧
    (∃ v : Word, (∀ i, i < 32 → v.getLsbD i = (readGpr s rt).getLsbD ((i + sa.val) % 32)) ∧
      WritesGpr (exec (.rotr rd rt sa) s) s rd v) ∧
    (∃ v : Word, (∀ i, i < 32 → v.getLsbD i = (readGpr s rt).getLsbD ((i + (readGpr s rs).toNat % 32) % 32)) ∧
      WritesGpr (exec (.rotrv rd rt rs) s) s rd v)

/-- Under either value of EXT_INS_SIZE_CODING, where the fields encode a position and a size with 1 <= size and
pos + size <= 32, ext writes the size bits from pos zero-extended and ins merges the low size bits of rs into
rt at pos, completing in sequence and changing nothing else; where no such size is encoded both fault
ReservedOperand with PC and IR (the spec's decision D9; the two codings are its conflict C3).
(spec/40_integer_alu.md section 6, spec/30_encoding.md section 2.) -/
def Obligations.ExtractAndInsertResults : Prop :=
  ∀ (s : State) (rt rs : Reg) (lsb msb : Fin 32),
    (∀ size : Nat, 1 ≤ size → lsb.val + size ≤ 32 →
      (s.cfg.sizeCoding = .asMIPS32R2 ∧ msb.val + 1 = size ∨ s.cfg.sizeCoding = .asSource ∧ msb.val + 1 = lsb.val + size) →
      ∃ v : Word, (∀ i, i < 32 → v.getLsbD i = (decide (i < size) && (readGpr s rs).getLsbD (lsb.val + i))) ∧
        WritesGpr (exec (.ext rt rs lsb msb) s) s rt v) ∧
    ((∀ size : Nat, 1 ≤ size → lsb.val + size ≤ 32 →
      ¬ (s.cfg.sizeCoding = .asMIPS32R2 ∧ msb.val + 1 = size ∨ s.cfg.sizeCoding = .asSource ∧ msb.val + 1 = lsb.val + size)) →
      exec (.ext rt rs lsb msb) s = .fault (.reservedOperand s.pc s.ir)) ∧
    (∀ size : Nat, 1 ≤ size → lsb.val + size ≤ 32 →
      (s.cfg.sizeCoding = .asMIPS32R2 ∧ msb.val + 1 = lsb.val + size ∨ s.cfg.sizeCoding = .asSource ∧ msb.val + 1 = size) →
      ∃ v : Word, (∀ i, i < 32 → v.getLsbD i =
          if lsb.val ≤ i ∧ i < lsb.val + size then (readGpr s rs).getLsbD (i - lsb.val) else (readGpr s rt).getLsbD i) ∧
        WritesGpr (exec (.ins rt rs lsb msb) s) s rt v) ∧
    ((∀ size : Nat, 1 ≤ size → lsb.val + size ≤ 32 →
      ¬ (s.cfg.sizeCoding = .asMIPS32R2 ∧ msb.val + 1 = lsb.val + size ∨ s.cfg.sizeCoding = .asSource ∧ msb.val + 1 = size)) →
      exec (.ins rt rs lsb msb) s = .fault (.reservedOperand s.pc s.ir))

/-- clz and clo write the number of leading 0 or 1 bits (32 where all are), seb and seh the sign-extended low byte
or half, wsbh the bytes swapped in each half, wsbw the four bytes reversed, bitrev the 32 bits reversed; each
completes in sequence and changes nothing else. (R171, R172, R173, R174, R175, R176, R177.) -/
def Obligations.CountExtendAndSwapResults : Prop :=
  ∀ (s : State) (rd rs rt : Reg),
    (∃ n, n ≤ 32 ∧ (∀ i, i < n → (readGpr s rs).getLsbD (31 - i) = false) ∧
      (n < 32 → (readGpr s rs).getLsbD (31 - n) = true) ∧ WritesGpr (exec (.clz rd rs) s) s rd (BitVec.ofNat 32 n)) ∧
    (∃ n, n ≤ 32 ∧ (∀ i, i < n → (readGpr s rs).getLsbD (31 - i) = true) ∧
      (n < 32 → (readGpr s rs).getLsbD (31 - n) = false) ∧ WritesGpr (exec (.clo rd rs) s) s rd (BitVec.ofNat 32 n)) ∧
    WritesGpr (exec (.seb rd rt) s) s rd (BitVec.ofInt 32 (byteOf (readGpr s rt) 0).toInt) ∧
    WritesGpr (exec (.seh rd rt) s) s rd (BitVec.ofInt 32 (BitVec.ofNat 16 (readGpr s rt).toNat).toInt) ∧
    (∃ v : Word, byteOf v 0 = byteOf (readGpr s rt) 1 ∧ byteOf v 1 = byteOf (readGpr s rt) 0 ∧
      byteOf v 2 = byteOf (readGpr s rt) 3 ∧ byteOf v 3 = byteOf (readGpr s rt) 2 ∧
      WritesGpr (exec (.wsbh rd rt) s) s rd v) ∧
    (∃ v : Word, (∀ i, i < 4 → byteOf v i = byteOf (readGpr s rt) (3 - i)) ∧
      WritesGpr (exec (.wsbw rd rt) s) s rd v) ∧
    (∃ v : Word, (∀ i, i < 32 → v.getLsbD i = (readGpr s rt).getLsbD (31 - i)) ∧
      WritesGpr (exec (.bitrev rd rt) s) s rd v)

/-- movz copies rs to rd where rt is 0 and movn where it is not, and otherwise leave rd as it was; max and min
write the greater and the lesser of the two signed values; each completes in sequence and changes nothing
else. (R178, R179, R180, R181.) -/
def Obligations.ConditionalMoveMaximumMinimum : Prop :=
  ∀ (s : State) (rd rs rt : Reg),
    WritesGpr (exec (.movz rd rs rt) s) s rd (if readGpr s rt = 0#32 then readGpr s rs else readGpr s rd) ∧
    WritesGpr (exec (.movn rd rs rt) s) s rd (if readGpr s rt = 0#32 then readGpr s rd else readGpr s rs) ∧
    WritesGpr (exec (.max rd rs rt) s) s rd (BitVec.ofInt 32 (max (readGpr s rs).toInt (readGpr s rt).toInt)) ∧
    WritesGpr (exec (.min rd rs rt) s) s rd (BitVec.ofInt 32 (min (readGpr s rs).toInt (readGpr s rt).toInt))

/-- The exact signed or unsigned 64-bit product goes to HI (upper half) and LO (lower half); the accumulate forms
add it to or subtract it from HILO modulo 2^64 (the wrap is the spec's decision D13); each completes in
sequence and changes nothing else. (spec/41_muldiv.md section 1, spec/41_muldiv.md section 3.) -/
def Obligations.MultiplyAndAccumulateResults : Prop :=
  ∀ (s : State) (rs rt : Reg) (p q h : Int),
    p = (readGpr s rs).toInt * (readGpr s rt).toInt → q = (readGpr s rs).toNat * (readGpr s rt).toNat →
    h = 2 ^ 32 * s.hi.toNat + s.lo.toNat →
    WritesHilo (exec (.mult rs rt) s) s (BitVec.ofInt 32 (p / 2 ^ 32)) (BitVec.ofInt 32 p) ∧
    WritesHilo (exec (.multu rs rt) s) s (BitVec.ofInt 32 (q / 2 ^ 32)) (BitVec.ofInt 32 q) ∧
    WritesHilo (exec (.madd rs rt) s) s (BitVec.ofInt 32 ((h + p) / 2 ^ 32)) (BitVec.ofInt 32 (h + p)) ∧
    WritesHilo (exec (.maddu rs rt) s) s (BitVec.ofInt 32 ((h + q) / 2 ^ 32)) (BitVec.ofInt 32 (h + q)) ∧
    WritesHilo (exec (.msub rs rt) s) s (BitVec.ofInt 32 ((h - p) / 2 ^ 32)) (BitVec.ofInt 32 (h - p)) ∧
    WritesHilo (exec (.msubu rs rt) s) s (BitVec.ofInt 32 ((h - q) / 2 ^ 32)) (BitVec.ofInt 32 (h - q))

/-- For a divisor that is not 0, div writes the quotient rounded toward zero to LO and the remainder with the sign
of the dividend to HI, both modulo 2^32 (so the most negative number divided by -1 gives itself and 0); it
completes in sequence and changes nothing else. A zero divisor faults DivideByZero with PC. Both corners are
the spec's decision D13. (spec/41_muldiv.md section 2.) -/
def Obligations.SignedDivideTruncatesAndFaultsOnZero : Prop :=
  ∀ (s : State) (rs rt : Reg),
    (readGpr s rt ≠ 0#32 →
      WritesHilo (exec (.div rs rt) s) s
        (BitVec.ofInt 32 ((readGpr s rs).toInt.tmod (readGpr s rt).toInt))
        (BitVec.ofInt 32 ((readGpr s rs).toInt.tdiv (readGpr s rt).toInt))) ∧
    (readGpr s rt = 0#32 → exec (.div rs rt) s = .fault (.divideByZero s.pc))

/-- divu writes the unsigned quotient to LO and the remainder to HI, and 0 to both where the divisor is 0; it
completes in sequence for every operand and changes nothing else. (R203.) -/
def Obligations.UnsignedDivideAndItsFallback : Prop :=
  ∀ (s : State) (rs rt : Reg),
    WritesHilo (exec (.divu rs rt) s) s
      (BitVec.ofNat 32 (if (readGpr s rt).toNat = 0 then 0 else (readGpr s rs).toNat % (readGpr s rt).toNat))
      (BitVec.ofNat 32 (if (readGpr s rt).toNat = 0 then 0 else (readGpr s rs).toNat / (readGpr s rt).toNat))

/-- The moves copy HI, LO or IC to a general register, or a general register to HI, LO or IC, complete in sequence
and change nothing else. (R208, R209, R210, R211, R606, R607.) -/
def Obligations.MovesOfHiLoAndIc : Prop :=
  ∀ (s : State) (rd rs rt : Reg),
    WritesGpr (exec (.mfhi rd) s) s rd s.hi ∧ WritesGpr (exec (.mflo rd) s) s rd s.lo ∧
    Ends (exec (.mthi rs) s) s Sequential (fun p => p = .hi) (fun t => t.hi = readGpr s rs) ∧
    Ends (exec (.mtlo rs) s) s Sequential (fun p => p = .lo) (fun t => t.lo = readGpr s rs) ∧
    WritesGpr (exec (.mfic rt) s) s rt s.ic ∧
    Ends (exec (.mtic rt) s) s Sequential (fun p => p = .ic) (fun t => t.ic = readGpr s rt)

/-- The effective address of a scalar access is the register plus the sign-extended 16-bit offset modulo 2^32;
that of a vector access the register plus four times the signed 14-bit offset. The masked form of an address
is its bitwise AND with ADDR_MASK, and two addresses with one masked form are one to memory: a read or a write
of 1, 2 or 4 bytes at either answers alike, and so does a fetch with either as PC where both are multiples of
4 or neither is (log entry 17). (spec/20_memory.md section 1, spec/20_memory.md section 2,
spec/42_loadstore.md section 0, spec/46_vfpu_ops.md section 1, spec/30_encoding.md section 3.) -/
def Obligations.EffectiveAddresses : Prop :=
  ∀ (s : State) (rs : Reg) (off : BitVec 16) (off14 : BitVec 14) (addr : Word),
    effAddr s rs off = BitVec.ofInt 32 ((readGpr s rs).toInt + off.toInt) ∧
    vecAddr s rs off14 = BitVec.ofInt 32 ((readGpr s rs).toInt + 4 * off14.toInt) ∧
    (∀ i, i < 32 → (maskAddr s addr).getLsbD i = (addr.getLsbD i && s.cfg.addrMask.getLsbD i)) ∧
    ∀ other : Word, maskAddr s other = maskAddr s addr →
      memRead8 s other = memRead8 s addr ∧ memRead16 s other = memRead16 s addr ∧
      memRead32 s other = memRead32 s addr ∧
      (∀ b, memWrite8 s other b = memWrite8 s addr b) ∧ (∀ h, memWrite16 s other h = memWrite16 s addr h) ∧
      (∀ w, memWrite32 s other w = memWrite32 s addr w) ∧
      ((other.toNat % 4 = 0 ↔ addr.toNat % 4 = 0) →
        fetch { s with pc := other } = fetch { s with pc := addr })

/-- Where the access is aligned and admitted, each load completes in sequence and writes the little-endian bytes
at the masked effective address, sign-extended or zero-extended as named, and changes nothing else; lwc1
writes raw bits to its float register and leaves FCR31 alone. The byte order is the spec's decision D1, ll as
lw its decision D14. (spec/42_loadstore.md section 1, spec/42_loadstore.md section 4, spec/42_loadstore.md
section 5, spec/20_memory.md section 2.) -/
def Obligations.AlignedLoadResults : Prop :=
  ∀ (s : State) (rt rs : Reg) (ft : FReg) (off : BitVec 16) (e : Word) (a : Nat),
    e = effAddr s rs off → a = (maskAddr s e).toNat →
    (Accessible s e 1 .load →
      WritesGpr (exec (.lb rt off rs) s) s rt (BitVec.ofInt 32 (BitVec.ofNat 8 (littleEndian s a 1)).toInt) ∧
      WritesGpr (exec (.lbu rt off rs) s) s rt (BitVec.ofNat 32 (littleEndian s a 1))) ∧
    (Accessible s e 2 .load →
      WritesGpr (exec (.lh rt off rs) s) s rt (BitVec.ofInt 32 (BitVec.ofNat 16 (littleEndian s a 2)).toInt) ∧
      WritesGpr (exec (.lhu rt off rs) s) s rt (BitVec.ofNat 32 (littleEndian s a 2))) ∧
    (Accessible s e 4 .load →
      WritesGpr (exec (.lw rt off rs) s) s rt (BitVec.ofNat 32 (littleEndian s a 4)) ∧
      WritesGpr (exec (.ll rt off rs) s) s rt (BitVec.ofNat 32 (littleEndian s a 4)) ∧
      WritesFpr (exec (.lwc1 ft off rs) s) s ft (BitVec.ofNat 32 (littleEndian s a 4)))

/-- Where the access is aligned and admitted, each store completes in sequence and writes the low 1, 2 or 4 bytes
of its register, least significant first, from the masked effective address; every other byte of memory and
every other part is unchanged, but that sc also writes 1 to its register (the spec's decision D14). The byte
order is the spec's decision D1. (spec/42_loadstore.md section 2, spec/42_loadstore.md section 4,
spec/42_loadstore.md section 5, spec/20_memory.md section 2.) -/
def Obligations.AlignedStoreResults : Prop :=
  ∀ (s : State) (rt rs : Reg) (ft : FReg) (off : BitVec 16) (e : Word) (a : Nat),
    e = effAddr s rs off → a = (maskAddr s e).toNat →
    (Accessible s e 1 .store → WritesBytes (exec (.sb rt off rs) s) s a 1 (byteOf (readGpr s rt))) ∧
    (Accessible s e 2 .store → WritesBytes (exec (.sh rt off rs) s) s a 2 (byteOf (readGpr s rt))) ∧
    (Accessible s e 4 .store →
      WritesBytes (exec (.sw rt off rs) s) s a 4 (byteOf (readGpr s rt)) ∧
      WritesBytes (exec (.swc1 ft off rs) s) s a 4 (byteOf (readFpr s ft)) ∧
      Ends (exec (.sc rt off rs) s) s Sequential (fun p => p = .gpr rt ∨ ∃ i, i < 4 ∧ p = .byte (a + i)) fun t =>
        (∀ i, i < 4 → t.mem.byte (a + i) = byteOf (readGpr s rt) i) ∧
        readGpr t rt = if rt = 0 then 0#32 else 1#32)

/-- With n the effective address modulo 4 and the aligned word around it admitted: byte i of the result of lwl is
byte i - (3 - n) of the word where i >= 3 - n and the old byte elsewhere; of lwr byte i + n of the word where
i < 4 - n; swl changes bytes 0 to n of the word to the high bytes of the register, swr bytes n to 3 to its low
bytes; nothing else changes. The byte order is the decision D1 of the spec. (spec/42_loadstore.md section 3,
spec/20_memory.md section 2.) -/
def Obligations.UnalignedWordAccess : Prop :=
  ∀ (s : State) (rt rs : Reg) (off : BitVec 16) (e : Word) (a n : Nat),
    e = effAddr s rs off → a = (maskAddr s (wordAddr e)).toNat → n = e.toNat % 4 →
    wordAddr e = BitVec.ofNat 32 (e.toNat - n) ∧
    (memAdmitted s (maskAddr s (wordAddr e)) 4 .load = true →
      (∃ v : Word, (∀ i, i < 4 → byteOf v i =
          if 3 - n ≤ i then s.mem.byte (a + (i - (3 - n))) else byteOf (readGpr s rt) i) ∧
        WritesGpr (exec (.lwl rt off rs) s) s rt v) ∧
      (∃ v : Word, (∀ i, i < 4 → byteOf v i =
          if i < 4 - n then s.mem.byte (a + (i + n)) else byteOf (readGpr s rt) i) ∧
        WritesGpr (exec (.lwr rt off rs) s) s rt v) ∧
      (memAdmitted s (maskAddr s (wordAddr e)) 4 .store = true →
        WritesBytes (exec (.swl rt off rs) s) s a (n + 1) (fun i => byteOf (readGpr s rt) (3 - n + i)) ∧
        WritesBytes (exec (.swr rt off rs) s) s (a + n) (4 - n) (fun i => byteOf (readGpr s rt) i)))

/-- Every scalar load and store whose masked effective address is no multiple of its size faults Misaligned, and
one that is aligned and not admitted faults MemoryAccess, with the masked address, the size and the kind; the
unaligned forms fault only MemoryAccess, of the aligned word, the stores asking for the load first. Alignment
and admission as faults are the spec's decisions D5 and D6. (spec/20_memory.md section 2, spec/20_memory.md
section 3, spec/42_loadstore.md section 0, spec/42_loadstore.md section 3.) -/
def Obligations.ScalarAccessFaults : Prop :=
  ∀ (s : State) (rt rs : Reg) (ft : FReg) (off : BitVec 16) (e : Word), e = effAddr s rs off →
    FaultsAt (exec (.lb rt off rs) s) s e 1 .load ∧ FaultsAt (exec (.lbu rt off rs) s) s e 1 .load ∧
    FaultsAt (exec (.lh rt off rs) s) s e 2 .load ∧ FaultsAt (exec (.lhu rt off rs) s) s e 2 .load ∧
    FaultsAt (exec (.lw rt off rs) s) s e 4 .load ∧ FaultsAt (exec (.ll rt off rs) s) s e 4 .load ∧
    FaultsAt (exec (.lwc1 ft off rs) s) s e 4 .load ∧
    FaultsAt (exec (.sb rt off rs) s) s e 1 .store ∧ FaultsAt (exec (.sh rt off rs) s) s e 2 .store ∧
    FaultsAt (exec (.sw rt off rs) s) s e 4 .store ∧ FaultsAt (exec (.sc rt off rs) s) s e 4 .store ∧
    FaultsAt (exec (.swc1 ft off rs) s) s e 4 .store ∧
    (maskAddr s (wordAddr e)).toNat % 4 = 0 ∧
    FaultsAt (exec (.lwl rt off rs) s) s (wordAddr e) 4 .load ∧ FaultsAt (exec (.lwr rt off rs) s) s (wordAddr e) 4 .load ∧
    FaultsAt (exec (.swl rt off rs) s) s (wordAddr e) 4 .load ∧ FaultsAt (exec (.swr rt off rs) s) s (wordAddr e) 4 .load ∧
    (memAdmitted s (maskAddr s (wordAddr e)) 4 .load = true →
      FaultsAt (exec (.swl rt off rs) s) s (wordAddr e) 4 .store ∧ FaultsAt (exec (.swr rt off rs) s) s (wordAddr e) 4 .store)

/-- Where sw completes, lbu at an effective address i bytes on (i below 4), in the state after it, completes with
byte i of the stored word, for every state where that load is admitted and ADDR_MASK keeps the two lowest
bits. The order of the bytes is the spec's decision D1. (spec/20_memory.md section 2.) -/
def Obligations.StoreThenLoadReadsTheBytesBack : Prop :=
  ∀ (s t : State) (rt rs rd rb : Reg) (off offb : BitVec 16) (i : Nat),
    exec (.sw rt off rs) s = .next t → i < 4 → s.cfg.addrMask.toNat % 4 = 3 →
    effAddr t rb offb = effAddr s rs off + BitVec.ofNat 32 i →
    memAdmitted t (maskAddr t (effAddr t rb offb)) 1 .load = true →
    WritesGpr (exec (.lbu rd offb rb) t) t rd (BitVec.ofNat 32 (byteOf (readGpr s rt) i).toNat)

/-- In state normal each of the eight plain conditional branches redirects to the address of the delay slot plus
four times the signed offset where its condition holds and goes on in sequence where it does not, so that the
delay slot executes either way; nothing else changes. (R254, R255, R256, R257, R258, R259, R280, R281.) -/
def Obligations.PlainBranchesGoWhereTheySay : Prop :=
  ∀ (s : State) (rs rt : Reg) (off : BitVec 16), s.npc = s.pc + 4#32 →
    BranchesIf (readGpr s rs = readGpr s rt) Sequential (exec (.beq rs rt off) s) s off ∧
    BranchesIf (readGpr s rs ≠ readGpr s rt) Sequential (exec (.bne rs rt off) s) s off ∧
    BranchesIf ((readGpr s rs).toInt ≤ 0) Sequential (exec (.blez rs off) s) s off ∧
    BranchesIf (0 < (readGpr s rs).toInt) Sequential (exec (.bgtz rs off) s) s off ∧
    BranchesIf ((readGpr s rs).toInt < 0) Sequential (exec (.bltz rs off) s) s off ∧
    BranchesIf (0 ≤ (readGpr s rs).toInt) Sequential (exec (.bgez rs off) s) s off ∧
    BranchesIf (s.fcr31.getLsbD s.cfg.ccBit.val = false) Sequential (exec (.bc1f off) s) s off ∧
    BranchesIf (s.fcr31.getLsbD s.cfg.ccBit.val = true) Sequential (exec (.bc1t off) s) s off

/-- In state normal each of the eight likely branches redirects to the address of the delay slot plus four times
the signed offset where its condition holds, and squashes the delay slot (PC moves 4 past it) where it does
not; nothing else changes. (R274, R275, R276, R277, R278, R279, R282, R283.) -/
def Obligations.LikelyBranchesGoWhereTheySay : Prop :=
  ∀ (s : State) (rs rt : Reg) (off : BitVec 16), s.npc = s.pc + 4#32 →
    BranchesIf (readGpr s rs = readGpr s rt) Squashed (exec (.beql rs rt off) s) s off ∧
    BranchesIf (readGpr s rs ≠ readGpr s rt) Squashed (exec (.bnel rs rt off) s) s off ∧
    BranchesIf ((readGpr s rs).toInt ≤ 0) Squashed (exec (.blezl rs off) s) s off ∧
    BranchesIf (0 < (readGpr s rs).toInt) Squashed (exec (.bgtzl rs off) s) s off ∧
    BranchesIf ((readGpr s rs).toInt < 0) Squashed (exec (.bltzl rs off) s) s off ∧
    BranchesIf (0 ≤ (readGpr s rs).toInt) Squashed (exec (.bgezl rs off) s) s off ∧
    BranchesIf (s.fcr31.getLsbD s.cfg.ccBit.val = false) Squashed (exec (.bc1fl off) s) s off ∧
    BranchesIf (s.fcr31.getLsbD s.cfg.ccBit.val = true) Squashed (exec (.bc1tl off) s) s off

/-- In state normal each writes the address after the delay slot to register 31 whether or not it is taken, tests
the old value of its register (31 included), redirects where the condition holds, and otherwise goes on in
sequence (bltzal, bgezal) or squashes (bltzall, bgezall); nothing else changes. (R253, R270, R271, R272,
R273.) -/
def Obligations.BranchAndLinkWritesTheLinkEitherWay : Prop :=
  ∀ (s : State) (rs : Reg) (off : BitVec 16), s.npc = s.pc + 4#32 →
    LinksAndBranchesIf ((readGpr s rs).toInt < 0) Sequential (exec (.bltzal rs off) s) s off ∧
    LinksAndBranchesIf (0 ≤ (readGpr s rs).toInt) Sequential (exec (.bgezal rs off) s) s off ∧
    LinksAndBranchesIf ((readGpr s rs).toInt < 0) Squashed (exec (.bltzall rs off) s) s off ∧
    LinksAndBranchesIf (0 ≤ (readGpr s rs).toInt) Squashed (exec (.bgezall rs off) s) s off

/-- In state normal: j and jal redirect to the 28 low bits of the instruction in the region of the delay slot; jal
writes the link to register 31; jr and jalr redirect to the old value of their register where it is a multiple
of 4, jalr writing the link to rd, and fault MisalignedJumpTarget with PC and the target where it is not;
nothing else changes. The region and the fault are the spec's decision D12. (spec/43_branch_jump.md section 0,
spec/43_branch_jump.md section 2.) -/
def Obligations.JumpsGoWhereTheySay : Prop :=
  ∀ (s : State) (rd rs : Reg) (target : BitVec 26) (jt : Word), s.npc = s.pc + 4#32 →
    jt = BitVec.ofNat 32 (s.npc.toNat / 2 ^ 28 * 2 ^ 28 + 4 * target.toNat) →
    Ends (exec (.j target) s) s (Redirected jt) Nothing (fun _ => True) ∧
    Ends (exec (.jal target) s) s (Redirected jt) (fun p => p = .gpr 31) (fun t => readGpr t 31 = s.npc + 4#32) ∧
    ((readGpr s rs).toNat % 4 = 0 →
      Ends (exec (.jr rs) s) s (Redirected (readGpr s rs)) Nothing (fun _ => True) ∧
      Ends (exec (.jalr rd rs) s) s (Redirected (readGpr s rs)) (fun p => p = .gpr rd)
        (fun t => readGpr t rd = if rd = 0 then 0#32 else s.npc + 4#32)) ∧
    ((readGpr s rs).toNat % 4 ≠ 0 →
      exec (.jr rs) s = .fault (.misalignedJumpTarget s.pc (readGpr s rs)) ∧
      exec (.jalr rd rs) s = .fault (.misalignedJumpTarget s.pc (readGpr s rs)))

/-- Each of the 28 branches and jumps, the four Tier U ones included, executed while a redirect is pending faults
ControlTransferInDelaySlot with PC and IR, whatever its operands (the spec's decision D7).
(spec/43_branch_jump.md section 0, spec/43_branch_jump.md section 6.) -/
def Obligations.ControlTransferInADelaySlotFaults : Prop :=
  ∀ (i : Instr) (s : State), i.isControlTransfer = true → s.npc ≠ s.pc + 4#32 →
    exec i s = .fault (.controlTransferInDelaySlot s.pc s.ir)

/-- Where a redirect is pending and the step executes an instruction (it answers a next state and does not pause),
the new PC is the pending target and the pipeline is back in state normal. (spec/10_state.md section 2,
spec/70_reset_and_hazards.md section 2.) -/
def Obligations.RedirectTakesEffectAfterTheDelaySlot : Prop :=
  ∀ s t : State, s.npc ≠ s.pc + 4#32 → step s = .next t → (∀ a, t.outcome ≠ .paused a) →
    t.pc = s.npc ∧ t.npc = t.pc + 4#32

/-- For all operands of the four operations: a NaN operand, Inf - Inf, 0 * Inf, 0 / 0 and Inf / Inf give a NaN
(which one is free); other infinities and division of a nonzero number by zero give the infinity of the right
sign; finite operands give the binary32 word nearest to the exact real result, ties to even, infinite from
2^128 - 2^103 on; products and quotients have the sign of their operands combined, and an exact zero sum is -0
only where both addends are negative. That FLOAT is IEEE binary32 with the NaN free is the decision D8 of the
spec; the sign of a zero sum, product or quotient and the overflow threshold are deduced from it (log entry
28). (spec/44_fpu.md section 0.) -/
def Obligations.SumsProductsAndQuotientsAreIeee : Prop :=
  ∀ a b : Word,
    (IsNaN a ∨ IsNaN b → IsNaN (fadd a b) ∧ IsNaN (fsub a b) ∧ IsNaN (fmul a b) ∧ IsNaN (fdiv a b)) ∧
    (IsFinite a → IsFinite b →
      NearestTo (value a + value b) (fadd a b) ∧
      (value a + value b = 0 → (signOf (fadd a b) ↔ signOf a ∧ signOf b)) ∧
      NearestTo (value a - value b) (fsub a b) ∧
      (value a - value b = 0 → (signOf (fsub a b) ↔ signOf a ∧ ¬ signOf b)) ∧
      NearestTo (value a * value b) (fmul a b) ∧ (signOf (fmul a b) ↔ SignsDiffer a b) ∧
      (value b ≠ 0 → NearestTo (value a / value b) (fdiv a b) ∧ (signOf (fdiv a b) ↔ SignsDiffer a b)) ∧
      (value b = 0 → value a ≠ 0 → IsInf (fdiv a b) ∧ (signOf (fdiv a b) ↔ SignsDiffer a b)) ∧
      (value b = 0 → value a = 0 → IsNaN (fdiv a b))) ∧
    (IsInf a → IsInf b →
      (SignsDiffer a b → IsNaN (fadd a b) ∧ fsub a b = a) ∧
      (¬ SignsDiffer a b → fadd a b = a ∧ IsNaN (fsub a b)) ∧
      IsInf (fmul a b) ∧ (signOf (fmul a b) ↔ SignsDiffer a b) ∧ IsNaN (fdiv a b)) ∧
    (IsInf a → IsFinite b →
      fadd a b = a ∧ fsub a b = a ∧
      (value b = 0 → IsNaN (fmul a b)) ∧
      (value b ≠ 0 → IsInf (fmul a b) ∧ (signOf (fmul a b) ↔ SignsDiffer a b)) ∧
      IsInf (fdiv a b) ∧ (signOf (fdiv a b) ↔ SignsDiffer a b)) ∧
    (IsFinite a → IsInf b →
      fadd a b = b ∧ IsInf (fsub a b) ∧ (signOf (fsub a b) ↔ ¬ signOf b) ∧
      (value a = 0 → IsNaN (fmul a b)) ∧
      (value a ≠ 0 → IsInf (fmul a b) ∧ (signOf (fmul a b) ↔ SignsDiffer a b)) ∧
      IsFinite (fdiv a b) ∧ value (fdiv a b) = 0 ∧ (signOf (fdiv a b) ↔ SignsDiffer a b))

/-- For every operand: a NaN and a negative number below -0 (minus infinity included) give a NaN; -0 gives -0 and
plus infinity itself; every other finite operand gives the binary32 word nearest to the real square root, ties
to even, with sign plus. That FLOAT is IEEE binary32 is the decision D8 of the spec; the square root of -0 is
deduced from it (log entry 28). (spec/44_fpu.md section 0.) -/
def Obligations.SquareRootIsIeee : Prop :=
  ∀ a : Word,
    (IsNaN a → IsNaN (fsqrt a)) ∧
    (¬ IsNaN a → signOf a → (IsInf a ∨ value a ≠ 0) → IsNaN (fsqrt a)) ∧
    (IsFinite a → value a = 0 → fsqrt a = a) ∧
    (IsInf a → ¬ signOf a → fsqrt a = a) ∧
    (IsFinite a → ¬ signOf a → NearestTo (Real.sqrt (value a)) (fsqrt a) ∧ ¬ signOf (fsqrt a))

/-- For every state and operands each of the eight completes in sequence, writes its result to F[fd], ORs
FCR31_NAN_MASK into FCR31 where the result is a NaN and FCR31_INF_MASK where it is infinite, and changes
nothing else: the FLOAT operations, the sign bit cleared, copied or flipped. The product of mul.s is +0.0
where FS is set and the word, no NaN, lies in a range of MUL_S_FLUSH. FLOAT is the decision D8 of the spec,
the sign of a flushed product its D15, the form of MUL_S_FLUSH the model's (log entry 6). That abs.s and neg.s
keep the payload of a NaN follows their pseudocode; the spec marks it as general knowledge and says that
claims should rely only on isNaN (section 1, the rule of abs.s; log entry 28). (spec/44_fpu.md section 0,
spec/44_fpu.md section 1, spec/10_state.md section 3.) -/
def Obligations.FloatArithmeticWritesAndNotes : Prop :=
  ∀ (s : State) (fd fs ft : FReg) (a b : Word), a = readFpr s fs → b = readFpr s ft →
    WritesAndNotes (exec (.addS fd fs ft) s) s fd (fadd a b) ∧
    WritesAndNotes (exec (.subS fd fs ft) s) s fd (fsub a b) ∧
    (s.fcr31.getLsbD s.cfg.fsBit.val = true ∧ ¬ IsNaN (fmul a b) ∧
        (∃ r ∈ s.cfg.mulFlush, r.lo.toNat ≤ (fmul a b).toNat ∧ (fmul a b).toNat ≤ r.hi.toNat) →
      WritesAndNotes (exec (.mulS fd fs ft) s) s fd 0#32) ∧
    (¬ (s.fcr31.getLsbD s.cfg.fsBit.val = true ∧ ¬ IsNaN (fmul a b) ∧
        (∃ r ∈ s.cfg.mulFlush, r.lo.toNat ≤ (fmul a b).toNat ∧ (fmul a b).toNat ≤ r.hi.toNat)) →
      WritesAndNotes (exec (.mulS fd fs ft) s) s fd (fmul a b)) ∧
    WritesAndNotes (exec (.divS fd fs ft) s) s fd (fdiv a b) ∧
    WritesAndNotes (exec (.sqrtS fd fs) s) s fd (fsqrt a) ∧
    WritesAndNotes (exec (.absS fd fs) s) s fd (BitVec.ofNat 32 (a.toNat % 2 ^ 31)) ∧
    WritesAndNotes (exec (.movS fd fs) s) s fd a ∧
    WritesAndNotes (exec (.negS fd fs) s) s fd (a + 0x80000000#32)

/-- For every state and operands: cvt.w.s in the mode of the RM field, and the four others in their fixed modes,
write the rounded integer where the operand is finite and the integer fits a word, and the free word
CVT_INVALID(w, mode) where not; cvt.s.w writes the binary32 word nearest to the signed integer, ties to even;
each completes in sequence and changes nothing else, FCR31 included. Ties to even and the open CVT_INVALID are
the decision D16 of the spec. (spec/44_fpu.md section 2.) -/
def Obligations.ConversionsRoundAsNamed : Prop :=
  ∀ (s : State) (fd fs : FReg) (w : Word), w = readFpr s fs →
    WritesInteger (exec (.cvtWS fd fs) s) s fd w (BitVec.ofNat 2 (s.fcr31.toNat / 2 ^ s.cfg.rmLow.val)) ∧
    WritesInteger (exec (.roundWS fd fs) s) s fd w 0#2 ∧
    WritesInteger (exec (.truncWS fd fs) s) s fd w 1#2 ∧
    WritesInteger (exec (.ceilWS fd fs) s) s fd w 2#2 ∧
    WritesInteger (exec (.floorWS fd fs) s) s fd w 3#2 ∧
    ∃ v, NearestTo (w.toInt : ℝ) v ∧ (signOf v ↔ w.toInt < 0) ∧ WritesFpr (exec (.cvtSW fd fs) s) s fd v

/-- For every state and operands each of the sixteen compares completes in sequence and sets CC to its predicate
on the IEEE comparisons of the operands (+0 equals -0, infinities compare as usual, every comparison with a
NaN is unordered); the signalling row behaves as the row above it; no other bit of FCR31 and nothing else
changes. (R330.) -/
def Obligations.ComparesSetTheConditionCode : Prop :=
  ∀ (s : State) (fs ft : FReg) (a b : Word) (u : Prop), a = readFpr s fs → b = readFpr s ft →
    (u ↔ IsNaN a ∨ IsNaN b) →
    SetsCondition (exec (.cFS fs ft) s) s (False) ∧
    SetsCondition (exec (.cUnS fs ft) s) s (u) ∧
    SetsCondition (exec (.cEqS fs ft) s) s (EqualTo a b) ∧
    SetsCondition (exec (.cUeqS fs ft) s) s (u ∨ EqualTo a b) ∧
    SetsCondition (exec (.cOltS fs ft) s) s (LessThan a b) ∧
    SetsCondition (exec (.cUltS fs ft) s) s (u ∨ LessThan a b) ∧
    SetsCondition (exec (.cOleS fs ft) s) s (LessThan a b ∨ EqualTo a b) ∧
    SetsCondition (exec (.cUleS fs ft) s) s (u ∨ LessThan a b ∨ EqualTo a b) ∧
    SetsCondition (exec (.cSfS fs ft) s) s (False) ∧
    SetsCondition (exec (.cNgleS fs ft) s) s (u) ∧
    SetsCondition (exec (.cSeqS fs ft) s) s (EqualTo a b) ∧
    SetsCondition (exec (.cNglS fs ft) s) s (u ∨ EqualTo a b) ∧
    SetsCondition (exec (.cLtS fs ft) s) s (LessThan a b) ∧
    SetsCondition (exec (.cNgeS fs ft) s) s (u ∨ LessThan a b) ∧
    SetsCondition (exec (.cLeS fs ft) s) s (LessThan a b ∨ EqualTo a b) ∧
    SetsCondition (exec (.cNgtS fs ft) s) s (u ∨ LessThan a b ∨ EqualTo a b)

/-- mfc1 and mtc1 move the raw bits, so that mtc1 and then mfc1 give the pattern back; cfc1 writes the constants
0, 25 to 28 or all of FCR31 to a general register; ctc1 to 31 replaces exactly the bits of FCR31 inside
FCR31_WMASK; each completes in sequence and changes nothing else; another number faults InvalidControlRegister
with PC, the number and read or write. The fault and the mask are the decision D19 of the spec.
(spec/44_fpu.md section 4, spec/10_state.md section 5.) -/
def Obligations.MovesToAndFromTheFloatUnit : Prop :=
  ∀ (s : State) (rt rd : Reg) (fs : FReg) (cr : Fin 32),
    WritesGpr (exec (.mfc1 rt fs) s) s rt (readFpr s fs) ∧
    WritesFpr (exec (.mtc1 rt fs) s) s fs (readGpr s rt) ∧
    (∀ t, exec (.mtc1 rt fs) s = .next t → WritesGpr (exec (.mfc1 rd fs) t) t rd (readGpr s rt)) ∧
    WritesGpr (exec (.cfc1 rt 0) s) s rt s.cfg.fcr0 ∧ WritesGpr (exec (.cfc1 rt 25) s) s rt s.cfg.fcr25 ∧
    WritesGpr (exec (.cfc1 rt 26) s) s rt s.cfg.fcr26 ∧ WritesGpr (exec (.cfc1 rt 27) s) s rt s.cfg.fcr27 ∧
    WritesGpr (exec (.cfc1 rt 28) s) s rt s.cfg.fcr28 ∧ WritesGpr (exec (.cfc1 rt 31) s) s rt s.fcr31 ∧
    (cr.val ∉ [0, 25, 26, 27, 28, 31] →
      exec (.cfc1 rt cr) s = .fault (.invalidControlRegister s.pc cr.val .read)) ∧
    Ends (exec (.ctc1 rt 31) s) s Sequential (fun p => p = .fcr31) (fun t => ∀ i, i < 32 →
      t.fcr31.getLsbD i = if s.cfg.wmask.getLsbD i then (readGpr s rt).getLsbD i else s.fcr31.getLsbD i) ∧
    (cr.val ≠ 31 → exec (.ctc1 rt cr) s = .fault (.invalidControlRegister s.pc cr.val .write))

/-- For every slot function VREG, selector and size: a lane of a vector group or an entry [j][i] of a matrix that
VREG does not list is the slot of the suggested formula of the spec in matrix index, column, row and transpose
flag, with the wraps modulo 4, and that of a single is then the selector; one that VREG lists is the slot
listed first. Under admissible parameters the lanes of every group are distinct, and so are the entries of
every matrix. That VREG is a list of exceptions to the suggested formula is the model's choice (log entry 30);
that an admissible one gives distinct slots is read from the spec (log entry 24). (spec/45_vfpu_regs_prefix.md
section 1, spec/00_scope.md section 3, spec/92_eei_decisions.md section 2.) -/
def Obligations.SelectorsNameTheirSlots : Prop :=
  ∀ (cfg : Config) (sel : Sel) (m c tr hi : Nat), m = sel.toNat / 4 % 8 → c = sel.toNat % 4 →
    tr = sel.toNat / 32 % 2 → hi = sel.toNat / 32 →
    ((∀ e ∈ cfg.vregLanes, ¬ (e.sel = sel ∧ e.size = .single ∧ e.lane = 0)) →
      (laneSlot cfg sel .single 0).val = 4 * m + c + 32 * hi ∧ (laneSlot cfg sel .single 0).val = sel.toNat) ∧
    (∀ (sz : VSize) (row i : Nat), sz ≠ .single → row = (if sz = .triple then hi / 2 else hi / 2 * 2) →
      i < sz.lanes →
      ((∀ e ∈ cfg.vregLanes, ¬ (e.sel = sel ∧ e.size = sz ∧ e.lane = i)) →
        (laneSlot cfg sel sz i).val =
          (if tr = 0 then 4 * m + c + 32 * ((row + i) % 4) else 4 * m + (row + i) % 4 + 32 * c)) ∧
      ∀ j, j < sz.lanes → (∀ e ∈ cfg.vregEntries, ¬ (e.sel = sel ∧ e.size = sz ∧ e.col = j ∧ e.row = i)) →
        (matSlot cfg sel sz j i).val =
          (if tr = 0 then 4 * m + (c + j) % 4 + 32 * ((row + i) % 4)
           else 4 * m + (row + i) % 4 + 32 * ((c + j) % 4))) ∧
    (∀ (pre post : List VregLane) (e : VregLane), cfg.vregLanes = pre ++ e :: post →
      (∀ d ∈ pre, ¬ (d.sel = e.sel ∧ d.size = e.size ∧ d.lane = e.lane)) →
      laneSlot cfg e.sel e.size e.lane = e.slot) ∧
    (∀ (pre post : List VregEntry) (e : VregEntry), cfg.vregEntries = pre ++ e :: post →
      (∀ d ∈ pre, ¬ (d.sel = e.sel ∧ d.size = e.size ∧ d.col = e.col ∧ d.row = e.row)) →
      matSlot cfg e.sel e.size e.col e.row = e.slot) ∧
    (cfg.wf = true → ∀ (sz : VSize) (i : Nat), i < sz.lanes →
      Apart (· < sz.lanes) (laneSlot cfg sel sz) i ∧
      ∀ j, j < sz.lanes → Apart (fun e : Nat × Nat => e.1 < sz.lanes ∧ e.2 < sz.lanes)
        (fun e => matSlot cfg sel sz e.1 e.2) (j, i))

/-- With ea the register plus four times the signed offset and k its word number in its 16-byte line: lv.q loads
the four words from ea into the lanes, lvl.q the k + 1 words up to ea into the high lanes, lvr.q the 4 - k
words from ea into the low lanes, lv.s one word into a slot, where ea is aligned (16 for lv.q, else 4) and
every word is admitted; mtv moves a general register to a slot. Each completes in sequence and changes no
other slot and no other part, the latches included. A misaligned ea faults Misaligned first, then the first
word not admitted, lowest first, faults MemoryAccess. The byte order is the decision D1 of the spec, alignment
and admission as faults its D5 and D6; lowest first is by offset (log entry 19). The slots are those of the
parameter VREG (log entry 30); a slot that two lanes name, which an admissible one never gives, is left open.
(spec/46_vfpu_ops.md section 1, spec/46_vfpu_ops.md section 6, spec/60_exceptions.md section 2.) -/
def Obligations.VectorLoads : Prop :=
  ∀ (s : State) (vt6 : BitVec 6) (vt : Sel) (off : BitVec 14) (rs rt : Reg) (e : Word) (k : Nat) (q : Nat → Slot),
    e = vecAddr s rs off → k = e.toNat / 4 % 4 → (∀ i, q i = laneSlot s.cfg (BitVec.ofNat 7 vt6.toNat) .quad i) →
    ((maskAddr s e).toNat % 16 = 0 → AllAdmitted s 4 (fun i => e + BitVec.ofNat 32 (4 * i)) .load →
      LoadsSlots (exec (.lvQ vt6 off rs) s) s 4 q (fun i => e + BitVec.ofNat 32 (4 * i))) ∧
    FaultsInOrder (exec (.lvQ vt6 off rs) s) s e 16 4 (fun i => e + BitVec.ofNat 32 (4 * i)) .load ∧
    ((maskAddr s e).toNat % 4 = 0 → AllAdmitted s (k + 1) (fun i => e - BitVec.ofNat 32 (4 * i)) .load →
      LoadsSlots (exec (.lvlQ vt6 off rs) s) s (k + 1) (fun i => q (3 - i)) (fun i => e - BitVec.ofNat 32 (4 * i))) ∧
    FaultsInOrder (exec (.lvlQ vt6 off rs) s) s e 4 (k + 1) (fun i => e - BitVec.ofNat 32 (4 * (k - i))) .load ∧
    ((maskAddr s e).toNat % 4 = 0 → AllAdmitted s (4 - k) (fun i => e + BitVec.ofNat 32 (4 * i)) .load →
      LoadsSlots (exec (.lvrQ vt6 off rs) s) s (4 - k) q (fun i => e + BitVec.ofNat 32 (4 * i))) ∧
    FaultsInOrder (exec (.lvrQ vt6 off rs) s) s e 4 (4 - k) (fun i => e + BitVec.ofNat 32 (4 * i)) .load ∧
    (Accessible s e 4 .load →
      LoadsSlots (exec (.lvS vt off rs) s) s 1 (fun _ => laneSlot s.cfg vt .single 0) (fun _ => e)) ∧
    FaultsAt (exec (.lvS vt off rs) s) s e 4 .load ∧
    WritesVfr (exec (.mtv rt vt) s) s (laneSlot s.cfg vt .single 0) (readGpr s rt)

/-- With ea the register plus four times the signed offset and k its word number in its 16-byte line: sv.q stores
the four lanes from ea, svl.q the high k + 1 lanes to the words up to ea, svr.q the low 4 - k lanes from ea,
sv.s one slot, little-endian, where ea is aligned (16 for sv.q, else 4) and every word is admitted; mfv moves
a slot to a general register. Each completes in sequence and changes no other byte and no other part. A
misaligned ea faults Misaligned first, then the first word not admitted, lowest first, faults MemoryAccess,
with nothing stored. The byte order is the decision D1 of the spec, alignment and admission as faults its D5
and D6; lowest first is by offset (log entry 19). The slots are those of the parameter VREG (log entry 30).
(spec/46_vfpu_ops.md section 1, spec/46_vfpu_ops.md section 6, spec/60_exceptions.md section 2.) -/
def Obligations.VectorStores : Prop :=
  ∀ (s : State) (vt6 : BitVec 6) (vt : Sel) (off : BitVec 14) (rs rt : Reg) (e : Word) (k : Nat) (q : Nat → Word),
    e = vecAddr s rs off → k = e.toNat / 4 % 4 →
    (∀ i, q i = readVfr s (laneSlot s.cfg (BitVec.ofNat 7 vt6.toNat) .quad i)) →
    ((maskAddr s e).toNat % 16 = 0 → AllAdmitted s 4 (fun i => e + BitVec.ofNat 32 (4 * i)) .store →
      StoresWords (exec (.svQ vt6 off rs) s) s 4 (fun i => e + BitVec.ofNat 32 (4 * i)) q) ∧
    FaultsInOrder (exec (.svQ vt6 off rs) s) s e 16 4 (fun i => e + BitVec.ofNat 32 (4 * i)) .store ∧
    ((maskAddr s e).toNat % 4 = 0 → AllAdmitted s (k + 1) (fun i => e - BitVec.ofNat 32 (4 * i)) .store →
      StoresWords (exec (.svlQ vt6 off rs) s) s (k + 1) (fun i => e - BitVec.ofNat 32 (4 * i)) (fun i => q (3 - i))) ∧
    FaultsInOrder (exec (.svlQ vt6 off rs) s) s e 4 (k + 1) (fun i => e - BitVec.ofNat 32 (4 * (k - i))) .store ∧
    ((maskAddr s e).toNat % 4 = 0 → AllAdmitted s (4 - k) (fun i => e + BitVec.ofNat 32 (4 * i)) .store →
      StoresWords (exec (.svrQ vt6 off rs) s) s (4 - k) (fun i => e + BitVec.ofNat 32 (4 * i)) q) ∧
    FaultsInOrder (exec (.svrQ vt6 off rs) s) s e 4 (4 - k) (fun i => e + BitVec.ofNat 32 (4 * i)) .store ∧
    (Accessible s e 4 .store →
      StoresWords (exec (.svS vt off rs) s) s 1 (fun _ => e) (fun _ => readVfr s (laneSlot s.cfg vt .single 0))) ∧
    FaultsAt (exec (.svS vt off rs) s) s e 4 .store ∧
    WritesGpr (exec (.mfv rt vt) s) s rt (readVfr s (laneSlot s.cfg vt .single 0))

/-- For every state and operands of side 2, 3 or 4: the matrix of zeros, of ones, the identity, a bit copy of vs,
or the product D[a][b] = sum over c of S[b][c] * T[a][c], each product and sum rounded, left to right from
+0.0; all sources are read first; no prefix is applied and all latches are consumed; nothing else changes.
Side 1 faults ReservedOperand with PC and IR (decision D22 of the spec; the order of sums is its D8). The
slots are those of the parameter VREG (log entry 30); a slot that two lanes name, which an admissible one
never gives, is left open. (spec/46_vfpu_ops.md section 2, spec/46_vfpu_ops.md section 0,
spec/45_vfpu_regs_prefix.md section 4.) -/
def Obligations.MatrixResults : Prop :=
  ∀ (s : State) (sz : VSize) (vd vs vt : Sel),
    (sz ≠ .single →
      WritesMatrix (exec (.vmzero sz vd) s) s vd sz (fun _ _ => 0#32) ∧
      WritesMatrix (exec (.vmone sz vd) s) s vd sz (fun _ _ => 0x3F800000#32) ∧
      WritesMatrix (exec (.vmidt sz vd) s) s vd sz (fun j i => if i = j then 0x3F800000#32 else 0#32) ∧
      WritesMatrix (exec (.vmmov sz vd vs) s) s vd sz (fun j i => readVfr s (matSlot s.cfg vs sz j i)) ∧
      WritesMatrix (exec (.vmmul sz vd vs vt) s) s vd sz (fun a b =>
        sumOfProducts sz.lanes (fun c => readVfr s (matSlot s.cfg vs sz b c)) fun c => readVfr s (matSlot s.cfg vt sz a c))) ∧
    exec (.vmzero .single vd) s = .fault (.reservedOperand s.pc s.ir) ∧
    exec (.vmone .single vd) s = .fault (.reservedOperand s.pc s.ir) ∧
    exec (.vmidt .single vd) s = .fault (.reservedOperand s.pc s.ir) ∧
    exec (.vmmov .single vd vs) s = .fault (.reservedOperand s.pc s.ir) ∧
    exec (.vmmul .single vd vs vt) s = .fault (.reservedOperand s.pc s.ir)

/-- For every state, size and operands: where the enabled source prefixes name only lanes inside their groups,
each instruction completes in sequence, writes its lanes from the prefixed sources (PFXS to vs, PFXT to vt;
vscl scales by a single, vdot sums to a single), clamped and masked by PFXD, consumes all three latches and
changes nothing else; where not, it faults ReservedOperand with PC and IR. The fault and the joint consumption
are the decision D22 of the spec, the FLOAT record its D8. The slots are those of the parameter VREG (log
entry 30); a slot that two lanes name, which an admissible one never gives, is left open. (spec/46_vfpu_ops.md
section 5, spec/45_vfpu_regs_prefix.md section 2, spec/45_vfpu_regs_prefix.md section 4.) -/
def Obligations.ElementwiseResults : Prop :=
  ∀ (s : State) (sz : VSize) (vd vs vt : Sel) (imm : BitVec 16) (both : Prop),
    (both ↔ SourceDefined s.pfxs sz.lanes ∧ SourceDefined s.pfxt sz.lanes) →
    (both →
      WritesLanes (exec (.vadd sz vd vs vt) s) s vd sz (fun i => fadd (laneS s vs sz i) (laneT s vt sz i)) ∧
      WritesLanes (exec (.vsub sz vd vs vt) s) s vd sz (fun i => fsub (laneS s vs sz i) (laneT s vt sz i)) ∧
      WritesLanes (exec (.vmul sz vd vs vt) s) s vd sz (fun i => fmul (laneS s vs sz i) (laneT s vt sz i)) ∧
      WritesLanes (exec (.vdiv sz vd vs vt) s) s vd sz (fun i => fdiv (laneS s vs sz i) (laneT s vt sz i)) ∧
      WritesLanes (exec (.vdot sz vd vs vt) s) s vd .single
        (fun _ => sumOfProducts sz.lanes (laneS s vs sz) (laneT s vt sz))) ∧
    (¬ both →
      exec (.vadd sz vd vs vt) s = .fault (.reservedOperand s.pc s.ir) ∧
      exec (.vsub sz vd vs vt) s = .fault (.reservedOperand s.pc s.ir) ∧
      exec (.vmul sz vd vs vt) s = .fault (.reservedOperand s.pc s.ir) ∧
      exec (.vdiv sz vd vs vt) s = .fault (.reservedOperand s.pc s.ir) ∧
      exec (.vdot sz vd vs vt) s = .fault (.reservedOperand s.pc s.ir)) ∧
    (SourceDefined s.pfxs sz.lanes →
      WritesLanes (exec (.vmov sz vd vs) s) s vd sz (laneS s vs sz) ∧
      WritesLanes (exec (.vabs sz vd vs) s) s vd sz (fun i => laneS s vs sz i &&& 0x7FFFFFFF#32) ∧
      WritesLanes (exec (.vneg sz vd vs) s) s vd sz (fun i => laneS s vs sz i ^^^ 0x80000000#32)) ∧
    (¬ SourceDefined s.pfxs sz.lanes →
      exec (.vmov sz vd vs) s = .fault (.reservedOperand s.pc s.ir) ∧
      exec (.vabs sz vd vs) s = .fault (.reservedOperand s.pc s.ir) ∧
      exec (.vneg sz vd vs) s = .fault (.reservedOperand s.pc s.ir)) ∧
    (SourceDefined s.pfxs sz.lanes ∧ SourceDefined s.pfxt 1 →
      WritesLanes (exec (.vscl sz vd vs vt) s) s vd sz
        (fun i => fmul (laneS s vs sz i) (laneT s vt .single 0))) ∧
    (¬ (SourceDefined s.pfxs sz.lanes ∧ SourceDefined s.pfxt 1) →
      exec (.vscl sz vd vs vt) s = .fault (.reservedOperand s.pc s.ir)) ∧
    WritesLanes (exec (.vzero sz vd) s) s vd sz (fun _ => 0#32) ∧
    WritesLanes (exec (.vone sz vd) s) s vd sz (fun _ => 0x3F800000#32) ∧
    ∃ v, IsFinite v ∧ value v = imm.toInt ∧ (signOf v ↔ imm.toInt < 0) ∧
      WritesLanes (exec (.viimS vt imm) s) s vt .single (fun _ => v)

/-- For every state and operands whose enabled source prefix names lane 0 or a constant: vrot completes in
sequence and writes the cosine of the angle to the lane of imm5 bits 1:0, its sine, negated where bit 4 says
so, to the lane of bits 3:2 where the two differ, +0.0 elsewhere, clamped and masked by PFXD; it consumes the
latches and changes nothing else. Another swizzle faults ReservedOperand. The sine and cosine of every finite
angle, in quarter turns, are finite and within 2^-20 of the real ones, and at an integer they are exactly 0,
1, 0, -1 and 1, 0, -1, 0. The bound and the exact values are the decision D23 of the spec, under which the
words are otherwise free (log entries 9 and 10); the fault is its D22. The slots are those of the parameter
VREG (log entry 30); a slot that two lanes name, which an admissible one never gives, is left open.
(spec/46_vfpu_ops.md section 3.) -/
def Obligations.RotationResults : Prop :=
  ∀ (s : State) (sz : VSize) (vd vs : Sel) (imm5 : BitVec 5) (a : Word), a = laneS s vs .single 0 →
    (SourceDefined s.pfxs 1 →
      WritesLanes (exec (.vrot sz vd vs imm5) s) s vd sz (fun i =>
        if i = imm5.toNat % 4 then vcos a
        else if i = imm5.toNat / 4 % 4 then (if 16 ≤ imm5.toNat then vsin a ^^^ 0x80000000#32 else vsin a)
        else 0#32)) ∧
    (¬ SourceDefined s.pfxs 1 → exec (.vrot sz vd vs imm5) s = .fault (.reservedOperand s.pc s.ir)) ∧
    (IsFinite a →
      IsFinite (vsin a) ∧ |value (vsin a) - Real.sin (value a * (Real.pi / 2))| ≤ 1 / 2 ^ 20 ∧
      IsFinite (vcos a) ∧ |value (vcos a) - Real.cos (value a * (Real.pi / 2))| ≤ 1 / 2 ^ 20 ∧
      ∀ z : Int, value a = z →
        (z % 4 = 0 → value (vsin a) = 0 ∧ value (vcos a) = 1) ∧
        (z % 4 = 1 → value (vsin a) = 1 ∧ value (vcos a) = 0) ∧
        (z % 4 = 2 → value (vsin a) = 0 ∧ value (vcos a) = -1) ∧
        (z % 4 = 3 → value (vsin a) = -1 ∧ value (vcos a) = 0))

/-- For every state and operands the quad form packs each of four pixels by its bit fields and writes two to each
slot of the destination pair, the earlier in the low half, consumes the latches without applying them and
changes nothing else; every other size faults ReservedOperand with PC and IR. That fault is the decision D22
of the spec. The slots are those of the parameter VREG (log entry 30); a slot that two lanes name, which an
admissible one never gives, is left open. (spec/46_vfpu_ops.md section 4.) -/
def Obligations.ColourResults : Prop :=
  ∀ (s : State) (sz : VSize) (vd vs : Sel),
    WritesPixels (exec (.vt4444Q .quad vd vs) s) s vd vs (fun p =>
      2 ^ 12 * (p / 2 ^ 28 % 16) + 2 ^ 8 * (p / 2 ^ 20 % 16) + 2 ^ 4 * (p / 2 ^ 12 % 16) + p / 2 ^ 4 % 16) ∧
    WritesPixels (exec (.vt5551Q .quad vd vs) s) s vd vs (fun p =>
      2 ^ 15 * (p / 2 ^ 31 % 2) + 2 ^ 10 * (p / 2 ^ 19 % 32) + 2 ^ 5 * (p / 2 ^ 11 % 32) + p / 2 ^ 3 % 32) ∧
    WritesPixels (exec (.vt5650Q .quad vd vs) s) s vd vs (fun p =>
      2 ^ 11 * (p / 2 ^ 19 % 32) + 2 ^ 5 * (p / 2 ^ 10 % 64) + p / 2 ^ 3 % 32) ∧
    (sz ≠ .quad →
      exec (.vt4444Q sz vd vs) s = .fault (.reservedOperand s.pc s.ir) ∧
      exec (.vt5551Q sz vd vs) s = .fault (.reservedOperand s.pc s.ir) ∧
      exec (.vt5650Q sz vd vs) s = .fault (.reservedOperand s.pc s.ir))

/-- For every state the prefix setters enable their latch with the descriptor of the instruction and change
nothing else, the other latches included; sync, cache, vnop, vsync, vflush and the word 0 (nop, which decodes
as a shift) complete in sequence and change nothing at all. (R377, R378, R379, R602, R603, R604, R446, R447,
R448.) -/
def Obligations.PrefixSettersAndHints : Prop :=
  ∀ (s : State) (d : BitVec 20) (dd : BitVec 12) (off : BitVec 16) (rs : Reg),
    Ends (exec (.vpfxs d) s) s Sequential (fun p => p = .pfxs)
      (fun t => t.pfxs = ⟨true, BitVec.ofNat 32 d.toNat⟩) ∧
    Ends (exec (.vpfxt d) s) s Sequential (fun p => p = .pfxt)
      (fun t => t.pfxt = ⟨true, BitVec.ofNat 32 d.toNat⟩) ∧
    Ends (exec (.vpfxd dd) s) s Sequential (fun p => p = .pfxd)
      (fun t => t.pfxd = ⟨true, BitVec.ofNat 32 dd.toNat⟩) ∧
    ChangesNothing (exec .sync s) s ∧ ChangesNothing (exec (.cache off rs) s) s ∧
    ChangesNothing (exec .vnop s) s ∧ ChangesNothing (exec .vsync s) s ∧ ChangesNothing (exec .vflush s) s ∧
    ∃ i, decodeWord 0#32 = .ok i ∧ ChangesNothing (exec i s) s

/-- For every state and code, in a delay slot too, syscall and break answer the outcome Trap of their kind with
the whole 20-bit code, PC at the old nPC, nPC 4 past it and COUNT one more; every register and byte of memory
is as the program left it. That the advance is committed first and the kind tagged is the decision D21 of the
spec. (spec/48_system.md section 1, spec/60_exceptions.md section 1.) -/
def Obligations.TrapsCommitThenSignal : Prop :=
  ∀ (s : State) (code : BitVec 20),
    Traps (exec (.syscall code) s) s .syscall code ∧ Traps (exec (.brk code) s) s .brk code

/-- Every instruction of Tier U (the VFPU rows of spec/47, bvf, bvt, bvfl, bvtl, and mfc0, mtc0, cfc0, ctc0, eret,
halt, dret, dbreak, mfdr, mtdr), whatever its operands and the state, faults Unimplemented with PC and its
mnemonic, the four branches where no redirect is pending (else ControlTransferInDelaySlot, which another
statement says). That the rows of coprocessor 0 and of debug exist is the decision D24 of the spec. (R460,
R609, R284, R285, R286, R287.) -/
def Obligations.TierUInstructionsFaultByName : Prop :=
  ∀ (i : Instr) (s : State), i.row.tier = .U → (i.isControlTransfer = false ∨ s.npc = s.pc + 4#32) →
    exec i s = .fault (.unimplemented s.pc i.row.mnemonic)
end

