-- ==== Sys2Proof/Laws/Decode.lean ====
section
/-! SUPPORT. The formats of the encoder: each as a number, masked part by part, and each part read back. With
them a word that an encoder made matches its row and gives its operands back. -/
namespace Sys2Proof

/-- Bits put above other bits, as a number. -/
theorem toNat_app {m n : Nat} (x : BitVec m) (y : BitVec n) : (x ++ y).toNat = x.toNat * 2 ^ n + y.toNat := by
  rw [BitVec.toNat_append, ← Nat.shiftLeft_add_eq_or_of_lt y.isLt, Nat.shiftLeft_eq]

theorem extract_eq_of_toNat {w : Word} {lo n : Nat} {x : BitVec n} (h : w.toNat / 2 ^ lo % 2 ^ n = x.toNat) :
    w.extractLsb' lo n = x := by
  apply BitVec.eq_of_toNat_eq
  rw [BitVec.extractLsb'_toNat, Nat.shiftRight_eq_div_pow, h]

/-- Two rows of a table of which no word matches both: a bit that both fix differently. -/
theorem row_eq_of_accepts {r q : Row} {w : Word} (hr : r.accepts w = true) (hq : q.accepts w = true)
    (h : r.mask &&& q.mask &&& (r.bits ^^^ q.bits) ≠ 0#32) : False := by
  unfold Row.accepts at hr hq
  rw [beq_iff_eq] at hr hq
  rw [← hr, ← hq] at h
  apply h
  ext i hi
  simp only [BitVec.getElem_and, BitVec.getElem_xor, BitVec.getElem_zero]
  cases w[i] <;> cases r.mask[i] <;> cases q.mask[i] <;> rfl

/-! ### `fR` -/

theorem fR_toNat (op : BitVec 6) (rs : BitVec 5) (rt : BitVec 5) (rd : BitVec 5) (sa : BitVec 5) (fn : BitVec 6) :
    (fR op rs rt rd sa fn).toNat = 2 ^ 26 * op.toNat + 2 ^ 21 * rs.toNat + 2 ^ 16 * rt.toNat + 2 ^ 11 * rd.toNat + 2 ^ 6 * sa.toNat + fn.toNat := by
  unfold fR
  simp only [toNat_app]
  omega

theorem fR_and (op op' : BitVec 6) (rs rs' : BitVec 5) (rt rt' : BitVec 5) (rd rd' : BitVec 5) (sa sa' : BitVec 5) (fn fn' : BitVec 6) :
    fR op rs rt rd sa fn &&& fR op' rs' rt' rd' sa' fn' = fR (op &&& op') (rs &&& rs') (rt &&& rt') (rd &&& rd') (sa &&& sa') (fn &&& fn') := by
  have h : (op ++ rs ++ rt ++ rd ++ sa ++ fn : BitVec (6 + 5 + 5 + 5 + 5 + 6)) &&& (op' ++ rs' ++ rt' ++ rd' ++ sa' ++ fn') = (op &&& op') ++ (rs &&& rs') ++ (rt &&& rt') ++ (rd &&& rd') ++ (sa &&& sa') ++ (fn &&& fn') := by simp only [BitVec.and_append]
  exact h

section
variable (op : BitVec 6) (rs : BitVec 5) (rt : BitVec 5) (rd : BitVec 5) (sa : BitVec 5) (fn : BitVec 6)
@[simp] theorem fR_op : (fR op rs rt rd sa fn).extractLsb' 26 6 = op :=
  extract_eq_of_toNat (by rw [fR_toNat]; omega)
@[simp] theorem fR_rs : (fR op rs rt rd sa fn).extractLsb' 21 5 = rs :=
  extract_eq_of_toNat (by rw [fR_toNat]; omega)
@[simp] theorem fR_rt : (fR op rs rt rd sa fn).extractLsb' 16 5 = rt :=
  extract_eq_of_toNat (by rw [fR_toNat]; omega)
@[simp] theorem fR_rd : (fR op rs rt rd sa fn).extractLsb' 11 5 = rd :=
  extract_eq_of_toNat (by rw [fR_toNat]; omega)
@[simp] theorem fR_sa : (fR op rs rt rd sa fn).extractLsb' 6 5 = sa :=
  extract_eq_of_toNat (by rw [fR_toNat]; omega)
@[simp] theorem fR_fn : (fR op rs rt rd sa fn).extractLsb' 0 6 = fn :=
  extract_eq_of_toNat (by rw [fR_toNat]; omega)
end

/-! ### `fI` -/

theorem fI_toNat (op : BitVec 6) (rs : BitVec 5) (rt : BitVec 5) (imm : BitVec 16) :
    (fI op rs rt imm).toNat = 2 ^ 26 * op.toNat + 2 ^ 21 * rs.toNat + 2 ^ 16 * rt.toNat + imm.toNat := by
  unfold fI
  simp only [toNat_app]
  omega

theorem fI_and (op op' : BitVec 6) (rs rs' : BitVec 5) (rt rt' : BitVec 5) (imm imm' : BitVec 16) :
    fI op rs rt imm &&& fI op' rs' rt' imm' = fI (op &&& op') (rs &&& rs') (rt &&& rt') (imm &&& imm') := by
  have h : (op ++ rs ++ rt ++ imm : BitVec (6 + 5 + 5 + 16)) &&& (op' ++ rs' ++ rt' ++ imm') = (op &&& op') ++ (rs &&& rs') ++ (rt &&& rt') ++ (imm &&& imm') := by simp only [BitVec.and_append]
  exact h

section
variable (op : BitVec 6) (rs : BitVec 5) (rt : BitVec 5) (imm : BitVec 16)
@[simp] theorem fI_op : (fI op rs rt imm).extractLsb' 26 6 = op :=
  extract_eq_of_toNat (by rw [fI_toNat]; omega)
@[simp] theorem fI_rs : (fI op rs rt imm).extractLsb' 21 5 = rs :=
  extract_eq_of_toNat (by rw [fI_toNat]; omega)
@[simp] theorem fI_rt : (fI op rs rt imm).extractLsb' 16 5 = rt :=
  extract_eq_of_toNat (by rw [fI_toNat]; omega)
@[simp] theorem fI_imm : (fI op rs rt imm).extractLsb' 0 16 = imm :=
  extract_eq_of_toNat (by rw [fI_toNat]; omega)
end

/-! ### `fJ` -/

theorem fJ_toNat (op : BitVec 6) (target : BitVec 26) :
    (fJ op target).toNat = 2 ^ 26 * op.toNat + target.toNat := by
  unfold fJ
  simp only [toNat_app]
  omega

theorem fJ_and (op op' : BitVec 6) (target target' : BitVec 26) :
    fJ op target &&& fJ op' target' = fJ (op &&& op') (target &&& target') := by
  have h : (op ++ target : BitVec (6 + 26)) &&& (op' ++ target') = (op &&& op') ++ (target &&& target') := by simp only [BitVec.and_append]
  exact h

section
variable (op : BitVec 6) (target : BitVec 26)
@[simp] theorem fJ_op : (fJ op target).extractLsb' 26 6 = op :=
  extract_eq_of_toNat (by rw [fJ_toNat]; omega)
@[simp] theorem fJ_target : (fJ op target).extractLsb' 0 26 = target :=
  extract_eq_of_toNat (by rw [fJ_toNat]; omega)
end

/-! ### `fCode` -/

theorem fCode_toNat (op : BitVec 6) (code : BitVec 20) (fn : BitVec 6) :
    (fCode op code fn).toNat = 2 ^ 26 * op.toNat + 2 ^ 6 * code.toNat + fn.toNat := by
  unfold fCode
  simp only [toNat_app]
  omega

theorem fCode_and (op op' : BitVec 6) (code code' : BitVec 20) (fn fn' : BitVec 6) :
    fCode op code fn &&& fCode op' code' fn' = fCode (op &&& op') (code &&& code') (fn &&& fn') := by
  have h : (op ++ code ++ fn : BitVec (6 + 20 + 6)) &&& (op' ++ code' ++ fn') = (op &&& op') ++ (code &&& code') ++ (fn &&& fn') := by simp only [BitVec.and_append]
  exact h

section
variable (op : BitVec 6) (code : BitVec 20) (fn : BitVec 6)
@[simp] theorem fCode_op : (fCode op code fn).extractLsb' 26 6 = op :=
  extract_eq_of_toNat (by rw [fCode_toNat]; omega)
@[simp] theorem fCode_code : (fCode op code fn).extractLsb' 6 20 = code :=
  extract_eq_of_toNat (by rw [fCode_toNat]; omega)
@[simp] theorem fCode_fn : (fCode op code fn).extractLsb' 0 6 = fn :=
  extract_eq_of_toNat (by rw [fCode_toNat]; omega)
end

/-! ### `fV` -/

theorem fV_toNat (op : BitVec 6) (sub : BitVec 3) (vt : BitVec 7) (two : BitVec 1) (vs : BitVec 7) (one : BitVec 1) (vd : BitVec 7) :
    (fV op sub vt two vs one vd).toNat = 2 ^ 26 * op.toNat + 2 ^ 23 * sub.toNat + 2 ^ 16 * vt.toNat + 2 ^ 15 * two.toNat + 2 ^ 8 * vs.toNat + 2 ^ 7 * one.toNat + vd.toNat := by
  unfold fV
  simp only [toNat_app]
  omega

theorem fV_and (op op' : BitVec 6) (sub sub' : BitVec 3) (vt vt' : BitVec 7) (two two' : BitVec 1) (vs vs' : BitVec 7) (one one' : BitVec 1) (vd vd' : BitVec 7) :
    fV op sub vt two vs one vd &&& fV op' sub' vt' two' vs' one' vd' = fV (op &&& op') (sub &&& sub') (vt &&& vt') (two &&& two') (vs &&& vs') (one &&& one') (vd &&& vd') := by
  have h : (op ++ sub ++ vt ++ two ++ vs ++ one ++ vd : BitVec (6 + 3 + 7 + 1 + 7 + 1 + 7)) &&& (op' ++ sub' ++ vt' ++ two' ++ vs' ++ one' ++ vd') = (op &&& op') ++ (sub &&& sub') ++ (vt &&& vt') ++ (two &&& two') ++ (vs &&& vs') ++ (one &&& one') ++ (vd &&& vd') := by simp only [BitVec.and_append]
  exact h

section
variable (op : BitVec 6) (sub : BitVec 3) (vt : BitVec 7) (two : BitVec 1) (vs : BitVec 7) (one : BitVec 1) (vd : BitVec 7)
@[simp] theorem fV_op : (fV op sub vt two vs one vd).extractLsb' 26 6 = op :=
  extract_eq_of_toNat (by rw [fV_toNat]; omega)
@[simp] theorem fV_sub : (fV op sub vt two vs one vd).extractLsb' 23 3 = sub :=
  extract_eq_of_toNat (by rw [fV_toNat]; omega)
@[simp] theorem fV_vt : (fV op sub vt two vs one vd).extractLsb' 16 7 = vt :=
  extract_eq_of_toNat (by rw [fV_toNat]; omega)
@[simp] theorem fV_two : (fV op sub vt two vs one vd).extractLsb' 15 1 = two :=
  extract_eq_of_toNat (by rw [fV_toNat]; omega)
@[simp] theorem fV_vs : (fV op sub vt two vs one vd).extractLsb' 8 7 = vs :=
  extract_eq_of_toNat (by rw [fV_toNat]; omega)
@[simp] theorem fV_one : (fV op sub vt two vs one vd).extractLsb' 7 1 = one :=
  extract_eq_of_toNat (by rw [fV_toNat]; omega)
@[simp] theorem fV_vd : (fV op sub vt two vs one vd).extractLsb' 0 7 = vd :=
  extract_eq_of_toNat (by rw [fV_toNat]; omega)
end

/-! ### `fVcmp` -/

theorem fVcmp_toNat (op : BitVec 6) (sub : BitVec 3) (vt : BitVec 7) (two : BitVec 1) (vs : BitVec 7) (one : BitVec 1) (zero : BitVec 3) (cond : BitVec 4) :
    (fVcmp op sub vt two vs one zero cond).toNat = 2 ^ 26 * op.toNat + 2 ^ 23 * sub.toNat + 2 ^ 16 * vt.toNat + 2 ^ 15 * two.toNat + 2 ^ 8 * vs.toNat + 2 ^ 7 * one.toNat + 2 ^ 4 * zero.toNat + cond.toNat := by
  unfold fVcmp
  simp only [toNat_app]
  omega

theorem fVcmp_and (op op' : BitVec 6) (sub sub' : BitVec 3) (vt vt' : BitVec 7) (two two' : BitVec 1) (vs vs' : BitVec 7) (one one' : BitVec 1) (zero zero' : BitVec 3) (cond cond' : BitVec 4) :
    fVcmp op sub vt two vs one zero cond &&& fVcmp op' sub' vt' two' vs' one' zero' cond' = fVcmp (op &&& op') (sub &&& sub') (vt &&& vt') (two &&& two') (vs &&& vs') (one &&& one') (zero &&& zero') (cond &&& cond') := by
  have h : (op ++ sub ++ vt ++ two ++ vs ++ one ++ zero ++ cond : BitVec (6 + 3 + 7 + 1 + 7 + 1 + 3 + 4)) &&& (op' ++ sub' ++ vt' ++ two' ++ vs' ++ one' ++ zero' ++ cond') = (op &&& op') ++ (sub &&& sub') ++ (vt &&& vt') ++ (two &&& two') ++ (vs &&& vs') ++ (one &&& one') ++ (zero &&& zero') ++ (cond &&& cond') := by simp only [BitVec.and_append]
  exact h

section
variable (op : BitVec 6) (sub : BitVec 3) (vt : BitVec 7) (two : BitVec 1) (vs : BitVec 7) (one : BitVec 1) (zero : BitVec 3) (cond : BitVec 4)
@[simp] theorem fVcmp_op : (fVcmp op sub vt two vs one zero cond).extractLsb' 26 6 = op :=
  extract_eq_of_toNat (by rw [fVcmp_toNat]; omega)
@[simp] theorem fVcmp_sub : (fVcmp op sub vt two vs one zero cond).extractLsb' 23 3 = sub :=
  extract_eq_of_toNat (by rw [fVcmp_toNat]; omega)
@[simp] theorem fVcmp_vt : (fVcmp op sub vt two vs one zero cond).extractLsb' 16 7 = vt :=
  extract_eq_of_toNat (by rw [fVcmp_toNat]; omega)
@[simp] theorem fVcmp_two : (fVcmp op sub vt two vs one zero cond).extractLsb' 15 1 = two :=
  extract_eq_of_toNat (by rw [fVcmp_toNat]; omega)
@[simp] theorem fVcmp_vs : (fVcmp op sub vt two vs one zero cond).extractLsb' 8 7 = vs :=
  extract_eq_of_toNat (by rw [fVcmp_toNat]; omega)
@[simp] theorem fVcmp_one : (fVcmp op sub vt two vs one zero cond).extractLsb' 7 1 = one :=
  extract_eq_of_toNat (by rw [fVcmp_toNat]; omega)
@[simp] theorem fVcmp_zero : (fVcmp op sub vt two vs one zero cond).extractLsb' 4 3 = zero :=
  extract_eq_of_toNat (by rw [fVcmp_toNat]; omega)
@[simp] theorem fVcmp_cond : (fVcmp op sub vt two vs one zero cond).extractLsb' 0 4 = cond :=
  extract_eq_of_toNat (by rw [fVcmp_toNat]; omega)
end

/-! ### `fVimm5` -/

theorem fVimm5_toNat (op : BitVec 6) (sub : BitVec 5) (imm : BitVec 5) (two : BitVec 1) (vs : BitVec 7) (one : BitVec 1) (vd : BitVec 7) :
    (fVimm5 op sub imm two vs one vd).toNat = 2 ^ 26 * op.toNat + 2 ^ 21 * sub.toNat + 2 ^ 16 * imm.toNat + 2 ^ 15 * two.toNat + 2 ^ 8 * vs.toNat + 2 ^ 7 * one.toNat + vd.toNat := by
  unfold fVimm5
  simp only [toNat_app]
  omega

theorem fVimm5_and (op op' : BitVec 6) (sub sub' : BitVec 5) (imm imm' : BitVec 5) (two two' : BitVec 1) (vs vs' : BitVec 7) (one one' : BitVec 1) (vd vd' : BitVec 7) :
    fVimm5 op sub imm two vs one vd &&& fVimm5 op' sub' imm' two' vs' one' vd' = fVimm5 (op &&& op') (sub &&& sub') (imm &&& imm') (two &&& two') (vs &&& vs') (one &&& one') (vd &&& vd') := by
  have h : (op ++ sub ++ imm ++ two ++ vs ++ one ++ vd : BitVec (6 + 5 + 5 + 1 + 7 + 1 + 7)) &&& (op' ++ sub' ++ imm' ++ two' ++ vs' ++ one' ++ vd') = (op &&& op') ++ (sub &&& sub') ++ (imm &&& imm') ++ (two &&& two') ++ (vs &&& vs') ++ (one &&& one') ++ (vd &&& vd') := by simp only [BitVec.and_append]
  exact h

section
variable (op : BitVec 6) (sub : BitVec 5) (imm : BitVec 5) (two : BitVec 1) (vs : BitVec 7) (one : BitVec 1) (vd : BitVec 7)
@[simp] theorem fVimm5_op : (fVimm5 op sub imm two vs one vd).extractLsb' 26 6 = op :=
  extract_eq_of_toNat (by rw [fVimm5_toNat]; omega)
@[simp] theorem fVimm5_sub : (fVimm5 op sub imm two vs one vd).extractLsb' 21 5 = sub :=
  extract_eq_of_toNat (by rw [fVimm5_toNat]; omega)
@[simp] theorem fVimm5_imm : (fVimm5 op sub imm two vs one vd).extractLsb' 16 5 = imm :=
  extract_eq_of_toNat (by rw [fVimm5_toNat]; omega)
@[simp] theorem fVimm5_two : (fVimm5 op sub imm two vs one vd).extractLsb' 15 1 = two :=
  extract_eq_of_toNat (by rw [fVimm5_toNat]; omega)
@[simp] theorem fVimm5_vs : (fVimm5 op sub imm two vs one vd).extractLsb' 8 7 = vs :=
  extract_eq_of_toNat (by rw [fVimm5_toNat]; omega)
@[simp] theorem fVimm5_one : (fVimm5 op sub imm two vs one vd).extractLsb' 7 1 = one :=
  extract_eq_of_toNat (by rw [fVimm5_toNat]; omega)
@[simp] theorem fVimm5_vd : (fVimm5 op sub imm two vs one vd).extractLsb' 0 7 = vd :=
  extract_eq_of_toNat (by rw [fVimm5_toNat]; omega)
end

/-! ### `fVimm3` -/

theorem fVimm3_toNat (op : BitVec 6) (sub : BitVec 7) (imm : BitVec 3) (two : BitVec 1) (vs : BitVec 7) (one : BitVec 1) (vd : BitVec 7) :
    (fVimm3 op sub imm two vs one vd).toNat = 2 ^ 26 * op.toNat + 2 ^ 19 * sub.toNat + 2 ^ 16 * imm.toNat + 2 ^ 15 * two.toNat + 2 ^ 8 * vs.toNat + 2 ^ 7 * one.toNat + vd.toNat := by
  unfold fVimm3
  simp only [toNat_app]
  omega

theorem fVimm3_and (op op' : BitVec 6) (sub sub' : BitVec 7) (imm imm' : BitVec 3) (two two' : BitVec 1) (vs vs' : BitVec 7) (one one' : BitVec 1) (vd vd' : BitVec 7) :
    fVimm3 op sub imm two vs one vd &&& fVimm3 op' sub' imm' two' vs' one' vd' = fVimm3 (op &&& op') (sub &&& sub') (imm &&& imm') (two &&& two') (vs &&& vs') (one &&& one') (vd &&& vd') := by
  have h : (op ++ sub ++ imm ++ two ++ vs ++ one ++ vd : BitVec (6 + 7 + 3 + 1 + 7 + 1 + 7)) &&& (op' ++ sub' ++ imm' ++ two' ++ vs' ++ one' ++ vd') = (op &&& op') ++ (sub &&& sub') ++ (imm &&& imm') ++ (two &&& two') ++ (vs &&& vs') ++ (one &&& one') ++ (vd &&& vd') := by simp only [BitVec.and_append]
  exact h

section
variable (op : BitVec 6) (sub : BitVec 7) (imm : BitVec 3) (two : BitVec 1) (vs : BitVec 7) (one : BitVec 1) (vd : BitVec 7)
@[simp] theorem fVimm3_op : (fVimm3 op sub imm two vs one vd).extractLsb' 26 6 = op :=
  extract_eq_of_toNat (by rw [fVimm3_toNat]; omega)
@[simp] theorem fVimm3_sub : (fVimm3 op sub imm two vs one vd).extractLsb' 19 7 = sub :=
  extract_eq_of_toNat (by rw [fVimm3_toNat]; omega)
@[simp] theorem fVimm3_imm : (fVimm3 op sub imm two vs one vd).extractLsb' 16 3 = imm :=
  extract_eq_of_toNat (by rw [fVimm3_toNat]; omega)
@[simp] theorem fVimm3_two : (fVimm3 op sub imm two vs one vd).extractLsb' 15 1 = two :=
  extract_eq_of_toNat (by rw [fVimm3_toNat]; omega)
@[simp] theorem fVimm3_vs : (fVimm3 op sub imm two vs one vd).extractLsb' 8 7 = vs :=
  extract_eq_of_toNat (by rw [fVimm3_toNat]; omega)
@[simp] theorem fVimm3_one : (fVimm3 op sub imm two vs one vd).extractLsb' 7 1 = one :=
  extract_eq_of_toNat (by rw [fVimm3_toNat]; omega)
@[simp] theorem fVimm3_vd : (fVimm3 op sub imm two vs one vd).extractLsb' 0 7 = vd :=
  extract_eq_of_toNat (by rw [fVimm3_toNat]; omega)
end

/-! ### `fVimm8` -/

theorem fVimm8_toNat (op : BitVec 6) (sub : BitVec 2) (imm : BitVec 8) (two : BitVec 1) (vs : BitVec 7) (one : BitVec 1) (vd : BitVec 7) :
    (fVimm8 op sub imm two vs one vd).toNat = 2 ^ 26 * op.toNat + 2 ^ 24 * sub.toNat + 2 ^ 16 * imm.toNat + 2 ^ 15 * two.toNat + 2 ^ 8 * vs.toNat + 2 ^ 7 * one.toNat + vd.toNat := by
  unfold fVimm8
  simp only [toNat_app]
  omega

theorem fVimm8_and (op op' : BitVec 6) (sub sub' : BitVec 2) (imm imm' : BitVec 8) (two two' : BitVec 1) (vs vs' : BitVec 7) (one one' : BitVec 1) (vd vd' : BitVec 7) :
    fVimm8 op sub imm two vs one vd &&& fVimm8 op' sub' imm' two' vs' one' vd' = fVimm8 (op &&& op') (sub &&& sub') (imm &&& imm') (two &&& two') (vs &&& vs') (one &&& one') (vd &&& vd') := by
  have h : (op ++ sub ++ imm ++ two ++ vs ++ one ++ vd : BitVec (6 + 2 + 8 + 1 + 7 + 1 + 7)) &&& (op' ++ sub' ++ imm' ++ two' ++ vs' ++ one' ++ vd') = (op &&& op') ++ (sub &&& sub') ++ (imm &&& imm') ++ (two &&& two') ++ (vs &&& vs') ++ (one &&& one') ++ (vd &&& vd') := by simp only [BitVec.and_append]
  exact h

section
variable (op : BitVec 6) (sub : BitVec 2) (imm : BitVec 8) (two : BitVec 1) (vs : BitVec 7) (one : BitVec 1) (vd : BitVec 7)
@[simp] theorem fVimm8_op : (fVimm8 op sub imm two vs one vd).extractLsb' 26 6 = op :=
  extract_eq_of_toNat (by rw [fVimm8_toNat]; omega)
@[simp] theorem fVimm8_sub : (fVimm8 op sub imm two vs one vd).extractLsb' 24 2 = sub :=
  extract_eq_of_toNat (by rw [fVimm8_toNat]; omega)
@[simp] theorem fVimm8_imm : (fVimm8 op sub imm two vs one vd).extractLsb' 16 8 = imm :=
  extract_eq_of_toNat (by rw [fVimm8_toNat]; omega)
@[simp] theorem fVimm8_two : (fVimm8 op sub imm two vs one vd).extractLsb' 15 1 = two :=
  extract_eq_of_toNat (by rw [fVimm8_toNat]; omega)
@[simp] theorem fVimm8_vs : (fVimm8 op sub imm two vs one vd).extractLsb' 8 7 = vs :=
  extract_eq_of_toNat (by rw [fVimm8_toNat]; omega)
@[simp] theorem fVimm8_one : (fVimm8 op sub imm two vs one vd).extractLsb' 7 1 = one :=
  extract_eq_of_toNat (by rw [fVimm8_toNat]; omega)
@[simp] theorem fVimm8_vd : (fVimm8 op sub imm two vs one vd).extractLsb' 0 7 = vd :=
  extract_eq_of_toNat (by rw [fVimm8_toNat]; omega)
end

/-! ### `fVq` -/

theorem fVq_toNat (op : BitVec 6) (rs : BitVec 5) (vt : BitVec 5) (off : BitVec 14) (x : BitVec 1) (u : BitVec 1) :
    (fVq op rs vt off x u).toNat = 2 ^ 26 * op.toNat + 2 ^ 21 * rs.toNat + 2 ^ 16 * vt.toNat + 2 ^ 2 * off.toNat + 2 ^ 1 * x.toNat + u.toNat := by
  unfold fVq
  simp only [toNat_app]
  omega

theorem fVq_and (op op' : BitVec 6) (rs rs' : BitVec 5) (vt vt' : BitVec 5) (off off' : BitVec 14) (x x' : BitVec 1) (u u' : BitVec 1) :
    fVq op rs vt off x u &&& fVq op' rs' vt' off' x' u' = fVq (op &&& op') (rs &&& rs') (vt &&& vt') (off &&& off') (x &&& x') (u &&& u') := by
  have h : (op ++ rs ++ vt ++ off ++ x ++ u : BitVec (6 + 5 + 5 + 14 + 1 + 1)) &&& (op' ++ rs' ++ vt' ++ off' ++ x' ++ u') = (op &&& op') ++ (rs &&& rs') ++ (vt &&& vt') ++ (off &&& off') ++ (x &&& x') ++ (u &&& u') := by simp only [BitVec.and_append]
  exact h

section
variable (op : BitVec 6) (rs : BitVec 5) (vt : BitVec 5) (off : BitVec 14) (x : BitVec 1) (u : BitVec 1)
@[simp] theorem fVq_op : (fVq op rs vt off x u).extractLsb' 26 6 = op :=
  extract_eq_of_toNat (by rw [fVq_toNat]; omega)
@[simp] theorem fVq_rs : (fVq op rs vt off x u).extractLsb' 21 5 = rs :=
  extract_eq_of_toNat (by rw [fVq_toNat]; omega)
@[simp] theorem fVq_vt : (fVq op rs vt off x u).extractLsb' 16 5 = vt :=
  extract_eq_of_toNat (by rw [fVq_toNat]; omega)
@[simp] theorem fVq_off : (fVq op rs vt off x u).extractLsb' 2 14 = off :=
  extract_eq_of_toNat (by rw [fVq_toNat]; omega)
@[simp] theorem fVq_x : (fVq op rs vt off x u).extractLsb' 1 1 = x :=
  extract_eq_of_toNat (by rw [fVq_toNat]; omega)
@[simp] theorem fVq_u : (fVq op rs vt off x u).extractLsb' 0 1 = u :=
  extract_eq_of_toNat (by rw [fVq_toNat]; omega)
end

/-! ### `fVs` -/

theorem fVs_toNat (op : BitVec 6) (rs : BitVec 5) (vt : BitVec 5) (off : BitVec 14) (u : BitVec 2) :
    (fVs op rs vt off u).toNat = 2 ^ 26 * op.toNat + 2 ^ 21 * rs.toNat + 2 ^ 16 * vt.toNat + 2 ^ 2 * off.toNat + u.toNat := by
  unfold fVs
  simp only [toNat_app]
  omega

theorem fVs_and (op op' : BitVec 6) (rs rs' : BitVec 5) (vt vt' : BitVec 5) (off off' : BitVec 14) (u u' : BitVec 2) :
    fVs op rs vt off u &&& fVs op' rs' vt' off' u' = fVs (op &&& op') (rs &&& rs') (vt &&& vt') (off &&& off') (u &&& u') := by
  have h : (op ++ rs ++ vt ++ off ++ u : BitVec (6 + 5 + 5 + 14 + 2)) &&& (op' ++ rs' ++ vt' ++ off' ++ u') = (op &&& op') ++ (rs &&& rs') ++ (vt &&& vt') ++ (off &&& off') ++ (u &&& u') := by simp only [BitVec.and_append]
  exact h

section
variable (op : BitVec 6) (rs : BitVec 5) (vt : BitVec 5) (off : BitVec 14) (u : BitVec 2)
@[simp] theorem fVs_op : (fVs op rs vt off u).extractLsb' 26 6 = op :=
  extract_eq_of_toNat (by rw [fVs_toNat]; omega)
@[simp] theorem fVs_rs : (fVs op rs vt off u).extractLsb' 21 5 = rs :=
  extract_eq_of_toNat (by rw [fVs_toNat]; omega)
@[simp] theorem fVs_vt : (fVs op rs vt off u).extractLsb' 16 5 = vt :=
  extract_eq_of_toNat (by rw [fVs_toNat]; omega)
@[simp] theorem fVs_off : (fVs op rs vt off u).extractLsb' 2 14 = off :=
  extract_eq_of_toNat (by rw [fVs_toNat]; omega)
@[simp] theorem fVs_u : (fVs op rs vt off u).extractLsb' 0 2 = u :=
  extract_eq_of_toNat (by rw [fVs_toNat]; omega)
end

/-! ### `fPfx` -/

theorem fPfx_toNat (op : BitVec 6) (sub : BitVec 2) (skip : BitVec 4) (desc : BitVec 20) :
    (fPfx op sub skip desc).toNat = 2 ^ 26 * op.toNat + 2 ^ 24 * sub.toNat + 2 ^ 20 * skip.toNat + desc.toNat := by
  unfold fPfx
  simp only [toNat_app]
  omega

theorem fPfx_and (op op' : BitVec 6) (sub sub' : BitVec 2) (skip skip' : BitVec 4) (desc desc' : BitVec 20) :
    fPfx op sub skip desc &&& fPfx op' sub' skip' desc' = fPfx (op &&& op') (sub &&& sub') (skip &&& skip') (desc &&& desc') := by
  have h : (op ++ sub ++ skip ++ desc : BitVec (6 + 2 + 4 + 20)) &&& (op' ++ sub' ++ skip' ++ desc') = (op &&& op') ++ (sub &&& sub') ++ (skip &&& skip') ++ (desc &&& desc') := by simp only [BitVec.and_append]
  exact h

section
variable (op : BitVec 6) (sub : BitVec 2) (skip : BitVec 4) (desc : BitVec 20)
@[simp] theorem fPfx_op : (fPfx op sub skip desc).extractLsb' 26 6 = op :=
  extract_eq_of_toNat (by rw [fPfx_toNat]; omega)
@[simp] theorem fPfx_sub : (fPfx op sub skip desc).extractLsb' 24 2 = sub :=
  extract_eq_of_toNat (by rw [fPfx_toNat]; omega)
@[simp] theorem fPfx_skip : (fPfx op sub skip desc).extractLsb' 20 4 = skip :=
  extract_eq_of_toNat (by rw [fPfx_toNat]; omega)
@[simp] theorem fPfx_desc : (fPfx op sub skip desc).extractLsb' 0 20 = desc :=
  extract_eq_of_toNat (by rw [fPfx_toNat]; omega)
end

/-! ### `fPfxD` -/

theorem fPfxD_toNat (op : BitVec 6) (sub : BitVec 2) (skip : BitVec 12) (desc : BitVec 12) :
    (fPfxD op sub skip desc).toNat = 2 ^ 26 * op.toNat + 2 ^ 24 * sub.toNat + 2 ^ 12 * skip.toNat + desc.toNat := by
  unfold fPfxD
  simp only [toNat_app]
  omega

theorem fPfxD_and (op op' : BitVec 6) (sub sub' : BitVec 2) (skip skip' : BitVec 12) (desc desc' : BitVec 12) :
    fPfxD op sub skip desc &&& fPfxD op' sub' skip' desc' = fPfxD (op &&& op') (sub &&& sub') (skip &&& skip') (desc &&& desc') := by
  have h : (op ++ sub ++ skip ++ desc : BitVec (6 + 2 + 12 + 12)) &&& (op' ++ sub' ++ skip' ++ desc') = (op &&& op') ++ (sub &&& sub') ++ (skip &&& skip') ++ (desc &&& desc') := by simp only [BitVec.and_append]
  exact h

section
variable (op : BitVec 6) (sub : BitVec 2) (skip : BitVec 12) (desc : BitVec 12)
@[simp] theorem fPfxD_op : (fPfxD op sub skip desc).extractLsb' 26 6 = op :=
  extract_eq_of_toNat (by rw [fPfxD_toNat]; omega)
@[simp] theorem fPfxD_sub : (fPfxD op sub skip desc).extractLsb' 24 2 = sub :=
  extract_eq_of_toNat (by rw [fPfxD_toNat]; omega)
@[simp] theorem fPfxD_skip : (fPfxD op sub skip desc).extractLsb' 12 12 = skip :=
  extract_eq_of_toNat (by rw [fPfxD_toNat]; omega)
@[simp] theorem fPfxD_desc : (fPfxD op sub skip desc).extractLsb' 0 12 = desc :=
  extract_eq_of_toNat (by rw [fPfxD_toNat]; omega)
end

/-! ### `fViim` -/

theorem fViim_toNat (op : BitVec 6) (sub : BitVec 3) (vd : BitVec 7) (imm : BitVec 16) :
    (fViim op sub vd imm).toNat = 2 ^ 26 * op.toNat + 2 ^ 23 * sub.toNat + 2 ^ 16 * vd.toNat + imm.toNat := by
  unfold fViim
  simp only [toNat_app]
  omega

theorem fViim_and (op op' : BitVec 6) (sub sub' : BitVec 3) (vd vd' : BitVec 7) (imm imm' : BitVec 16) :
    fViim op sub vd imm &&& fViim op' sub' vd' imm' = fViim (op &&& op') (sub &&& sub') (vd &&& vd') (imm &&& imm') := by
  have h : (op ++ sub ++ vd ++ imm : BitVec (6 + 3 + 7 + 16)) &&& (op' ++ sub' ++ vd' ++ imm') = (op &&& op') ++ (sub &&& sub') ++ (vd &&& vd') ++ (imm &&& imm') := by simp only [BitVec.and_append]
  exact h

section
variable (op : BitVec 6) (sub : BitVec 3) (vd : BitVec 7) (imm : BitVec 16)
@[simp] theorem fViim_op : (fViim op sub vd imm).extractLsb' 26 6 = op :=
  extract_eq_of_toNat (by rw [fViim_toNat]; omega)
@[simp] theorem fViim_sub : (fViim op sub vd imm).extractLsb' 23 3 = sub :=
  extract_eq_of_toNat (by rw [fViim_toNat]; omega)
@[simp] theorem fViim_vd : (fViim op sub vd imm).extractLsb' 16 7 = vd :=
  extract_eq_of_toNat (by rw [fViim_toNat]; omega)
@[simp] theorem fViim_imm : (fViim op sub vd imm).extractLsb' 0 16 = imm :=
  extract_eq_of_toNat (by rw [fViim_toNat]; omega)
end

/-! ### `fVbr` -/

theorem fVbr_toNat (op : BitVec 6) (sub : BitVec 5) (imm : BitVec 3) (lt : BitVec 2) (off : BitVec 16) :
    (fVbr op sub imm lt off).toNat = 2 ^ 26 * op.toNat + 2 ^ 21 * sub.toNat + 2 ^ 18 * imm.toNat + 2 ^ 16 * lt.toNat + off.toNat := by
  unfold fVbr
  simp only [toNat_app]
  omega

theorem fVbr_and (op op' : BitVec 6) (sub sub' : BitVec 5) (imm imm' : BitVec 3) (lt lt' : BitVec 2) (off off' : BitVec 16) :
    fVbr op sub imm lt off &&& fVbr op' sub' imm' lt' off' = fVbr (op &&& op') (sub &&& sub') (imm &&& imm') (lt &&& lt') (off &&& off') := by
  have h : (op ++ sub ++ imm ++ lt ++ off : BitVec (6 + 5 + 3 + 2 + 16)) &&& (op' ++ sub' ++ imm' ++ lt' ++ off') = (op &&& op') ++ (sub &&& sub') ++ (imm &&& imm') ++ (lt &&& lt') ++ (off &&& off') := by simp only [BitVec.and_append]
  exact h

section
variable (op : BitVec 6) (sub : BitVec 5) (imm : BitVec 3) (lt : BitVec 2) (off : BitVec 16)
@[simp] theorem fVbr_op : (fVbr op sub imm lt off).extractLsb' 26 6 = op :=
  extract_eq_of_toNat (by rw [fVbr_toNat]; omega)
@[simp] theorem fVbr_sub : (fVbr op sub imm lt off).extractLsb' 21 5 = sub :=
  extract_eq_of_toNat (by rw [fVbr_toNat]; omega)
@[simp] theorem fVbr_imm : (fVbr op sub imm lt off).extractLsb' 18 3 = imm :=
  extract_eq_of_toNat (by rw [fVbr_toNat]; omega)
@[simp] theorem fVbr_lt : (fVbr op sub imm lt off).extractLsb' 16 2 = lt :=
  extract_eq_of_toNat (by rw [fVbr_toNat]; omega)
@[simp] theorem fVbr_off : (fVbr op sub imm lt off).extractLsb' 0 16 = off :=
  extract_eq_of_toNat (by rw [fVbr_toNat]; omega)
end

/-! ### Operands of more than one field -/

@[simp] theorem ofBits_two_one (sz : VSize) : VSize.ofBits sz.two sz.one = sz := by cases sz <;> rfl

theorem append_extract {m n : Nat} (x : BitVec (m + n)) : x.extractLsb' n m ++ x.extractLsb' 0 n = x := by
  ext i hi
  rw [BitVec.getElem_append]
  split
  · simp [BitVec.getElem_extractLsb', BitVec.getLsbD_eq_getElem hi]
  · rw [BitVec.getElem_extractLsb', show n + (i - n) = i by omega, BitVec.getLsbD_eq_getElem hi]

@[simp] theorem quadSel_parts (x : BitVec 6) : (x.extractLsb' 5 1 ++ x.extractLsb' 0 5 : BitVec (1 + 5)) = x :=
  append_extract (m := 1) (n := 5) x

@[simp] theorem singleSel_parts (x : BitVec 7) : (x.extractLsb' 5 2 ++ x.extractLsb' 0 5 : BitVec (2 + 5)) = x :=
  append_extract (m := 2) (n := 5) x

/-! ### The rows of a family stand in the table -/

theorem mem_table_of_alu {r : Row} (h : r ∈ aluRows) : r ∈ table := by
  unfold table; simp only [List.mem_append]; tauto

theorem mem_table_of_mulDiv {r : Row} (h : r ∈ mulDivRows) : r ∈ table := by
  unfold table; simp only [List.mem_append]; tauto

theorem mem_table_of_loadStore {r : Row} (h : r ∈ loadStoreRows) : r ∈ table := by
  unfold table; simp only [List.mem_append]; tauto

theorem mem_table_of_branch {r : Row} (h : r ∈ branchRows) : r ∈ table := by
  unfold table; simp only [List.mem_append]; tauto

theorem mem_table_of_fpu {r : Row} (h : r ∈ fpuRows) : r ∈ table := by
  unfold table; simp only [List.mem_append]; tauto

theorem mem_table_of_vfpuPfx {r : Row} (h : r ∈ vfpuPfxRows) : r ∈ table := by
  unfold table; simp only [List.mem_append]; tauto

theorem mem_table_of_vfpuMem {r : Row} (h : r ∈ vfpuMemRows) : r ∈ table := by
  unfold table; simp only [List.mem_append]; tauto

theorem mem_table_of_vfpuOps {r : Row} (h : r ∈ vfpuOpsRows) : r ∈ table := by
  unfold table; simp only [List.mem_append]; tauto

theorem mem_table_of_vfpuUnimplemented {r : Row} (h : r ∈ vfpuUnimplementedRows) : r ∈ table := by
  unfold table; simp only [List.mem_append]; tauto

theorem mem_table_of_system {r : Row} (h : r ∈ systemRows) : r ∈ table := by
  unfold table; simp only [List.mem_append]; tauto

end Sys2Proof
end

