-- ==== Sys2Proof/Laws/Float.lean ====
section
/-! SUPPORT. The float operations against the numbers of Safety.lean: classes, comparisons, values. -/
namespace Sys2Proof.Machine

/-! ### Classes -/

theorem f32Exp_eq (w : Word) : f32Exp w = expOf w := by
  unfold f32Exp expOf
  rw [BitVec.extractLsb'_toNat, Nat.shiftRight_eq_div_pow]

theorem f32Frac_eq (w : Word) : f32Frac w = fracOf w := by
  unfold f32Frac fracOf
  rw [BitVec.extractLsb'_toNat, Nat.shiftRight_eq_div_pow]; simp

theorem f32Neg_iff (w : Word) : f32Neg w = true ↔ signOf w := by
  unfold f32Neg signOf
  rw [← BitVec.msb_eq_getLsbD_last, BitVec.msb_eq_decide]; simp

theorem isNaN_iff (w : Word) : isNaN w = true ↔ IsNaN w := by
  unfold isNaN IsNaN; rw [f32Exp_eq, f32Frac_eq]; simp

theorem isInf_iff (w : Word) : isInf w = true ↔ IsInf w := by
  unfold isInf IsInf; rw [f32Exp_eq, f32Frac_eq]; simp

theorem isNaN_eq_false_iff (w : Word) : isNaN w = false ↔ ¬ IsNaN w := by rw [← isNaN_iff]; simp

theorem isInf_eq_false_iff (w : Word) : isInf w = false ↔ ¬ IsInf w := by rw [← isInf_iff]; simp

/-- Every word is a NaN, an infinity or finite, and only one of these (R10). -/
theorem isFinite_iff (w : Word) : IsFinite w ↔ ¬ IsNaN w ∧ ¬ IsInf w := by
  unfold IsFinite IsNaN IsInf; tauto

/-- A word is its sign, its exponent field and its fraction field. -/
theorem toNat_fields (w : Word) :
    w.toNat = (if f32Neg w then 2 ^ 31 else 0) + 2 ^ 23 * expOf w + fracOf w := by
  have h := w.isLt
  have hs := f32Neg_iff w
  unfold signOf at hs
  unfold expOf fracOf
  cases hn : f32Neg w with
  | true => have := hs.1 hn; simp; omega
  | false => have : ¬ (2 ^ 31 ≤ w.toNat) := fun hc => by simp [hs.2 hc] at hn
             simp; omega

/-! ### Values -/

/-- The value of a finite word is its integer of units of 2^-149. -/
theorem magnitude_eq (w : Word) : magnitude w = (f32Mag w : ℝ) * (2 : ℝ) ^ (-149 : ℤ) := by
  unfold magnitude f32Mag
  rw [f32Exp_eq, f32Frac_eq]
  by_cases h : expOf w = 0
  · simp [h]
  · rw [if_neg h, if_neg h]
    have h1 : 1 ≤ expOf w := by omega
    have e : ((expOf w : ℤ) - 150) = ((expOf w - 1 : ℕ) : ℤ) + (-149 : ℤ) := by push_cast [Nat.cast_sub h1]; ring
    rw [e, zpow_add₀ (by norm_num), zpow_natCast]
    push_cast; ring

theorem value_eq (w : Word) : value w = (f32Scaled w : ℝ) * (2 : ℝ) ^ (-149 : ℤ) := by
  unfold value f32Scaled
  rw [magnitude_eq]
  by_cases h : signOf w
  · rw [if_pos h, if_pos ((f32Neg_iff w).2 h)]; push_cast; ring
  · rw [if_neg h, if_neg (fun hc => h ((f32Neg_iff w).1 hc))]; push_cast; ring

theorem unit_pos : (0 : ℝ) < (2 : ℝ) ^ (-149 : ℤ) := by positivity

theorem value_lt_iff (a b : Word) : value a < value b ↔ f32Scaled a < f32Scaled b := by
  rw [value_eq, value_eq, mul_lt_mul_iff_left₀ unit_pos, Int.cast_lt]

theorem value_eq_iff (a b : Word) : value a = value b ↔ f32Scaled a = f32Scaled b := by
  rw [value_eq, value_eq, mul_left_inj' unit_pos.ne', Int.cast_inj]

theorem value_eq_zero_iff (a : Word) : value a = 0 ↔ f32Scaled a = 0 := by
  rw [value_eq, mul_eq_zero, or_iff_left unit_pos.ne', Int.cast_eq_zero]

/-! ### Order of magnitudes -/

/-- The magnitude of the number whose fields read together are `n`. -/
def magOf (n : Nat) : Nat :=
  if n / 2 ^ 23 = 0 then n % 2 ^ 23 else (2 ^ 23 + n % 2 ^ 23) * 2 ^ (n / 2 ^ 23 - 1)

theorem f32Abs_toNat (w : Word) : (f32Abs w).toNat = w.toNat % 2 ^ 31 := by
  unfold f32Abs
  rw [BitVec.toNat_and]
  exact Nat.and_two_pow_sub_one_eq_mod w.toNat 31

theorem f32Mag_eq (w : Word) : f32Mag w = magOf (f32Abs w).toNat := by
  unfold f32Mag magOf
  rw [f32Exp_eq, f32Frac_eq, f32Abs_toNat]
  have e : w.toNat % 2 ^ 31 / 2 ^ 23 = expOf w := by unfold expOf; omega
  have f : w.toNat % 2 ^ 31 % 2 ^ 23 = fracOf w := by unfold fracOf; omega
  rw [e, f]

theorem magOf_lt_succ (n : Nat) : magOf n < magOf (n + 1) := by
  unfold magOf
  by_cases hf : n % 2 ^ 23 = 2 ^ 23 - 1
  · have hq : (n + 1) / 2 ^ 23 = n / 2 ^ 23 + 1 := by omega
    have hr : (n + 1) % 2 ^ 23 = 0 := by omega
    rw [hq, hr, hf, if_neg (Nat.succ_ne_zero _)]
    by_cases h0 : n / 2 ^ 23 = 0
    · rw [if_pos h0, h0]; norm_num
    · rw [if_neg h0]
      have e : n / 2 ^ 23 + 1 - 1 = (n / 2 ^ 23 - 1) + 1 := by omega
      rw [e, pow_succ (2 : ℕ) (n / 2 ^ 23 - 1)]
      have hp : 0 < 2 ^ (n / 2 ^ 23 - 1) := by positivity
      generalize 2 ^ (n / 2 ^ 23 - 1) = p at hp ⊢
      omega
  · have hq : (n + 1) / 2 ^ 23 = n / 2 ^ 23 := by omega
    have hr : (n + 1) % 2 ^ 23 = n % 2 ^ 23 + 1 := by omega
    rw [hq, hr]
    by_cases h0 : n / 2 ^ 23 = 0
    · rw [if_pos h0, if_pos h0]; omega
    · rw [if_neg h0, if_neg h0]
      exact Nat.mul_lt_mul_of_pos_right (by omega) (by positivity)

theorem magOf_strictMono : StrictMono magOf := strictMono_nat_of_lt_succ magOf_lt_succ

theorem magOf_zero : magOf 0 = 0 := by simp [magOf]

/-- The key of a word and its number of units are ordered alike. -/
theorem f32Scaled_lt_iff (a b : Word) : f32Scaled a < f32Scaled b ↔ f32Key a < f32Key b := by
  have pos : ∀ n, 0 < n → 0 < magOf n := fun n hn => by
    have := magOf_strictMono hn; rw [magOf_zero] at this; exact this
  unfold f32Scaled f32Key
  rw [f32Mag_eq, f32Mag_eq]
  generalize (f32Abs a).toNat = m
  generalize (f32Abs b).toNat = n
  have hlt : magOf m < magOf n ↔ m < n := magOf_strictMono.lt_iff_lt
  have hgt : magOf n < magOf m ↔ n < m := magOf_strictMono.lt_iff_lt
  have hm := pos m
  have hn := pos n
  rcases Nat.eq_zero_or_pos m with rfl | hm0 <;> rcases Nat.eq_zero_or_pos n with rfl | hn0 <;>
    (try rw [magOf_zero] at *) <;> cases f32Neg a <;> cases f32Neg b <;> simp <;> omega

theorem f32Scaled_eq_iff (a b : Word) : f32Scaled a = f32Scaled b ↔ f32Key a = f32Key b := by
  have h1 := f32Scaled_lt_iff a b
  have h2 := f32Scaled_lt_iff b a
  omega

/-- The key of an infinity. -/
theorem f32Key_of_isInf {w : Word} (h : IsInf w) : f32Key w = if f32Neg w then -0x7F800000 else 0x7F800000 := by
  have e : (f32Abs w).toNat = 0x7F800000 := by
    rw [f32Abs_toNat]; unfold IsInf expOf fracOf at h; omega
  unfold f32Key; rw [e]; rfl

/-- The key of a finite word lies between those of the infinities. -/
theorem f32Key_of_isFinite {w : Word} (h : IsFinite w) : -0x7F800000 < f32Key w ∧ f32Key w < 0x7F800000 := by
  have e : (f32Abs w).toNat < 0x7F800000 := by
    rw [f32Abs_toNat]; unfold IsFinite expOf at h; omega
  unfold f32Key
  cases f32Neg w <;> simp <;> omega

theorem cases_of_not_isNaN {w : Word} (h : ¬ IsNaN w) : IsFinite w ∨ IsInf w := by
  rw [isFinite_iff]; tauto

/-- The comparison `a < b` (R330). -/
theorem f32Lt_iff (a b : Word) : f32Lt a b = true ↔ LessThan a b := by
  unfold f32Lt f32Unordered LessThan
  by_cases ha : IsNaN a
  · simp [(isNaN_iff a).2 ha, ha]
  by_cases hb : IsNaN b
  · simp [(isNaN_iff b).2 hb, hb]
  simp only [(isNaN_eq_false_iff a).2 ha, (isNaN_eq_false_iff b).2 hb, Bool.or_self, Bool.not_false, Bool.true_and,
    decide_eq_true_eq, ha, hb, not_false_eq_true, true_and]
  have sa := f32Neg_iff a
  have sb := f32Neg_iff b
  rcases cases_of_not_isNaN ha with fa | ia <;> rcases cases_of_not_isNaN hb with fb | ib
  · have na : ¬ IsInf a := ((isFinite_iff a).1 fa).2
    have nb : ¬ IsInf b := ((isFinite_iff b).1 fb).2
    simp only [fa, fb, na, nb, true_and, false_and, or_false, value_lt_iff, f32Scaled_lt_iff]
  · have na : ¬ IsInf a := ((isFinite_iff a).1 fa).2
    have nb : ¬ IsFinite b := fun h => ((isFinite_iff b).1 h).2 ib
    have := f32Key_of_isFinite fa
    rw [f32Key_of_isInf ib]
    cases hn : f32Neg b <;> simp [hn] at sb <;> simp [na, nb, ib, sb] <;> omega
  · have nb : ¬ IsInf b := ((isFinite_iff b).1 fb).2
    have na : ¬ IsFinite a := fun h => ((isFinite_iff a).1 h).2 ia
    have := f32Key_of_isFinite fb
    rw [f32Key_of_isInf ia]
    cases hn : f32Neg a <;> simp [hn] at sa <;> simp [na, nb, ia, sa] <;> omega
  · have na : ¬ IsFinite a := fun h => ((isFinite_iff a).1 h).2 ia
    rw [f32Key_of_isInf ia, f32Key_of_isInf ib]
    cases hn : f32Neg a <;> cases hm : f32Neg b <;> simp [hn] at sa <;> simp [hm] at sb <;> simp [na, ia, ib, sa, sb]

/-- The comparison `a = b` (R330). -/
theorem f32Eq_iff (a b : Word) : f32Eq a b = true ↔ EqualTo a b := by
  unfold f32Eq f32Unordered EqualTo
  by_cases ha : IsNaN a
  · simp [(isNaN_iff a).2 ha, ha]
  by_cases hb : IsNaN b
  · simp [(isNaN_iff b).2 hb, hb]
  simp only [(isNaN_eq_false_iff a).2 ha, (isNaN_eq_false_iff b).2 hb, Bool.or_self, Bool.not_false, Bool.true_and,
    decide_eq_true_eq, ha, hb, not_false_eq_true, true_and]
  have sa := f32Neg_iff a
  have sb := f32Neg_iff b
  rcases cases_of_not_isNaN ha with fa | ia <;> rcases cases_of_not_isNaN hb with fb | ib
  · have na : ¬ IsInf a := ((isFinite_iff a).1 fa).2
    simp only [fa, fb, na, true_and, false_and, or_false, value_eq_iff, f32Scaled_eq_iff]
  · have na : ¬ IsInf a := ((isFinite_iff a).1 fa).2
    have nb : ¬ IsFinite b := fun h => ((isFinite_iff b).1 h).2 ib
    have := f32Key_of_isFinite fa
    rw [f32Key_of_isInf ib]
    simp only [na, nb, and_false, false_and, or_self, iff_false]
    cases f32Neg b <;> simp <;> omega
  · have nb : ¬ IsInf b := ((isFinite_iff b).1 fb).2
    have na : ¬ IsFinite a := fun h => ((isFinite_iff a).1 h).2 ia
    have := f32Key_of_isFinite fb
    rw [f32Key_of_isInf ia]
    simp only [na, nb, and_false, false_and, or_self, iff_false]
    cases f32Neg a <;> simp <;> omega
  · have na : ¬ IsFinite a := fun h => ((isFinite_iff a).1 h).2 ia
    rw [f32Key_of_isInf ia, f32Key_of_isInf ib]
    cases hn : f32Neg a <;> cases hm : f32Neg b <;> simp [hn] at sa <;> simp [hm] at sb <;>
      simp [na, ia, ib, sa, sb]

/-! ### The NaN of an operation -/

/-- Whichever NaN the free value names, it is a NaN (R301). -/
theorem isNaN_asNaN (w : Word) : IsNaN (asNaN w) := by
  rw [← isNaN_iff]
  unfold asNaN
  split
  · assumption
  · simp only [isNaN, f32Exp, f32Frac, Bool.and_eq_true, beq_iff_eq, bne_iff_ne]
    constructor
    · have h : (w ||| 0x7FC00000#32).extractLsb' 23 8 = 0xFF#8 := by
        ext i hi
        simp only [BitVec.getElem_extractLsb', BitVec.getLsbD_or]
        interval_cases i <;> simp
      rw [h]; rfl
    · intro hz
      have h : (w ||| 0x7FC00000#32).extractLsb' 0 23 = 0#23 := BitVec.eq_of_toNat_eq hz
      have := congrArg (fun v : BitVec 23 => v.getLsbD 22) h
      simp at this

theorem isNaN_nanOf (op : FloatOp) (a b : Word) : IsNaN (nanOf op a b) := isNaN_asNaN _

end Sys2Proof.Machine
end

