-- ==== Sys2Proof/Laws/State.lean ====
section
/-! SUPPORT. One lemma per field per update of the state, each true by `rfl`, so that no later proof unfolds a
record update. -/
namespace Sys2Proof.Machine

variable (s : State)

/-! ### `writeGpr` -/
@[simp] theorem writeGpr_cfg (r : Reg) (v : Word) : (writeGpr s r v).cfg = s.cfg := rfl
@[simp] theorem writeGpr_gpr (r : Reg) (v : Word) : (writeGpr s r v).gpr = if r = 0 then s.gpr else s.gpr.set r.val v := rfl
@[simp] theorem writeGpr_pc (r : Reg) (v : Word) : (writeGpr s r v).pc = s.pc := rfl
@[simp] theorem writeGpr_npc (r : Reg) (v : Word) : (writeGpr s r v).npc = s.npc := rfl
@[simp] theorem writeGpr_hi (r : Reg) (v : Word) : (writeGpr s r v).hi = s.hi := rfl
@[simp] theorem writeGpr_lo (r : Reg) (v : Word) : (writeGpr s r v).lo = s.lo := rfl
@[simp] theorem writeGpr_fpr (r : Reg) (v : Word) : (writeGpr s r v).fpr = s.fpr := rfl
@[simp] theorem writeGpr_vfr (r : Reg) (v : Word) : (writeGpr s r v).vfr = s.vfr := rfl
@[simp] theorem writeGpr_fcr31 (r : Reg) (v : Word) : (writeGpr s r v).fcr31 = s.fcr31 := rfl
@[simp] theorem writeGpr_pfxs (r : Reg) (v : Word) : (writeGpr s r v).pfxs = s.pfxs := rfl
@[simp] theorem writeGpr_pfxt (r : Reg) (v : Word) : (writeGpr s r v).pfxt = s.pfxt := rfl
@[simp] theorem writeGpr_pfxd (r : Reg) (v : Word) : (writeGpr s r v).pfxd = s.pfxd := rfl
@[simp] theorem writeGpr_ic (r : Reg) (v : Word) : (writeGpr s r v).ic = s.ic := rfl
@[simp] theorem writeGpr_ir (r : Reg) (v : Word) : (writeGpr s r v).ir = s.ir := rfl
@[simp] theorem writeGpr_count (r : Reg) (v : Word) : (writeGpr s r v).count = s.count := rfl
@[simp] theorem writeGpr_bpSet (r : Reg) (v : Word) : (writeGpr s r v).bpSet = s.bpSet := rfl
@[simp] theorem writeGpr_bpEnabled (r : Reg) (v : Word) : (writeGpr s r v).bpEnabled = s.bpEnabled := rfl
@[simp] theorem writeGpr_mem (r : Reg) (v : Word) : (writeGpr s r v).mem = s.mem := rfl
@[simp] theorem writeGpr_outcome (r : Reg) (v : Word) : (writeGpr s r v).outcome = s.outcome := rfl

/-! ### `writeFpr` -/
@[simp] theorem writeFpr_cfg (f : FReg) (v : Word) : (writeFpr s f v).cfg = s.cfg := rfl
@[simp] theorem writeFpr_gpr (f : FReg) (v : Word) : (writeFpr s f v).gpr = s.gpr := rfl
@[simp] theorem writeFpr_pc (f : FReg) (v : Word) : (writeFpr s f v).pc = s.pc := rfl
@[simp] theorem writeFpr_npc (f : FReg) (v : Word) : (writeFpr s f v).npc = s.npc := rfl
@[simp] theorem writeFpr_hi (f : FReg) (v : Word) : (writeFpr s f v).hi = s.hi := rfl
@[simp] theorem writeFpr_lo (f : FReg) (v : Word) : (writeFpr s f v).lo = s.lo := rfl
@[simp] theorem writeFpr_fcr31 (f : FReg) (v : Word) : (writeFpr s f v).fcr31 = s.fcr31 := rfl
@[simp] theorem writeFpr_pfxs (f : FReg) (v : Word) : (writeFpr s f v).pfxs = s.pfxs := rfl
@[simp] theorem writeFpr_pfxt (f : FReg) (v : Word) : (writeFpr s f v).pfxt = s.pfxt := rfl
@[simp] theorem writeFpr_pfxd (f : FReg) (v : Word) : (writeFpr s f v).pfxd = s.pfxd := rfl
@[simp] theorem writeFpr_ic (f : FReg) (v : Word) : (writeFpr s f v).ic = s.ic := rfl
@[simp] theorem writeFpr_ir (f : FReg) (v : Word) : (writeFpr s f v).ir = s.ir := rfl
@[simp] theorem writeFpr_count (f : FReg) (v : Word) : (writeFpr s f v).count = s.count := rfl
@[simp] theorem writeFpr_bpSet (f : FReg) (v : Word) : (writeFpr s f v).bpSet = s.bpSet := rfl
@[simp] theorem writeFpr_bpEnabled (f : FReg) (v : Word) : (writeFpr s f v).bpEnabled = s.bpEnabled := rfl
@[simp] theorem writeFpr_mem (f : FReg) (v : Word) : (writeFpr s f v).mem = s.mem := rfl
@[simp] theorem writeFpr_outcome (f : FReg) (v : Word) : (writeFpr s f v).outcome = s.outcome := rfl

/-! ### `writeVfr` -/
@[simp] theorem writeVfr_cfg (k : Slot) (v : Word) : (writeVfr s k v).cfg = s.cfg := rfl
@[simp] theorem writeVfr_gpr (k : Slot) (v : Word) : (writeVfr s k v).gpr = s.gpr := rfl
@[simp] theorem writeVfr_pc (k : Slot) (v : Word) : (writeVfr s k v).pc = s.pc := rfl
@[simp] theorem writeVfr_npc (k : Slot) (v : Word) : (writeVfr s k v).npc = s.npc := rfl
@[simp] theorem writeVfr_hi (k : Slot) (v : Word) : (writeVfr s k v).hi = s.hi := rfl
@[simp] theorem writeVfr_lo (k : Slot) (v : Word) : (writeVfr s k v).lo = s.lo := rfl
@[simp] theorem writeVfr_fpr (k : Slot) (v : Word) : (writeVfr s k v).fpr = s.fpr := rfl
@[simp] theorem writeVfr_vfr (k : Slot) (v : Word) : (writeVfr s k v).vfr = s.vfr.set k.val v := rfl
@[simp] theorem writeVfr_fcr31 (k : Slot) (v : Word) : (writeVfr s k v).fcr31 = s.fcr31 := rfl
@[simp] theorem writeVfr_pfxs (k : Slot) (v : Word) : (writeVfr s k v).pfxs = s.pfxs := rfl
@[simp] theorem writeVfr_pfxt (k : Slot) (v : Word) : (writeVfr s k v).pfxt = s.pfxt := rfl
@[simp] theorem writeVfr_pfxd (k : Slot) (v : Word) : (writeVfr s k v).pfxd = s.pfxd := rfl
@[simp] theorem writeVfr_ic (k : Slot) (v : Word) : (writeVfr s k v).ic = s.ic := rfl
@[simp] theorem writeVfr_ir (k : Slot) (v : Word) : (writeVfr s k v).ir = s.ir := rfl
@[simp] theorem writeVfr_count (k : Slot) (v : Word) : (writeVfr s k v).count = s.count := rfl
@[simp] theorem writeVfr_bpSet (k : Slot) (v : Word) : (writeVfr s k v).bpSet = s.bpSet := rfl
@[simp] theorem writeVfr_bpEnabled (k : Slot) (v : Word) : (writeVfr s k v).bpEnabled = s.bpEnabled := rfl
@[simp] theorem writeVfr_mem (k : Slot) (v : Word) : (writeVfr s k v).mem = s.mem := rfl
@[simp] theorem writeVfr_outcome (k : Slot) (v : Word) : (writeVfr s k v).outcome = s.outcome := rfl

/-! ### `writeHilo` -/
@[simp] theorem writeHilo_cfg (v : BitVec 64) : (writeHilo s v).cfg = s.cfg := rfl
@[simp] theorem writeHilo_gpr (v : BitVec 64) : (writeHilo s v).gpr = s.gpr := rfl
@[simp] theorem writeHilo_pc (v : BitVec 64) : (writeHilo s v).pc = s.pc := rfl
@[simp] theorem writeHilo_npc (v : BitVec 64) : (writeHilo s v).npc = s.npc := rfl
@[simp] theorem writeHilo_hi (v : BitVec 64) : (writeHilo s v).hi = v.extractLsb' 32 32 := rfl
@[simp] theorem writeHilo_lo (v : BitVec 64) : (writeHilo s v).lo = v.extractLsb' 0 32 := rfl
@[simp] theorem writeHilo_fpr (v : BitVec 64) : (writeHilo s v).fpr = s.fpr := rfl
@[simp] theorem writeHilo_vfr (v : BitVec 64) : (writeHilo s v).vfr = s.vfr := rfl
@[simp] theorem writeHilo_fcr31 (v : BitVec 64) : (writeHilo s v).fcr31 = s.fcr31 := rfl
@[simp] theorem writeHilo_pfxs (v : BitVec 64) : (writeHilo s v).pfxs = s.pfxs := rfl
@[simp] theorem writeHilo_pfxt (v : BitVec 64) : (writeHilo s v).pfxt = s.pfxt := rfl
@[simp] theorem writeHilo_pfxd (v : BitVec 64) : (writeHilo s v).pfxd = s.pfxd := rfl
@[simp] theorem writeHilo_ic (v : BitVec 64) : (writeHilo s v).ic = s.ic := rfl
@[simp] theorem writeHilo_ir (v : BitVec 64) : (writeHilo s v).ir = s.ir := rfl
@[simp] theorem writeHilo_count (v : BitVec 64) : (writeHilo s v).count = s.count := rfl
@[simp] theorem writeHilo_bpSet (v : BitVec 64) : (writeHilo s v).bpSet = s.bpSet := rfl
@[simp] theorem writeHilo_bpEnabled (v : BitVec 64) : (writeHilo s v).bpEnabled = s.bpEnabled := rfl
@[simp] theorem writeHilo_mem (v : BitVec 64) : (writeHilo s v).mem = s.mem := rfl
@[simp] theorem writeHilo_outcome (v : BitVec 64) : (writeHilo s v).outcome = s.outcome := rfl

/-! ### `sequential` -/
@[simp] theorem sequential_cfg : (sequential s).cfg = s.cfg := rfl
@[simp] theorem sequential_gpr : (sequential s).gpr = s.gpr := rfl
@[simp] theorem sequential_pc : (sequential s).pc = s.npc := rfl
@[simp] theorem sequential_npc : (sequential s).npc = s.npc + 4#32 := rfl
@[simp] theorem sequential_hi : (sequential s).hi = s.hi := rfl
@[simp] theorem sequential_lo : (sequential s).lo = s.lo := rfl
@[simp] theorem sequential_fpr : (sequential s).fpr = s.fpr := rfl
@[simp] theorem sequential_vfr : (sequential s).vfr = s.vfr := rfl
@[simp] theorem sequential_fcr31 : (sequential s).fcr31 = s.fcr31 := rfl
@[simp] theorem sequential_pfxs : (sequential s).pfxs = s.pfxs := rfl
@[simp] theorem sequential_pfxt : (sequential s).pfxt = s.pfxt := rfl
@[simp] theorem sequential_pfxd : (sequential s).pfxd = s.pfxd := rfl
@[simp] theorem sequential_ic : (sequential s).ic = s.ic := rfl
@[simp] theorem sequential_ir : (sequential s).ir = s.ir := rfl
@[simp] theorem sequential_count : (sequential s).count = s.count := rfl
@[simp] theorem sequential_bpSet : (sequential s).bpSet = s.bpSet := rfl
@[simp] theorem sequential_bpEnabled : (sequential s).bpEnabled = s.bpEnabled := rfl
@[simp] theorem sequential_mem : (sequential s).mem = s.mem := rfl
@[simp] theorem sequential_outcome : (sequential s).outcome = s.outcome := rfl

/-! ### `redirect` -/
@[simp] theorem redirect_cfg (target : Word) : (redirect s target).cfg = s.cfg := rfl
@[simp] theorem redirect_gpr (target : Word) : (redirect s target).gpr = s.gpr := rfl
@[simp] theorem redirect_pc (target : Word) : (redirect s target).pc = s.npc := rfl
@[simp] theorem redirect_npc (target : Word) : (redirect s target).npc = target := rfl
@[simp] theorem redirect_hi (target : Word) : (redirect s target).hi = s.hi := rfl
@[simp] theorem redirect_lo (target : Word) : (redirect s target).lo = s.lo := rfl
@[simp] theorem redirect_fpr (target : Word) : (redirect s target).fpr = s.fpr := rfl
@[simp] theorem redirect_vfr (target : Word) : (redirect s target).vfr = s.vfr := rfl
@[simp] theorem redirect_fcr31 (target : Word) : (redirect s target).fcr31 = s.fcr31 := rfl
@[simp] theorem redirect_pfxs (target : Word) : (redirect s target).pfxs = s.pfxs := rfl
@[simp] theorem redirect_pfxt (target : Word) : (redirect s target).pfxt = s.pfxt := rfl
@[simp] theorem redirect_pfxd (target : Word) : (redirect s target).pfxd = s.pfxd := rfl
@[simp] theorem redirect_ic (target : Word) : (redirect s target).ic = s.ic := rfl
@[simp] theorem redirect_ir (target : Word) : (redirect s target).ir = s.ir := rfl
@[simp] theorem redirect_count (target : Word) : (redirect s target).count = s.count := rfl
@[simp] theorem redirect_bpSet (target : Word) : (redirect s target).bpSet = s.bpSet := rfl
@[simp] theorem redirect_bpEnabled (target : Word) : (redirect s target).bpEnabled = s.bpEnabled := rfl
@[simp] theorem redirect_mem (target : Word) : (redirect s target).mem = s.mem := rfl
@[simp] theorem redirect_outcome (target : Word) : (redirect s target).outcome = s.outcome := rfl

/-! ### `squash` -/
@[simp] theorem squash_cfg : (squash s).cfg = s.cfg := rfl
@[simp] theorem squash_gpr : (squash s).gpr = s.gpr := rfl
@[simp] theorem squash_pc : (squash s).pc = s.npc + 4#32 := rfl
@[simp] theorem squash_npc : (squash s).npc = s.npc + 8#32 := rfl
@[simp] theorem squash_hi : (squash s).hi = s.hi := rfl
@[simp] theorem squash_lo : (squash s).lo = s.lo := rfl
@[simp] theorem squash_fpr : (squash s).fpr = s.fpr := rfl
@[simp] theorem squash_vfr : (squash s).vfr = s.vfr := rfl
@[simp] theorem squash_fcr31 : (squash s).fcr31 = s.fcr31 := rfl
@[simp] theorem squash_pfxs : (squash s).pfxs = s.pfxs := rfl
@[simp] theorem squash_pfxt : (squash s).pfxt = s.pfxt := rfl
@[simp] theorem squash_pfxd : (squash s).pfxd = s.pfxd := rfl
@[simp] theorem squash_ic : (squash s).ic = s.ic := rfl
@[simp] theorem squash_ir : (squash s).ir = s.ir := rfl
@[simp] theorem squash_count : (squash s).count = s.count := rfl
@[simp] theorem squash_bpSet : (squash s).bpSet = s.bpSet := rfl
@[simp] theorem squash_bpEnabled : (squash s).bpEnabled = s.bpEnabled := rfl
@[simp] theorem squash_mem : (squash s).mem = s.mem := rfl
@[simp] theorem squash_outcome : (squash s).outcome = s.outcome := rfl

/-! ### `retire` -/
@[simp] theorem retire_cfg (o : StepOutcome) : (retire s o).cfg = s.cfg := rfl
@[simp] theorem retire_gpr (o : StepOutcome) : (retire s o).gpr = s.gpr := rfl
@[simp] theorem retire_pc (o : StepOutcome) : (retire s o).pc = s.pc := rfl
@[simp] theorem retire_npc (o : StepOutcome) : (retire s o).npc = s.npc := rfl
@[simp] theorem retire_hi (o : StepOutcome) : (retire s o).hi = s.hi := rfl
@[simp] theorem retire_lo (o : StepOutcome) : (retire s o).lo = s.lo := rfl
@[simp] theorem retire_fpr (o : StepOutcome) : (retire s o).fpr = s.fpr := rfl
@[simp] theorem retire_vfr (o : StepOutcome) : (retire s o).vfr = s.vfr := rfl
@[simp] theorem retire_fcr31 (o : StepOutcome) : (retire s o).fcr31 = s.fcr31 := rfl
@[simp] theorem retire_pfxs (o : StepOutcome) : (retire s o).pfxs = s.pfxs := rfl
@[simp] theorem retire_pfxt (o : StepOutcome) : (retire s o).pfxt = s.pfxt := rfl
@[simp] theorem retire_pfxd (o : StepOutcome) : (retire s o).pfxd = s.pfxd := rfl
@[simp] theorem retire_ic (o : StepOutcome) : (retire s o).ic = s.ic := rfl
@[simp] theorem retire_ir (o : StepOutcome) : (retire s o).ir = s.ir := rfl
@[simp] theorem retire_count (o : StepOutcome) : (retire s o).count = s.count + 1 := rfl
@[simp] theorem retire_bpSet (o : StepOutcome) : (retire s o).bpSet = s.bpSet := rfl
@[simp] theorem retire_bpEnabled (o : StepOutcome) : (retire s o).bpEnabled = s.bpEnabled := rfl
@[simp] theorem retire_mem (o : StepOutcome) : (retire s o).mem = s.mem := rfl
@[simp] theorem retire_outcome (o : StepOutcome) : (retire s o).outcome = o := rfl

/-! ### `consume` -/
@[simp] theorem consume_cfg : (consume s).cfg = s.cfg := rfl
@[simp] theorem consume_gpr : (consume s).gpr = s.gpr := rfl
@[simp] theorem consume_pc : (consume s).pc = s.pc := rfl
@[simp] theorem consume_npc : (consume s).npc = s.npc := rfl
@[simp] theorem consume_hi : (consume s).hi = s.hi := rfl
@[simp] theorem consume_lo : (consume s).lo = s.lo := rfl
@[simp] theorem consume_fpr : (consume s).fpr = s.fpr := rfl
@[simp] theorem consume_vfr : (consume s).vfr = s.vfr := rfl
@[simp] theorem consume_fcr31 : (consume s).fcr31 = s.fcr31 := rfl
@[simp] theorem consume_pfxs : (consume s).pfxs = ⟨false, s.pfxs.value⟩ := rfl
@[simp] theorem consume_pfxt : (consume s).pfxt = ⟨false, s.pfxt.value⟩ := rfl
@[simp] theorem consume_pfxd : (consume s).pfxd = ⟨false, s.pfxd.value⟩ := rfl
@[simp] theorem consume_ic : (consume s).ic = s.ic := rfl
@[simp] theorem consume_ir : (consume s).ir = s.ir := rfl
@[simp] theorem consume_count : (consume s).count = s.count := rfl
@[simp] theorem consume_bpSet : (consume s).bpSet = s.bpSet := rfl
@[simp] theorem consume_bpEnabled : (consume s).bpEnabled = s.bpEnabled := rfl
@[simp] theorem consume_mem : (consume s).mem = s.mem := rfl
@[simp] theorem consume_outcome : (consume s).outcome = s.outcome := rfl

/-! ### `noteResult` -/
@[simp] theorem noteResult_cfg (r : Word) : (noteResult s r).cfg = s.cfg := rfl
@[simp] theorem noteResult_gpr (r : Word) : (noteResult s r).gpr = s.gpr := rfl
@[simp] theorem noteResult_pc (r : Word) : (noteResult s r).pc = s.pc := rfl
@[simp] theorem noteResult_npc (r : Word) : (noteResult s r).npc = s.npc := rfl
@[simp] theorem noteResult_hi (r : Word) : (noteResult s r).hi = s.hi := rfl
@[simp] theorem noteResult_lo (r : Word) : (noteResult s r).lo = s.lo := rfl
@[simp] theorem noteResult_fpr (r : Word) : (noteResult s r).fpr = s.fpr := rfl
@[simp] theorem noteResult_vfr (r : Word) : (noteResult s r).vfr = s.vfr := rfl
@[simp] theorem noteResult_fcr31 (r : Word) : (noteResult s r).fcr31 = s.fcr31 ||| stickyBits s.cfg r := rfl
@[simp] theorem noteResult_pfxs (r : Word) : (noteResult s r).pfxs = s.pfxs := rfl
@[simp] theorem noteResult_pfxt (r : Word) : (noteResult s r).pfxt = s.pfxt := rfl
@[simp] theorem noteResult_pfxd (r : Word) : (noteResult s r).pfxd = s.pfxd := rfl
@[simp] theorem noteResult_ic (r : Word) : (noteResult s r).ic = s.ic := rfl
@[simp] theorem noteResult_ir (r : Word) : (noteResult s r).ir = s.ir := rfl
@[simp] theorem noteResult_count (r : Word) : (noteResult s r).count = s.count := rfl
@[simp] theorem noteResult_bpSet (r : Word) : (noteResult s r).bpSet = s.bpSet := rfl
@[simp] theorem noteResult_bpEnabled (r : Word) : (noteResult s r).bpEnabled = s.bpEnabled := rfl
@[simp] theorem noteResult_mem (r : Word) : (noteResult s r).mem = s.mem := rfl
@[simp] theorem noteResult_outcome (r : Word) : (noteResult s r).outcome = s.outcome := rfl

/-! ### `writeConditionCode` -/
@[simp] theorem writeConditionCode_cfg (c : Bool) : (writeConditionCode s c).cfg = s.cfg := rfl
@[simp] theorem writeConditionCode_gpr (c : Bool) : (writeConditionCode s c).gpr = s.gpr := rfl
@[simp] theorem writeConditionCode_pc (c : Bool) : (writeConditionCode s c).pc = s.pc := rfl
@[simp] theorem writeConditionCode_npc (c : Bool) : (writeConditionCode s c).npc = s.npc := rfl
@[simp] theorem writeConditionCode_hi (c : Bool) : (writeConditionCode s c).hi = s.hi := rfl
@[simp] theorem writeConditionCode_lo (c : Bool) : (writeConditionCode s c).lo = s.lo := rfl
@[simp] theorem writeConditionCode_fpr (c : Bool) : (writeConditionCode s c).fpr = s.fpr := rfl
@[simp] theorem writeConditionCode_vfr (c : Bool) : (writeConditionCode s c).vfr = s.vfr := rfl
@[simp] theorem writeConditionCode_fcr31 (c : Bool) : (writeConditionCode s c).fcr31 = if c then s.fcr31 ||| bitMask s.cfg.ccBit else s.fcr31 &&& ~~~(bitMask s.cfg.ccBit) := rfl
@[simp] theorem writeConditionCode_pfxs (c : Bool) : (writeConditionCode s c).pfxs = s.pfxs := rfl
@[simp] theorem writeConditionCode_pfxt (c : Bool) : (writeConditionCode s c).pfxt = s.pfxt := rfl
@[simp] theorem writeConditionCode_pfxd (c : Bool) : (writeConditionCode s c).pfxd = s.pfxd := rfl
@[simp] theorem writeConditionCode_ic (c : Bool) : (writeConditionCode s c).ic = s.ic := rfl
@[simp] theorem writeConditionCode_ir (c : Bool) : (writeConditionCode s c).ir = s.ir := rfl
@[simp] theorem writeConditionCode_count (c : Bool) : (writeConditionCode s c).count = s.count := rfl
@[simp] theorem writeConditionCode_bpSet (c : Bool) : (writeConditionCode s c).bpSet = s.bpSet := rfl
@[simp] theorem writeConditionCode_bpEnabled (c : Bool) : (writeConditionCode s c).bpEnabled = s.bpEnabled := rfl
@[simp] theorem writeConditionCode_mem (c : Bool) : (writeConditionCode s c).mem = s.mem := rfl
@[simp] theorem writeConditionCode_outcome (c : Bool) : (writeConditionCode s c).outcome = s.outcome := rfl

/-! ### `writeFcr31` -/
@[simp] theorem writeFcr31_cfg (v : Word) : (writeFcr31 s v).cfg = s.cfg := rfl
@[simp] theorem writeFcr31_gpr (v : Word) : (writeFcr31 s v).gpr = s.gpr := rfl
@[simp] theorem writeFcr31_pc (v : Word) : (writeFcr31 s v).pc = s.pc := rfl
@[simp] theorem writeFcr31_npc (v : Word) : (writeFcr31 s v).npc = s.npc := rfl
@[simp] theorem writeFcr31_hi (v : Word) : (writeFcr31 s v).hi = s.hi := rfl
@[simp] theorem writeFcr31_lo (v : Word) : (writeFcr31 s v).lo = s.lo := rfl
@[simp] theorem writeFcr31_fpr (v : Word) : (writeFcr31 s v).fpr = s.fpr := rfl
@[simp] theorem writeFcr31_vfr (v : Word) : (writeFcr31 s v).vfr = s.vfr := rfl
@[simp] theorem writeFcr31_fcr31 (v : Word) : (writeFcr31 s v).fcr31 = (v &&& s.cfg.wmask) ||| (s.fcr31 &&& ~~~s.cfg.wmask) := rfl
@[simp] theorem writeFcr31_pfxs (v : Word) : (writeFcr31 s v).pfxs = s.pfxs := rfl
@[simp] theorem writeFcr31_pfxt (v : Word) : (writeFcr31 s v).pfxt = s.pfxt := rfl
@[simp] theorem writeFcr31_pfxd (v : Word) : (writeFcr31 s v).pfxd = s.pfxd := rfl
@[simp] theorem writeFcr31_ic (v : Word) : (writeFcr31 s v).ic = s.ic := rfl
@[simp] theorem writeFcr31_ir (v : Word) : (writeFcr31 s v).ir = s.ir := rfl
@[simp] theorem writeFcr31_count (v : Word) : (writeFcr31 s v).count = s.count := rfl
@[simp] theorem writeFcr31_bpSet (v : Word) : (writeFcr31 s v).bpSet = s.bpSet := rfl
@[simp] theorem writeFcr31_bpEnabled (v : Word) : (writeFcr31 s v).bpEnabled = s.bpEnabled := rfl
@[simp] theorem writeFcr31_mem (v : Word) : (writeFcr31 s v).mem = s.mem := rfl
@[simp] theorem writeFcr31_outcome (v : Word) : (writeFcr31 s v).outcome = s.outcome := rfl

/-! ### `writeVec` -/
@[simp] theorem writeVec_cfg (sel : Sel) (sz : VSize) (vals : List (Word × Bool)) : (writeVec s sel sz vals).cfg = s.cfg := rfl
@[simp] theorem writeVec_gpr (sel : Sel) (sz : VSize) (vals : List (Word × Bool)) : (writeVec s sel sz vals).gpr = s.gpr := rfl
@[simp] theorem writeVec_pc (sel : Sel) (sz : VSize) (vals : List (Word × Bool)) : (writeVec s sel sz vals).pc = s.pc := rfl
@[simp] theorem writeVec_npc (sel : Sel) (sz : VSize) (vals : List (Word × Bool)) : (writeVec s sel sz vals).npc = s.npc := rfl
@[simp] theorem writeVec_hi (sel : Sel) (sz : VSize) (vals : List (Word × Bool)) : (writeVec s sel sz vals).hi = s.hi := rfl
@[simp] theorem writeVec_lo (sel : Sel) (sz : VSize) (vals : List (Word × Bool)) : (writeVec s sel sz vals).lo = s.lo := rfl
@[simp] theorem writeVec_fpr (sel : Sel) (sz : VSize) (vals : List (Word × Bool)) : (writeVec s sel sz vals).fpr = s.fpr := rfl
@[simp] theorem writeVec_vfr (sel : Sel) (sz : VSize) (vals : List (Word × Bool)) : (writeVec s sel sz vals).vfr = writeSlots s.vfr ((vecSlots s.cfg sel sz).zip vals) := rfl
@[simp] theorem writeVec_fcr31 (sel : Sel) (sz : VSize) (vals : List (Word × Bool)) : (writeVec s sel sz vals).fcr31 = s.fcr31 := rfl
@[simp] theorem writeVec_pfxs (sel : Sel) (sz : VSize) (vals : List (Word × Bool)) : (writeVec s sel sz vals).pfxs = s.pfxs := rfl
@[simp] theorem writeVec_pfxt (sel : Sel) (sz : VSize) (vals : List (Word × Bool)) : (writeVec s sel sz vals).pfxt = s.pfxt := rfl
@[simp] theorem writeVec_pfxd (sel : Sel) (sz : VSize) (vals : List (Word × Bool)) : (writeVec s sel sz vals).pfxd = s.pfxd := rfl
@[simp] theorem writeVec_ic (sel : Sel) (sz : VSize) (vals : List (Word × Bool)) : (writeVec s sel sz vals).ic = s.ic := rfl
@[simp] theorem writeVec_ir (sel : Sel) (sz : VSize) (vals : List (Word × Bool)) : (writeVec s sel sz vals).ir = s.ir := rfl
@[simp] theorem writeVec_count (sel : Sel) (sz : VSize) (vals : List (Word × Bool)) : (writeVec s sel sz vals).count = s.count := rfl
@[simp] theorem writeVec_bpSet (sel : Sel) (sz : VSize) (vals : List (Word × Bool)) : (writeVec s sel sz vals).bpSet = s.bpSet := rfl
@[simp] theorem writeVec_bpEnabled (sel : Sel) (sz : VSize) (vals : List (Word × Bool)) : (writeVec s sel sz vals).bpEnabled = s.bpEnabled := rfl
@[simp] theorem writeVec_mem (sel : Sel) (sz : VSize) (vals : List (Word × Bool)) : (writeVec s sel sz vals).mem = s.mem := rfl
@[simp] theorem writeVec_outcome (sel : Sel) (sz : VSize) (vals : List (Word × Bool)) : (writeVec s sel sz vals).outcome = s.outcome := rfl

/-! ### `writeMat` -/
@[simp] theorem writeMat_cfg (sel : Sel) (sz : VSize) (x : Nat → Nat → Word) : (writeMat s sel sz x).cfg = s.cfg := rfl
@[simp] theorem writeMat_gpr (sel : Sel) (sz : VSize) (x : Nat → Nat → Word) : (writeMat s sel sz x).gpr = s.gpr := rfl
@[simp] theorem writeMat_pc (sel : Sel) (sz : VSize) (x : Nat → Nat → Word) : (writeMat s sel sz x).pc = s.pc := rfl
@[simp] theorem writeMat_npc (sel : Sel) (sz : VSize) (x : Nat → Nat → Word) : (writeMat s sel sz x).npc = s.npc := rfl
@[simp] theorem writeMat_hi (sel : Sel) (sz : VSize) (x : Nat → Nat → Word) : (writeMat s sel sz x).hi = s.hi := rfl
@[simp] theorem writeMat_lo (sel : Sel) (sz : VSize) (x : Nat → Nat → Word) : (writeMat s sel sz x).lo = s.lo := rfl
@[simp] theorem writeMat_fpr (sel : Sel) (sz : VSize) (x : Nat → Nat → Word) : (writeMat s sel sz x).fpr = s.fpr := rfl
@[simp] theorem writeMat_vfr (sel : Sel) (sz : VSize) (x : Nat → Nat → Word) : (writeMat s sel sz x).vfr = writeSlots s.vfr (matCells s.cfg sel sz x) := rfl
@[simp] theorem writeMat_fcr31 (sel : Sel) (sz : VSize) (x : Nat → Nat → Word) : (writeMat s sel sz x).fcr31 = s.fcr31 := rfl
@[simp] theorem writeMat_pfxs (sel : Sel) (sz : VSize) (x : Nat → Nat → Word) : (writeMat s sel sz x).pfxs = s.pfxs := rfl
@[simp] theorem writeMat_pfxt (sel : Sel) (sz : VSize) (x : Nat → Nat → Word) : (writeMat s sel sz x).pfxt = s.pfxt := rfl
@[simp] theorem writeMat_pfxd (sel : Sel) (sz : VSize) (x : Nat → Nat → Word) : (writeMat s sel sz x).pfxd = s.pfxd := rfl
@[simp] theorem writeMat_ic (sel : Sel) (sz : VSize) (x : Nat → Nat → Word) : (writeMat s sel sz x).ic = s.ic := rfl
@[simp] theorem writeMat_ir (sel : Sel) (sz : VSize) (x : Nat → Nat → Word) : (writeMat s sel sz x).ir = s.ir := rfl
@[simp] theorem writeMat_count (sel : Sel) (sz : VSize) (x : Nat → Nat → Word) : (writeMat s sel sz x).count = s.count := rfl
@[simp] theorem writeMat_bpSet (sel : Sel) (sz : VSize) (x : Nat → Nat → Word) : (writeMat s sel sz x).bpSet = s.bpSet := rfl
@[simp] theorem writeMat_bpEnabled (sel : Sel) (sz : VSize) (x : Nat → Nat → Word) : (writeMat s sel sz x).bpEnabled = s.bpEnabled := rfl
@[simp] theorem writeMat_mem (sel : Sel) (sz : VSize) (x : Nat → Nat → Word) : (writeMat s sel sz x).mem = s.mem := rfl
@[simp] theorem writeMat_outcome (sel : Sel) (sz : VSize) (x : Nat → Nat → Word) : (writeMat s sel sz x).outcome = s.outcome := rfl

/-! ### `storeWords`: memory alone -/
@[simp] theorem storeWords_cfg (s : State) (l : List (Word × Word)) : (storeWords s l).cfg = s.cfg := by
  induction l generalizing s with
  | nil => rfl
  | cons c l ih => obtain ⟨a, v⟩ := c; exact ih _
@[simp] theorem storeWords_gpr (s : State) (l : List (Word × Word)) : (storeWords s l).gpr = s.gpr := by
  induction l generalizing s with
  | nil => rfl
  | cons c l ih => obtain ⟨a, v⟩ := c; exact ih _
@[simp] theorem storeWords_pc (s : State) (l : List (Word × Word)) : (storeWords s l).pc = s.pc := by
  induction l generalizing s with
  | nil => rfl
  | cons c l ih => obtain ⟨a, v⟩ := c; exact ih _
@[simp] theorem storeWords_npc (s : State) (l : List (Word × Word)) : (storeWords s l).npc = s.npc := by
  induction l generalizing s with
  | nil => rfl
  | cons c l ih => obtain ⟨a, v⟩ := c; exact ih _
@[simp] theorem storeWords_hi (s : State) (l : List (Word × Word)) : (storeWords s l).hi = s.hi := by
  induction l generalizing s with
  | nil => rfl
  | cons c l ih => obtain ⟨a, v⟩ := c; exact ih _
@[simp] theorem storeWords_lo (s : State) (l : List (Word × Word)) : (storeWords s l).lo = s.lo := by
  induction l generalizing s with
  | nil => rfl
  | cons c l ih => obtain ⟨a, v⟩ := c; exact ih _
@[simp] theorem storeWords_fpr (s : State) (l : List (Word × Word)) : (storeWords s l).fpr = s.fpr := by
  induction l generalizing s with
  | nil => rfl
  | cons c l ih => obtain ⟨a, v⟩ := c; exact ih _
@[simp] theorem storeWords_vfr (s : State) (l : List (Word × Word)) : (storeWords s l).vfr = s.vfr := by
  induction l generalizing s with
  | nil => rfl
  | cons c l ih => obtain ⟨a, v⟩ := c; exact ih _
@[simp] theorem storeWords_fcr31 (s : State) (l : List (Word × Word)) : (storeWords s l).fcr31 = s.fcr31 := by
  induction l generalizing s with
  | nil => rfl
  | cons c l ih => obtain ⟨a, v⟩ := c; exact ih _
@[simp] theorem storeWords_pfxs (s : State) (l : List (Word × Word)) : (storeWords s l).pfxs = s.pfxs := by
  induction l generalizing s with
  | nil => rfl
  | cons c l ih => obtain ⟨a, v⟩ := c; exact ih _
@[simp] theorem storeWords_pfxt (s : State) (l : List (Word × Word)) : (storeWords s l).pfxt = s.pfxt := by
  induction l generalizing s with
  | nil => rfl
  | cons c l ih => obtain ⟨a, v⟩ := c; exact ih _
@[simp] theorem storeWords_pfxd (s : State) (l : List (Word × Word)) : (storeWords s l).pfxd = s.pfxd := by
  induction l generalizing s with
  | nil => rfl
  | cons c l ih => obtain ⟨a, v⟩ := c; exact ih _
@[simp] theorem storeWords_ic (s : State) (l : List (Word × Word)) : (storeWords s l).ic = s.ic := by
  induction l generalizing s with
  | nil => rfl
  | cons c l ih => obtain ⟨a, v⟩ := c; exact ih _
@[simp] theorem storeWords_ir (s : State) (l : List (Word × Word)) : (storeWords s l).ir = s.ir := by
  induction l generalizing s with
  | nil => rfl
  | cons c l ih => obtain ⟨a, v⟩ := c; exact ih _
@[simp] theorem storeWords_count (s : State) (l : List (Word × Word)) : (storeWords s l).count = s.count := by
  induction l generalizing s with
  | nil => rfl
  | cons c l ih => obtain ⟨a, v⟩ := c; exact ih _
@[simp] theorem storeWords_bpSet (s : State) (l : List (Word × Word)) : (storeWords s l).bpSet = s.bpSet := by
  induction l generalizing s with
  | nil => rfl
  | cons c l ih => obtain ⟨a, v⟩ := c; exact ih _
@[simp] theorem storeWords_bpEnabled (s : State) (l : List (Word × Word)) : (storeWords s l).bpEnabled = s.bpEnabled := by
  induction l generalizing s with
  | nil => rfl
  | cons c l ih => obtain ⟨a, v⟩ := c; exact ih _
@[simp] theorem storeWords_outcome (s : State) (l : List (Word × Word)) : (storeWords s l).outcome = s.outcome := by
  induction l generalizing s with
  | nil => rfl
  | cons c l ih => obtain ⟨a, v⟩ := c; exact ih _

end Sys2Proof.Machine
end

