-- ==== Sys2Proof/Laws/Memory.lean ====
section
/-! SUPPORT. Memory: a read after a write, the canonical form kept by every operation, words and their
bytes. -/
namespace Sys2Proof.Machine

/-! ### One byte -/

/-- No cell of the memory lists the address. -/
def Memory.lacks (m : Memory) (a : Nat) : Prop := ∀ c ∈ m, c.1 ≠ a

theorem Memory.byte_of_lacks {m : Memory} {a : Nat} (h : m.lacks a) : m.byte a = Memory.background := by
  induction m with
  | nil => rfl
  | cons c m ih =>
    obtain ⟨k, b⟩ := c
    have hk : k ≠ a := h (k, b) (by simp)
    simp only [Memory.byte, if_neg hk]
    exact ih fun c hc => h c (by simp [hc])

theorem Memory.lacks_remove (m : Memory) (a : Nat) : (m.remove a).lacks a := by
  induction m with
  | nil => simp [Memory.remove, Memory.lacks]
  | cons c m ih =>
    obtain ⟨k, b⟩ := c
    by_cases hk : k = a
    · simp only [Memory.remove, if_pos hk]; exact ih
    · simp only [Memory.remove, if_neg hk, Memory.lacks, List.mem_cons, forall_eq_or_imp]
      exact ⟨hk, ih⟩

theorem Memory.byte_remove_ne {m : Memory} {a b : Nat} (h : b ≠ a) : (m.remove a).byte b = m.byte b := by
  induction m with
  | nil => rfl
  | cons c m ih =>
    obtain ⟨k, v⟩ := c
    by_cases hk : k = a
    · simp only [Memory.remove, if_pos hk, Memory.byte, if_neg (hk ▸ h.symm)]; exact ih
    · simp only [Memory.remove, if_neg hk, Memory.byte, ih]

theorem Memory.byte_place_self {m : Memory} {a : Nat} (v : Byte) (h : m.lacks a) : (m.place a v).byte a = v := by
  induction m with
  | nil => simp [Memory.place, Memory.byte]
  | cons c m ih =>
    obtain ⟨k, b⟩ := c
    have hk : k ≠ a := h (k, b) (by simp)
    by_cases hl : a < k
    · simp [Memory.place, hl, Memory.byte]
    · simp only [Memory.place, if_neg hl, Memory.byte, if_neg hk]
      exact ih fun c hc => h c (by simp [hc])

theorem Memory.byte_place_ne {m : Memory} {a b : Nat} (v : Byte) (h : b ≠ a) :
    (m.place a v).byte b = m.byte b := by
  induction m with
  | nil => simp [Memory.place, Memory.byte, h.symm]
  | cons c m ih =>
    obtain ⟨k, w⟩ := c
    by_cases hl : a < k
    · simp [Memory.place, hl, Memory.byte, h.symm]
    · simp only [Memory.place, if_neg hl, Memory.byte, ih]

/-- A read after a write: the byte written, and every other byte as before. -/
theorem Memory.byte_setByte (m : Memory) (a b : Nat) (v : Byte) :
    (m.setByte a v).byte b = if b = a then v else m.byte b := by
  unfold Memory.setByte
  by_cases hb : b = a
  · subst hb
    by_cases hv : v = Memory.background
    · simp [hv, Memory.byte_of_lacks (Memory.lacks_remove m b)]
    · simp [hv, Memory.byte_place_self v (Memory.lacks_remove m b)]
  · by_cases hv : v = Memory.background
    · simp [hv, hb, Memory.byte_remove_ne hb]
    · simp [hv, hb, Memory.byte_place_ne v hb, Memory.byte_remove_ne hb]

/-! ### The canonical form -/

theorem Memory.wfFrom_mono {m : Memory} {lo hi : Nat} (hl : lo ≤ hi) (h : m.wfFrom hi = true) :
    m.wfFrom lo = true := by
  cases m with
  | nil => rfl
  | cons c m =>
    obtain ⟨k, b⟩ := c
    simp only [Memory.wfFrom, Bool.and_eq_true, decide_eq_true_eq] at h ⊢
    exact ⟨⟨⟨le_trans hl h.1.1.1, h.1.1.2⟩, h.1.2⟩, h.2⟩

theorem Memory.wfFrom_remove {m : Memory} {lo : Nat} (a : Nat) (h : m.wfFrom lo = true) :
    (m.remove a).wfFrom lo = true := by
  induction m generalizing lo with
  | nil => rfl
  | cons c m ih =>
    obtain ⟨k, b⟩ := c
    simp only [Memory.wfFrom, Bool.and_eq_true, decide_eq_true_eq] at h
    by_cases hk : k = a
    · simp only [Memory.remove, if_pos hk]
      exact Memory.wfFrom_mono (by omega) (ih h.2)
    · simp only [Memory.remove, if_neg hk, Memory.wfFrom, Bool.and_eq_true, decide_eq_true_eq]
      exact ⟨h.1, ih h.2⟩

theorem Memory.wfFrom_place {m : Memory} {lo a : Nat} {v : Byte} (h : m.wfFrom lo = true) (hm : m.lacks a)
    (hl : lo ≤ a) (ha : a < 2 ^ 32) (hv : v ≠ Memory.background) : (m.place a v).wfFrom lo = true := by
  induction m generalizing lo with
  | nil =>
    simp only [Memory.place, Memory.wfFrom, Bool.and_eq_true, decide_eq_true_eq, bne_iff_ne, and_true]
    exact ⟨⟨hl, ha⟩, hv⟩
  | cons c m ih =>
    obtain ⟨k, b⟩ := c
    have hk : k ≠ a := hm (k, b) (by simp)
    simp only [Memory.wfFrom, Bool.and_eq_true, decide_eq_true_eq] at h
    by_cases hlt : a < k
    · simp only [Memory.place, if_pos hlt, Memory.wfFrom, Bool.and_eq_true, decide_eq_true_eq, bne_iff_ne]
      exact ⟨⟨⟨hl, ha⟩, hv⟩, ⟨⟨⟨hlt, h.1.1.2⟩, by simpa using h.1.2⟩, h.2⟩⟩
    · simp only [Memory.place, if_neg hlt, Memory.wfFrom, Bool.and_eq_true, decide_eq_true_eq]
      exact ⟨h.1, ih h.2 (fun c hc => hm c (by simp [hc])) (by omega)⟩

/-- Writing a byte keeps the canonical form. -/
theorem Memory.wf_setByte {m : Memory} {a : Nat} (v : Byte) (h : m.wf = true) (ha : a < 2 ^ 32) :
    (m.setByte a v).wf = true := by
  unfold Memory.setByte
  by_cases hv : v = Memory.background
  · rw [if_pos hv]; exact Memory.wfFrom_remove a h
  · rw [if_neg hv]
    exact Memory.wfFrom_place (Memory.wfFrom_remove a h) (Memory.lacks_remove m a) (Nat.zero_le a) ha hv

theorem byteKey_lt (a : Word) (i : Nat) : byteKey a i < 2 ^ 32 := (a + BitVec.ofNat 32 i).isLt

theorem Memory.wf_setByteAt {m : Memory} (a : Word) (v : Byte) (h : m.wf = true) :
    (m.setByteAt a v).wf = true := Memory.wf_setByte v h (byteKey_lt a 0)

theorem Memory.wf_setHalf {m : Memory} (a : Word) (v : BitVec 16) (h : m.wf = true) :
    (m.setHalf a v).wf = true :=
  Memory.wf_setByte _ (Memory.wf_setByte _ h (byteKey_lt a 0)) (byteKey_lt a 1)

theorem Memory.wf_setWord {m : Memory} (a : Word) (v : Word) (h : m.wf = true) :
    (m.setWord a v).wf = true :=
  Memory.wf_setByte _ (Memory.wf_setByte _ (Memory.wf_setByte _ (Memory.wf_setByte _ h (byteKey_lt a 0))
    (byteKey_lt a 1)) (byteKey_lt a 2)) (byteKey_lt a 3)

/-- Storing words keeps the canonical form. -/
theorem storeWords_wf {s : State} (l : List (Word × Word)) (h : s.mem.wf = true) :
    (storeWords s l).mem.wf = true := by
  induction l generalizing s with
  | nil => exact h
  | cons c l ih => obtain ⟨a, v⟩ := c; exact ih (Memory.wf_setWord _ v h)

/-- The memory of the state after reset is in the canonical form. -/
theorem reset_mem_wf : State.reset.mem.wf = true := rfl

theorem Memory.lacks_of_wfFrom {m : Memory} {lo a : Nat} (h : m.wfFrom lo = true) (ha : a < lo) : m.lacks a := by
  induction m generalizing lo with
  | nil => simp [Memory.lacks]
  | cons c m ih =>
    obtain ⟨k, b⟩ := c
    simp only [Memory.wfFrom, Bool.and_eq_true, decide_eq_true_eq] at h
    simp only [Memory.lacks, List.mem_cons, forall_eq_or_imp]
    exact ⟨by omega, ih h.2 (by omega)⟩

/-- Two memories in canonical form that read the same are the same data. -/
theorem Memory.ext_of_byte {m n : Memory} {lo : Nat} (hm : m.wfFrom lo = true) (hn : n.wfFrom lo = true)
    (h : ∀ a, m.byte a = n.byte a) : m = n := by
  have nothing : ∀ {k : Nat} {b : Byte} {m : Memory} {lo : Nat}, Memory.wfFrom lo ((k, b) :: m) = true →
      Memory.byte ((k, b) :: m) k ≠ Memory.background := by
    intro k b m lo hw
    simp only [Memory.wfFrom, Bool.and_eq_true, bne_iff_ne] at hw
    simpa [Memory.byte] using hw.1.2
  induction m generalizing n lo with
  | nil =>
    cases n with
    | nil => rfl
    | cons c n => obtain ⟨k, b⟩ := c; exact absurd (h k).symm (nothing hn)
  | cons c m ih =>
    obtain ⟨k, b⟩ := c
    cases n with
    | nil => exact absurd (h k) (nothing hm)
    | cons d n =>
      obtain ⟨k', b'⟩ := d
      have hm' := hm
      have hn' := hn
      simp only [Memory.wfFrom, Bool.and_eq_true, decide_eq_true_eq] at hm hn
      have hk : k = k' := by
        rcases lt_trichotomy k k' with hlt | heq | hgt
        · have hlack : Memory.lacks ((k', b') :: n) k := by
            simp only [Memory.lacks, List.mem_cons, forall_eq_or_imp]
            exact ⟨by omega, Memory.lacks_of_wfFrom hn.2 (by omega)⟩
          exact absurd ((h k).trans (Memory.byte_of_lacks hlack)) (nothing hm')
        · exact heq
        · have hlack : Memory.lacks ((k, b) :: m) k' := by
            simp only [Memory.lacks, List.mem_cons, forall_eq_or_imp]
            exact ⟨by omega, Memory.lacks_of_wfFrom hm.2 (by omega)⟩
          exact absurd ((h k').symm.trans (Memory.byte_of_lacks hlack)) (nothing hn')
      subst hk
      have hb : b = b' := by simpa [Memory.byte] using h k
      subst hb
      refine congrArg _ (ih hm.2 hn.2 fun a => ?_)
      by_cases ha : k = a
      · subst ha
        rw [Memory.byte_of_lacks (Memory.lacks_of_wfFrom hm.2 (Nat.lt_succ_self k)),
          Memory.byte_of_lacks (Memory.lacks_of_wfFrom hn.2 (Nat.lt_succ_self k))]
      · simpa [Memory.byte, ha] using h a

/-! ### Halves and words -/

/-- Below the top of the address space the key of byte `i` is the address plus `i`. -/
theorem byteKey_eq {a : Word} {i : Nat} (h : a.toNat + i < 2 ^ 32) : byteKey a i = a.toNat + i := by
  unfold byteKey
  rw [BitVec.toNat_add, BitVec.toNat_ofNat, Nat.mod_eq_of_lt (by omega : i < 2 ^ 32), Nat.mod_eq_of_lt h]

theorem toNat_lt_of_aligned {a : Word} {n : Nat} (hn : n ∣ 2 ^ 32) (h : a.toNat % n = 0) {i : Nat} (hi : i < n) :
    a.toNat + i < 2 ^ 32 := by
  obtain ⟨q, hq⟩ := hn
  obtain ⟨p, hp⟩ := Nat.dvd_of_mod_eq_zero h
  have hlt : a.toNat < 2 ^ 32 := a.isLt
  rw [hq, hp] at hlt
  rw [hq, hp]
  have : p < q := lt_of_mul_lt_mul_left hlt (Nat.zero_le n)
  calc n * p + i < n * p + n := by omega
    _ = n * (p + 1) := by ring
    _ ≤ n * q := Nat.mul_le_mul_left n this

/-- A little-endian number of `n` bytes is below 2^(8n). -/
theorem littleEndian_lt (s : State) (a n : Nat) : littleEndian s a n < 2 ^ (8 * n) := by
  induction n with
  | zero => simp [littleEndian]
  | succ n ih =>
    have hb := (s.mem.byte (a + n)).isLt
    have := Nat.mul_le_mul_left (2 ^ (8 * n)) (Nat.le_of_lt_succ hb)
    rw [littleEndian, Nat.mul_succ, pow_add]
    omega

/-- The word read is the little-endian number of its four bytes (R74, R75). -/
theorem word_littleEndian {s : State} {a : Word} (h : a.toNat % 4 = 0) :
    s.mem.word a = BitVec.ofNat 32 (littleEndian s a.toNat 4) := by
  have k : ∀ i, i < 4 → byteKey a i = a.toNat + i := fun i hi =>
    byteKey_eq (toNat_lt_of_aligned (by decide) h hi)
  unfold Memory.word
  rw [k 0 (by omega), k 1 (by omega), k 2 (by omega), k 3 (by omega)]
  apply BitVec.eq_of_toNat_eq
  simp only [littleEndian, BitVec.toNat_append, BitVec.toNat_ofNat, Nat.add_zero]
  have h0 := (s.mem.byte a.toNat).isLt
  have h1 := (s.mem.byte (a.toNat + 1)).isLt
  have h2 := (s.mem.byte (a.toNat + 2)).isLt
  have h3 := (s.mem.byte (a.toNat + 3)).isLt
  rw [Nat.mod_eq_of_lt (by omega)]
  rw [← Nat.shiftLeft_add_eq_or_of_lt h0, ← Nat.shiftLeft_add_eq_or_of_lt h1, ← Nat.shiftLeft_add_eq_or_of_lt h2]
  simp only [Nat.shiftLeft_eq]
  omega

/-- The half read is the little-endian number of its two bytes (R74, R75). -/
theorem half_littleEndian {s : State} {a : Word} (h : a.toNat % 2 = 0) :
    s.mem.half a = BitVec.ofNat 16 (littleEndian s a.toNat 2) := by
  have k : ∀ i, i < 2 → byteKey a i = a.toNat + i := fun i hi =>
    byteKey_eq (toNat_lt_of_aligned (by decide) h hi)
  unfold Memory.half
  rw [k 0 (by omega), k 1 (by omega)]
  apply BitVec.eq_of_toNat_eq
  simp only [littleEndian, BitVec.toNat_append, BitVec.toNat_ofNat, Nat.add_zero]
  have h0 := (s.mem.byte a.toNat).isLt
  have h1 := (s.mem.byte (a.toNat + 1)).isLt
  rw [Nat.mod_eq_of_lt (by omega)]
  rw [← Nat.shiftLeft_add_eq_or_of_lt h0]
  simp only [Nat.shiftLeft_eq]
  omega

/-- What a byte reads as after a word is stored at an aligned address: a byte of the word inside its four
bytes, as before outside. -/
theorem byte_setWord {m : Memory} {a v : Word} (h : a.toNat % 4 = 0) (b : Nat) :
    (m.setWord a v).byte b =
      if a.toNat ≤ b ∧ b < a.toNat + 4 then byteOf v (b - a.toNat) else m.byte b := by
  have k : ∀ i, i < 4 → byteKey a i = a.toNat + i := fun i hi =>
    byteKey_eq (toNat_lt_of_aligned (by decide) h hi)
  unfold Memory.setWord
  simp only [Memory.byte_setByte, k 0 (by omega), k 1 (by omega), k 2 (by omega), k 3 (by omega), byteOf]
  by_cases h3 : b = a.toNat + 3
  · subst h3; simp
  by_cases h2 : b = a.toNat + 2
  · subst h2; simp
  by_cases h1 : b = a.toNat + 1
  · subst h1; simp
  by_cases h0 : b = a.toNat
  · subst h0; simp
  · rw [if_neg h3, if_neg h2, if_neg h1, if_neg (by omega), if_neg (by omega)]

/-- What a byte reads as after a half is stored at an aligned address. -/
theorem byte_setHalf {m : Memory} {a : Word} {v : BitVec 16} (h : a.toNat % 2 = 0) (b : Nat) :
    (m.setHalf a v).byte b =
      if b = a.toNat then v.extractLsb' 0 8 else if b = a.toNat + 1 then v.extractLsb' 8 8 else m.byte b := by
  have k : ∀ i, i < 2 → byteKey a i = a.toNat + i := fun i hi =>
    byteKey_eq (toNat_lt_of_aligned (by decide) h hi)
  unfold Memory.setHalf
  simp only [Memory.byte_setByte, k 0 (by omega), k 1 (by omega)]
  by_cases h1 : b = a.toNat + 1
  · subst h1; simp
  · simp [h1]

theorem byte_setByteAt {m : Memory} {a : Word} {v : Byte} (b : Nat) :
    (m.setByteAt a v).byte b = if b = a.toNat then v else m.byte b := by
  unfold Memory.setByteAt
  rw [Memory.byte_setByte, byteKey_eq (by simpa using a.isLt)]
  rfl

end Sys2Proof.Machine
end

