-- ==== Sys2Proof/Laws/Ops.lean ====
section
/-! SUPPORT. The shared operations: registers, the ends of an instruction, memory accesses. Each says once what
the operation can do. -/
namespace Sys2Proof.Machine

/-! ### Registers -/

@[simp] theorem readGpr_zero (s : State) : readGpr s 0 = 0#32 := rfl

theorem readGpr_congr {s t : State} (h : t.gpr = s.gpr) (r : Reg) : readGpr t r = readGpr s r := by
  unfold readGpr; rw [h]

/-- A read after a write of a general register (R20). -/
theorem readGpr_writeGpr (s : State) (r q : Reg) (v : Word) :
    readGpr (writeGpr s r v) q = if q = 0 then 0#32 else if q = r then v else readGpr s q := by
  unfold readGpr
  by_cases hq : q = 0
  · simp [hq]
  · by_cases hr : r = 0
    · subst hr; simp [hq]
    · by_cases hqr : q = r
      · subst hqr; simp [hq]
      · have hv : r.val ≠ q.val := fun h => hqr (Fin.ext h.symm)
        simp [hq, hr, hqr, Vector.getElem_set_ne _ _ hv]

theorem readVfr_congr {s t : State} (h : t.vfr = s.vfr) (k : Slot) : readVfr t k = readVfr s k := by
  unfold readVfr; rw [h]

/-- A read after a write of a slot (R34). -/
theorem readVfr_writeVfr (s : State) (k j : Slot) (v : Word) :
    readVfr (writeVfr s k v) j = if j = k then v else readVfr s j := by
  unfold readVfr
  by_cases h : j = k
  · subst h; simp
  · have hv : k.val ≠ j.val := fun e => h (Fin.ext e.symm)
    simp [h, Vector.getElem_set_ne _ _ hv]

theorem readFpr_congr {s t : State} (hc : t.cfg = s.cfg) (hf : t.fpr = s.fpr) (hv : t.vfr = s.vfr) (f : FReg) :
    readFpr t f = readFpr s f := by
  unfold readFpr; rw [hc, hf, hv]

/-- A float register reads what was written to it (R32, R33). -/
theorem readFpr_writeFpr (s : State) (f : FReg) (v : Word) : readFpr (writeFpr s f v) f = v := by
  unfold readFpr writeFpr
  cases h : s.cfg.fprAlias[f.val] <;> simp

/-! ### What an update leaves unchanged -/

theorem onlyChanges_refl (may : Part → Prop) (s : State) : OnlyChanges may s s := fun p _ => by
  cases p <;> simp [Part.same]

theorem onlyChanges_mono {may may' : Part → Prop} {s t : State} (h : OnlyChanges may s t)
    (hm : ∀ p, may p → may' p) : OnlyChanges may' s t := fun p hp => h p fun hp' => hp (hm p hp')

theorem Part.same_trans {s t u : State} {p : Part} (h : p.same s t) (h' : p.same t u) : p.same s u := by
  cases p <;> simp only [Part.same] at h h' ⊢ <;> first | exact h'.trans h | exact ⟨h'.1.trans h.1, h'.2.trans h.2⟩

/-- Two updates, one after the other. -/
theorem onlyChanges_trans {may may' : Part → Prop} {s t u : State} (h : OnlyChanges may s t)
    (h' : OnlyChanges may' t u) : OnlyChanges (fun p => may p ∨ may' p) s u := fun p hp =>
  Part.same_trans (h p fun hm => hp (.inl hm)) (h' p fun hm => hp (.inr hm))

/-- A state that differs in `PC`, `nPC`, `COUNT` and outcome alone has every part the same. -/
theorem Part.same_of_parts {s t u : State} {p : Part} (h : p.same s t) (e : u =
    { t with pc := u.pc, npc := u.npc, count := u.count, outcome := u.outcome }) : p.same s u := by
  rw [e]; cases p <;> exact h

theorem onlyChanges_writeGpr (s : State) (r : Reg) (v : Word) :
    OnlyChanges (fun p => p = .gpr r) s (writeGpr s r v) := fun p hp => by
  cases p <;> simp only [Part.same, writeGpr_hi, writeGpr_lo, writeGpr_fpr, writeGpr_fcr31, writeGpr_pfxs,
    writeGpr_pfxt, writeGpr_pfxd, writeGpr_ic, writeGpr_ir, writeGpr_mem, writeGpr_bpSet, writeGpr_bpEnabled,
    writeGpr_cfg, and_self]
  case gpr q =>
    have hq : q ≠ r := fun h => hp (h ▸ rfl)
    rw [readGpr_writeGpr, if_neg hq]
    by_cases h0 : q = 0
    · subst h0; simp
    · rw [if_neg h0]
  case vfr k => exact readVfr_congr rfl k

theorem onlyChanges_writeVfr (s : State) (k : Slot) (v : Word) :
    OnlyChanges (fun p => p = .vfr k) s (writeVfr s k v) := fun p hp => by
  cases p <;> first | rfl | exact ⟨rfl, rfl⟩ | skip
  case vfr j =>
    have hj : j ≠ k := fun h => hp (h ▸ rfl)
    simp only [Part.same, readVfr_writeVfr, if_neg hj]

theorem onlyChanges_writeHilo (s : State) (v : BitVec 64) :
    OnlyChanges (fun p => p = .hi ∨ p = .lo) s (writeHilo s v) := fun p hp => by
  cases p <;> first | rfl | exact ⟨rfl, rfl⟩ | skip
  case hi => exact absurd (.inl rfl) hp
  case lo => exact absurd (.inr rfl) hp

/-- A float register of its own (R33). -/
theorem writeFpr_own {s : State} {f : FReg} (h : s.cfg.fprAlias[f.val] = none) (v : Word) :
    writeFpr s f v = { s with fpr := s.fpr.set f.val v } := by
  simp only [writeFpr, h]

/-- A float register that is a slot (R33). -/
theorem writeFpr_aliased {s : State} {f : FReg} {k : Slot} (h : s.cfg.fprAlias[f.val] = some k) (v : Word) :
    writeFpr s f v = { s with vfr := s.vfr.set k.val v } := by
  simp only [writeFpr, h]

theorem onlyChanges_writeFpr (s : State) (f : FReg) (v : Word) :
    OnlyChanges (fun p => p = homeOf s f) s (writeFpr s f v) := fun p hp => by
  cases h : s.cfg.fprAlias[f.val] with
  | none =>
    rw [writeFpr_own h]
    cases p <;> first | rfl | exact ⟨rfl, rfl⟩ | skip
    case fpr g =>
      have hg : f.val ≠ g.val := fun e => hp (by unfold homeOf; rw [h]; exact congrArg Part.fpr (Fin.ext e.symm))
      exact Vector.getElem_set_ne f.isLt g.isLt hg
  | some k =>
    rw [writeFpr_aliased h]
    cases p <;> first | rfl | exact ⟨rfl, rfl⟩ | skip
    case vfr j =>
      have hj : k.val ≠ j.val := fun e => hp (by unfold homeOf; rw [h]; exact congrArg Part.vfr (Fin.ext e.symm))
      exact Vector.getElem_set_ne k.isLt j.isLt hj

theorem onlyChanges_fcr31 (s : State) (v : Word) : OnlyChanges (fun p => p = .fcr31) s { s with fcr31 := v } :=
  fun p hp => by
    cases p <;> first | rfl | exact ⟨rfl, rfl⟩ | exact absurd rfl hp

theorem onlyChanges_consume (s : State) : OnlyChanges isLatch s (consume s) := fun p hp => by
  cases p <;> first | rfl | exact ⟨rfl, rfl⟩ | exact absurd (by simp [isLatch]) hp

/-- A change of memory alone, said byte by byte. -/
theorem onlyChanges_mem {s : State} {m : Memory} {may : Part → Prop}
    (h : ∀ a, ¬ may (.byte a) → m.byte a = s.mem.byte a) : OnlyChanges may s { s with mem := m } :=
  fun p hp => by
    cases p <;> first | rfl | exact ⟨rfl, rfl⟩ | exact h _ hp

/-- A change of the vector bank alone, said slot by slot. -/
theorem onlyChanges_vfr {s : State} {v : Vector Word 128} {may : Part → Prop}
    (h : ∀ k : Slot, ¬ may (.vfr k) → v[k.val] = s.vfr[k.val]) : OnlyChanges may s { s with vfr := v } :=
  fun p hp => by
    cases p <;> first | rfl | exact ⟨rfl, rfl⟩ | exact h _ hp

/-! ### The ends of an instruction -/

theorem Part.same_retire {s u : State} {o : StepOutcome} {p : Part} (h : p.same s u) : p.same s (retire u o) :=
  Part.same_of_parts h rfl

/-- An instruction that completes in sequence after the update `u`. -/
theorem ends_complete {s u : State} {may : Part → Prop} {post : State → Prop} (hn : u.npc = s.npc)
    (hc : u.count = s.count) (ho : OnlyChanges may s u) (hp : post (retire (sequential u) .continued)) :
    Ends (complete u) s Sequential may post :=
  ⟨_, rfl, ⟨hn, by rw [retire_npc, sequential_npc, hn]⟩, ⟨by rw [retire_count, sequential_count, hc], rfl⟩,
    fun p hm => Part.same_of_parts (ho p hm) rfl, hp⟩

/-- A control transfer taken after the update `u`. -/
theorem ends_completeJump {s u : State} {target : Word} {may : Part → Prop} {post : State → Prop}
    (hn : u.npc = s.npc) (hc : u.count = s.count) (ho : OnlyChanges may s u)
    (hp : post (retire (redirect u target) .continued)) :
    Ends (completeJump u target) s (Redirected target) may post :=
  ⟨_, rfl, ⟨hn, rfl⟩, ⟨by rw [retire_count, redirect_count, hc], rfl⟩,
    fun p hm => Part.same_of_parts (ho p hm) rfl, hp⟩

/-- A likely branch that squashes its delay slot after the update `u`. -/
theorem ends_completeSquash {s u : State} {may : Part → Prop} {post : State → Prop} (hn : u.npc = s.npc)
    (hc : u.count = s.count) (ho : OnlyChanges may s u) (hp : post (retire (squash u) .continued)) :
    Ends (completeSquash u) s Squashed may post :=
  ⟨_, rfl, ⟨by rw [retire_pc, squash_pc, hn], by rw [retire_npc, squash_npc, hn]⟩,
    ⟨by rw [retire_count, squash_count, hc], rfl⟩, fun p hm => Part.same_of_parts (ho p hm) rfl, hp⟩

/-- An instruction that does nothing completes in sequence. -/
theorem changesNothing_complete (s : State) : ChangesNothing (complete s) s :=
  ends_complete rfl rfl (onlyChanges_refl _ s) trivial

/-- The end of an instruction that writes one general register. -/
theorem writesGpr_complete (s : State) (r : Reg) (v : Word) : WritesGpr (complete (writeGpr s r v)) s r v :=
  ends_complete rfl rfl (onlyChanges_writeGpr s r v) (by
    show readGpr (writeGpr s r v) r = _
    rw [readGpr_writeGpr]; simp)

/-- The end of an instruction that writes one float register. -/
theorem writesFpr_complete (s : State) (f : FReg) (v : Word) : WritesFpr (complete (writeFpr s f v)) s f v :=
  ends_complete rfl rfl (onlyChanges_writeFpr s f v) (readFpr_writeFpr s f v)

/-- The end of an instruction that writes one slot. -/
theorem writesVfr_complete (s : State) (k : Slot) (v : Word) : WritesVfr (complete (writeVfr s k v)) s k v :=
  ends_complete rfl rfl (onlyChanges_writeVfr s k v) (by
    show readVfr (writeVfr s k v) k = _
    rw [readVfr_writeVfr, if_pos rfl])

/-- The end of an instruction that writes `HI` and `LO`. -/
theorem writesHilo_complete (s : State) (v : BitVec 64) :
    WritesHilo (complete (writeHilo s v)) s (v.extractLsb' 32 32) (v.extractLsb' 0 32) :=
  ends_complete rfl rfl (onlyChanges_writeHilo s v) ⟨rfl, rfl⟩

/-- A control transfer where no redirect is pending. -/
theorem controlTransfer_normal {s : State} (h : s.npc = s.pc + 4#32) (r : Result) : controlTransfer s r = r := by
  unfold controlTransfer redirectPending
  rw [h]; simp

/-- A control transfer in a delay slot (R252). -/
theorem controlTransfer_pending {s : State} (h : s.npc ≠ s.pc + 4#32) (r : Result) :
    controlTransfer s r = .fault (.controlTransferInDelaySlot s.pc s.ir) := by
  unfold controlTransfer redirectPending raiseFault
  simp [h]

/-! ### Memory accesses -/

theorem accessFault_of_accessible {s : State} {addr : Word} {n : Nat} {kind : AccessKind}
    (h : Accessible s addr n kind) : accessFault s addr n kind = none := by
  unfold accessFault; simp [h.1, h.2]

theorem accessFault_of_misaligned {s : State} {addr : Word} {n : Nat} {kind : AccessKind}
    (h : (maskAddr s addr).toNat % n ≠ 0) :
    accessFault s addr n kind = some (.misaligned (maskAddr s addr) n kind) := by
  unfold accessFault; simp [h]

theorem accessFault_of_refused {s : State} {addr : Word} {n : Nat} {kind : AccessKind}
    (h : (maskAddr s addr).toNat % n = 0) (hm : memAdmitted s (maskAddr s addr) n kind = false) :
    accessFault s addr n kind = some (.memoryAccess (maskAddr s addr) n kind) := by
  unfold accessFault; simp [h, hm]

/-- Every access ends in one of three ways (R75, R76). -/
theorem accessFault_cases (s : State) (addr : Word) (n : Nat) (kind : AccessKind) :
    (accessFault s addr n kind = none ∧ Accessible s addr n kind) ∨
    (accessFault s addr n kind = some (.misaligned (maskAddr s addr) n kind) ∧
      (maskAddr s addr).toNat % n ≠ 0) ∨
    (accessFault s addr n kind = some (.memoryAccess (maskAddr s addr) n kind) ∧
      (maskAddr s addr).toNat % n = 0 ∧ memAdmitted s (maskAddr s addr) n kind = false) := by
  by_cases h : (maskAddr s addr).toNat % n = 0
  · cases hm : memAdmitted s (maskAddr s addr) n kind with
    | true => exact .inl ⟨accessFault_of_accessible ⟨h, hm⟩, h, hm⟩
    | false => exact .inr (.inr ⟨accessFault_of_refused h hm, h, rfl⟩)
  · exact .inr (.inl ⟨accessFault_of_misaligned h, h⟩)

/-- A result that is the fault of its access where there is one faults as the access does. -/
theorem faultsAt_of_accessFault {r : Result} {s : State} {addr : Word} {n : Nat} {kind : AccessKind}
    (h : ∀ f, accessFault s addr n kind = some f → r = .fault f) : FaultsAt r s addr n kind :=
  ⟨fun ha => h _ (accessFault_of_misaligned ha), fun ha hm => h _ (accessFault_of_refused ha hm)⟩

theorem memRead32_of_accessible {s : State} {addr : Word} (h : Accessible s addr 4 .load) :
    memRead32 s addr = .ok (BitVec.ofNat 32 (littleEndian s (maskAddr s addr).toNat 4)) := by
  unfold memRead32; rw [accessFault_of_accessible h]
  exact congrArg Except.ok (word_littleEndian h.1)

theorem memRead16_of_accessible {s : State} {addr : Word} (h : Accessible s addr 2 .load) :
    memRead16 s addr = .ok (BitVec.ofNat 16 (littleEndian s (maskAddr s addr).toNat 2)) := by
  unfold memRead16; rw [accessFault_of_accessible h]
  exact congrArg Except.ok (half_littleEndian h.1)

theorem memRead8_of_accessible {s : State} {addr : Word} (h : Accessible s addr 1 .load) :
    memRead8 s addr = .ok (BitVec.ofNat 8 (littleEndian s (maskAddr s addr).toNat 1)) := by
  unfold memRead8; rw [accessFault_of_accessible h]
  refine congrArg Except.ok ?_
  rw [byteKey_eq (by simpa using (maskAddr s addr).isLt)]
  simp [littleEndian]

theorem memRead32_fault {s : State} {addr : Word} {f : Fault} (h : accessFault s addr 4 .load = some f) :
    memRead32 s addr = .error f := by unfold memRead32; rw [h]

theorem memRead16_fault {s : State} {addr : Word} {f : Fault} (h : accessFault s addr 2 .load = some f) :
    memRead16 s addr = .error f := by unfold memRead16; rw [h]

theorem memRead8_fault {s : State} {addr : Word} {f : Fault} (h : accessFault s addr 1 .load = some f) :
    memRead8 s addr = .error f := by unfold memRead8; rw [h]

theorem memWrite32_of_accessible {s : State} {addr v : Word} (h : Accessible s addr 4 .store) :
    memWrite32 s addr v = .ok { s with mem := s.mem.setWord (maskAddr s addr) v } := by
  unfold memWrite32; rw [accessFault_of_accessible h]

theorem memWrite16_of_accessible {s : State} {addr : Word} {v : BitVec 16} (h : Accessible s addr 2 .store) :
    memWrite16 s addr v = .ok { s with mem := s.mem.setHalf (maskAddr s addr) v } := by
  unfold memWrite16; rw [accessFault_of_accessible h]

theorem memWrite8_of_accessible {s : State} {addr : Word} {v : Byte} (h : Accessible s addr 1 .store) :
    memWrite8 s addr v = .ok { s with mem := s.mem.setByteAt (maskAddr s addr) v } := by
  unfold memWrite8; rw [accessFault_of_accessible h]

theorem memWrite32_fault {s : State} {addr v : Word} {f : Fault} (h : accessFault s addr 4 .store = some f) :
    memWrite32 s addr v = .error f := by unfold memWrite32; rw [h]

theorem memWrite16_fault {s : State} {addr : Word} {v : BitVec 16} {f : Fault}
    (h : accessFault s addr 2 .store = some f) : memWrite16 s addr v = .error f := by unfold memWrite16; rw [h]

theorem memWrite8_fault {s : State} {addr : Word} {v : Byte} {f : Fault}
    (h : accessFault s addr 1 .store = some f) : memWrite8 s addr v = .error f := by unfold memWrite8; rw [h]

/-- The word accesses of a list meet no fault where each is accessible. -/
theorem firstWordFault_none {s : State} {kind : AccessKind} {l : List Word} (h : ∀ a ∈ l, Accessible s a 4 kind) :
    firstWordFault s kind l = none := by
  induction l with
  | nil => rfl
  | cons a l ih =>
    unfold firstWordFault
    rw [accessFault_of_accessible (h a (by simp))]
    exact ih fun b hb => h b (by simp [hb])

/-- The first access of a list that is not sound gives the fault. -/
theorem firstWordFault_append {s : State} {kind : AccessKind} {l l' : List Word} {a : Word} {f : Fault}
    (h : ∀ b ∈ l, Accessible s b 4 kind) (hf : accessFault s a 4 kind = some f) :
    firstWordFault s kind (l ++ a :: l') = some f := by
  induction l with
  | nil => simp [firstWordFault, hf]
  | cons b l ih =>
    rw [List.cons_append, firstWordFault, accessFault_of_accessible (h b (by simp))]
    exact ih fun c hc => h c (by simp [hc])

/-! ### The fetch, and what a fault leaves -/

/-- Masking clears bits, so a multiple of 4 stays one. -/
theorem maskAddr_aligned {s : State} {a : Word} (h : a.toNat % 4 = 0) : (maskAddr s a).toNat % 4 = 0 := by
  unfold maskAddr
  rw [BitVec.toNat_and]
  have := Nat.and_mod_two_pow (a := a.toNat) (b := s.cfg.addrMask.toNat) (n := 2)
  simpa [h] using this

theorem Fetchable.accessible {s : State} (h : Fetchable s) : Accessible s s.pc 4 .fetch :=
  ⟨maskAddr_aligned h.1, h.2⟩

/-- The fetch ends in one of three ways (R77, R73). -/
theorem fetchFault_cases (s : State) :
    (fetchFault s = none ∧ Fetchable s) ∨
    (fetchFault s = some (.misaligned (maskAddr s s.pc) 4 .fetch) ∧ s.pc.toNat % 4 ≠ 0) ∨
    (fetchFault s = some (.memoryAccess (maskAddr s s.pc) 4 .fetch) ∧ s.pc.toNat % 4 = 0 ∧
      memAdmitted s (maskAddr s s.pc) 4 .fetch = false) := by
  unfold fetchFault
  by_cases h : s.pc.toNat % 4 = 0
  · rw [if_neg (not_not.2 h)]
    cases hm : memAdmitted s (maskAddr s s.pc) 4 .fetch with
    | true => exact .inl ⟨accessFault_of_accessible ⟨maskAddr_aligned h, hm⟩, h, hm⟩
    | false => exact .inr (.inr ⟨accessFault_of_refused (maskAddr_aligned h) hm, h, rfl⟩)
  · exact .inr (.inl ⟨if_pos h, h⟩)

theorem fetch_of_fetchable {s : State} (h : Fetchable s) :
    fetch s = .ok (BitVec.ofNat 32 (littleEndian s (maskAddr s s.pc).toNat 4)) := by
  unfold fetch fetchFault
  rw [if_neg (not_not.2 h.1), accessFault_of_accessible h.accessible]
  exact congrArg Except.ok (word_littleEndian h.accessible.1)

/-- A fetch that faults leaves the state as it was (R635). -/
theorem afterFault_of_not_fetchable {s : State} (h : ¬ Fetchable s) : afterFault s = s := by
  unfold afterFault fetch
  rcases fetchFault_cases s with ⟨_, hf⟩ | ⟨e, _⟩ | ⟨e, _⟩
  · exact absurd hf h
  all_goals rw [e]

/-- A fault after the fetch leaves the word fetched in `IR` and all else as it was (R45, R635). -/
theorem afterFault_of_fetchable {s : State} (h : Fetchable s) :
    afterFault s = { s with ir := BitVec.ofNat 32 (littleEndian s (maskAddr s s.pc).toNat 4) } := by
  unfold afterFault; rw [fetch_of_fetchable h]

end Sys2Proof.Machine
end

