-- ==== Sys2Proof/Laws/Vector.lean ====
section
/-! SUPPORT. The VFPU: slots, masked writes, prefixes, and what each shared end of a vector instruction does. -/
namespace Sys2Proof.Machine

/-! ### Slots -/

theorem lanes_le (sz : VSize) : sz.lanes ≤ 4 := by cases sz <;> decide

/-- The slot of a matrix, a column and a row names them (R361). -/
theorem bankSlot_inj {m m' : BitVec 3} {c r c' r' : BitVec 2} (h : bankSlot m c r = bankSlot m' c' r') :
    m = m' ∧ c = c' ∧ r = r' := by
  have e : (r ++ m ++ c : BitVec (2 + 3 + 2)) = r' ++ m' ++ c' := BitVec.eq_of_toFin_eq h
  have n : ∀ (r : BitVec 2) (m : BitVec 3) (c : BitVec 2),
      (r ++ m ++ c : BitVec (2 + 3 + 2)).toNat = 32 * r.toNat + 4 * m.toNat + c.toNat := fun r m c => by
    rw [BitVec.toNat_append, BitVec.toNat_append, ← Nat.shiftLeft_add_eq_or_of_lt m.isLt,
      ← Nat.shiftLeft_add_eq_or_of_lt c.isLt, Nat.shiftLeft_eq, Nat.shiftLeft_eq]
    omega
  have e' := congrArg BitVec.toNat e
  rw [n, n] at e'
  have := m.isLt; have := m'.isLt; have := c.isLt; have := c'.isLt
  exact ⟨BitVec.eq_of_toNat_eq (by omega), BitVec.eq_of_toNat_eq (by omega), BitVec.eq_of_toNat_eq (by omega)⟩

theorem offset_inj {row : BitVec 2} {i k : Nat} (hi : i < 4) (hk : k < 4)
    (h : row + BitVec.ofNat 2 i = row + BitVec.ofNat 2 k) : i = k := by
  have := congrArg BitVec.toNat (add_left_cancel h)
  simpa [Nat.mod_eq_of_lt hi, Nat.mod_eq_of_lt hk] using this

/-- The lanes of a group are distinct under the suggested formula (R365). -/
theorem laneFormula_inj {sel : Sel} {sz : VSize} {i k : Nat} (hi : i < sz.lanes) (hk : k < sz.lanes)
    (h : laneFormula sel sz i = laneFormula sel sz k) : i = k := by
  have l := lanes_le sz
  unfold laneFormula at h
  split at h
  · exact offset_inj (by omega) (by omega) (bankSlot_inj h).2.1
  · exact offset_inj (by omega) (by omega) (bankSlot_inj h).2.2

/-- The entries of a matrix are distinct under the suggested formula. -/
theorem entryFormula_inj {sel : Sel} {sz : VSize} {j i j' i' : Nat} (hj : j < sz.lanes) (hi : i < sz.lanes)
    (hj' : j' < sz.lanes) (hi' : i' < sz.lanes) (h : entryFormula sel sz j i = entryFormula sel sz j' i') :
    j = j' ∧ i = i' := by
  have l := lanes_le sz
  unfold entryFormula at h
  split at h
  · exact ⟨offset_inj (by omega) (by omega) (bankSlot_inj h).2.2,
      offset_inj (by omega) (by omega) (bankSlot_inj h).2.1⟩
  · exact ⟨offset_inj (by omega) (by omega) (bankSlot_inj h).2.1,
      offset_inj (by omega) (by omega) (bankSlot_inj h).2.2⟩

@[simp] theorem listsLane_iff (sel : Sel) (sz : VSize) (i : Nat) (e : VregLane) :
    listsLane sel sz i e = true ↔ e.sel = sel ∧ e.size = sz ∧ e.lane = i := by
  simp [listsLane, and_assoc]

@[simp] theorem listsEntry_iff (sel : Sel) (sz : VSize) (j i : Nat) (e : VregEntry) :
    listsEntry sel sz j i e = true ↔ e.sel = sel ∧ e.size = sz ∧ e.col = j ∧ e.row = i := by
  simp [listsEntry, and_assoc]

/-- A lane `VREG` does not list has the slot of the suggested formula. -/
theorem laneSlot_unlisted {c : Config} {sel : Sel} {sz : VSize} {i : Nat}
    (h : ∀ e ∈ c.vregLanes, ¬ (e.sel = sel ∧ e.size = sz ∧ e.lane = i)) :
    laneSlot c sel sz i = laneFormula sel sz i := by
  unfold laneSlot
  rw [List.find?_eq_none.2 fun e he hc => h e he ((listsLane_iff sel sz i e).1 hc)]

/-- A matrix entry `VREG` does not list has the slot of the suggested formula. -/
theorem matSlot_unlisted {c : Config} {sel : Sel} {sz : VSize} {j i : Nat}
    (h : ∀ e ∈ c.vregEntries, ¬ (e.sel = sel ∧ e.size = sz ∧ e.col = j ∧ e.row = i)) :
    matSlot c sel sz j i = entryFormula sel sz j i := by
  unfold matSlot
  rw [List.find?_eq_none.2 fun e he hc => h e he ((listsEntry_iff sel sz j i e).1 hc)]

/-- Numbers below `n` that a list without repeats holds the images of have different images. -/
theorem inj_of_nodup_range {α : Type} {n : Nat} {f : Nat → α} (h : ((List.range n).map f).Nodup) {i k : Nat}
    (hi : i < n) (hk : k < n) (e : f i = f k) : i = k :=
  List.inj_on_of_nodup_map h (List.mem_range.2 hi) (List.mem_range.2 hk) e

/-- Under an admissible `VREG` the lanes of a group are distinct (R365). -/
theorem laneSlot_inj {c : Config} (hc : c.vregAdmissible = true) {sel : Sel} {sz : VSize} {i k : Nat}
    (hi : i < sz.lanes) (hk : k < sz.lanes) (h : laneSlot c sel sz i = laneSlot c sel sz k) : i = k := by
  by_cases hl : ∃ e ∈ c.vregLanes, e.sel = sel ∧ e.size = sz
  · obtain ⟨e, he, rfl, rfl⟩ := hl
    simp only [Config.vregAdmissible, Bool.and_eq_true, List.all_eq_true, decide_eq_true_eq] at hc
    exact inj_of_nodup_range (hc.1 e he) hi hk h
  · rw [laneSlot_unlisted fun e he hx => hl ⟨e, he, hx.1, hx.2.1⟩,
      laneSlot_unlisted fun e he hx => hl ⟨e, he, hx.1, hx.2.1⟩] at h
    exact laneFormula_inj hi hk h

/-- Under an admissible `VREG` the entries of a matrix are distinct. -/
theorem matSlot_inj {c : Config} (hc : c.vregAdmissible = true) {sel : Sel} {sz : VSize} {j i j' i' : Nat}
    (hj : j < sz.lanes) (hi : i < sz.lanes) (hj' : j' < sz.lanes) (hi' : i' < sz.lanes)
    (h : matSlot c sel sz j i = matSlot c sel sz j' i') : j = j' ∧ i = i' := by
  by_cases hl : ∃ e ∈ c.vregEntries, e.sel = sel ∧ e.size = sz
  · obtain ⟨e, he, rfl, rfl⟩ := hl
    simp only [Config.vregAdmissible, Bool.and_eq_true, List.all_eq_true, decide_eq_true_eq] at hc
    have hp : 0 < e.size.lanes := by omega
    have lt : ∀ {a b : Nat}, a < e.size.lanes → b < e.size.lanes →
        a * e.size.lanes + b < e.size.lanes * e.size.lanes := fun ha hb => by nlinarith
    have dm : ∀ {a b : Nat}, b < e.size.lanes → (a * e.size.lanes + b) / e.size.lanes = a ∧
        (a * e.size.lanes + b) % e.size.lanes = b := fun {a b} hb => by
      rw [Nat.add_comm, Nat.add_mul_div_right _ _ hp, Nat.add_mul_mod_self_right, Nat.div_eq_of_lt hb,
        Nat.mod_eq_of_lt hb, Nat.zero_add]
      exact ⟨rfl, rfl⟩
    have := inj_of_nodup_range (hc.2 e he) (lt hj hi) (lt hj' hi')
      (by simp only [dm hi, dm hi']; exact h)
    have h1 := congrArg (· / e.size.lanes) this
    have h2 := congrArg (· % e.size.lanes) this
    simp only [dm hi, dm hi'] at h1 h2
    exact ⟨h1, h2⟩
  · rw [matSlot_unlisted fun e he hx => hl ⟨e, he, hx.1, hx.2.1⟩,
      matSlot_unlisted fun e he hx => hl ⟨e, he, hx.1, hx.2.1⟩] at h
    exact entryFormula_inj hj hi hj' hi' h

/-- Under an admissible `VREG` every lane of a group is apart. -/
theorem apart_laneSlot {c : Config} (hc : c.vregAdmissible = true) {sel : Sel} {sz : VSize} {i : Nat}
    (hi : i < sz.lanes) : Apart (· < sz.lanes) (laneSlot c sel sz) i :=
  fun _ hk hne he => hne (laneSlot_inj hc hk hi he)

/-- Under an admissible `VREG` every entry of a matrix is apart. -/
theorem apart_matSlot {c : Config} (hc : c.vregAdmissible = true) {sel : Sel} {sz : VSize} {j i : Nat}
    (hj : j < sz.lanes) (hi : i < sz.lanes) :
    Apart (fun e : Nat × Nat => e.1 < sz.lanes ∧ e.2 < sz.lanes) (fun e => matSlot c sel sz e.1 e.2) (j, i) :=
  fun _ hk hne he => hne (Prod.ext_iff.2 (matSlot_inj hc hk.1 hk.2 hj hi he))

/-- The slot of a single that `VREG` does not list is the selector (R364). -/
theorem singleSlot_unlisted {c : Config} {sel : Sel}
    (h : ∀ e ∈ c.vregLanes, ¬ (e.sel = sel ∧ e.size = .single ∧ e.lane = 0)) : singleSlot c sel = sel.toFin := by
  unfold singleSlot; rw [laneSlot_unlisted h]
  clear h; revert sel; decide +kernel

/-! ### Masked writes (R365) -/

/-- A slot that no unmasked cell names keeps its word. -/
theorem writeSlots_of_not_mem {l : List (Slot × Word × Bool)} {v : Vector Word 128} {k : Slot}
    (h : ∀ c ∈ l, c.1 = k → c.2.2 = true) : (writeSlots v l)[k.val] = v[k.val] := by
  induction l generalizing v with
  | nil => rfl
  | cons c l ih =>
    obtain ⟨j, w, m⟩ := c
    rw [writeSlots, ih fun c hc => h c (by simp [hc])]
    cases m with
    | true => rfl
    | false =>
      have hj : j.val ≠ k.val := fun e => by simpa using h (j, w, false) (by simp) (Fin.ext e)
      exact Vector.getElem_set_ne j.isLt k.isLt hj

/-- An unmasked cell whose slot no other cell names is written. -/
theorem writeSlots_of_mem {l : List (Slot × Word × Bool)} {v : Vector Word 128} {k : Slot} {w : Word}
    (hm : (k, w, false) ∈ l) (hu : ∀ c ∈ l, c.1 = k → c = (k, w, false)) : (writeSlots v l)[k.val] = w := by
  induction l generalizing v with
  | nil => simp at hm
  | cons c l ih =>
    by_cases hl : (k, w, false) ∈ l
    · obtain ⟨j, x, m⟩ := c
      exact ih hl fun c hc => hu c (by simp [hc])
    · have hc : c = (k, w, false) := by
        rcases List.mem_cons.1 hm with h | h
        · exact h.symm
        · exact absurd h hl
      subst hc
      rw [writeSlots, writeSlots_of_not_mem fun c hc he => by
        have := hu c (by simp [hc]) he
        exact absurd (this ▸ hc) hl]
      simp

/-- The cells of `n` lanes. -/
theorem zip_range_map {α β : Type} (n : Nat) (f : Nat → α) (g : Nat → β) :
    ((List.range n).map f).zip ((List.range n).map g) = (List.range n).map fun i => (f i, g i) := by
  induction n with
  | zero => rfl
  | succ n ih => simp [List.range_succ, List.zip_append, ih]

/-- A masked write of a group, lane by lane (R365). -/
theorem writeVec_lane {s : State} {sel : Sel} {sz : VSize} {f : Nat → Word} {m : Nat → Bool} {i : Nat}
    (hi : i < sz.lanes) (ha : Apart (· < sz.lanes) (laneSlot s.cfg sel sz) i) :
    readVfr (writeVec s sel sz ((List.range sz.lanes).map fun i => (f i, m i))) (laneSlot s.cfg sel sz i) =
      if m i then readVfr s (laneSlot s.cfg sel sz i) else f i := by
  show (writeSlots s.vfr ((vecSlots s.cfg sel sz).zip _))[_] = _
  unfold vecSlots
  rw [zip_range_map]
  have uniq : ∀ c ∈ (List.range sz.lanes).map (fun i => (laneSlot s.cfg sel sz i, f i, m i)),
      c.1 = laneSlot s.cfg sel sz i → c = (laneSlot s.cfg sel sz i, f i, m i) := by
    intro c hc he
    obtain ⟨k, hk, rfl⟩ := List.mem_map.1 hc
    by_cases hki : k = i
    · rw [hki]
    · exact absurd he (ha k (List.mem_range.1 hk) hki)
  cases hm : m i with
  | true =>
    rw [if_pos rfl]
    exact writeSlots_of_not_mem fun c hc he => by rw [uniq c hc he]; exact hm
  | false =>
    rw [if_neg (by simp)]
    refine writeSlots_of_mem (List.mem_map.2 ⟨i, List.mem_range.2 hi, by rw [hm]⟩) fun c hc he => ?_
    rw [uniq c hc he, hm]

/-- A write of a group changes no other slot. -/
theorem writeVec_other {s : State} {sel : Sel} {sz : VSize} {vals : List (Word × Bool)} {k : Slot}
    (hk : ∀ i, i < sz.lanes → k ≠ laneSlot s.cfg sel sz i) : (writeVec s sel sz vals).vfr[k.val] = s.vfr[k.val] :=
  writeSlots_of_not_mem fun c hc he => by
    have := (List.of_mem_zip hc).1
    obtain ⟨i, hi, e⟩ := List.mem_map.1 this
    exact absurd (he.symm.trans e.symm) (hk i (List.mem_range.1 hi))

theorem onlyChanges_writeVec (s : State) (sel : Sel) (sz : VSize) (vals : List (Word × Bool)) :
    OnlyChanges (fun p => ∃ i, i < sz.lanes ∧ p = .vfr (laneSlot s.cfg sel sz i)) s (writeVec s sel sz vals) :=
  onlyChanges_vfr fun _ hk => writeVec_other fun i hi e => hk ⟨i, hi, congrArg Part.vfr e⟩

theorem mem_matCells {cfg : Config} {sel : Sel} {sz : VSize} {x : Nat → Nat → Word} {c : Slot × Word × Bool} :
    c ∈ matCells cfg sel sz x ↔ ∃ j i, j < sz.lanes ∧ i < sz.lanes ∧ c = (matSlot cfg sel sz j i, x j i, false) := by
  unfold matCells
  simp only [List.mem_flatMap, List.mem_range, List.mem_map]
  constructor
  · rintro ⟨j, hj, i, hi, rfl⟩; exact ⟨j, i, hj, hi, rfl⟩
  · rintro ⟨j, i, hj, hi, rfl⟩; exact ⟨j, hj, i, hi, rfl⟩

/-- A write of a matrix, entry by entry (R365). -/
theorem writeMat_entry {s : State} {sel : Sel} {sz : VSize} {x : Nat → Nat → Word} {j i : Nat}
    (hj : j < sz.lanes) (hi : i < sz.lanes)
    (ha : Apart (fun e : Nat × Nat => e.1 < sz.lanes ∧ e.2 < sz.lanes) (fun e => matSlot s.cfg sel sz e.1 e.2) (j, i)) :
    readVfr (writeMat s sel sz x) (matSlot s.cfg sel sz j i) = x j i :=
  writeSlots_of_mem (mem_matCells.2 ⟨j, i, hj, hi, rfl⟩) fun c hc he => by
    obtain ⟨j', i', hj', hi', rfl⟩ := mem_matCells.1 hc
    by_cases hk : (j', i') = (j, i)
    · obtain ⟨rfl, rfl⟩ := Prod.mk.inj hk; rfl
    · exact absurd he (ha (j', i') ⟨hj', hi'⟩ hk)

theorem onlyChanges_writeMat (s : State) (sel : Sel) (sz : VSize) (x : Nat → Nat → Word) :
    OnlyChanges (fun p => ∃ j i, j < sz.lanes ∧ i < sz.lanes ∧ p = .vfr (matSlot s.cfg sel sz j i)) s
      (writeMat s sel sz x) :=
  onlyChanges_vfr fun k hk => writeSlots_of_not_mem fun c hc he => by
    obtain ⟨j, i, hj, hi, rfl⟩ := mem_matCells.1 hc
    exact absurd ⟨j, i, hj, hi, congrArg Part.vfr he.symm⟩ hk

/-! ### Prefixes -/

theorem swizzle_eq (d : Word) (i : Nat) : swizzle d i = d.toNat / 2 ^ (2 * i) % 4 := by
  unfold swizzle
  rw [BitVec.extractLsb'_toNat, Nat.shiftRight_eq_div_pow]

theorem swizzle_lt (d : Word) (i : Nat) : swizzle d i < 4 := by rw [swizzle_eq]; omega

/-- Lane `i` of a source after an enabled prefix. -/
theorem sourceLane_eq {c : Config} {l : PrefixLatch} {n i : Nat} {lane : Nat → Word} (hl : l.enabled = true)
    (h : l.value.getLsbD (12 + i) = true ∨ l.value.toNat / 2 ^ (2 * i) % 4 < n) :
    (sourceLane c l.value ((List.range n).map lane) i).map
      (fun v => if l.value.getLsbD (16 + i) then f32Flip v else v) = some (sourced c l lane i) := by
  unfold sourceLane sourced
  rw [if_pos hl, swizzle_eq]
  by_cases hc : l.value.getLsbD (12 + i) = true
  · rw [if_pos hc, if_pos hc, prefixConst]
    have hk : l.value.toNat / 2 ^ (2 * i) % 4 < 4 := by omega
    by_cases ha : l.value.getLsbD (8 + i) = true <;> by_cases hn : l.value.getLsbD (16 + i) = true <;>
      simp [ha, hn, f32Flip, hk]
  · have hk := h.resolve_left hc
    rw [if_neg hc, if_neg hc, List.getElem?_map, List.getElem?_range hk]
    by_cases ha : l.value.getLsbD (8 + i) = true <;> by_cases hn : l.value.getLsbD (16 + i) = true <;>
      simp [ha, hn, f32Flip, f32Abs]

theorem sourceLane_none {c : Config} {d : Word} {n i : Nat} {lane : Nat → Word} (hc : d.getLsbD (12 + i) = false)
    (hk : ¬ d.toNat / 2 ^ (2 * i) % 4 < n) : sourceLane c d ((List.range n).map lane) i = none := by
  unfold sourceLane
  rw [if_neg (by simp [hc]), swizzle_eq, List.getElem?_eq_none (by simpa using Nat.le_of_not_lt hk)]

theorem sourceLanes_some {c : Config} {l : PrefixLatch} {src : List Word} {g : Nat → Word} {is : List Nat}
    (h : ∀ i ∈ is, (sourceLane c l.value src i).map
      (fun v => if l.value.getLsbD (16 + i) then f32Flip v else v) = some (g i)) :
    sourceLanes c l.value src is = some (is.map g) := by
  induction is with
  | nil => rfl
  | cons i is ih =>
    have hi := h i (by simp)
    rw [sourceLanes, ih fun k hk => h k (by simp [hk])]
    cases hs : sourceLane c l.value src i with
    | none => rw [hs] at hi; simp at hi
    | some v => rw [hs] at hi; simp only [Option.map_some, Option.some.injEq] at hi; simp [hi]

theorem sourceLanes_none {c : Config} {d : Word} {src : List Word} {is : List Nat} {i : Nat} (hi : i ∈ is)
    (h : sourceLane c d src i = none) : sourceLanes c d src is = none := by
  induction is with
  | nil => simp at hi
  | cons k is ih =>
    rw [sourceLanes]
    rcases List.mem_cons.1 hi with rfl | hm
    · rw [h]
    · rw [ih hm]; cases sourceLane c d src k <;> rfl

/-- `ApplyST` where the lanes are defined (R373). -/
theorem applyST_defined {c : Config} {l : PrefixLatch} {n : Nat} {lane : Nat → Word} (h : SourceDefined l n) :
    applyST c l ((List.range n).map lane) = some ((List.range n).map (sourced c l lane)) := by
  unfold applyST
  cases hl : l.enabled with
  | true =>
    rw [if_pos rfl]
    simp only [List.length_map, List.length_range]
    exact sourceLanes_some fun i hi => sourceLane_eq hl (h hl i (List.mem_range.1 hi))
  | false =>
    rw [if_neg (by simp)]
    have : sourced c l lane = lane := by funext i; simp [sourced, hl]
    rw [this]

/-- `ApplyST` where a swizzle names a lane outside the group (R373). -/
theorem applyST_undefined {c : Config} {l : PrefixLatch} {n : Nat} {lane : Nat → Word} (h : ¬ SourceDefined l n) :
    applyST c l ((List.range n).map lane) = none := by
  unfold SourceDefined at h
  push Not at h
  obtain ⟨hl, i, hi, hc, hk⟩ := h
  unfold applyST
  rw [if_pos hl]
  simp only [List.length_map, List.length_range]
  exact sourceLanes_none (List.mem_range.2 hi) (sourceLane_none (by simpa using hc) (by omega))

theorem clampLane_eq {l : PrefixLatch} (hl : l.enabled = true) (i : Nat) (v : Word) :
    clampLane (swizzle l.value i) v = clamped l i v := by
  unfold clampLane clamped
  rw [if_pos hl, swizzle_eq]
  have e : ∀ a b x y : Word, (if f32Lt a b = true then x else y) =
      @ite _ (LessThan a b) (Classical.propDecidable _) x y := fun a b x y => by
    by_cases h : LessThan a b
    · rw [if_pos ((f32Lt_iff a b).2 h), if_pos h]
    · rw [if_neg fun hc => h ((f32Lt_iff a b).1 hc), if_neg h]
  simp only [e]

theorem applyDFrom_eq (d : Word) (f : Nat → Word) (n i : Nat) :
    applyDFrom d i ((List.range n).map fun k => f (i + k)) =
      (List.range n).map fun k => (clampLane (swizzle d (i + k)) (f (i + k)), d.getLsbD (8 + (i + k))) := by
  induction n generalizing i with
  | zero => rfl
  | succ n ih =>
    have e : ∀ k, i + Nat.succ k = i + 1 + k := fun k => by omega
    rw [List.range_succ_eq_map, List.map_cons, List.map_cons, List.map_map, List.map_map, applyDFrom]
    refine congrArg₂ List.cons rfl ?_
    have t : ((fun k => f (i + k)) ∘ Nat.succ) = fun k => f (i + 1 + k) := funext fun k => congrArg f (e k)
    rw [t, ih (i + 1)]
    refine List.map_congr_left fun k _ => ?_
    rw [Function.comp_apply, e k]

/-- `ApplyD` lane by lane (R375). -/
theorem applyD_eq (l : PrefixLatch) (n : Nat) (f : Nat → Word) :
    applyD l ((List.range n).map f) = (List.range n).map fun i => (clamped l i (f i), laneMasked l i) := by
  unfold applyD
  cases hl : l.enabled with
  | true =>
    rw [if_pos rfl]
    have := applyDFrom_eq l.value f n 0
    simp only [Nat.zero_add] at this
    rw [this]
    refine List.map_congr_left fun i _ => ?_
    rw [clampLane_eq hl, laneMasked, hl, Bool.true_and]
  | false =>
    rw [if_neg (by simp), List.map_map]
    refine List.map_congr_left fun i _ => ?_
    simp [clamped, laneMasked, hl]

/-! ### The ends of vector instructions -/

theorem readVec_eq (s : State) (sel : Sel) (sz : VSize) : readVec s sel sz = (List.range sz.lanes).map (laneOf s sel sz) := by
  unfold readVec vecSlots laneOf; rw [List.map_map]; rfl

/-- The operand `vs` where its prefix is defined. -/
theorem operandS_defined {s : State} {vs : Sel} {sz : VSize} (h : SourceDefined s.pfxs sz.lanes) :
    operandS s vs sz = some ((List.range sz.lanes).map (laneS s vs sz)) := by
  unfold operandS; rw [readVec_eq]; exact applyST_defined h

theorem operandS_undefined {s : State} {vs : Sel} {sz : VSize} (h : ¬ SourceDefined s.pfxs sz.lanes) :
    operandS s vs sz = none := by
  unfold operandS; rw [readVec_eq]; exact applyST_undefined h

/-- The operand `vt` where its prefix is defined. -/
theorem operandT_defined {s : State} {vt : Sel} {sz : VSize} (h : SourceDefined s.pfxt sz.lanes) :
    operandT s vt sz = some ((List.range sz.lanes).map (laneT s vt sz)) := by
  unfold operandT; rw [readVec_eq]; exact applyST_defined h

theorem operandT_undefined {s : State} {vt : Sel} {sz : VSize} (h : ¬ SourceDefined s.pfxt sz.lanes) :
    operandT s vt sz = none := by
  unfold operandT; rw [readVec_eq]; exact applyST_undefined h

/-- The end of every vector instruction (spec/46_vfpu_ops.md section 5). -/
theorem writesLanes_finishVec (s : State) (vd : Sel) (sz : VSize) (f : Nat → Word) :
    WritesLanes (finishVec s vd sz ((List.range sz.lanes).map f)) s vd sz f := by
  unfold finishVec WritesLanes
  rw [applyD_eq]
  refine ends_complete rfl rfl ?_ ⟨⟨rfl, rfl, rfl⟩, fun i hi ha => ?_⟩
  · exact onlyChanges_mono (onlyChanges_trans (onlyChanges_writeVec s vd sz _) (onlyChanges_consume _))
      fun p hp => hp.symm
  · exact writeVec_lane hi ha

/-- The end of every matrix instruction (R376, R400). -/
theorem writesMatrix_matrixResult {s : State} {sz : VSize} (h : sz ≠ .single) (vd : Sel) (x : Nat → Nat → Word) :
    WritesMatrix (matrixResult s sz vd x) s vd sz x := by
  unfold matrixResult WritesMatrix
  rw [if_neg h]
  refine ends_complete rfl rfl ?_ ⟨⟨rfl, rfl, rfl⟩, fun j i hj hi ha => writeMat_entry hj hi ha⟩
  exact onlyChanges_mono (onlyChanges_trans (onlyChanges_writeMat s vd sz x) (onlyChanges_consume _))
    fun p hp => hp.symm

theorem matrixResult_single (s : State) (vd : Sel) (x : Nat → Nat → Word) :
    matrixResult s .single vd x = .fault (.reservedOperand s.pc s.ir) := rfl

/-- The frame of a two-operand rule. -/
theorem writesLanes_vectorUnary {s : State} {sz : VSize} (h : SourceDefined s.pfxs sz.lanes) (f : Word → Word)
    (vd vs : Sel) : WritesLanes (vectorUnary f sz vd vs s) s vd sz fun i => f (laneS s vs sz i) := by
  unfold vectorUnary
  rw [operandS_defined h]
  simp only [List.map_map]
  exact writesLanes_finishVec s vd sz _

theorem vectorUnary_undefined {s : State} {sz : VSize} (h : ¬ SourceDefined s.pfxs sz.lanes) (f : Word → Word)
    (vd vs : Sel) : vectorUnary f sz vd vs s = .fault (.reservedOperand s.pc s.ir) := by
  unfold vectorUnary; rw [operandS_undefined h]; rfl

theorem zipWith_range_map (n : Nat) (f : Word → Word → Word) (g h : Nat → Word) :
    List.zipWith f ((List.range n).map g) ((List.range n).map h) = (List.range n).map fun i => f (g i) (h i) := by
  induction n with
  | zero => rfl
  | succ n ih => simp [List.range_succ, List.zipWith_append, ih]

/-- The frame of a three-operand rule. -/
theorem writesLanes_vectorBinary {s : State} {sz : VSize} (h : SourceDefined s.pfxs sz.lanes)
    (h' : SourceDefined s.pfxt sz.lanes) (f : Word → Word → Word) (vd vs vt : Sel) :
    WritesLanes (vectorBinary f sz vd vs vt s) s vd sz fun i => f (laneS s vs sz i) (laneT s vt sz i) := by
  unfold vectorBinary
  rw [operandS_defined h, operandT_defined h']
  simp only [zipWith_range_map]
  exact writesLanes_finishVec s vd sz _

theorem vectorBinary_undefined {s : State} {sz : VSize}
    (h : ¬ (SourceDefined s.pfxs sz.lanes ∧ SourceDefined s.pfxt sz.lanes)) (f : Word → Word → Word)
    (vd vs vt : Sel) : vectorBinary f sz vd vs vt s = .fault (.reservedOperand s.pc s.ir) := by
  unfold vectorBinary
  by_cases hs : SourceDefined s.pfxs sz.lanes
  · rw [operandS_defined hs, operandT_undefined fun ht => h ⟨hs, ht⟩]; rfl
  · rw [operandS_undefined hs]; rfl

/-- The dot product is the sum of products, left to right (R380). -/
theorem dotFrom_eq (acc : Word) (n : Nat) (f g : Nat → Word) :
    dotFrom acc ((List.range n).map fun i => (f i, g i)) =
      (List.range n).foldl (fun acc i => fadd acc (fmul (f i) (g i))) acc := by
  generalize List.range n = l
  induction l generalizing acc with
  | nil => rfl
  | cons i l ih => exact ih _

end Sys2Proof.Machine
end

