-- ==== Sys2Proof/Laws/Ends.lean ====
section
/-! SUPPORT. The ends that control transfers, float instructions, vector loads and stores and traps share, each
with what it does. -/
namespace Sys2Proof.Machine

/-! ### Control transfers -/

theorem branchTarget_eq (s : State) (off : BitVec 16) :
    branchTarget s off = BitVec.ofInt 32 (s.npc.toNat + 4 * off.toInt) := by
  unfold branchTarget
  apply BitVec.eq_of_toInt_eq
  have h : (off.signExtend 32 <<< 2 : Word) = BitVec.ofInt 32 (4 * off.toInt) := by
    rw [BitVec.shiftLeft_eq_mul_twoPow]
    apply BitVec.eq_of_toInt_eq
    rw [BitVec.toInt_mul, BitVec.toInt_signExtend_of_le (by omega)]
    have t : (BitVec.twoPow 32 2).toInt = 4 := by decide
    rw [t, BitVec.toInt_ofInt, mul_comm]
  rw [h, BitVec.ofInt_add, BitVec.ofInt_natCast, BitVec.ofNat_toNat, BitVec.setWidth_eq]

/-- A branch that is not likely, in state normal (R249). -/
theorem branchesIf_branch {s : State} (hn : s.npc = s.pc + 4#32) {p : Prop} {taken : Bool} (hp : taken = true ↔ p)
    (off : BitVec 16) : BranchesIf p Sequential (branch s taken off) s off := by
  unfold branch BranchesIf
  rw [controlTransfer_normal hn, branchTarget_eq]
  refine ⟨fun h => ?_, fun h => ?_⟩
  · rw [endBranch, if_pos (hp.2 h)]; exact ends_completeJump rfl rfl (onlyChanges_refl _ s) trivial
  · rw [endBranch, if_neg fun ht => h (hp.1 ht)]; exact ends_complete rfl rfl (onlyChanges_refl _ s) trivial

/-- A likely branch, in state normal (R249). -/
theorem branchesIf_branchLikely {s : State} (hn : s.npc = s.pc + 4#32) {p : Prop} {taken : Bool}
    (hp : taken = true ↔ p) (off : BitVec 16) : BranchesIf p Squashed (branchLikely s taken off) s off := by
  unfold branchLikely BranchesIf
  rw [controlTransfer_normal hn, branchTarget_eq]
  refine ⟨fun h => ?_, fun h => ?_⟩
  · rw [endLikely, if_pos (hp.2 h)]; exact ends_completeJump rfl rfl (onlyChanges_refl _ s) trivial
  · rw [endLikely, if_neg fun ht => h (hp.1 ht)]; exact ends_completeSquash rfl rfl (onlyChanges_refl _ s) trivial

theorem readGpr_link (s : State) (v : Word) : readGpr (writeGpr s 31 v) 31 = v := by
  rw [readGpr_writeGpr, if_neg (by decide), if_pos rfl]

/-- A branch and link, in state normal. -/
theorem linksAndBranchesIf_branchLink {s : State} (hn : s.npc = s.pc + 4#32) {p : Prop} {taken : Bool}
    (hp : taken = true ↔ p) (off : BitVec 16) :
    LinksAndBranchesIf p Sequential (branchLink s taken off) s off := by
  unfold branchLink LinksAndBranchesIf
  rw [controlTransfer_normal hn, branchTarget_eq]
  refine ⟨fun h => ?_, fun h => ?_⟩
  · rw [endBranch, if_pos (hp.2 h)]
    exact ends_completeJump rfl rfl (onlyChanges_writeGpr s 31 _) (readGpr_link s _)
  · rw [endBranch, if_neg fun ht => h (hp.1 ht)]
    exact ends_complete rfl rfl (onlyChanges_writeGpr s 31 _) (readGpr_link s _)

/-- A likely branch and link, in state normal. -/
theorem linksAndBranchesIf_branchLinkLikely {s : State} (hn : s.npc = s.pc + 4#32) {p : Prop} {taken : Bool}
    (hp : taken = true ↔ p) (off : BitVec 16) :
    LinksAndBranchesIf p Squashed (branchLinkLikely s taken off) s off := by
  unfold branchLinkLikely LinksAndBranchesIf
  rw [controlTransfer_normal hn, branchTarget_eq]
  refine ⟨fun h => ?_, fun h => ?_⟩
  · rw [endLikely, if_pos (hp.2 h)]
    exact ends_completeJump rfl rfl (onlyChanges_writeGpr s 31 _) (readGpr_link s _)
  · rw [endLikely, if_neg fun ht => h (hp.1 ht)]
    exact ends_completeSquash rfl rfl (onlyChanges_writeGpr s 31 _) (readGpr_link s _)

/-- A trap commits the sequential transition and `COUNT + 1` (R633). -/
theorem traps_raiseTrap (s : State) (kind : TrapKind) (code : BitVec 20) :
    Traps (raiseTrap s kind code) s kind code :=
  ⟨_, rfl, ⟨rfl, rfl⟩, rfl, rfl, fun p _ => Part.same_of_parts (onlyChanges_refl Nothing s p fun h => h) rfl⟩

/-! ### The scalar float unit -/

theorem onlyChanges_noteResult (s : State) (r : Word) : OnlyChanges (fun p => p = .fcr31) s (noteResult s r) :=
  onlyChanges_fcr31 s _

theorem onlyChanges_writeConditionCode (s : State) (c : Bool) :
    OnlyChanges (fun p => p = .fcr31) s (writeConditionCode s c) := onlyChanges_fcr31 s _

open Classical in
theorem stickyBits_eq (c : Config) (r : Word) :
    stickyBits c r = (if IsNaN r then c.nanMask else 0#32) ||| (if IsInf r then c.infMask else 0#32) := by
  unfold stickyBits
  have h1 := isNaN_iff r
  have h2 := isInf_iff r
  by_cases hn : IsNaN r <;> by_cases hi : IsInf r <;> simp only [h1, h2, hn, hi, if_true, if_false]

theorem writeFpr_cfg_fcr31 (s : State) (fd : FReg) (r : Word) :
    (noteResult (writeFpr s fd r) r).fcr31 = s.fcr31 ||| stickyBits s.cfg r := rfl

/-- The end of the arithmetic instructions (R302). -/
theorem writesAndNotes_arithResult (s : State) (fd : FReg) (r : Word) :
    WritesAndNotes (arithResult s fd r) s fd r := by
  unfold arithResult WritesAndNotes
  refine ends_complete rfl rfl ?_ ⟨readFpr_writeFpr s fd r, ?_⟩
  · exact onlyChanges_trans (onlyChanges_writeFpr s fd r) (onlyChanges_noteResult _ r)
  · show (noteResult (writeFpr s fd r) r).fcr31 = _
    rw [writeFpr_cfg_fcr31, stickyBits_eq, BitVec.or_assoc]

theorem bitMask_getLsbD (b : Fin 32) {i : Nat} (hi : i < 32) : (bitMask b).getLsbD i = decide (i = b.val) := by
  unfold bitMask
  rw [BitVec.getLsbD_shiftLeft, decide_eq_true hi, Bool.true_and, BitVec.getLsbD_one]
  by_cases h : i = b.val
  · simp [h]
  · by_cases hl : i < b.val
    · simp [hl, h]
    · simp [hl, h]; omega

/-- The end of a compare (R330). -/
theorem setsCondition_compareResult (s : State) (cond : BitVec 4) (fs ft : FReg) {p : Prop}
    (h : compareCond cond (readFpr s fs) (readFpr s ft) = true ↔ p) :
    SetsCondition (compareResult s cond fs ft) s p := by
  unfold compareResult SetsCondition
  refine ends_complete rfl rfl (onlyChanges_writeConditionCode s _) ⟨?_, fun i hi hne => ?_⟩
  · rw [← h]
    show ((writeConditionCode s _).fcr31).getLsbD _ = true ↔ _
    rw [writeConditionCode_fcr31]
    have hb := bitMask_getLsbD s.cfg.ccBit s.cfg.ccBit.isLt
    cases compareCond cond (readFpr s fs) (readFpr s ft)
    · rw [if_neg (by simp), BitVec.getLsbD_and, BitVec.getLsbD_not, hb]; simp
    · rw [if_pos rfl, BitVec.getLsbD_or, hb]; simp
  · show ((writeConditionCode s _).fcr31).getLsbD _ = _
    rw [writeConditionCode_fcr31]
    have hb := bitMask_getLsbD s.cfg.ccBit hi
    rw [decide_eq_false hne] at hb
    cases compareCond cond (readFpr s fs) (readFpr s ft)
    · rw [if_neg (by simp), BitVec.getLsbD_and, BitVec.getLsbD_not, hb]; simp [hi]
    · rw [if_pos rfl, BitVec.getLsbD_or, hb, Bool.or_false]

/-- The compare predicate in the terms of R330. -/
theorem compareCond_iff (cond : BitVec 4) (a b : Word) : compareCond cond a b = true ↔
    ((IsNaN a ∨ IsNaN b) ∧ cond.getLsbD 0 = true) ∨ (EqualTo a b ∧ cond.getLsbD 1 = true) ∨
    (LessThan a b ∧ cond.getLsbD 2 = true) := by
  unfold compareCond
  simp only [Bool.or_eq_true, Bool.and_eq_true, f32Eq_iff, f32Lt_iff, f32Unordered, isNaN_iff, or_assoc]

/-! ### Vector memory -/

/-- The second part of an access of `n` words at a cell whose slot no other cell names. -/
theorem writeSlots_cells {n : Nat} {slot : Nat → Slot} {f : Nat → Word} {v : Vector Word 128}
    {i : Nat} (hi : i < n) (ha : Apart (· < n) slot i) :
    (writeSlots v ((List.range n).map fun i => (slot i, f i, false)))[(slot i).val] = f i :=
  writeSlots_of_mem (List.mem_map.2 ⟨i, List.mem_range.2 hi, rfl⟩) fun c hc he => by
    obtain ⟨k, hk, rfl⟩ := List.mem_map.1 hc
    by_cases hki : k = i
    · rw [hki]
    · exact absurd he (ha k (List.mem_range.1 hk) hki)

/-- A vector load that meets no fault (R401 to R404). -/
theorem loadsSlots_vectorLoad {s : State} {n : Nat} {slot : Nat → Slot} {addr : Nat → Word}
    (al : ∀ i, i < n → (maskAddr s (addr i)).toNat % 4 = 0) :
    LoadsSlots (vectorLoad s none ((List.range n).map fun i => (slot i, addr i))) s n slot addr := by
  unfold vectorLoad LoadsSlots
  simp only [List.map_map, Function.comp_def]
  refine ends_complete rfl rfl (onlyChanges_vfr fun k hk => writeSlots_of_not_mem fun c hc he => ?_) fun i hi ha => ?_
  · obtain ⟨i, hi, rfl⟩ := List.mem_map.1 hc
    exact absurd ⟨i, List.mem_range.1 hi, congrArg Part.vfr he.symm⟩ hk
  · exact (writeSlots_cells hi ha).trans (word_littleEndian (al i hi))

/-- Word stores change memory alone. -/
theorem storeWords_eq (s : State) (l : List (Word × Word)) :
    storeWords s l = { s with mem := (storeWords s l).mem } := by
  induction l generalizing s with
  | nil => rfl
  | cons c l ih => obtain ⟨a, v⟩ := c; exact ih _

/-- A byte after a list of word stores at aligned addresses: that of the last word stored over it. -/
theorem byte_storeWords_other {s : State} {l : List (Word × Word)} {b : Nat}
    (al : ∀ c ∈ l, (maskAddr s c.1).toNat % 4 = 0)
    (h : ∀ c ∈ l, ¬ ((maskAddr s c.1).toNat ≤ b ∧ b < (maskAddr s c.1).toNat + 4)) :
    (storeWords s l).mem.byte b = s.mem.byte b := by
  induction l generalizing s with
  | nil => rfl
  | cons c l ih =>
    obtain ⟨a, v⟩ := c
    refine (ih (s := { s with mem := s.mem.setWord (maskAddr s a) v }) (fun c hc => al c (by simp [hc]))
      fun c hc => h c (by simp [hc])).trans ?_
    rw [byte_setWord (al (a, v) (by simp)), if_neg (h (a, v) (by simp))]

/-- A byte inside the last word stored over it. -/
theorem byte_storeWords_last {s : State} {l l' : List (Word × Word)} {a v : Word} {j : Nat} (hj : j < 4)
    (al : ∀ c ∈ l ++ (a, v) :: l', (maskAddr s c.1).toNat % 4 = 0)
    (h : ∀ c ∈ l', maskAddr s c.1 ≠ maskAddr s a) :
    (storeWords s (l ++ (a, v) :: l')).mem.byte ((maskAddr s a).toNat + j) = byteOf v j := by
  induction l generalizing s with
  | nil =>
    rw [List.nil_append, storeWords, byte_storeWords_other]
    · show (s.mem.setWord (maskAddr s a) v).byte _ = _
      have h1 : (maskAddr s a).toNat % 4 = 0 := al (a, v) (by simp)
      rw [byte_setWord h1, if_pos (by omega), Nat.add_sub_cancel_left]
    · intro c hc; exact al c (by simp [hc])
    · intro c hc hb
      have h1 := al (a, v) (by simp)
      have h2 := al c (by simp [hc])
      refine h c hc (BitVec.eq_of_toNat_eq ?_)
      simp only [maskAddr] at hb h1 h2 ⊢
      omega
  | cons c l ih =>
    obtain ⟨a', v'⟩ := c
    exact ih (s := { s with mem := s.mem.setWord (maskAddr s a') v' }) (fun c hc => al c (by simp [hc])) h

theorem range_split {n i : Nat} (hi : i < n) :
    List.range n = List.range i ++ i :: (List.range (n - i - 1)).map fun k => i + 1 + k := by
  have e : n = i + (1 + (n - i - 1)) := by omega
  conv_lhs => rw [e, List.range_add, List.range_add]
  simp [List.range_succ, Nat.add_assoc]

/-- The words stored are all there is of the change a vector store makes (R402, R405, R406). -/
theorem storesWords_vectorStore {s : State} {n : Nat} {slot : Nat → Slot} {addr : Nat → Word}
    (al : ∀ i, i < n → (maskAddr s (addr i)).toNat % 4 = 0) :
    StoresWords (vectorStore s none ((List.range n).map fun i => (slot i, addr i))) s n addr
      fun i => readVfr s (slot i) := by
  unfold vectorStore StoresWords
  simp only [List.map_map, Function.comp_def]
  have al' : ∀ c ∈ (List.range n).map (fun i => (addr i, readVfr s (slot i))), (maskAddr s c.1).toNat % 4 = 0 := by
    intro c hc
    obtain ⟨i, hi, rfl⟩ := List.mem_map.1 hc
    exact al i (List.mem_range.1 hi)
  refine ends_complete (by simp) (by simp) ?_ fun i j hi hj last => ?_
  · rw [storeWords_eq]
    refine onlyChanges_mem fun b hb => byte_storeWords_other al' fun c hc hin => hb ?_
    obtain ⟨i, hi, rfl⟩ := List.mem_map.1 hc
    obtain ⟨h1, h2⟩ := hin
    simp only at h1 h2
    exact ⟨i, b - (maskAddr s (addr i)).toNat, List.mem_range.1 hi, by omega, by rw [Nat.add_sub_cancel' h1]⟩
  · show (storeWords s _).mem.byte _ = _
    rw [range_split hi, List.map_append, List.map_cons] at al' ⊢
    refine byte_storeWords_last hj al' fun c hc => ?_
    rw [List.map_map] at hc
    obtain ⟨k, hk, rfl⟩ := List.mem_map.1 hc
    exact last (i + 1 + k) (by omega) (by have := List.mem_range.1 hk; omega)

/-- The fault of a vector access is the alignment of its address, then its first word that is not admitted. -/
theorem faultsInOrder_of_vectorFault {r : Result} {s : State} {ea : Word} {align n : Nat} {addr : Nat → Word}
    {kind : AccessKind} (al : (maskAddr s ea).toNat % align = 0 → ∀ i, i < n → (maskAddr s (addr i)).toNat % 4 = 0)
    (h : ∀ f, vectorFault s ea align kind ((List.range n).map addr) = some f → r = .fault f) :
    FaultsInOrder r s ea align n addr kind := by
  refine ⟨fun ha => h _ (by unfold vectorFault; rw [if_pos ha]), fun ha j hj hadm href => h _ ?_⟩
  unfold vectorFault
  rw [if_neg (by simpa using ha), range_split hj, List.map_append, List.map_cons]
  refine firstWordFault_append (fun b hb => ?_) (accessFault_of_refused (al ha j hj) href)
  obtain ⟨i, hi, rfl⟩ := List.mem_map.1 hb
  have hij := List.mem_range.1 hi
  exact ⟨al ha i (by omega), hadm i hij⟩

/-- A vector access whose address is aligned and whose words are admitted meets no fault. -/
theorem vectorFault_none {s : State} {ea : Word} {align n : Nat} {addr : Nat → Word} {kind : AccessKind}
    (ha : (maskAddr s ea).toNat % align = 0) (al : ∀ i, i < n → (maskAddr s (addr i)).toNat % 4 = 0)
    (h : AllAdmitted s n addr kind) : vectorFault s ea align kind ((List.range n).map addr) = none := by
  unfold vectorFault
  rw [if_neg (by simpa using ha)]
  refine firstWordFault_none fun a hm => ?_
  obtain ⟨i, hi, rfl⟩ := List.mem_map.1 hm
  exact ⟨al i (List.mem_range.1 hi), h i (List.mem_range.1 hi)⟩

/-- An address that is a multiple of 4 away from another keeps its two lowest bits, masked too. -/
theorem maskAddr_add_four {s : State} {ea : Word} (k : Nat) (h : (maskAddr s ea).toNat % 4 = 0) :
    (maskAddr s (ea + BitVec.ofNat 32 (4 * k))).toNat % 4 = 0 := by
  unfold maskAddr at h ⊢
  have e : ∀ x m : Word, (x &&& m).toNat % 4 = (x.toNat % 4) &&& (m.toNat % 4) := fun x m => by
    rw [BitVec.toNat_and]
    have := Nat.and_mod_two_pow (a := x.toNat) (b := m.toNat) (n := 2)
    simpa using this
  rw [e] at h ⊢
  have a : (ea + BitVec.ofNat 32 (4 * k)).toNat % 4 = ea.toNat % 4 := by
    rw [BitVec.toNat_add, BitVec.toNat_ofNat]; omega
  rw [a]; exact h

theorem maskAddr_sub_four {s : State} {ea : Word} (k : Nat) (h : (maskAddr s ea).toNat % 4 = 0) :
    (maskAddr s (ea - BitVec.ofNat 32 (4 * k))).toNat % 4 = 0 := by
  have e : ea - BitVec.ofNat 32 (4 * k) = ea + BitVec.ofNat 32 (4 * (2 ^ 30 * k - k)) := by
    apply BitVec.eq_of_toNat_eq
    rw [BitVec.toNat_sub, BitVec.toNat_add, BitVec.toNat_ofNat, BitVec.toNat_ofNat]
    omega
  rw [e]; exact maskAddr_add_four _ h

end Sys2Proof.Machine
end

