-- ==== Sys2Proof/Laws/Frame.lean ====
section
/-! SUPPORT. What an instruction can do to the whole machine, said once: whatever it is, where it answers a next
state the parameters and breakpoints are as before, `COUNT` is one more, the outcome is `Continue` or a trap, and
each kind of state changes only under the instructions named for it in Safety.lean. -/
namespace Sys2Proof.Machine

/-- Every next state of a result has the property. -/
def Keeps (r : Result) (p : State → Prop) : Prop := ∀ t, r = .next t → p t

section
variable {s : State} {p : State → Prop}

theorem keeps_complete (h : p (retire (sequential s) .continued)) : Keeps (complete s) p := by
  intro t e; cases e; exact h

theorem keeps_raiseTrap {k : TrapKind} {c : BitVec 20} (h : p (retire (sequential s) (.trap k c))) :
    Keeps (raiseTrap s k c) p := by intro t e; cases e; exact h

theorem keeps_completeJump {a : Word} (h : p (retire (redirect s a) .continued)) : Keeps (completeJump s a) p := by
  intro t e; cases e; exact h

theorem keeps_completeSquash (h : p (retire (squash s) .continued)) : Keeps (completeSquash s) p := by
  intro t e; cases e; exact h

theorem keeps_raiseFault {f : Fault} : Keeps (raiseFault f) p := by intro t e; cases e

theorem keeps_reservedOperand : Keeps (reservedOperand s) p := keeps_raiseFault

theorem keeps_unimplemented {m : String} : Keeps (unimplemented s m) p := keeps_raiseFault

theorem keeps_ite {c : Prop} [Decidable c] {a b : Result} (ha : Keeps a p) (hb : Keeps b p) :
    Keeps (if c then a else b) p := by split <;> assumption

theorem keeps_orFault {α : Type} {e : Except Fault α} {k : α → Result} (h : ∀ v, Keeps (k v) p) :
    Keeps (orFault e k) p := by
  unfold orFault; cases e with
  | error f => exact keeps_raiseFault
  | ok v => exact h v

theorem keeps_memWrite8 {a : Word} {v : Byte} {k : State → Result} (h : ∀ m, Keeps (k { s with mem := m }) p) :
    Keeps (orFault (memWrite8 s a v) k) p := by
  unfold memWrite8; split
  · exact keeps_raiseFault
  · exact h _

theorem keeps_memWrite16 {a : Word} {v : BitVec 16} {k : State → Result}
    (h : ∀ m, Keeps (k { s with mem := m }) p) : Keeps (orFault (memWrite16 s a v) k) p := by
  unfold memWrite16; split
  · exact keeps_raiseFault
  · exact h _

theorem keeps_memWrite32 {a v : Word} {k : State → Result} (h : ∀ m, Keeps (k { s with mem := m }) p) :
    Keeps (orFault (memWrite32 s a v) k) p := by
  unfold memWrite32; split
  · exact keeps_raiseFault
  · exact h _

theorem keeps_vectorLoad {f : Option Fault} {c : List (Slot × Word)}
    (h : ∀ v, p (retire (sequential { s with vfr := v }) .continued)) : Keeps (vectorLoad s f c) p := by
  unfold vectorLoad; split
  · exact keeps_raiseFault
  · exact keeps_complete (h _)

theorem keeps_vectorStore {f : Option Fault} {c : List (Slot × Word)}
    (h : ∀ m, p (retire (sequential { s with mem := m }) .continued)) : Keeps (vectorStore s f c) p := by
  unfold vectorStore; split
  · exact keeps_raiseFault
  · rw [storeWords_eq]; exact keeps_complete (h _)

theorem keeps_finishVec {sel : Sel} {sz : VSize} {d : List Word}
    (h : ∀ v, p (retire (sequential (consume { s with vfr := v })) .continued)) : Keeps (finishVec s sel sz d) p :=
  keeps_complete (h _)

theorem keeps_vectorUnary {f : Word → Word} {sz : VSize} {vd vs : Sel}
    (h : ∀ v, p (retire (sequential (consume { s with vfr := v })) .continued)) :
    Keeps (vectorUnary f sz vd vs s) p := by
  unfold vectorUnary; split
  · exact keeps_finishVec h
  · exact keeps_reservedOperand

theorem keeps_vectorBinary {f : Word → Word → Word} {sz : VSize} {vd vs vt : Sel}
    (h : ∀ v, p (retire (sequential (consume { s with vfr := v })) .continued)) :
    Keeps (vectorBinary f sz vd vs vt s) p := by
  unfold vectorBinary; split
  · exact keeps_finishVec h
  · exact keeps_reservedOperand

theorem keeps_matrixResult {sz : VSize} {vd : Sel} {x : Nat → Nat → Word}
    (h : ∀ v, p (retire (sequential (consume { s with vfr := v })) .continued)) :
    Keeps (matrixResult s sz vd x) p := keeps_ite keeps_reservedOperand (keeps_complete (h _))

theorem keeps_colourPack {conv : Word → BitVec 16} {sz : VSize} {vd vs : Sel}
    (h : ∀ v, p (retire (sequential (consume { s with vfr := v })) .continued)) :
    Keeps (colourPack conv sz vd vs s) p := keeps_ite (keeps_complete (h _)) keeps_reservedOperand

theorem keeps_controlTransfer {r : Result} (h : Keeps r p) : Keeps (controlTransfer s r) p :=
  keeps_ite keeps_raiseFault h

theorem keeps_registerJump {a : Word} {r : Result} (h : Keeps r p) : Keeps (registerJump s a r) p :=
  keeps_controlTransfer (keeps_ite keeps_raiseFault h)

theorem keeps_branch {taken : Bool} {off : BitVec 16}
    (h : p (retire (redirect s (branchTarget s off)) .continued)) (h' : p (retire (sequential s) .continued)) :
    Keeps (branch s taken off) p :=
  keeps_controlTransfer (keeps_ite (keeps_completeJump h) (keeps_complete h'))

theorem keeps_branchLikely {taken : Bool} {off : BitVec 16}
    (h : p (retire (redirect s (branchTarget s off)) .continued)) (h' : p (retire (squash s) .continued)) :
    Keeps (branchLikely s taken off) p :=
  keeps_controlTransfer (keeps_ite (keeps_completeJump h) (keeps_completeSquash h'))

theorem keeps_branchLink {taken : Bool} {off : BitVec 16}
    (h : p (retire (redirect (writeGpr s 31 (linkValue s)) (branchTarget s off)) .continued))
    (h' : p (retire (sequential (writeGpr s 31 (linkValue s))) .continued)) : Keeps (branchLink s taken off) p :=
  keeps_controlTransfer (keeps_ite (keeps_completeJump h) (keeps_complete h'))

theorem keeps_branchLinkLikely {taken : Bool} {off : BitVec 16}
    (h : p (retire (redirect (writeGpr s 31 (linkValue s)) (branchTarget s off)) .continued))
    (h' : p (retire (squash (writeGpr s 31 (linkValue s))) .continued)) :
    Keeps (branchLinkLikely s taken off) p :=
  keeps_controlTransfer (keeps_ite (keeps_completeJump h) (keeps_completeSquash h'))

end

/-- What the instruction `i`, from `s`, can have done in a next state `t`. -/
structure Frame (i : Instr) (s t : State) : Prop where
  config       : t.cfg = s.cfg
  breakpoints  : t.bpSet = s.bpSet ∧ t.bpEnabled = s.bpEnabled
  count        : t.count = s.count + 1
  outcome      : t.outcome = .continued ∨ ∃ k c, t.outcome = .trap k c
  hilo         : i.writesHilo = false → t.hi = s.hi ∧ t.lo = s.lo
  memory       : i.isStore = false → t.mem = s.mem
  fcr31        : (i.notesResult || i.isCompare || i.row.mnemonic == "ctc1") = false → t.fcr31 = s.fcr31
  consumed     : i.consumes = true → Consumed s t
  latches      : i.consumes = false → i.setsLatch = false →
    t.pfxs = s.pfxs ∧ t.pfxt = s.pfxt ∧ t.pfxd = s.pfxd
  sequential   : i.isControlTransfer = false → Sequential s t
  transferred  : i.isControlTransfer = true → t.pc = s.npc ∨ Squashed s t

namespace ExecFrame

theorem ff {b : Bool} {p : Prop} (hb : b = true) (h : b = false) : p := nomatch hb.symm.trans h

theorem tt {b : Bool} {p : Prop} (hb : b = false) (h : b = true) : p := nomatch hb.symm.trans h

set_option Elab.async false

theorem add (rd : Reg) (rs : Reg) (rt : Reg) (s : State) : Keeps (exec (.add rd rs rt) s) (Frame (.add rd rs rt) s) :=
  keeps_complete
    ⟨(rfl), (⟨rfl, rfl⟩), (rfl), (.inl rfl), (fun _ => ⟨rfl, rfl⟩), (fun _ => rfl), (fun _ => rfl), (tt rfl), (fun _ _ => ⟨rfl, rfl, rfl⟩), (fun _ => ⟨rfl, rfl⟩), (tt rfl)⟩

theorem addu (rd : Reg) (rs : Reg) (rt : Reg) (s : State) : Keeps (exec (.addu rd rs rt) s) (Frame (.addu rd rs rt) s) :=
  keeps_complete
    ⟨(rfl), (⟨rfl, rfl⟩), (rfl), (.inl rfl), (fun _ => ⟨rfl, rfl⟩), (fun _ => rfl), (fun _ => rfl), (tt rfl), (fun _ _ => ⟨rfl, rfl, rfl⟩), (fun _ => ⟨rfl, rfl⟩), (tt rfl)⟩

theorem addi (rt : Reg) (rs : Reg) (imm16 : BitVec 16) (s : State) : Keeps (exec (.addi rt rs imm16) s) (Frame (.addi rt rs imm16) s) :=
  keeps_complete
    ⟨(rfl), (⟨rfl, rfl⟩), (rfl), (.inl rfl), (fun _ => ⟨rfl, rfl⟩), (fun _ => rfl), (fun _ => rfl), (tt rfl), (fun _ _ => ⟨rfl, rfl, rfl⟩), (fun _ => ⟨rfl, rfl⟩), (tt rfl)⟩

theorem addiu (rt : Reg) (rs : Reg) (imm16 : BitVec 16) (s : State) : Keeps (exec (.addiu rt rs imm16) s) (Frame (.addiu rt rs imm16) s) :=
  keeps_complete
    ⟨(rfl), (⟨rfl, rfl⟩), (rfl), (.inl rfl), (fun _ => ⟨rfl, rfl⟩), (fun _ => rfl), (fun _ => rfl), (tt rfl), (fun _ _ => ⟨rfl, rfl, rfl⟩), (fun _ => ⟨rfl, rfl⟩), (tt rfl)⟩

theorem sub (rd : Reg) (rs : Reg) (rt : Reg) (s : State) : Keeps (exec (.sub rd rs rt) s) (Frame (.sub rd rs rt) s) :=
  keeps_complete
    ⟨(rfl), (⟨rfl, rfl⟩), (rfl), (.inl rfl), (fun _ => ⟨rfl, rfl⟩), (fun _ => rfl), (fun _ => rfl), (tt rfl), (fun _ _ => ⟨rfl, rfl, rfl⟩), (fun _ => ⟨rfl, rfl⟩), (tt rfl)⟩

theorem subu (rd : Reg) (rs : Reg) (rt : Reg) (s : State) : Keeps (exec (.subu rd rs rt) s) (Frame (.subu rd rs rt) s) :=
  keeps_complete
    ⟨(rfl), (⟨rfl, rfl⟩), (rfl), (.inl rfl), (fun _ => ⟨rfl, rfl⟩), (fun _ => rfl), (fun _ => rfl), (tt rfl), (fun _ _ => ⟨rfl, rfl, rfl⟩), (fun _ => ⟨rfl, rfl⟩), (tt rfl)⟩

theorem and (rd : Reg) (rs : Reg) (rt : Reg) (s : State) : Keeps (exec (.and rd rs rt) s) (Frame (.and rd rs rt) s) :=
  keeps_complete
    ⟨(rfl), (⟨rfl, rfl⟩), (rfl), (.inl rfl), (fun _ => ⟨rfl, rfl⟩), (fun _ => rfl), (fun _ => rfl), (tt rfl), (fun _ _ => ⟨rfl, rfl, rfl⟩), (fun _ => ⟨rfl, rfl⟩), (tt rfl)⟩

theorem or (rd : Reg) (rs : Reg) (rt : Reg) (s : State) : Keeps (exec (.or rd rs rt) s) (Frame (.or rd rs rt) s) :=
  keeps_complete
    ⟨(rfl), (⟨rfl, rfl⟩), (rfl), (.inl rfl), (fun _ => ⟨rfl, rfl⟩), (fun _ => rfl), (fun _ => rfl), (tt rfl), (fun _ _ => ⟨rfl, rfl, rfl⟩), (fun _ => ⟨rfl, rfl⟩), (tt rfl)⟩

theorem xor (rd : Reg) (rs : Reg) (rt : Reg) (s : State) : Keeps (exec (.xor rd rs rt) s) (Frame (.xor rd rs rt) s) :=
  keeps_complete
    ⟨(rfl), (⟨rfl, rfl⟩), (rfl), (.inl rfl), (fun _ => ⟨rfl, rfl⟩), (fun _ => rfl), (fun _ => rfl), (tt rfl), (fun _ _ => ⟨rfl, rfl, rfl⟩), (fun _ => ⟨rfl, rfl⟩), (tt rfl)⟩

theorem nor (rd : Reg) (rs : Reg) (rt : Reg) (s : State) : Keeps (exec (.nor rd rs rt) s) (Frame (.nor rd rs rt) s) :=
  keeps_complete
    ⟨(rfl), (⟨rfl, rfl⟩), (rfl), (.inl rfl), (fun _ => ⟨rfl, rfl⟩), (fun _ => rfl), (fun _ => rfl), (tt rfl), (fun _ _ => ⟨rfl, rfl, rfl⟩), (fun _ => ⟨rfl, rfl⟩), (tt rfl)⟩

theorem andi (rt : Reg) (rs : Reg) (imm16 : BitVec 16) (s : State) : Keeps (exec (.andi rt rs imm16) s) (Frame (.andi rt rs imm16) s) :=
  keeps_complete
    ⟨(rfl), (⟨rfl, rfl⟩), (rfl), (.inl rfl), (fun _ => ⟨rfl, rfl⟩), (fun _ => rfl), (fun _ => rfl), (tt rfl), (fun _ _ => ⟨rfl, rfl, rfl⟩), (fun _ => ⟨rfl, rfl⟩), (tt rfl)⟩

theorem ori (rt : Reg) (rs : Reg) (imm16 : BitVec 16) (s : State) : Keeps (exec (.ori rt rs imm16) s) (Frame (.ori rt rs imm16) s) :=
  keeps_complete
    ⟨(rfl), (⟨rfl, rfl⟩), (rfl), (.inl rfl), (fun _ => ⟨rfl, rfl⟩), (fun _ => rfl), (fun _ => rfl), (tt rfl), (fun _ _ => ⟨rfl, rfl, rfl⟩), (fun _ => ⟨rfl, rfl⟩), (tt rfl)⟩

theorem xori (rt : Reg) (rs : Reg) (imm16 : BitVec 16) (s : State) : Keeps (exec (.xori rt rs imm16) s) (Frame (.xori rt rs imm16) s) :=
  keeps_complete
    ⟨(rfl), (⟨rfl, rfl⟩), (rfl), (.inl rfl), (fun _ => ⟨rfl, rfl⟩), (fun _ => rfl), (fun _ => rfl), (tt rfl), (fun _ _ => ⟨rfl, rfl, rfl⟩), (fun _ => ⟨rfl, rfl⟩), (tt rfl)⟩

theorem lui (rt : Reg) (imm16 : BitVec 16) (s : State) : Keeps (exec (.lui rt imm16) s) (Frame (.lui rt imm16) s) :=
  keeps_complete
    ⟨(rfl), (⟨rfl, rfl⟩), (rfl), (.inl rfl), (fun _ => ⟨rfl, rfl⟩), (fun _ => rfl), (fun _ => rfl), (tt rfl), (fun _ _ => ⟨rfl, rfl, rfl⟩), (fun _ => ⟨rfl, rfl⟩), (tt rfl)⟩

theorem slt (rd : Reg) (rs : Reg) (rt : Reg) (s : State) : Keeps (exec (.slt rd rs rt) s) (Frame (.slt rd rs rt) s) :=
  keeps_complete
    ⟨(rfl), (⟨rfl, rfl⟩), (rfl), (.inl rfl), (fun _ => ⟨rfl, rfl⟩), (fun _ => rfl), (fun _ => rfl), (tt rfl), (fun _ _ => ⟨rfl, rfl, rfl⟩), (fun _ => ⟨rfl, rfl⟩), (tt rfl)⟩

theorem sltu (rd : Reg) (rs : Reg) (rt : Reg) (s : State) : Keeps (exec (.sltu rd rs rt) s) (Frame (.sltu rd rs rt) s) :=
  keeps_complete
    ⟨(rfl), (⟨rfl, rfl⟩), (rfl), (.inl rfl), (fun _ => ⟨rfl, rfl⟩), (fun _ => rfl), (fun _ => rfl), (tt rfl), (fun _ _ => ⟨rfl, rfl, rfl⟩), (fun _ => ⟨rfl, rfl⟩), (tt rfl)⟩

theorem slti (rt : Reg) (rs : Reg) (imm16 : BitVec 16) (s : State) : Keeps (exec (.slti rt rs imm16) s) (Frame (.slti rt rs imm16) s) :=
  keeps_complete
    ⟨(rfl), (⟨rfl, rfl⟩), (rfl), (.inl rfl), (fun _ => ⟨rfl, rfl⟩), (fun _ => rfl), (fun _ => rfl), (tt rfl), (fun _ _ => ⟨rfl, rfl, rfl⟩), (fun _ => ⟨rfl, rfl⟩), (tt rfl)⟩

theorem sltiu (rt : Reg) (rs : Reg) (imm16 : BitVec 16) (s : State) : Keeps (exec (.sltiu rt rs imm16) s) (Frame (.sltiu rt rs imm16) s) :=
  keeps_complete
    ⟨(rfl), (⟨rfl, rfl⟩), (rfl), (.inl rfl), (fun _ => ⟨rfl, rfl⟩), (fun _ => rfl), (fun _ => rfl), (tt rfl), (fun _ _ => ⟨rfl, rfl, rfl⟩), (fun _ => ⟨rfl, rfl⟩), (tt rfl)⟩

theorem sll (rd : Reg) (rt : Reg) (sa : Fin 32) (s : State) : Keeps (exec (.sll rd rt sa) s) (Frame (.sll rd rt sa) s) :=
  keeps_complete
    ⟨(rfl), (⟨rfl, rfl⟩), (rfl), (.inl rfl), (fun _ => ⟨rfl, rfl⟩), (fun _ => rfl), (fun _ => rfl), (tt rfl), (fun _ _ => ⟨rfl, rfl, rfl⟩), (fun _ => ⟨rfl, rfl⟩), (tt rfl)⟩

theorem srl (rd : Reg) (rt : Reg) (sa : Fin 32) (s : State) : Keeps (exec (.srl rd rt sa) s) (Frame (.srl rd rt sa) s) :=
  keeps_complete
    ⟨(rfl), (⟨rfl, rfl⟩), (rfl), (.inl rfl), (fun _ => ⟨rfl, rfl⟩), (fun _ => rfl), (fun _ => rfl), (tt rfl), (fun _ _ => ⟨rfl, rfl, rfl⟩), (fun _ => ⟨rfl, rfl⟩), (tt rfl)⟩

theorem sra (rd : Reg) (rt : Reg) (sa : Fin 32) (s : State) : Keeps (exec (.sra rd rt sa) s) (Frame (.sra rd rt sa) s) :=
  keeps_complete
    ⟨(rfl), (⟨rfl, rfl⟩), (rfl), (.inl rfl), (fun _ => ⟨rfl, rfl⟩), (fun _ => rfl), (fun _ => rfl), (tt rfl), (fun _ _ => ⟨rfl, rfl, rfl⟩), (fun _ => ⟨rfl, rfl⟩), (tt rfl)⟩

theorem sllv (rd : Reg) (rt : Reg) (rs : Reg) (s : State) : Keeps (exec (.sllv rd rt rs) s) (Frame (.sllv rd rt rs) s) :=
  keeps_complete
    ⟨(rfl), (⟨rfl, rfl⟩), (rfl), (.inl rfl), (fun _ => ⟨rfl, rfl⟩), (fun _ => rfl), (fun _ => rfl), (tt rfl), (fun _ _ => ⟨rfl, rfl, rfl⟩), (fun _ => ⟨rfl, rfl⟩), (tt rfl)⟩

theorem srlv (rd : Reg) (rt : Reg) (rs : Reg) (s : State) : Keeps (exec (.srlv rd rt rs) s) (Frame (.srlv rd rt rs) s) :=
  keeps_complete
    ⟨(rfl), (⟨rfl, rfl⟩), (rfl), (.inl rfl), (fun _ => ⟨rfl, rfl⟩), (fun _ => rfl), (fun _ => rfl), (tt rfl), (fun _ _ => ⟨rfl, rfl, rfl⟩), (fun _ => ⟨rfl, rfl⟩), (tt rfl)⟩

theorem srav (rd : Reg) (rt : Reg) (rs : Reg) (s : State) : Keeps (exec (.srav rd rt rs) s) (Frame (.srav rd rt rs) s) :=
  keeps_complete
    ⟨(rfl), (⟨rfl, rfl⟩), (rfl), (.inl rfl), (fun _ => ⟨rfl, rfl⟩), (fun _ => rfl), (fun _ => rfl), (tt rfl), (fun _ _ => ⟨rfl, rfl, rfl⟩), (fun _ => ⟨rfl, rfl⟩), (tt rfl)⟩

theorem rotr (rd : Reg) (rt : Reg) (sa : Fin 32) (s : State) : Keeps (exec (.rotr rd rt sa) s) (Frame (.rotr rd rt sa) s) :=
  keeps_complete
    ⟨(rfl), (⟨rfl, rfl⟩), (rfl), (.inl rfl), (fun _ => ⟨rfl, rfl⟩), (fun _ => rfl), (fun _ => rfl), (tt rfl), (fun _ _ => ⟨rfl, rfl, rfl⟩), (fun _ => ⟨rfl, rfl⟩), (tt rfl)⟩

theorem rotrv (rd : Reg) (rt : Reg) (rs : Reg) (s : State) : Keeps (exec (.rotrv rd rt rs) s) (Frame (.rotrv rd rt rs) s) :=
  keeps_complete
    ⟨(rfl), (⟨rfl, rfl⟩), (rfl), (.inl rfl), (fun _ => ⟨rfl, rfl⟩), (fun _ => rfl), (fun _ => rfl), (tt rfl), (fun _ _ => ⟨rfl, rfl, rfl⟩), (fun _ => ⟨rfl, rfl⟩), (tt rfl)⟩

theorem ext (rt : Reg) (rs : Reg) (lsb : Fin 32) (msb : Fin 32) (s : State) : Keeps (exec (.ext rt rs lsb msb) s) (Frame (.ext rt rs lsb msb) s) :=
  keeps_ite (keeps_complete
    ⟨(rfl), (⟨rfl, rfl⟩), (rfl), (.inl rfl), (fun _ => ⟨rfl, rfl⟩), (fun _ => rfl), (fun _ => rfl), (tt rfl), (fun _ _ => ⟨rfl, rfl, rfl⟩), (fun _ => ⟨rfl, rfl⟩), (tt rfl)⟩) keeps_reservedOperand

theorem ins (rt : Reg) (rs : Reg) (lsb : Fin 32) (msb : Fin 32) (s : State) : Keeps (exec (.ins rt rs lsb msb) s) (Frame (.ins rt rs lsb msb) s) :=
  keeps_ite (keeps_complete
    ⟨(rfl), (⟨rfl, rfl⟩), (rfl), (.inl rfl), (fun _ => ⟨rfl, rfl⟩), (fun _ => rfl), (fun _ => rfl), (tt rfl), (fun _ _ => ⟨rfl, rfl, rfl⟩), (fun _ => ⟨rfl, rfl⟩), (tt rfl)⟩) keeps_reservedOperand

theorem clz (rd : Reg) (rs : Reg) (s : State) : Keeps (exec (.clz rd rs) s) (Frame (.clz rd rs) s) :=
  keeps_complete
    ⟨(rfl), (⟨rfl, rfl⟩), (rfl), (.inl rfl), (fun _ => ⟨rfl, rfl⟩), (fun _ => rfl), (fun _ => rfl), (tt rfl), (fun _ _ => ⟨rfl, rfl, rfl⟩), (fun _ => ⟨rfl, rfl⟩), (tt rfl)⟩

theorem clo (rd : Reg) (rs : Reg) (s : State) : Keeps (exec (.clo rd rs) s) (Frame (.clo rd rs) s) :=
  keeps_complete
    ⟨(rfl), (⟨rfl, rfl⟩), (rfl), (.inl rfl), (fun _ => ⟨rfl, rfl⟩), (fun _ => rfl), (fun _ => rfl), (tt rfl), (fun _ _ => ⟨rfl, rfl, rfl⟩), (fun _ => ⟨rfl, rfl⟩), (tt rfl)⟩

theorem seb (rd : Reg) (rt : Reg) (s : State) : Keeps (exec (.seb rd rt) s) (Frame (.seb rd rt) s) :=
  keeps_complete
    ⟨(rfl), (⟨rfl, rfl⟩), (rfl), (.inl rfl), (fun _ => ⟨rfl, rfl⟩), (fun _ => rfl), (fun _ => rfl), (tt rfl), (fun _ _ => ⟨rfl, rfl, rfl⟩), (fun _ => ⟨rfl, rfl⟩), (tt rfl)⟩

theorem seh (rd : Reg) (rt : Reg) (s : State) : Keeps (exec (.seh rd rt) s) (Frame (.seh rd rt) s) :=
  keeps_complete
    ⟨(rfl), (⟨rfl, rfl⟩), (rfl), (.inl rfl), (fun _ => ⟨rfl, rfl⟩), (fun _ => rfl), (fun _ => rfl), (tt rfl), (fun _ _ => ⟨rfl, rfl, rfl⟩), (fun _ => ⟨rfl, rfl⟩), (tt rfl)⟩

theorem wsbh (rd : Reg) (rt : Reg) (s : State) : Keeps (exec (.wsbh rd rt) s) (Frame (.wsbh rd rt) s) :=
  keeps_complete
    ⟨(rfl), (⟨rfl, rfl⟩), (rfl), (.inl rfl), (fun _ => ⟨rfl, rfl⟩), (fun _ => rfl), (fun _ => rfl), (tt rfl), (fun _ _ => ⟨rfl, rfl, rfl⟩), (fun _ => ⟨rfl, rfl⟩), (tt rfl)⟩

theorem wsbw (rd : Reg) (rt : Reg) (s : State) : Keeps (exec (.wsbw rd rt) s) (Frame (.wsbw rd rt) s) :=
  keeps_complete
    ⟨(rfl), (⟨rfl, rfl⟩), (rfl), (.inl rfl), (fun _ => ⟨rfl, rfl⟩), (fun _ => rfl), (fun _ => rfl), (tt rfl), (fun _ _ => ⟨rfl, rfl, rfl⟩), (fun _ => ⟨rfl, rfl⟩), (tt rfl)⟩

theorem bitrev (rd : Reg) (rt : Reg) (s : State) : Keeps (exec (.bitrev rd rt) s) (Frame (.bitrev rd rt) s) :=
  keeps_complete
    ⟨(rfl), (⟨rfl, rfl⟩), (rfl), (.inl rfl), (fun _ => ⟨rfl, rfl⟩), (fun _ => rfl), (fun _ => rfl), (tt rfl), (fun _ _ => ⟨rfl, rfl, rfl⟩), (fun _ => ⟨rfl, rfl⟩), (tt rfl)⟩

theorem movz (rd : Reg) (rs : Reg) (rt : Reg) (s : State) : Keeps (exec (.movz rd rs rt) s) (Frame (.movz rd rs rt) s) := by
  show Keeps (execMovz rd rs rt s) _
  unfold execMovz
  split <;> exact keeps_complete
    ⟨(rfl), (⟨rfl, rfl⟩), (rfl), (.inl rfl), (fun _ => ⟨rfl, rfl⟩), (fun _ => rfl), (fun _ => rfl), (tt rfl), (fun _ _ => ⟨rfl, rfl, rfl⟩), (fun _ => ⟨rfl, rfl⟩), (tt rfl)⟩

theorem movn (rd : Reg) (rs : Reg) (rt : Reg) (s : State) : Keeps (exec (.movn rd rs rt) s) (Frame (.movn rd rs rt) s) := by
  show Keeps (execMovn rd rs rt s) _
  unfold execMovn
  split <;> exact keeps_complete
    ⟨(rfl), (⟨rfl, rfl⟩), (rfl), (.inl rfl), (fun _ => ⟨rfl, rfl⟩), (fun _ => rfl), (fun _ => rfl), (tt rfl), (fun _ _ => ⟨rfl, rfl, rfl⟩), (fun _ => ⟨rfl, rfl⟩), (tt rfl)⟩

theorem max (rd : Reg) (rs : Reg) (rt : Reg) (s : State) : Keeps (exec (.max rd rs rt) s) (Frame (.max rd rs rt) s) :=
  keeps_complete
    ⟨(rfl), (⟨rfl, rfl⟩), (rfl), (.inl rfl), (fun _ => ⟨rfl, rfl⟩), (fun _ => rfl), (fun _ => rfl), (tt rfl), (fun _ _ => ⟨rfl, rfl, rfl⟩), (fun _ => ⟨rfl, rfl⟩), (tt rfl)⟩

theorem min (rd : Reg) (rs : Reg) (rt : Reg) (s : State) : Keeps (exec (.min rd rs rt) s) (Frame (.min rd rs rt) s) :=
  keeps_complete
    ⟨(rfl), (⟨rfl, rfl⟩), (rfl), (.inl rfl), (fun _ => ⟨rfl, rfl⟩), (fun _ => rfl), (fun _ => rfl), (tt rfl), (fun _ _ => ⟨rfl, rfl, rfl⟩), (fun _ => ⟨rfl, rfl⟩), (tt rfl)⟩

theorem mult (rs : Reg) (rt : Reg) (s : State) : Keeps (exec (.mult rs rt) s) (Frame (.mult rs rt) s) :=
  keeps_complete
    ⟨(rfl), (⟨rfl, rfl⟩), (rfl), (.inl rfl), (ff rfl), (fun _ => rfl), (fun _ => rfl), (tt rfl), (fun _ _ => ⟨rfl, rfl, rfl⟩), (fun _ => ⟨rfl, rfl⟩), (tt rfl)⟩

theorem multu (rs : Reg) (rt : Reg) (s : State) : Keeps (exec (.multu rs rt) s) (Frame (.multu rs rt) s) :=
  keeps_complete
    ⟨(rfl), (⟨rfl, rfl⟩), (rfl), (.inl rfl), (ff rfl), (fun _ => rfl), (fun _ => rfl), (tt rfl), (fun _ _ => ⟨rfl, rfl, rfl⟩), (fun _ => ⟨rfl, rfl⟩), (tt rfl)⟩

theorem div (rs : Reg) (rt : Reg) (s : State) : Keeps (exec (.div rs rt) s) (Frame (.div rs rt) s) :=
  keeps_ite keeps_raiseFault (keeps_complete
    ⟨(rfl), (⟨rfl, rfl⟩), (rfl), (.inl rfl), (ff rfl), (fun _ => rfl), (fun _ => rfl), (tt rfl), (fun _ _ => ⟨rfl, rfl, rfl⟩), (fun _ => ⟨rfl, rfl⟩), (tt rfl)⟩)

theorem divu (rs : Reg) (rt : Reg) (s : State) : Keeps (exec (.divu rs rt) s) (Frame (.divu rs rt) s) :=
  keeps_ite (keeps_complete
    ⟨(rfl), (⟨rfl, rfl⟩), (rfl), (.inl rfl), (ff rfl), (fun _ => rfl), (fun _ => rfl), (tt rfl), (fun _ _ => ⟨rfl, rfl, rfl⟩), (fun _ => ⟨rfl, rfl⟩), (tt rfl)⟩) (keeps_complete
    ⟨(rfl), (⟨rfl, rfl⟩), (rfl), (.inl rfl), (ff rfl), (fun _ => rfl), (fun _ => rfl), (tt rfl), (fun _ _ => ⟨rfl, rfl, rfl⟩), (fun _ => ⟨rfl, rfl⟩), (tt rfl)⟩)

theorem madd (rs : Reg) (rt : Reg) (s : State) : Keeps (exec (.madd rs rt) s) (Frame (.madd rs rt) s) :=
  keeps_complete
    ⟨(rfl), (⟨rfl, rfl⟩), (rfl), (.inl rfl), (ff rfl), (fun _ => rfl), (fun _ => rfl), (tt rfl), (fun _ _ => ⟨rfl, rfl, rfl⟩), (fun _ => ⟨rfl, rfl⟩), (tt rfl)⟩

theorem maddu (rs : Reg) (rt : Reg) (s : State) : Keeps (exec (.maddu rs rt) s) (Frame (.maddu rs rt) s) :=
  keeps_complete
    ⟨(rfl), (⟨rfl, rfl⟩), (rfl), (.inl rfl), (ff rfl), (fun _ => rfl), (fun _ => rfl), (tt rfl), (fun _ _ => ⟨rfl, rfl, rfl⟩), (fun _ => ⟨rfl, rfl⟩), (tt rfl)⟩

theorem msub (rs : Reg) (rt : Reg) (s : State) : Keeps (exec (.msub rs rt) s) (Frame (.msub rs rt) s) :=
  keeps_complete
    ⟨(rfl), (⟨rfl, rfl⟩), (rfl), (.inl rfl), (ff rfl), (fun _ => rfl), (fun _ => rfl), (tt rfl), (fun _ _ => ⟨rfl, rfl, rfl⟩), (fun _ => ⟨rfl, rfl⟩), (tt rfl)⟩

theorem msubu (rs : Reg) (rt : Reg) (s : State) : Keeps (exec (.msubu rs rt) s) (Frame (.msubu rs rt) s) :=
  keeps_complete
    ⟨(rfl), (⟨rfl, rfl⟩), (rfl), (.inl rfl), (ff rfl), (fun _ => rfl), (fun _ => rfl), (tt rfl), (fun _ _ => ⟨rfl, rfl, rfl⟩), (fun _ => ⟨rfl, rfl⟩), (tt rfl)⟩

theorem mfhi (rd : Reg) (s : State) : Keeps (exec (.mfhi rd) s) (Frame (.mfhi rd) s) :=
  keeps_complete
    ⟨(rfl), (⟨rfl, rfl⟩), (rfl), (.inl rfl), (fun _ => ⟨rfl, rfl⟩), (fun _ => rfl), (fun _ => rfl), (tt rfl), (fun _ _ => ⟨rfl, rfl, rfl⟩), (fun _ => ⟨rfl, rfl⟩), (tt rfl)⟩

theorem mflo (rd : Reg) (s : State) : Keeps (exec (.mflo rd) s) (Frame (.mflo rd) s) :=
  keeps_complete
    ⟨(rfl), (⟨rfl, rfl⟩), (rfl), (.inl rfl), (fun _ => ⟨rfl, rfl⟩), (fun _ => rfl), (fun _ => rfl), (tt rfl), (fun _ _ => ⟨rfl, rfl, rfl⟩), (fun _ => ⟨rfl, rfl⟩), (tt rfl)⟩

theorem mthi (rs : Reg) (s : State) : Keeps (exec (.mthi rs) s) (Frame (.mthi rs) s) :=
  keeps_complete
    ⟨(rfl), (⟨rfl, rfl⟩), (rfl), (.inl rfl), (ff rfl), (fun _ => rfl), (fun _ => rfl), (tt rfl), (fun _ _ => ⟨rfl, rfl, rfl⟩), (fun _ => ⟨rfl, rfl⟩), (tt rfl)⟩

theorem mtlo (rs : Reg) (s : State) : Keeps (exec (.mtlo rs) s) (Frame (.mtlo rs) s) :=
  keeps_complete
    ⟨(rfl), (⟨rfl, rfl⟩), (rfl), (.inl rfl), (ff rfl), (fun _ => rfl), (fun _ => rfl), (tt rfl), (fun _ _ => ⟨rfl, rfl, rfl⟩), (fun _ => ⟨rfl, rfl⟩), (tt rfl)⟩

theorem lb (rt : Reg) (off16 : BitVec 16) (rs : Reg) (s : State) : Keeps (exec (.lb rt off16 rs) s) (Frame (.lb rt off16 rs) s) :=
  keeps_orFault fun _ => keeps_complete
    ⟨(rfl), (⟨rfl, rfl⟩), (rfl), (.inl rfl), (fun _ => ⟨rfl, rfl⟩), (fun _ => rfl), (fun _ => rfl), (tt rfl), (fun _ _ => ⟨rfl, rfl, rfl⟩), (fun _ => ⟨rfl, rfl⟩), (tt rfl)⟩

theorem lbu (rt : Reg) (off16 : BitVec 16) (rs : Reg) (s : State) : Keeps (exec (.lbu rt off16 rs) s) (Frame (.lbu rt off16 rs) s) :=
  keeps_orFault fun _ => keeps_complete
    ⟨(rfl), (⟨rfl, rfl⟩), (rfl), (.inl rfl), (fun _ => ⟨rfl, rfl⟩), (fun _ => rfl), (fun _ => rfl), (tt rfl), (fun _ _ => ⟨rfl, rfl, rfl⟩), (fun _ => ⟨rfl, rfl⟩), (tt rfl)⟩

theorem lh (rt : Reg) (off16 : BitVec 16) (rs : Reg) (s : State) : Keeps (exec (.lh rt off16 rs) s) (Frame (.lh rt off16 rs) s) :=
  keeps_orFault fun _ => keeps_complete
    ⟨(rfl), (⟨rfl, rfl⟩), (rfl), (.inl rfl), (fun _ => ⟨rfl, rfl⟩), (fun _ => rfl), (fun _ => rfl), (tt rfl), (fun _ _ => ⟨rfl, rfl, rfl⟩), (fun _ => ⟨rfl, rfl⟩), (tt rfl)⟩

theorem lhu (rt : Reg) (off16 : BitVec 16) (rs : Reg) (s : State) : Keeps (exec (.lhu rt off16 rs) s) (Frame (.lhu rt off16 rs) s) :=
  keeps_orFault fun _ => keeps_complete
    ⟨(rfl), (⟨rfl, rfl⟩), (rfl), (.inl rfl), (fun _ => ⟨rfl, rfl⟩), (fun _ => rfl), (fun _ => rfl), (tt rfl), (fun _ _ => ⟨rfl, rfl, rfl⟩), (fun _ => ⟨rfl, rfl⟩), (tt rfl)⟩

theorem lw (rt : Reg) (off16 : BitVec 16) (rs : Reg) (s : State) : Keeps (exec (.lw rt off16 rs) s) (Frame (.lw rt off16 rs) s) :=
  keeps_orFault fun _ => keeps_complete
    ⟨(rfl), (⟨rfl, rfl⟩), (rfl), (.inl rfl), (fun _ => ⟨rfl, rfl⟩), (fun _ => rfl), (fun _ => rfl), (tt rfl), (fun _ _ => ⟨rfl, rfl, rfl⟩), (fun _ => ⟨rfl, rfl⟩), (tt rfl)⟩

theorem sb (rt : Reg) (off16 : BitVec 16) (rs : Reg) (s : State) : Keeps (exec (.sb rt off16 rs) s) (Frame (.sb rt off16 rs) s) :=
  keeps_memWrite8 fun _ => keeps_complete
    ⟨(rfl), (⟨rfl, rfl⟩), (rfl), (.inl rfl), (fun _ => ⟨rfl, rfl⟩), (ff rfl), (fun _ => rfl), (tt rfl), (fun _ _ => ⟨rfl, rfl, rfl⟩), (fun _ => ⟨rfl, rfl⟩), (tt rfl)⟩

theorem sh (rt : Reg) (off16 : BitVec 16) (rs : Reg) (s : State) : Keeps (exec (.sh rt off16 rs) s) (Frame (.sh rt off16 rs) s) :=
  keeps_memWrite16 fun _ => keeps_complete
    ⟨(rfl), (⟨rfl, rfl⟩), (rfl), (.inl rfl), (fun _ => ⟨rfl, rfl⟩), (ff rfl), (fun _ => rfl), (tt rfl), (fun _ _ => ⟨rfl, rfl, rfl⟩), (fun _ => ⟨rfl, rfl⟩), (tt rfl)⟩

theorem sw (rt : Reg) (off16 : BitVec 16) (rs : Reg) (s : State) : Keeps (exec (.sw rt off16 rs) s) (Frame (.sw rt off16 rs) s) :=
  keeps_memWrite32 fun _ => keeps_complete
    ⟨(rfl), (⟨rfl, rfl⟩), (rfl), (.inl rfl), (fun _ => ⟨rfl, rfl⟩), (ff rfl), (fun _ => rfl), (tt rfl), (fun _ _ => ⟨rfl, rfl, rfl⟩), (fun _ => ⟨rfl, rfl⟩), (tt rfl)⟩

theorem lwl (rt : Reg) (off16 : BitVec 16) (rs : Reg) (s : State) : Keeps (exec (.lwl rt off16 rs) s) (Frame (.lwl rt off16 rs) s) :=
  keeps_orFault fun _ => keeps_complete
    ⟨(rfl), (⟨rfl, rfl⟩), (rfl), (.inl rfl), (fun _ => ⟨rfl, rfl⟩), (fun _ => rfl), (fun _ => rfl), (tt rfl), (fun _ _ => ⟨rfl, rfl, rfl⟩), (fun _ => ⟨rfl, rfl⟩), (tt rfl)⟩

theorem lwr (rt : Reg) (off16 : BitVec 16) (rs : Reg) (s : State) : Keeps (exec (.lwr rt off16 rs) s) (Frame (.lwr rt off16 rs) s) :=
  keeps_orFault fun _ => keeps_complete
    ⟨(rfl), (⟨rfl, rfl⟩), (rfl), (.inl rfl), (fun _ => ⟨rfl, rfl⟩), (fun _ => rfl), (fun _ => rfl), (tt rfl), (fun _ _ => ⟨rfl, rfl, rfl⟩), (fun _ => ⟨rfl, rfl⟩), (tt rfl)⟩

theorem swl (rt : Reg) (off16 : BitVec 16) (rs : Reg) (s : State) : Keeps (exec (.swl rt off16 rs) s) (Frame (.swl rt off16 rs) s) :=
  keeps_orFault fun _ => keeps_memWrite32 fun _ => keeps_complete
    ⟨(rfl), (⟨rfl, rfl⟩), (rfl), (.inl rfl), (fun _ => ⟨rfl, rfl⟩), (ff rfl), (fun _ => rfl), (tt rfl), (fun _ _ => ⟨rfl, rfl, rfl⟩), (fun _ => ⟨rfl, rfl⟩), (tt rfl)⟩

theorem swr (rt : Reg) (off16 : BitVec 16) (rs : Reg) (s : State) : Keeps (exec (.swr rt off16 rs) s) (Frame (.swr rt off16 rs) s) :=
  keeps_orFault fun _ => keeps_memWrite32 fun _ => keeps_complete
    ⟨(rfl), (⟨rfl, rfl⟩), (rfl), (.inl rfl), (fun _ => ⟨rfl, rfl⟩), (ff rfl), (fun _ => rfl), (tt rfl), (fun _ _ => ⟨rfl, rfl, rfl⟩), (fun _ => ⟨rfl, rfl⟩), (tt rfl)⟩

theorem lwc1 (ft : FReg) (off16 : BitVec 16) (rs : Reg) (s : State) : Keeps (exec (.lwc1 ft off16 rs) s) (Frame (.lwc1 ft off16 rs) s) :=
  keeps_orFault fun _ => keeps_complete
    ⟨(rfl), (⟨rfl, rfl⟩), (rfl), (.inl rfl), (fun _ => ⟨rfl, rfl⟩), (fun _ => rfl), (fun _ => rfl), (tt rfl), (fun _ _ => ⟨rfl, rfl, rfl⟩), (fun _ => ⟨rfl, rfl⟩), (tt rfl)⟩

theorem swc1 (ft : FReg) (off16 : BitVec 16) (rs : Reg) (s : State) : Keeps (exec (.swc1 ft off16 rs) s) (Frame (.swc1 ft off16 rs) s) :=
  keeps_memWrite32 fun _ => keeps_complete
    ⟨(rfl), (⟨rfl, rfl⟩), (rfl), (.inl rfl), (fun _ => ⟨rfl, rfl⟩), (ff rfl), (fun _ => rfl), (tt rfl), (fun _ _ => ⟨rfl, rfl, rfl⟩), (fun _ => ⟨rfl, rfl⟩), (tt rfl)⟩

theorem ll (rt : Reg) (off16 : BitVec 16) (rs : Reg) (s : State) : Keeps (exec (.ll rt off16 rs) s) (Frame (.ll rt off16 rs) s) :=
  keeps_orFault fun _ => keeps_complete
    ⟨(rfl), (⟨rfl, rfl⟩), (rfl), (.inl rfl), (fun _ => ⟨rfl, rfl⟩), (fun _ => rfl), (fun _ => rfl), (tt rfl), (fun _ _ => ⟨rfl, rfl, rfl⟩), (fun _ => ⟨rfl, rfl⟩), (tt rfl)⟩

theorem sc (rt : Reg) (off16 : BitVec 16) (rs : Reg) (s : State) : Keeps (exec (.sc rt off16 rs) s) (Frame (.sc rt off16 rs) s) :=
  keeps_memWrite32 fun _ => keeps_complete
    ⟨(rfl), (⟨rfl, rfl⟩), (rfl), (.inl rfl), (fun _ => ⟨rfl, rfl⟩), (ff rfl), (fun _ => rfl), (tt rfl), (fun _ _ => ⟨rfl, rfl, rfl⟩), (fun _ => ⟨rfl, rfl⟩), (tt rfl)⟩

theorem beq (rs : Reg) (rt : Reg) (off16 : BitVec 16) (s : State) : Keeps (exec (.beq rs rt off16) s) (Frame (.beq rs rt off16) s) :=
  keeps_branch
    ⟨(rfl), (⟨rfl, rfl⟩), (rfl), (.inl rfl), (fun _ => ⟨rfl, rfl⟩), (fun _ => rfl), (fun _ => rfl), (tt rfl), (fun _ _ => ⟨rfl, rfl, rfl⟩), (ff rfl), (fun _ => .inl rfl)⟩
    ⟨(rfl), (⟨rfl, rfl⟩), (rfl), (.inl rfl), (fun _ => ⟨rfl, rfl⟩), (fun _ => rfl), (fun _ => rfl), (tt rfl), (fun _ _ => ⟨rfl, rfl, rfl⟩), (ff rfl), (fun _ => .inl rfl)⟩

theorem bne (rs : Reg) (rt : Reg) (off16 : BitVec 16) (s : State) : Keeps (exec (.bne rs rt off16) s) (Frame (.bne rs rt off16) s) :=
  keeps_branch
    ⟨(rfl), (⟨rfl, rfl⟩), (rfl), (.inl rfl), (fun _ => ⟨rfl, rfl⟩), (fun _ => rfl), (fun _ => rfl), (tt rfl), (fun _ _ => ⟨rfl, rfl, rfl⟩), (ff rfl), (fun _ => .inl rfl)⟩
    ⟨(rfl), (⟨rfl, rfl⟩), (rfl), (.inl rfl), (fun _ => ⟨rfl, rfl⟩), (fun _ => rfl), (fun _ => rfl), (tt rfl), (fun _ _ => ⟨rfl, rfl, rfl⟩), (ff rfl), (fun _ => .inl rfl)⟩

theorem blez (rs : Reg) (off16 : BitVec 16) (s : State) : Keeps (exec (.blez rs off16) s) (Frame (.blez rs off16) s) :=
  keeps_branch
    ⟨(rfl), (⟨rfl, rfl⟩), (rfl), (.inl rfl), (fun _ => ⟨rfl, rfl⟩), (fun _ => rfl), (fun _ => rfl), (tt rfl), (fun _ _ => ⟨rfl, rfl, rfl⟩), (ff rfl), (fun _ => .inl rfl)⟩
    ⟨(rfl), (⟨rfl, rfl⟩), (rfl), (.inl rfl), (fun _ => ⟨rfl, rfl⟩), (fun _ => rfl), (fun _ => rfl), (tt rfl), (fun _ _ => ⟨rfl, rfl, rfl⟩), (ff rfl), (fun _ => .inl rfl)⟩

theorem bgtz (rs : Reg) (off16 : BitVec 16) (s : State) : Keeps (exec (.bgtz rs off16) s) (Frame (.bgtz rs off16) s) :=
  keeps_branch
    ⟨(rfl), (⟨rfl, rfl⟩), (rfl), (.inl rfl), (fun _ => ⟨rfl, rfl⟩), (fun _ => rfl), (fun _ => rfl), (tt rfl), (fun _ _ => ⟨rfl, rfl, rfl⟩), (ff rfl), (fun _ => .inl rfl)⟩
    ⟨(rfl), (⟨rfl, rfl⟩), (rfl), (.inl rfl), (fun _ => ⟨rfl, rfl⟩), (fun _ => rfl), (fun _ => rfl), (tt rfl), (fun _ _ => ⟨rfl, rfl, rfl⟩), (ff rfl), (fun _ => .inl rfl)⟩

theorem bltz (rs : Reg) (off16 : BitVec 16) (s : State) : Keeps (exec (.bltz rs off16) s) (Frame (.bltz rs off16) s) :=
  keeps_branch
    ⟨(rfl), (⟨rfl, rfl⟩), (rfl), (.inl rfl), (fun _ => ⟨rfl, rfl⟩), (fun _ => rfl), (fun _ => rfl), (tt rfl), (fun _ _ => ⟨rfl, rfl, rfl⟩), (ff rfl), (fun _ => .inl rfl)⟩
    ⟨(rfl), (⟨rfl, rfl⟩), (rfl), (.inl rfl), (fun _ => ⟨rfl, rfl⟩), (fun _ => rfl), (fun _ => rfl), (tt rfl), (fun _ _ => ⟨rfl, rfl, rfl⟩), (ff rfl), (fun _ => .inl rfl)⟩

theorem bgez (rs : Reg) (off16 : BitVec 16) (s : State) : Keeps (exec (.bgez rs off16) s) (Frame (.bgez rs off16) s) :=
  keeps_branch
    ⟨(rfl), (⟨rfl, rfl⟩), (rfl), (.inl rfl), (fun _ => ⟨rfl, rfl⟩), (fun _ => rfl), (fun _ => rfl), (tt rfl), (fun _ _ => ⟨rfl, rfl, rfl⟩), (ff rfl), (fun _ => .inl rfl)⟩
    ⟨(rfl), (⟨rfl, rfl⟩), (rfl), (.inl rfl), (fun _ => ⟨rfl, rfl⟩), (fun _ => rfl), (fun _ => rfl), (tt rfl), (fun _ _ => ⟨rfl, rfl, rfl⟩), (ff rfl), (fun _ => .inl rfl)⟩

theorem j (imm26 : BitVec 26) (s : State) : Keeps (exec (.j imm26) s) (Frame (.j imm26) s) :=
  keeps_controlTransfer (keeps_completeJump
    ⟨(rfl), (⟨rfl, rfl⟩), (rfl), (.inl rfl), (fun _ => ⟨rfl, rfl⟩), (fun _ => rfl), (fun _ => rfl), (tt rfl), (fun _ _ => ⟨rfl, rfl, rfl⟩), (ff rfl), (fun _ => .inl rfl)⟩)

theorem jal (imm26 : BitVec 26) (s : State) : Keeps (exec (.jal imm26) s) (Frame (.jal imm26) s) :=
  keeps_controlTransfer (keeps_completeJump
    ⟨(rfl), (⟨rfl, rfl⟩), (rfl), (.inl rfl), (fun _ => ⟨rfl, rfl⟩), (fun _ => rfl), (fun _ => rfl), (tt rfl), (fun _ _ => ⟨rfl, rfl, rfl⟩), (ff rfl), (fun _ => .inl rfl)⟩)

theorem jr (rs : Reg) (s : State) : Keeps (exec (.jr rs) s) (Frame (.jr rs) s) :=
  keeps_registerJump (keeps_completeJump
    ⟨(rfl), (⟨rfl, rfl⟩), (rfl), (.inl rfl), (fun _ => ⟨rfl, rfl⟩), (fun _ => rfl), (fun _ => rfl), (tt rfl), (fun _ _ => ⟨rfl, rfl, rfl⟩), (ff rfl), (fun _ => .inl rfl)⟩)

theorem jalr (rd : Reg) (rs : Reg) (s : State) : Keeps (exec (.jalr rd rs) s) (Frame (.jalr rd rs) s) :=
  keeps_registerJump (keeps_completeJump
    ⟨(rfl), (⟨rfl, rfl⟩), (rfl), (.inl rfl), (fun _ => ⟨rfl, rfl⟩), (fun _ => rfl), (fun _ => rfl), (tt rfl), (fun _ _ => ⟨rfl, rfl, rfl⟩), (ff rfl), (fun _ => .inl rfl)⟩)

theorem bltzal (rs : Reg) (off16 : BitVec 16) (s : State) : Keeps (exec (.bltzal rs off16) s) (Frame (.bltzal rs off16) s) :=
  keeps_branchLink
    ⟨(rfl), (⟨rfl, rfl⟩), (rfl), (.inl rfl), (fun _ => ⟨rfl, rfl⟩), (fun _ => rfl), (fun _ => rfl), (tt rfl), (fun _ _ => ⟨rfl, rfl, rfl⟩), (ff rfl), (fun _ => .inl rfl)⟩
    ⟨(rfl), (⟨rfl, rfl⟩), (rfl), (.inl rfl), (fun _ => ⟨rfl, rfl⟩), (fun _ => rfl), (fun _ => rfl), (tt rfl), (fun _ _ => ⟨rfl, rfl, rfl⟩), (ff rfl), (fun _ => .inl rfl)⟩

theorem bgezal (rs : Reg) (off16 : BitVec 16) (s : State) : Keeps (exec (.bgezal rs off16) s) (Frame (.bgezal rs off16) s) :=
  keeps_branchLink
    ⟨(rfl), (⟨rfl, rfl⟩), (rfl), (.inl rfl), (fun _ => ⟨rfl, rfl⟩), (fun _ => rfl), (fun _ => rfl), (tt rfl), (fun _ _ => ⟨rfl, rfl, rfl⟩), (ff rfl), (fun _ => .inl rfl)⟩
    ⟨(rfl), (⟨rfl, rfl⟩), (rfl), (.inl rfl), (fun _ => ⟨rfl, rfl⟩), (fun _ => rfl), (fun _ => rfl), (tt rfl), (fun _ _ => ⟨rfl, rfl, rfl⟩), (ff rfl), (fun _ => .inl rfl)⟩

theorem bltzall (rs : Reg) (off16 : BitVec 16) (s : State) : Keeps (exec (.bltzall rs off16) s) (Frame (.bltzall rs off16) s) :=
  keeps_branchLinkLikely
    ⟨(rfl), (⟨rfl, rfl⟩), (rfl), (.inl rfl), (fun _ => ⟨rfl, rfl⟩), (fun _ => rfl), (fun _ => rfl), (tt rfl), (fun _ _ => ⟨rfl, rfl, rfl⟩), (ff rfl), (fun _ => .inl rfl)⟩
    ⟨(rfl), (⟨rfl, rfl⟩), (rfl), (.inl rfl), (fun _ => ⟨rfl, rfl⟩), (fun _ => rfl), (fun _ => rfl), (tt rfl), (fun _ _ => ⟨rfl, rfl, rfl⟩), (ff rfl), (fun _ => .inr ⟨rfl, rfl⟩)⟩

theorem bgezall (rs : Reg) (off16 : BitVec 16) (s : State) : Keeps (exec (.bgezall rs off16) s) (Frame (.bgezall rs off16) s) :=
  keeps_branchLinkLikely
    ⟨(rfl), (⟨rfl, rfl⟩), (rfl), (.inl rfl), (fun _ => ⟨rfl, rfl⟩), (fun _ => rfl), (fun _ => rfl), (tt rfl), (fun _ _ => ⟨rfl, rfl, rfl⟩), (ff rfl), (fun _ => .inl rfl)⟩
    ⟨(rfl), (⟨rfl, rfl⟩), (rfl), (.inl rfl), (fun _ => ⟨rfl, rfl⟩), (fun _ => rfl), (fun _ => rfl), (tt rfl), (fun _ _ => ⟨rfl, rfl, rfl⟩), (ff rfl), (fun _ => .inr ⟨rfl, rfl⟩)⟩

theorem beql (rs : Reg) (rt : Reg) (off16 : BitVec 16) (s : State) : Keeps (exec (.beql rs rt off16) s) (Frame (.beql rs rt off16) s) :=
  keeps_branchLikely
    ⟨(rfl), (⟨rfl, rfl⟩), (rfl), (.inl rfl), (fun _ => ⟨rfl, rfl⟩), (fun _ => rfl), (fun _ => rfl), (tt rfl), (fun _ _ => ⟨rfl, rfl, rfl⟩), (ff rfl), (fun _ => .inl rfl)⟩
    ⟨(rfl), (⟨rfl, rfl⟩), (rfl), (.inl rfl), (fun _ => ⟨rfl, rfl⟩), (fun _ => rfl), (fun _ => rfl), (tt rfl), (fun _ _ => ⟨rfl, rfl, rfl⟩), (ff rfl), (fun _ => .inr ⟨rfl, rfl⟩)⟩

theorem bnel (rs : Reg) (rt : Reg) (off16 : BitVec 16) (s : State) : Keeps (exec (.bnel rs rt off16) s) (Frame (.bnel rs rt off16) s) :=
  keeps_branchLikely
    ⟨(rfl), (⟨rfl, rfl⟩), (rfl), (.inl rfl), (fun _ => ⟨rfl, rfl⟩), (fun _ => rfl), (fun _ => rfl), (tt rfl), (fun _ _ => ⟨rfl, rfl, rfl⟩), (ff rfl), (fun _ => .inl rfl)⟩
    ⟨(rfl), (⟨rfl, rfl⟩), (rfl), (.inl rfl), (fun _ => ⟨rfl, rfl⟩), (fun _ => rfl), (fun _ => rfl), (tt rfl), (fun _ _ => ⟨rfl, rfl, rfl⟩), (ff rfl), (fun _ => .inr ⟨rfl, rfl⟩)⟩

theorem blezl (rs : Reg) (off16 : BitVec 16) (s : State) : Keeps (exec (.blezl rs off16) s) (Frame (.blezl rs off16) s) :=
  keeps_branchLikely
    ⟨(rfl), (⟨rfl, rfl⟩), (rfl), (.inl rfl), (fun _ => ⟨rfl, rfl⟩), (fun _ => rfl), (fun _ => rfl), (tt rfl), (fun _ _ => ⟨rfl, rfl, rfl⟩), (ff rfl), (fun _ => .inl rfl)⟩
    ⟨(rfl), (⟨rfl, rfl⟩), (rfl), (.inl rfl), (fun _ => ⟨rfl, rfl⟩), (fun _ => rfl), (fun _ => rfl), (tt rfl), (fun _ _ => ⟨rfl, rfl, rfl⟩), (ff rfl), (fun _ => .inr ⟨rfl, rfl⟩)⟩

theorem bgtzl (rs : Reg) (off16 : BitVec 16) (s : State) : Keeps (exec (.bgtzl rs off16) s) (Frame (.bgtzl rs off16) s) :=
  keeps_branchLikely
    ⟨(rfl), (⟨rfl, rfl⟩), (rfl), (.inl rfl), (fun _ => ⟨rfl, rfl⟩), (fun _ => rfl), (fun _ => rfl), (tt rfl), (fun _ _ => ⟨rfl, rfl, rfl⟩), (ff rfl), (fun _ => .inl rfl)⟩
    ⟨(rfl), (⟨rfl, rfl⟩), (rfl), (.inl rfl), (fun _ => ⟨rfl, rfl⟩), (fun _ => rfl), (fun _ => rfl), (tt rfl), (fun _ _ => ⟨rfl, rfl, rfl⟩), (ff rfl), (fun _ => .inr ⟨rfl, rfl⟩)⟩

theorem bltzl (rs : Reg) (off16 : BitVec 16) (s : State) : Keeps (exec (.bltzl rs off16) s) (Frame (.bltzl rs off16) s) :=
  keeps_branchLikely
    ⟨(rfl), (⟨rfl, rfl⟩), (rfl), (.inl rfl), (fun _ => ⟨rfl, rfl⟩), (fun _ => rfl), (fun _ => rfl), (tt rfl), (fun _ _ => ⟨rfl, rfl, rfl⟩), (ff rfl), (fun _ => .inl rfl)⟩
    ⟨(rfl), (⟨rfl, rfl⟩), (rfl), (.inl rfl), (fun _ => ⟨rfl, rfl⟩), (fun _ => rfl), (fun _ => rfl), (tt rfl), (fun _ _ => ⟨rfl, rfl, rfl⟩), (ff rfl), (fun _ => .inr ⟨rfl, rfl⟩)⟩

theorem bgezl (rs : Reg) (off16 : BitVec 16) (s : State) : Keeps (exec (.bgezl rs off16) s) (Frame (.bgezl rs off16) s) :=
  keeps_branchLikely
    ⟨(rfl), (⟨rfl, rfl⟩), (rfl), (.inl rfl), (fun _ => ⟨rfl, rfl⟩), (fun _ => rfl), (fun _ => rfl), (tt rfl), (fun _ _ => ⟨rfl, rfl, rfl⟩), (ff rfl), (fun _ => .inl rfl)⟩
    ⟨(rfl), (⟨rfl, rfl⟩), (rfl), (.inl rfl), (fun _ => ⟨rfl, rfl⟩), (fun _ => rfl), (fun _ => rfl), (tt rfl), (fun _ _ => ⟨rfl, rfl, rfl⟩), (ff rfl), (fun _ => .inr ⟨rfl, rfl⟩)⟩

theorem bc1f (off16 : BitVec 16) (s : State) : Keeps (exec (.bc1f off16) s) (Frame (.bc1f off16) s) :=
  keeps_branch
    ⟨(rfl), (⟨rfl, rfl⟩), (rfl), (.inl rfl), (fun _ => ⟨rfl, rfl⟩), (fun _ => rfl), (fun _ => rfl), (tt rfl), (fun _ _ => ⟨rfl, rfl, rfl⟩), (ff rfl), (fun _ => .inl rfl)⟩
    ⟨(rfl), (⟨rfl, rfl⟩), (rfl), (.inl rfl), (fun _ => ⟨rfl, rfl⟩), (fun _ => rfl), (fun _ => rfl), (tt rfl), (fun _ _ => ⟨rfl, rfl, rfl⟩), (ff rfl), (fun _ => .inl rfl)⟩

theorem bc1t (off16 : BitVec 16) (s : State) : Keeps (exec (.bc1t off16) s) (Frame (.bc1t off16) s) :=
  keeps_branch
    ⟨(rfl), (⟨rfl, rfl⟩), (rfl), (.inl rfl), (fun _ => ⟨rfl, rfl⟩), (fun _ => rfl), (fun _ => rfl), (tt rfl), (fun _ _ => ⟨rfl, rfl, rfl⟩), (ff rfl), (fun _ => .inl rfl)⟩
    ⟨(rfl), (⟨rfl, rfl⟩), (rfl), (.inl rfl), (fun _ => ⟨rfl, rfl⟩), (fun _ => rfl), (fun _ => rfl), (tt rfl), (fun _ _ => ⟨rfl, rfl, rfl⟩), (ff rfl), (fun _ => .inl rfl)⟩

theorem bc1fl (off16 : BitVec 16) (s : State) : Keeps (exec (.bc1fl off16) s) (Frame (.bc1fl off16) s) :=
  keeps_branchLikely
    ⟨(rfl), (⟨rfl, rfl⟩), (rfl), (.inl rfl), (fun _ => ⟨rfl, rfl⟩), (fun _ => rfl), (fun _ => rfl), (tt rfl), (fun _ _ => ⟨rfl, rfl, rfl⟩), (ff rfl), (fun _ => .inl rfl)⟩
    ⟨(rfl), (⟨rfl, rfl⟩), (rfl), (.inl rfl), (fun _ => ⟨rfl, rfl⟩), (fun _ => rfl), (fun _ => rfl), (tt rfl), (fun _ _ => ⟨rfl, rfl, rfl⟩), (ff rfl), (fun _ => .inr ⟨rfl, rfl⟩)⟩

theorem bc1tl (off16 : BitVec 16) (s : State) : Keeps (exec (.bc1tl off16) s) (Frame (.bc1tl off16) s) :=
  keeps_branchLikely
    ⟨(rfl), (⟨rfl, rfl⟩), (rfl), (.inl rfl), (fun _ => ⟨rfl, rfl⟩), (fun _ => rfl), (fun _ => rfl), (tt rfl), (fun _ _ => ⟨rfl, rfl, rfl⟩), (ff rfl), (fun _ => .inl rfl)⟩
    ⟨(rfl), (⟨rfl, rfl⟩), (rfl), (.inl rfl), (fun _ => ⟨rfl, rfl⟩), (fun _ => rfl), (fun _ => rfl), (tt rfl), (fun _ _ => ⟨rfl, rfl, rfl⟩), (ff rfl), (fun _ => .inr ⟨rfl, rfl⟩)⟩

theorem bvf (imm3 : BitVec 3) (off16 : BitVec 16) (s : State) : Keeps (exec (.bvf imm3 off16) s) (Frame (.bvf imm3 off16) s) :=
  keeps_controlTransfer keeps_unimplemented

theorem bvt (imm3 : BitVec 3) (off16 : BitVec 16) (s : State) : Keeps (exec (.bvt imm3 off16) s) (Frame (.bvt imm3 off16) s) :=
  keeps_controlTransfer keeps_unimplemented

theorem bvfl (imm3 : BitVec 3) (off16 : BitVec 16) (s : State) : Keeps (exec (.bvfl imm3 off16) s) (Frame (.bvfl imm3 off16) s) :=
  keeps_controlTransfer keeps_unimplemented

theorem bvtl (imm3 : BitVec 3) (off16 : BitVec 16) (s : State) : Keeps (exec (.bvtl imm3 off16) s) (Frame (.bvtl imm3 off16) s) :=
  keeps_controlTransfer keeps_unimplemented

theorem addS (fd : FReg) (fs : FReg) (ft : FReg) (s : State) : Keeps (exec (.addS fd fs ft) s) (Frame (.addS fd fs ft) s) :=
  keeps_complete
    ⟨(rfl), (⟨rfl, rfl⟩), (rfl), (.inl rfl), (fun _ => ⟨rfl, rfl⟩), (fun _ => rfl), (ff rfl), (tt rfl), (fun _ _ => ⟨rfl, rfl, rfl⟩), (fun _ => ⟨rfl, rfl⟩), (tt rfl)⟩

theorem subS (fd : FReg) (fs : FReg) (ft : FReg) (s : State) : Keeps (exec (.subS fd fs ft) s) (Frame (.subS fd fs ft) s) :=
  keeps_complete
    ⟨(rfl), (⟨rfl, rfl⟩), (rfl), (.inl rfl), (fun _ => ⟨rfl, rfl⟩), (fun _ => rfl), (ff rfl), (tt rfl), (fun _ _ => ⟨rfl, rfl, rfl⟩), (fun _ => ⟨rfl, rfl⟩), (tt rfl)⟩

theorem mulS (fd : FReg) (fs : FReg) (ft : FReg) (s : State) : Keeps (exec (.mulS fd fs ft) s) (Frame (.mulS fd fs ft) s) :=
  keeps_complete
    ⟨(rfl), (⟨rfl, rfl⟩), (rfl), (.inl rfl), (fun _ => ⟨rfl, rfl⟩), (fun _ => rfl), (ff rfl), (tt rfl), (fun _ _ => ⟨rfl, rfl, rfl⟩), (fun _ => ⟨rfl, rfl⟩), (tt rfl)⟩

theorem divS (fd : FReg) (fs : FReg) (ft : FReg) (s : State) : Keeps (exec (.divS fd fs ft) s) (Frame (.divS fd fs ft) s) :=
  keeps_complete
    ⟨(rfl), (⟨rfl, rfl⟩), (rfl), (.inl rfl), (fun _ => ⟨rfl, rfl⟩), (fun _ => rfl), (ff rfl), (tt rfl), (fun _ _ => ⟨rfl, rfl, rfl⟩), (fun _ => ⟨rfl, rfl⟩), (tt rfl)⟩

theorem sqrtS (fd : FReg) (fs : FReg) (s : State) : Keeps (exec (.sqrtS fd fs) s) (Frame (.sqrtS fd fs) s) :=
  keeps_complete
    ⟨(rfl), (⟨rfl, rfl⟩), (rfl), (.inl rfl), (fun _ => ⟨rfl, rfl⟩), (fun _ => rfl), (ff rfl), (tt rfl), (fun _ _ => ⟨rfl, rfl, rfl⟩), (fun _ => ⟨rfl, rfl⟩), (tt rfl)⟩

theorem absS (fd : FReg) (fs : FReg) (s : State) : Keeps (exec (.absS fd fs) s) (Frame (.absS fd fs) s) :=
  keeps_complete
    ⟨(rfl), (⟨rfl, rfl⟩), (rfl), (.inl rfl), (fun _ => ⟨rfl, rfl⟩), (fun _ => rfl), (ff rfl), (tt rfl), (fun _ _ => ⟨rfl, rfl, rfl⟩), (fun _ => ⟨rfl, rfl⟩), (tt rfl)⟩

theorem movS (fd : FReg) (fs : FReg) (s : State) : Keeps (exec (.movS fd fs) s) (Frame (.movS fd fs) s) :=
  keeps_complete
    ⟨(rfl), (⟨rfl, rfl⟩), (rfl), (.inl rfl), (fun _ => ⟨rfl, rfl⟩), (fun _ => rfl), (ff rfl), (tt rfl), (fun _ _ => ⟨rfl, rfl, rfl⟩), (fun _ => ⟨rfl, rfl⟩), (tt rfl)⟩

theorem negS (fd : FReg) (fs : FReg) (s : State) : Keeps (exec (.negS fd fs) s) (Frame (.negS fd fs) s) :=
  keeps_complete
    ⟨(rfl), (⟨rfl, rfl⟩), (rfl), (.inl rfl), (fun _ => ⟨rfl, rfl⟩), (fun _ => rfl), (ff rfl), (tt rfl), (fun _ _ => ⟨rfl, rfl, rfl⟩), (fun _ => ⟨rfl, rfl⟩), (tt rfl)⟩

theorem cvtWS (fd : FReg) (fs : FReg) (s : State) : Keeps (exec (.cvtWS fd fs) s) (Frame (.cvtWS fd fs) s) :=
  keeps_complete
    ⟨(rfl), (⟨rfl, rfl⟩), (rfl), (.inl rfl), (fun _ => ⟨rfl, rfl⟩), (fun _ => rfl), (fun _ => rfl), (tt rfl), (fun _ _ => ⟨rfl, rfl, rfl⟩), (fun _ => ⟨rfl, rfl⟩), (tt rfl)⟩

theorem roundWS (fd : FReg) (fs : FReg) (s : State) : Keeps (exec (.roundWS fd fs) s) (Frame (.roundWS fd fs) s) :=
  keeps_complete
    ⟨(rfl), (⟨rfl, rfl⟩), (rfl), (.inl rfl), (fun _ => ⟨rfl, rfl⟩), (fun _ => rfl), (fun _ => rfl), (tt rfl), (fun _ _ => ⟨rfl, rfl, rfl⟩), (fun _ => ⟨rfl, rfl⟩), (tt rfl)⟩

theorem truncWS (fd : FReg) (fs : FReg) (s : State) : Keeps (exec (.truncWS fd fs) s) (Frame (.truncWS fd fs) s) :=
  keeps_complete
    ⟨(rfl), (⟨rfl, rfl⟩), (rfl), (.inl rfl), (fun _ => ⟨rfl, rfl⟩), (fun _ => rfl), (fun _ => rfl), (tt rfl), (fun _ _ => ⟨rfl, rfl, rfl⟩), (fun _ => ⟨rfl, rfl⟩), (tt rfl)⟩

theorem ceilWS (fd : FReg) (fs : FReg) (s : State) : Keeps (exec (.ceilWS fd fs) s) (Frame (.ceilWS fd fs) s) :=
  keeps_complete
    ⟨(rfl), (⟨rfl, rfl⟩), (rfl), (.inl rfl), (fun _ => ⟨rfl, rfl⟩), (fun _ => rfl), (fun _ => rfl), (tt rfl), (fun _ _ => ⟨rfl, rfl, rfl⟩), (fun _ => ⟨rfl, rfl⟩), (tt rfl)⟩

theorem floorWS (fd : FReg) (fs : FReg) (s : State) : Keeps (exec (.floorWS fd fs) s) (Frame (.floorWS fd fs) s) :=
  keeps_complete
    ⟨(rfl), (⟨rfl, rfl⟩), (rfl), (.inl rfl), (fun _ => ⟨rfl, rfl⟩), (fun _ => rfl), (fun _ => rfl), (tt rfl), (fun _ _ => ⟨rfl, rfl, rfl⟩), (fun _ => ⟨rfl, rfl⟩), (tt rfl)⟩

theorem cvtSW (fd : FReg) (fs : FReg) (s : State) : Keeps (exec (.cvtSW fd fs) s) (Frame (.cvtSW fd fs) s) :=
  keeps_complete
    ⟨(rfl), (⟨rfl, rfl⟩), (rfl), (.inl rfl), (fun _ => ⟨rfl, rfl⟩), (fun _ => rfl), (fun _ => rfl), (tt rfl), (fun _ _ => ⟨rfl, rfl, rfl⟩), (fun _ => ⟨rfl, rfl⟩), (tt rfl)⟩

theorem cFS (fs : FReg) (ft : FReg) (s : State) : Keeps (exec (.cFS fs ft) s) (Frame (.cFS fs ft) s) :=
  keeps_complete
    ⟨(rfl), (⟨rfl, rfl⟩), (rfl), (.inl rfl), (fun _ => ⟨rfl, rfl⟩), (fun _ => rfl), (ff rfl), (tt rfl), (fun _ _ => ⟨rfl, rfl, rfl⟩), (fun _ => ⟨rfl, rfl⟩), (tt rfl)⟩

theorem cUnS (fs : FReg) (ft : FReg) (s : State) : Keeps (exec (.cUnS fs ft) s) (Frame (.cUnS fs ft) s) :=
  keeps_complete
    ⟨(rfl), (⟨rfl, rfl⟩), (rfl), (.inl rfl), (fun _ => ⟨rfl, rfl⟩), (fun _ => rfl), (ff rfl), (tt rfl), (fun _ _ => ⟨rfl, rfl, rfl⟩), (fun _ => ⟨rfl, rfl⟩), (tt rfl)⟩

theorem cEqS (fs : FReg) (ft : FReg) (s : State) : Keeps (exec (.cEqS fs ft) s) (Frame (.cEqS fs ft) s) :=
  keeps_complete
    ⟨(rfl), (⟨rfl, rfl⟩), (rfl), (.inl rfl), (fun _ => ⟨rfl, rfl⟩), (fun _ => rfl), (ff rfl), (tt rfl), (fun _ _ => ⟨rfl, rfl, rfl⟩), (fun _ => ⟨rfl, rfl⟩), (tt rfl)⟩

theorem cUeqS (fs : FReg) (ft : FReg) (s : State) : Keeps (exec (.cUeqS fs ft) s) (Frame (.cUeqS fs ft) s) :=
  keeps_complete
    ⟨(rfl), (⟨rfl, rfl⟩), (rfl), (.inl rfl), (fun _ => ⟨rfl, rfl⟩), (fun _ => rfl), (ff rfl), (tt rfl), (fun _ _ => ⟨rfl, rfl, rfl⟩), (fun _ => ⟨rfl, rfl⟩), (tt rfl)⟩

theorem cOltS (fs : FReg) (ft : FReg) (s : State) : Keeps (exec (.cOltS fs ft) s) (Frame (.cOltS fs ft) s) :=
  keeps_complete
    ⟨(rfl), (⟨rfl, rfl⟩), (rfl), (.inl rfl), (fun _ => ⟨rfl, rfl⟩), (fun _ => rfl), (ff rfl), (tt rfl), (fun _ _ => ⟨rfl, rfl, rfl⟩), (fun _ => ⟨rfl, rfl⟩), (tt rfl)⟩

theorem cUltS (fs : FReg) (ft : FReg) (s : State) : Keeps (exec (.cUltS fs ft) s) (Frame (.cUltS fs ft) s) :=
  keeps_complete
    ⟨(rfl), (⟨rfl, rfl⟩), (rfl), (.inl rfl), (fun _ => ⟨rfl, rfl⟩), (fun _ => rfl), (ff rfl), (tt rfl), (fun _ _ => ⟨rfl, rfl, rfl⟩), (fun _ => ⟨rfl, rfl⟩), (tt rfl)⟩

theorem cOleS (fs : FReg) (ft : FReg) (s : State) : Keeps (exec (.cOleS fs ft) s) (Frame (.cOleS fs ft) s) :=
  keeps_complete
    ⟨(rfl), (⟨rfl, rfl⟩), (rfl), (.inl rfl), (fun _ => ⟨rfl, rfl⟩), (fun _ => rfl), (ff rfl), (tt rfl), (fun _ _ => ⟨rfl, rfl, rfl⟩), (fun _ => ⟨rfl, rfl⟩), (tt rfl)⟩

theorem cUleS (fs : FReg) (ft : FReg) (s : State) : Keeps (exec (.cUleS fs ft) s) (Frame (.cUleS fs ft) s) :=
  keeps_complete
    ⟨(rfl), (⟨rfl, rfl⟩), (rfl), (.inl rfl), (fun _ => ⟨rfl, rfl⟩), (fun _ => rfl), (ff rfl), (tt rfl), (fun _ _ => ⟨rfl, rfl, rfl⟩), (fun _ => ⟨rfl, rfl⟩), (tt rfl)⟩

theorem cSfS (fs : FReg) (ft : FReg) (s : State) : Keeps (exec (.cSfS fs ft) s) (Frame (.cSfS fs ft) s) :=
  keeps_complete
    ⟨(rfl), (⟨rfl, rfl⟩), (rfl), (.inl rfl), (fun _ => ⟨rfl, rfl⟩), (fun _ => rfl), (ff rfl), (tt rfl), (fun _ _ => ⟨rfl, rfl, rfl⟩), (fun _ => ⟨rfl, rfl⟩), (tt rfl)⟩

theorem cNgleS (fs : FReg) (ft : FReg) (s : State) : Keeps (exec (.cNgleS fs ft) s) (Frame (.cNgleS fs ft) s) :=
  keeps_complete
    ⟨(rfl), (⟨rfl, rfl⟩), (rfl), (.inl rfl), (fun _ => ⟨rfl, rfl⟩), (fun _ => rfl), (ff rfl), (tt rfl), (fun _ _ => ⟨rfl, rfl, rfl⟩), (fun _ => ⟨rfl, rfl⟩), (tt rfl)⟩

theorem cSeqS (fs : FReg) (ft : FReg) (s : State) : Keeps (exec (.cSeqS fs ft) s) (Frame (.cSeqS fs ft) s) :=
  keeps_complete
    ⟨(rfl), (⟨rfl, rfl⟩), (rfl), (.inl rfl), (fun _ => ⟨rfl, rfl⟩), (fun _ => rfl), (ff rfl), (tt rfl), (fun _ _ => ⟨rfl, rfl, rfl⟩), (fun _ => ⟨rfl, rfl⟩), (tt rfl)⟩

theorem cNglS (fs : FReg) (ft : FReg) (s : State) : Keeps (exec (.cNglS fs ft) s) (Frame (.cNglS fs ft) s) :=
  keeps_complete
    ⟨(rfl), (⟨rfl, rfl⟩), (rfl), (.inl rfl), (fun _ => ⟨rfl, rfl⟩), (fun _ => rfl), (ff rfl), (tt rfl), (fun _ _ => ⟨rfl, rfl, rfl⟩), (fun _ => ⟨rfl, rfl⟩), (tt rfl)⟩

theorem cLtS (fs : FReg) (ft : FReg) (s : State) : Keeps (exec (.cLtS fs ft) s) (Frame (.cLtS fs ft) s) :=
  keeps_complete
    ⟨(rfl), (⟨rfl, rfl⟩), (rfl), (.inl rfl), (fun _ => ⟨rfl, rfl⟩), (fun _ => rfl), (ff rfl), (tt rfl), (fun _ _ => ⟨rfl, rfl, rfl⟩), (fun _ => ⟨rfl, rfl⟩), (tt rfl)⟩

theorem cNgeS (fs : FReg) (ft : FReg) (s : State) : Keeps (exec (.cNgeS fs ft) s) (Frame (.cNgeS fs ft) s) :=
  keeps_complete
    ⟨(rfl), (⟨rfl, rfl⟩), (rfl), (.inl rfl), (fun _ => ⟨rfl, rfl⟩), (fun _ => rfl), (ff rfl), (tt rfl), (fun _ _ => ⟨rfl, rfl, rfl⟩), (fun _ => ⟨rfl, rfl⟩), (tt rfl)⟩

theorem cLeS (fs : FReg) (ft : FReg) (s : State) : Keeps (exec (.cLeS fs ft) s) (Frame (.cLeS fs ft) s) :=
  keeps_complete
    ⟨(rfl), (⟨rfl, rfl⟩), (rfl), (.inl rfl), (fun _ => ⟨rfl, rfl⟩), (fun _ => rfl), (ff rfl), (tt rfl), (fun _ _ => ⟨rfl, rfl, rfl⟩), (fun _ => ⟨rfl, rfl⟩), (tt rfl)⟩

theorem cNgtS (fs : FReg) (ft : FReg) (s : State) : Keeps (exec (.cNgtS fs ft) s) (Frame (.cNgtS fs ft) s) :=
  keeps_complete
    ⟨(rfl), (⟨rfl, rfl⟩), (rfl), (.inl rfl), (fun _ => ⟨rfl, rfl⟩), (fun _ => rfl), (ff rfl), (tt rfl), (fun _ _ => ⟨rfl, rfl, rfl⟩), (fun _ => ⟨rfl, rfl⟩), (tt rfl)⟩

theorem ctc1 (rt : Reg) (cr : Fin 32) (s : State) : Keeps (exec (.ctc1 rt cr) s) (Frame (.ctc1 rt cr) s) :=
  keeps_ite (keeps_complete
    ⟨(rfl), (⟨rfl, rfl⟩), (rfl), (.inl rfl), (fun _ => ⟨rfl, rfl⟩), (fun _ => rfl), (ff rfl), (tt rfl), (fun _ _ => ⟨rfl, rfl, rfl⟩), (fun _ => ⟨rfl, rfl⟩), (tt rfl)⟩) keeps_raiseFault

theorem cfc1 (rt : Reg) (cr : Fin 32) (s : State) : Keeps (exec (.cfc1 rt cr) s) (Frame (.cfc1 rt cr) s) := by
  show Keeps (execCfc1 rt cr s) _
  unfold execCfc1
  split
  · exact keeps_complete
      ⟨(rfl), (⟨rfl, rfl⟩), (rfl), (.inl rfl), (fun _ => ⟨rfl, rfl⟩), (fun _ => rfl), (fun _ => rfl), (tt rfl), (fun _ _ => ⟨rfl, rfl, rfl⟩), (fun _ => ⟨rfl, rfl⟩), (tt rfl)⟩
  · exact keeps_raiseFault

theorem mfc1 (rt : Reg) (fs : FReg) (s : State) : Keeps (exec (.mfc1 rt fs) s) (Frame (.mfc1 rt fs) s) :=
  keeps_complete
    ⟨(rfl), (⟨rfl, rfl⟩), (rfl), (.inl rfl), (fun _ => ⟨rfl, rfl⟩), (fun _ => rfl), (fun _ => rfl), (tt rfl), (fun _ _ => ⟨rfl, rfl, rfl⟩), (fun _ => ⟨rfl, rfl⟩), (tt rfl)⟩

theorem mtc1 (rt : Reg) (fs : FReg) (s : State) : Keeps (exec (.mtc1 rt fs) s) (Frame (.mtc1 rt fs) s) :=
  keeps_complete
    ⟨(rfl), (⟨rfl, rfl⟩), (rfl), (.inl rfl), (fun _ => ⟨rfl, rfl⟩), (fun _ => rfl), (fun _ => rfl), (tt rfl), (fun _ _ => ⟨rfl, rfl, rfl⟩), (fun _ => ⟨rfl, rfl⟩), (tt rfl)⟩

theorem vpfxs (imm20 : BitVec 20) (s : State) : Keeps (exec (.vpfxs imm20) s) (Frame (.vpfxs imm20) s) :=
  keeps_complete
    ⟨(rfl), (⟨rfl, rfl⟩), (rfl), (.inl rfl), (fun _ => ⟨rfl, rfl⟩), (fun _ => rfl), (fun _ => rfl), (tt rfl), (fun _ => ff rfl), (fun _ => ⟨rfl, rfl⟩), (tt rfl)⟩

theorem vpfxt (imm20 : BitVec 20) (s : State) : Keeps (exec (.vpfxt imm20) s) (Frame (.vpfxt imm20) s) :=
  keeps_complete
    ⟨(rfl), (⟨rfl, rfl⟩), (rfl), (.inl rfl), (fun _ => ⟨rfl, rfl⟩), (fun _ => rfl), (fun _ => rfl), (tt rfl), (fun _ => ff rfl), (fun _ => ⟨rfl, rfl⟩), (tt rfl)⟩

theorem vpfxd (imm12 : BitVec 12) (s : State) : Keeps (exec (.vpfxd imm12) s) (Frame (.vpfxd imm12) s) :=
  keeps_complete
    ⟨(rfl), (⟨rfl, rfl⟩), (rfl), (.inl rfl), (fun _ => ⟨rfl, rfl⟩), (fun _ => rfl), (fun _ => rfl), (tt rfl), (fun _ => ff rfl), (fun _ => ⟨rfl, rfl⟩), (tt rfl)⟩

theorem lvQ (vt6 : BitVec 6) (off14 : BitVec 14) (rs : Reg) (s : State) : Keeps (exec (.lvQ vt6 off14 rs) s) (Frame (.lvQ vt6 off14 rs) s) :=
  keeps_vectorLoad fun _ =>
    ⟨(rfl), (⟨rfl, rfl⟩), (rfl), (.inl rfl), (fun _ => ⟨rfl, rfl⟩), (fun _ => rfl), (fun _ => rfl), (tt rfl), (fun _ _ => ⟨rfl, rfl, rfl⟩), (fun _ => ⟨rfl, rfl⟩), (tt rfl)⟩

theorem svQ (vt6 : BitVec 6) (off14 : BitVec 14) (rs : Reg) (s : State) : Keeps (exec (.svQ vt6 off14 rs) s) (Frame (.svQ vt6 off14 rs) s) :=
  keeps_vectorStore fun _ =>
    ⟨(rfl), (⟨rfl, rfl⟩), (rfl), (.inl rfl), (fun _ => ⟨rfl, rfl⟩), (ff rfl), (fun _ => rfl), (tt rfl), (fun _ _ => ⟨rfl, rfl, rfl⟩), (fun _ => ⟨rfl, rfl⟩), (tt rfl)⟩

theorem lvlQ (vt6 : BitVec 6) (off14 : BitVec 14) (rs : Reg) (s : State) : Keeps (exec (.lvlQ vt6 off14 rs) s) (Frame (.lvlQ vt6 off14 rs) s) :=
  keeps_vectorLoad fun _ =>
    ⟨(rfl), (⟨rfl, rfl⟩), (rfl), (.inl rfl), (fun _ => ⟨rfl, rfl⟩), (fun _ => rfl), (fun _ => rfl), (tt rfl), (fun _ _ => ⟨rfl, rfl, rfl⟩), (fun _ => ⟨rfl, rfl⟩), (tt rfl)⟩

theorem lvrQ (vt6 : BitVec 6) (off14 : BitVec 14) (rs : Reg) (s : State) : Keeps (exec (.lvrQ vt6 off14 rs) s) (Frame (.lvrQ vt6 off14 rs) s) :=
  keeps_vectorLoad fun _ =>
    ⟨(rfl), (⟨rfl, rfl⟩), (rfl), (.inl rfl), (fun _ => ⟨rfl, rfl⟩), (fun _ => rfl), (fun _ => rfl), (tt rfl), (fun _ _ => ⟨rfl, rfl, rfl⟩), (fun _ => ⟨rfl, rfl⟩), (tt rfl)⟩

theorem svlQ (vt6 : BitVec 6) (off14 : BitVec 14) (rs : Reg) (s : State) : Keeps (exec (.svlQ vt6 off14 rs) s) (Frame (.svlQ vt6 off14 rs) s) :=
  keeps_vectorStore fun _ =>
    ⟨(rfl), (⟨rfl, rfl⟩), (rfl), (.inl rfl), (fun _ => ⟨rfl, rfl⟩), (ff rfl), (fun _ => rfl), (tt rfl), (fun _ _ => ⟨rfl, rfl, rfl⟩), (fun _ => ⟨rfl, rfl⟩), (tt rfl)⟩

theorem svrQ (vt6 : BitVec 6) (off14 : BitVec 14) (rs : Reg) (s : State) : Keeps (exec (.svrQ vt6 off14 rs) s) (Frame (.svrQ vt6 off14 rs) s) :=
  keeps_vectorStore fun _ =>
    ⟨(rfl), (⟨rfl, rfl⟩), (rfl), (.inl rfl), (fun _ => ⟨rfl, rfl⟩), (ff rfl), (fun _ => rfl), (tt rfl), (fun _ _ => ⟨rfl, rfl, rfl⟩), (fun _ => ⟨rfl, rfl⟩), (tt rfl)⟩

theorem lvS (vt : Sel) (off14 : BitVec 14) (rs : Reg) (s : State) : Keeps (exec (.lvS vt off14 rs) s) (Frame (.lvS vt off14 rs) s) :=
  keeps_orFault fun _ => keeps_complete
    ⟨(rfl), (⟨rfl, rfl⟩), (rfl), (.inl rfl), (fun _ => ⟨rfl, rfl⟩), (fun _ => rfl), (fun _ => rfl), (tt rfl), (fun _ _ => ⟨rfl, rfl, rfl⟩), (fun _ => ⟨rfl, rfl⟩), (tt rfl)⟩

theorem svS (vt : Sel) (off14 : BitVec 14) (rs : Reg) (s : State) : Keeps (exec (.svS vt off14 rs) s) (Frame (.svS vt off14 rs) s) :=
  keeps_memWrite32 fun _ => keeps_complete
    ⟨(rfl), (⟨rfl, rfl⟩), (rfl), (.inl rfl), (fun _ => ⟨rfl, rfl⟩), (ff rfl), (fun _ => rfl), (tt rfl), (fun _ _ => ⟨rfl, rfl, rfl⟩), (fun _ => ⟨rfl, rfl⟩), (tt rfl)⟩

theorem vmzero (sz : VSize) (vd : Sel) (s : State) : Keeps (exec (.vmzero sz vd) s) (Frame (.vmzero sz vd) s) :=
  keeps_matrixResult fun _ =>
    ⟨(rfl), (⟨rfl, rfl⟩), (rfl), (.inl rfl), (fun _ => ⟨rfl, rfl⟩), (fun _ => rfl), (fun _ => rfl), (fun _ => ⟨rfl, rfl, rfl⟩), (ff rfl), (fun _ => ⟨rfl, rfl⟩), (tt rfl)⟩

theorem vmone (sz : VSize) (vd : Sel) (s : State) : Keeps (exec (.vmone sz vd) s) (Frame (.vmone sz vd) s) :=
  keeps_matrixResult fun _ =>
    ⟨(rfl), (⟨rfl, rfl⟩), (rfl), (.inl rfl), (fun _ => ⟨rfl, rfl⟩), (fun _ => rfl), (fun _ => rfl), (fun _ => ⟨rfl, rfl, rfl⟩), (ff rfl), (fun _ => ⟨rfl, rfl⟩), (tt rfl)⟩

theorem vmidt (sz : VSize) (vd : Sel) (s : State) : Keeps (exec (.vmidt sz vd) s) (Frame (.vmidt sz vd) s) :=
  keeps_matrixResult fun _ =>
    ⟨(rfl), (⟨rfl, rfl⟩), (rfl), (.inl rfl), (fun _ => ⟨rfl, rfl⟩), (fun _ => rfl), (fun _ => rfl), (fun _ => ⟨rfl, rfl, rfl⟩), (ff rfl), (fun _ => ⟨rfl, rfl⟩), (tt rfl)⟩

theorem vmmov (sz : VSize) (vd : Sel) (vs : Sel) (s : State) : Keeps (exec (.vmmov sz vd vs) s) (Frame (.vmmov sz vd vs) s) :=
  keeps_matrixResult fun _ =>
    ⟨(rfl), (⟨rfl, rfl⟩), (rfl), (.inl rfl), (fun _ => ⟨rfl, rfl⟩), (fun _ => rfl), (fun _ => rfl), (fun _ => ⟨rfl, rfl, rfl⟩), (ff rfl), (fun _ => ⟨rfl, rfl⟩), (tt rfl)⟩

theorem vmmul (sz : VSize) (vd : Sel) (vs : Sel) (vt : Sel) (s : State) : Keeps (exec (.vmmul sz vd vs vt) s) (Frame (.vmmul sz vd vs vt) s) :=
  keeps_matrixResult fun _ =>
    ⟨(rfl), (⟨rfl, rfl⟩), (rfl), (.inl rfl), (fun _ => ⟨rfl, rfl⟩), (fun _ => rfl), (fun _ => rfl), (fun _ => ⟨rfl, rfl, rfl⟩), (ff rfl), (fun _ => ⟨rfl, rfl⟩), (tt rfl)⟩

theorem vrot (sz : VSize) (vd : Sel) (vs : Sel) (imm5 : BitVec 5) (s : State) : Keeps (exec (.vrot sz vd vs imm5) s) (Frame (.vrot sz vd vs imm5) s) := by
  show Keeps (execVrot sz vd vs imm5 s) _
  unfold execVrot
  split
  · exact keeps_finishVec fun _ =>
      ⟨(rfl), (⟨rfl, rfl⟩), (rfl), (.inl rfl), (fun _ => ⟨rfl, rfl⟩), (fun _ => rfl), (fun _ => rfl), (fun _ => ⟨rfl, rfl, rfl⟩), (ff rfl), (fun _ => ⟨rfl, rfl⟩), (tt rfl)⟩
  · exact keeps_reservedOperand

theorem vt4444Q (sz : VSize) (vd : Sel) (vs : Sel) (s : State) : Keeps (exec (.vt4444Q sz vd vs) s) (Frame (.vt4444Q sz vd vs) s) :=
  keeps_colourPack fun _ =>
    ⟨(rfl), (⟨rfl, rfl⟩), (rfl), (.inl rfl), (fun _ => ⟨rfl, rfl⟩), (fun _ => rfl), (fun _ => rfl), (fun _ => ⟨rfl, rfl, rfl⟩), (ff rfl), (fun _ => ⟨rfl, rfl⟩), (tt rfl)⟩

theorem vt5551Q (sz : VSize) (vd : Sel) (vs : Sel) (s : State) : Keeps (exec (.vt5551Q sz vd vs) s) (Frame (.vt5551Q sz vd vs) s) :=
  keeps_colourPack fun _ =>
    ⟨(rfl), (⟨rfl, rfl⟩), (rfl), (.inl rfl), (fun _ => ⟨rfl, rfl⟩), (fun _ => rfl), (fun _ => rfl), (fun _ => ⟨rfl, rfl, rfl⟩), (ff rfl), (fun _ => ⟨rfl, rfl⟩), (tt rfl)⟩

theorem vt5650Q (sz : VSize) (vd : Sel) (vs : Sel) (s : State) : Keeps (exec (.vt5650Q sz vd vs) s) (Frame (.vt5650Q sz vd vs) s) :=
  keeps_colourPack fun _ =>
    ⟨(rfl), (⟨rfl, rfl⟩), (rfl), (.inl rfl), (fun _ => ⟨rfl, rfl⟩), (fun _ => rfl), (fun _ => rfl), (fun _ => ⟨rfl, rfl, rfl⟩), (ff rfl), (fun _ => ⟨rfl, rfl⟩), (tt rfl)⟩

theorem vadd (sz : VSize) (vd : Sel) (vs : Sel) (vt : Sel) (s : State) : Keeps (exec (.vadd sz vd vs vt) s) (Frame (.vadd sz vd vs vt) s) :=
  keeps_vectorBinary fun _ =>
    ⟨(rfl), (⟨rfl, rfl⟩), (rfl), (.inl rfl), (fun _ => ⟨rfl, rfl⟩), (fun _ => rfl), (fun _ => rfl), (fun _ => ⟨rfl, rfl, rfl⟩), (ff rfl), (fun _ => ⟨rfl, rfl⟩), (tt rfl)⟩

theorem vsub (sz : VSize) (vd : Sel) (vs : Sel) (vt : Sel) (s : State) : Keeps (exec (.vsub sz vd vs vt) s) (Frame (.vsub sz vd vs vt) s) :=
  keeps_vectorBinary fun _ =>
    ⟨(rfl), (⟨rfl, rfl⟩), (rfl), (.inl rfl), (fun _ => ⟨rfl, rfl⟩), (fun _ => rfl), (fun _ => rfl), (fun _ => ⟨rfl, rfl, rfl⟩), (ff rfl), (fun _ => ⟨rfl, rfl⟩), (tt rfl)⟩

theorem vmul (sz : VSize) (vd : Sel) (vs : Sel) (vt : Sel) (s : State) : Keeps (exec (.vmul sz vd vs vt) s) (Frame (.vmul sz vd vs vt) s) :=
  keeps_vectorBinary fun _ =>
    ⟨(rfl), (⟨rfl, rfl⟩), (rfl), (.inl rfl), (fun _ => ⟨rfl, rfl⟩), (fun _ => rfl), (fun _ => rfl), (fun _ => ⟨rfl, rfl, rfl⟩), (ff rfl), (fun _ => ⟨rfl, rfl⟩), (tt rfl)⟩

theorem vdiv (sz : VSize) (vd : Sel) (vs : Sel) (vt : Sel) (s : State) : Keeps (exec (.vdiv sz vd vs vt) s) (Frame (.vdiv sz vd vs vt) s) :=
  keeps_vectorBinary fun _ =>
    ⟨(rfl), (⟨rfl, rfl⟩), (rfl), (.inl rfl), (fun _ => ⟨rfl, rfl⟩), (fun _ => rfl), (fun _ => rfl), (fun _ => ⟨rfl, rfl, rfl⟩), (ff rfl), (fun _ => ⟨rfl, rfl⟩), (tt rfl)⟩

theorem vmov (sz : VSize) (vd : Sel) (vs : Sel) (s : State) : Keeps (exec (.vmov sz vd vs) s) (Frame (.vmov sz vd vs) s) :=
  keeps_vectorUnary fun _ =>
    ⟨(rfl), (⟨rfl, rfl⟩), (rfl), (.inl rfl), (fun _ => ⟨rfl, rfl⟩), (fun _ => rfl), (fun _ => rfl), (fun _ => ⟨rfl, rfl, rfl⟩), (ff rfl), (fun _ => ⟨rfl, rfl⟩), (tt rfl)⟩

theorem vabs (sz : VSize) (vd : Sel) (vs : Sel) (s : State) : Keeps (exec (.vabs sz vd vs) s) (Frame (.vabs sz vd vs) s) :=
  keeps_vectorUnary fun _ =>
    ⟨(rfl), (⟨rfl, rfl⟩), (rfl), (.inl rfl), (fun _ => ⟨rfl, rfl⟩), (fun _ => rfl), (fun _ => rfl), (fun _ => ⟨rfl, rfl, rfl⟩), (ff rfl), (fun _ => ⟨rfl, rfl⟩), (tt rfl)⟩

theorem vneg (sz : VSize) (vd : Sel) (vs : Sel) (s : State) : Keeps (exec (.vneg sz vd vs) s) (Frame (.vneg sz vd vs) s) :=
  keeps_vectorUnary fun _ =>
    ⟨(rfl), (⟨rfl, rfl⟩), (rfl), (.inl rfl), (fun _ => ⟨rfl, rfl⟩), (fun _ => rfl), (fun _ => rfl), (fun _ => ⟨rfl, rfl, rfl⟩), (ff rfl), (fun _ => ⟨rfl, rfl⟩), (tt rfl)⟩

theorem vzero (sz : VSize) (vd : Sel) (s : State) : Keeps (exec (.vzero sz vd) s) (Frame (.vzero sz vd) s) :=
  keeps_finishVec fun _ =>
    ⟨(rfl), (⟨rfl, rfl⟩), (rfl), (.inl rfl), (fun _ => ⟨rfl, rfl⟩), (fun _ => rfl), (fun _ => rfl), (fun _ => ⟨rfl, rfl, rfl⟩), (ff rfl), (fun _ => ⟨rfl, rfl⟩), (tt rfl)⟩

theorem vone (sz : VSize) (vd : Sel) (s : State) : Keeps (exec (.vone sz vd) s) (Frame (.vone sz vd) s) :=
  keeps_finishVec fun _ =>
    ⟨(rfl), (⟨rfl, rfl⟩), (rfl), (.inl rfl), (fun _ => ⟨rfl, rfl⟩), (fun _ => rfl), (fun _ => rfl), (fun _ => ⟨rfl, rfl, rfl⟩), (ff rfl), (fun _ => ⟨rfl, rfl⟩), (tt rfl)⟩

theorem vscl (sz : VSize) (vd : Sel) (vs : Sel) (vt : Sel) (s : State) : Keeps (exec (.vscl sz vd vs vt) s) (Frame (.vscl sz vd vs vt) s) := by
  show Keeps (execVscl sz vd vs vt s) _
  unfold execVscl
  split
  · exact keeps_finishVec fun _ =>
      ⟨(rfl), (⟨rfl, rfl⟩), (rfl), (.inl rfl), (fun _ => ⟨rfl, rfl⟩), (fun _ => rfl), (fun _ => rfl), (fun _ => ⟨rfl, rfl, rfl⟩), (ff rfl), (fun _ => ⟨rfl, rfl⟩), (tt rfl)⟩
  · exact keeps_reservedOperand

theorem vdot (sz : VSize) (vd : Sel) (vs : Sel) (vt : Sel) (s : State) : Keeps (exec (.vdot sz vd vs vt) s) (Frame (.vdot sz vd vs vt) s) := by
  show Keeps (execVdot sz vd vs vt s) _
  unfold execVdot
  split
  · exact keeps_finishVec fun _ =>
      ⟨(rfl), (⟨rfl, rfl⟩), (rfl), (.inl rfl), (fun _ => ⟨rfl, rfl⟩), (fun _ => rfl), (fun _ => rfl), (fun _ => ⟨rfl, rfl, rfl⟩), (ff rfl), (fun _ => ⟨rfl, rfl⟩), (tt rfl)⟩
  · exact keeps_reservedOperand

theorem viimS (vt : Sel) (imm16 : BitVec 16) (s : State) : Keeps (exec (.viimS vt imm16) s) (Frame (.viimS vt imm16) s) :=
  keeps_finishVec fun _ =>
    ⟨(rfl), (⟨rfl, rfl⟩), (rfl), (.inl rfl), (fun _ => ⟨rfl, rfl⟩), (fun _ => rfl), (fun _ => rfl), (fun _ => ⟨rfl, rfl, rfl⟩), (ff rfl), (fun _ => ⟨rfl, rfl⟩), (tt rfl)⟩

theorem mtv (rt : Reg) (vd : Sel) (s : State) : Keeps (exec (.mtv rt vd) s) (Frame (.mtv rt vd) s) :=
  keeps_complete
    ⟨(rfl), (⟨rfl, rfl⟩), (rfl), (.inl rfl), (fun _ => ⟨rfl, rfl⟩), (fun _ => rfl), (fun _ => rfl), (tt rfl), (fun _ _ => ⟨rfl, rfl, rfl⟩), (fun _ => ⟨rfl, rfl⟩), (tt rfl)⟩

theorem mfv (rt : Reg) (vd : Sel) (s : State) : Keeps (exec (.mfv rt vd) s) (Frame (.mfv rt vd) s) :=
  keeps_complete
    ⟨(rfl), (⟨rfl, rfl⟩), (rfl), (.inl rfl), (fun _ => ⟨rfl, rfl⟩), (fun _ => rfl), (fun _ => rfl), (tt rfl), (fun _ _ => ⟨rfl, rfl, rfl⟩), (fun _ => ⟨rfl, rfl⟩), (tt rfl)⟩

theorem vnop (s : State) : Keeps (exec .vnop s) (Frame .vnop s) :=
  keeps_complete
    ⟨(rfl), (⟨rfl, rfl⟩), (rfl), (.inl rfl), (fun _ => ⟨rfl, rfl⟩), (fun _ => rfl), (fun _ => rfl), (tt rfl), (fun _ _ => ⟨rfl, rfl, rfl⟩), (fun _ => ⟨rfl, rfl⟩), (tt rfl)⟩

theorem vsync (s : State) : Keeps (exec .vsync s) (Frame .vsync s) :=
  keeps_complete
    ⟨(rfl), (⟨rfl, rfl⟩), (rfl), (.inl rfl), (fun _ => ⟨rfl, rfl⟩), (fun _ => rfl), (fun _ => rfl), (tt rfl), (fun _ _ => ⟨rfl, rfl, rfl⟩), (fun _ => ⟨rfl, rfl⟩), (tt rfl)⟩

theorem vflush (s : State) : Keeps (exec .vflush s) (Frame .vflush s) :=
  keeps_complete
    ⟨(rfl), (⟨rfl, rfl⟩), (rfl), (.inl rfl), (fun _ => ⟨rfl, rfl⟩), (fun _ => rfl), (fun _ => rfl), (tt rfl), (fun _ _ => ⟨rfl, rfl, rfl⟩), (fun _ => ⟨rfl, rfl⟩), (tt rfl)⟩

theorem vsin (sz : VSize) (vd : Sel) (vs : Sel) (s : State) : Keeps (exec (.vsin sz vd vs) s) (Frame (.vsin sz vd vs) s) :=
  keeps_unimplemented

theorem vcos (sz : VSize) (vd : Sel) (vs : Sel) (s : State) : Keeps (exec (.vcos sz vd vs) s) (Frame (.vcos sz vd vs) s) :=
  keeps_unimplemented

theorem vsqrt (sz : VSize) (vd : Sel) (vs : Sel) (s : State) : Keeps (exec (.vsqrt sz vd vs) s) (Frame (.vsqrt sz vd vs) s) :=
  keeps_unimplemented

theorem vtfm2 (vd : Sel) (vs : Sel) (vt : Sel) (s : State) : Keeps (exec (.vtfm2 vd vs vt) s) (Frame (.vtfm2 vd vs vt) s) :=
  keeps_unimplemented

theorem vtfm3 (vd : Sel) (vs : Sel) (vt : Sel) (s : State) : Keeps (exec (.vtfm3 vd vs vt) s) (Frame (.vtfm3 vd vs vt) s) :=
  keeps_unimplemented

theorem vtfm4 (vd : Sel) (vs : Sel) (vt : Sel) (s : State) : Keeps (exec (.vtfm4 vd vs vt) s) (Frame (.vtfm4 vd vs vt) s) :=
  keeps_unimplemented

theorem vcrsT (vd : Sel) (vs : Sel) (vt : Sel) (s : State) : Keeps (exec (.vcrsT vd vs vt) s) (Frame (.vcrsT vd vs vt) s) :=
  keeps_unimplemented

theorem vsrt1 (sz : VSize) (vd : Sel) (vs : Sel) (s : State) : Keeps (exec (.vsrt1 sz vd vs) s) (Frame (.vsrt1 sz vd vs) s) :=
  keeps_unimplemented

theorem vsrt2 (sz : VSize) (vd : Sel) (vs : Sel) (s : State) : Keeps (exec (.vsrt2 sz vd vs) s) (Frame (.vsrt2 sz vd vs) s) :=
  keeps_unimplemented

theorem vsrt3 (sz : VSize) (vd : Sel) (vs : Sel) (s : State) : Keeps (exec (.vsrt3 sz vd vs) s) (Frame (.vsrt3 sz vd vs) s) :=
  keeps_unimplemented

theorem vsrt4 (sz : VSize) (vd : Sel) (vs : Sel) (s : State) : Keeps (exec (.vsrt4 sz vd vs) s) (Frame (.vsrt4 sz vd vs) s) :=
  keeps_unimplemented

theorem vhtfm2 (vd : Sel) (vs : Sel) (vt : Sel) (s : State) : Keeps (exec (.vhtfm2 vd vs vt) s) (Frame (.vhtfm2 vd vs vt) s) :=
  keeps_unimplemented

theorem vhtfm3 (vd : Sel) (vs : Sel) (vt : Sel) (s : State) : Keeps (exec (.vhtfm3 vd vs vt) s) (Frame (.vhtfm3 vd vs vt) s) :=
  keeps_unimplemented

theorem vhtfm4 (vd : Sel) (vs : Sel) (vt : Sel) (s : State) : Keeps (exec (.vhtfm4 vd vs vt) s) (Frame (.vhtfm4 vd vs vt) s) :=
  keeps_unimplemented

theorem vsbn (sz : VSize) (vd : Sel) (vs : Sel) (vt : Sel) (s : State) : Keeps (exec (.vsbn sz vd vs vt) s) (Frame (.vsbn sz vd vs vt) s) :=
  keeps_unimplemented

theorem vhdp (sz : VSize) (vd : Sel) (vs : Sel) (vt : Sel) (s : State) : Keeps (exec (.vhdp sz vd vs vt) s) (Frame (.vhdp sz vd vs vt) s) :=
  keeps_unimplemented

theorem vdet (sz : VSize) (vd : Sel) (vs : Sel) (vt : Sel) (s : State) : Keeps (exec (.vdet sz vd vs vt) s) (Frame (.vdet sz vd vs vt) s) :=
  keeps_unimplemented

theorem vcmp (sz : VSize) (imm4 : BitVec 4) (vs : Sel) (vt : Sel) (s : State) : Keeps (exec (.vcmp sz imm4 vs vt) s) (Frame (.vcmp sz imm4 vs vt) s) :=
  keeps_unimplemented

theorem vmin (sz : VSize) (vd : Sel) (vs : Sel) (vt : Sel) (s : State) : Keeps (exec (.vmin sz vd vs vt) s) (Frame (.vmin sz vd vs vt) s) :=
  keeps_unimplemented

theorem vmax (sz : VSize) (vd : Sel) (vs : Sel) (vt : Sel) (s : State) : Keeps (exec (.vmax sz vd vs vt) s) (Frame (.vmax sz vd vs vt) s) :=
  keeps_unimplemented

theorem vscmp (sz : VSize) (vd : Sel) (vs : Sel) (vt : Sel) (s : State) : Keeps (exec (.vscmp sz vd vs vt) s) (Frame (.vscmp sz vd vs vt) s) :=
  keeps_unimplemented

theorem vsge (sz : VSize) (vd : Sel) (vs : Sel) (vt : Sel) (s : State) : Keeps (exec (.vsge sz vd vs vt) s) (Frame (.vsge sz vd vs vt) s) :=
  keeps_unimplemented

theorem vslt (sz : VSize) (vd : Sel) (vs : Sel) (vt : Sel) (s : State) : Keeps (exec (.vslt sz vd vs vt) s) (Frame (.vslt sz vd vs vt) s) :=
  keeps_unimplemented

theorem vidt (sz : VSize) (vd : Sel) (s : State) : Keeps (exec (.vidt sz vd) s) (Frame (.vidt sz vd) s) :=
  keeps_unimplemented

theorem vsat0 (sz : VSize) (vd : Sel) (vs : Sel) (s : State) : Keeps (exec (.vsat0 sz vd vs) s) (Frame (.vsat0 sz vd vs) s) :=
  keeps_unimplemented

theorem vsat1 (sz : VSize) (vd : Sel) (vs : Sel) (s : State) : Keeps (exec (.vsat1 sz vd vs) s) (Frame (.vsat1 sz vd vs) s) :=
  keeps_unimplemented

theorem vrcp (sz : VSize) (vd : Sel) (vs : Sel) (s : State) : Keeps (exec (.vrcp sz vd vs) s) (Frame (.vrcp sz vd vs) s) :=
  keeps_unimplemented

theorem vrsq (sz : VSize) (vd : Sel) (vs : Sel) (s : State) : Keeps (exec (.vrsq sz vd vs) s) (Frame (.vrsq sz vd vs) s) :=
  keeps_unimplemented

theorem vexp2 (sz : VSize) (vd : Sel) (vs : Sel) (s : State) : Keeps (exec (.vexp2 sz vd vs) s) (Frame (.vexp2 sz vd vs) s) :=
  keeps_unimplemented

theorem vlog2 (sz : VSize) (vd : Sel) (vs : Sel) (s : State) : Keeps (exec (.vlog2 sz vd vs) s) (Frame (.vlog2 sz vd vs) s) :=
  keeps_unimplemented

theorem vasin (sz : VSize) (vd : Sel) (vs : Sel) (s : State) : Keeps (exec (.vasin sz vd vs) s) (Frame (.vasin sz vd vs) s) :=
  keeps_unimplemented

theorem vnrcp (sz : VSize) (vd : Sel) (vs : Sel) (s : State) : Keeps (exec (.vnrcp sz vd vs) s) (Frame (.vnrcp sz vd vs) s) :=
  keeps_unimplemented

theorem vnsin (sz : VSize) (vd : Sel) (vs : Sel) (s : State) : Keeps (exec (.vnsin sz vd vs) s) (Frame (.vnsin sz vd vs) s) :=
  keeps_unimplemented

theorem vrexp2 (sz : VSize) (vd : Sel) (vs : Sel) (s : State) : Keeps (exec (.vrexp2 sz vd vs) s) (Frame (.vrexp2 sz vd vs) s) :=
  keeps_unimplemented

theorem vrnds (sz : VSize) (vs : Sel) (s : State) : Keeps (exec (.vrnds sz vs) s) (Frame (.vrnds sz vs) s) :=
  keeps_unimplemented

theorem vrndi (sz : VSize) (vd : Sel) (s : State) : Keeps (exec (.vrndi sz vd) s) (Frame (.vrndi sz vd) s) :=
  keeps_unimplemented

theorem vrndf1 (sz : VSize) (vd : Sel) (s : State) : Keeps (exec (.vrndf1 sz vd) s) (Frame (.vrndf1 sz vd) s) :=
  keeps_unimplemented

theorem vrndf2 (sz : VSize) (vd : Sel) (s : State) : Keeps (exec (.vrndf2 sz vd) s) (Frame (.vrndf2 sz vd) s) :=
  keeps_unimplemented

theorem vf2h (sz : VSize) (vd : Sel) (vs : Sel) (s : State) : Keeps (exec (.vf2h sz vd vs) s) (Frame (.vf2h sz vd vs) s) :=
  keeps_unimplemented

theorem vh2f (sz : VSize) (vd : Sel) (vs : Sel) (s : State) : Keeps (exec (.vh2f sz vd vs) s) (Frame (.vh2f sz vd vs) s) :=
  keeps_unimplemented

theorem vsbz (sz : VSize) (vd : Sel) (vs : Sel) (s : State) : Keeps (exec (.vsbz sz vd vs) s) (Frame (.vsbz sz vd vs) s) :=
  keeps_unimplemented

theorem vlgb (sz : VSize) (vd : Sel) (vs : Sel) (s : State) : Keeps (exec (.vlgb sz vd vs) s) (Frame (.vlgb sz vd vs) s) :=
  keeps_unimplemented

theorem vuc2i (sz : VSize) (vd : Sel) (vs : Sel) (s : State) : Keeps (exec (.vuc2i sz vd vs) s) (Frame (.vuc2i sz vd vs) s) :=
  keeps_unimplemented

theorem vc2i (sz : VSize) (vd : Sel) (vs : Sel) (s : State) : Keeps (exec (.vc2i sz vd vs) s) (Frame (.vc2i sz vd vs) s) :=
  keeps_unimplemented

theorem vus2i (sz : VSize) (vd : Sel) (vs : Sel) (s : State) : Keeps (exec (.vus2i sz vd vs) s) (Frame (.vus2i sz vd vs) s) :=
  keeps_unimplemented

theorem vs2i (sz : VSize) (vd : Sel) (vs : Sel) (s : State) : Keeps (exec (.vs2i sz vd vs) s) (Frame (.vs2i sz vd vs) s) :=
  keeps_unimplemented

theorem vi2uc (sz : VSize) (vd : Sel) (vs : Sel) (s : State) : Keeps (exec (.vi2uc sz vd vs) s) (Frame (.vi2uc sz vd vs) s) :=
  keeps_unimplemented

theorem vi2c (sz : VSize) (vd : Sel) (vs : Sel) (s : State) : Keeps (exec (.vi2c sz vd vs) s) (Frame (.vi2c sz vd vs) s) :=
  keeps_unimplemented

theorem vi2us (sz : VSize) (vd : Sel) (vs : Sel) (s : State) : Keeps (exec (.vi2us sz vd vs) s) (Frame (.vi2us sz vd vs) s) :=
  keeps_unimplemented

theorem vi2s (sz : VSize) (vd : Sel) (vs : Sel) (s : State) : Keeps (exec (.vi2s sz vd vs) s) (Frame (.vi2s sz vd vs) s) :=
  keeps_unimplemented

theorem vbfy1 (sz : VSize) (vd : Sel) (vs : Sel) (s : State) : Keeps (exec (.vbfy1 sz vd vs) s) (Frame (.vbfy1 sz vd vs) s) :=
  keeps_unimplemented

theorem vbfy2 (sz : VSize) (vd : Sel) (vs : Sel) (s : State) : Keeps (exec (.vbfy2 sz vd vs) s) (Frame (.vbfy2 sz vd vs) s) :=
  keeps_unimplemented

theorem vocp (sz : VSize) (vd : Sel) (vs : Sel) (s : State) : Keeps (exec (.vocp sz vd vs) s) (Frame (.vocp sz vd vs) s) :=
  keeps_unimplemented

theorem vsocp (sz : VSize) (vd : Sel) (vs : Sel) (s : State) : Keeps (exec (.vsocp sz vd vs) s) (Frame (.vsocp sz vd vs) s) :=
  keeps_unimplemented

theorem vfad (sz : VSize) (vd : Sel) (vs : Sel) (s : State) : Keeps (exec (.vfad sz vd vs) s) (Frame (.vfad sz vd vs) s) :=
  keeps_unimplemented

theorem vavg (sz : VSize) (vd : Sel) (vs : Sel) (s : State) : Keeps (exec (.vavg sz vd vs) s) (Frame (.vavg sz vd vs) s) :=
  keeps_unimplemented

theorem vsgn (sz : VSize) (vd : Sel) (vs : Sel) (s : State) : Keeps (exec (.vsgn sz vd vs) s) (Frame (.vsgn sz vd vs) s) :=
  keeps_unimplemented

theorem vmfvc (vd : Sel) (imm7 : BitVec 7) (s : State) : Keeps (exec (.vmfvc vd imm7) s) (Frame (.vmfvc vd imm7) s) :=
  keeps_unimplemented

theorem vmtvc (imm7 : BitVec 7) (vs : Sel) (s : State) : Keeps (exec (.vmtvc imm7 vs) s) (Frame (.vmtvc imm7 vs) s) :=
  keeps_unimplemented

theorem vcst (sz : VSize) (vd : Sel) (imm5 : BitVec 5) (s : State) : Keeps (exec (.vcst sz vd imm5) s) (Frame (.vcst sz vd imm5) s) :=
  keeps_unimplemented

theorem vf2in (sz : VSize) (vd : Sel) (vs : Sel) (imm5 : BitVec 5) (s : State) : Keeps (exec (.vf2in sz vd vs imm5) s) (Frame (.vf2in sz vd vs imm5) s) :=
  keeps_unimplemented

theorem vf2iz (sz : VSize) (vd : Sel) (vs : Sel) (imm5 : BitVec 5) (s : State) : Keeps (exec (.vf2iz sz vd vs imm5) s) (Frame (.vf2iz sz vd vs imm5) s) :=
  keeps_unimplemented

theorem vf2iu (sz : VSize) (vd : Sel) (vs : Sel) (imm5 : BitVec 5) (s : State) : Keeps (exec (.vf2iu sz vd vs imm5) s) (Frame (.vf2iu sz vd vs imm5) s) :=
  keeps_unimplemented

theorem vf2id (sz : VSize) (vd : Sel) (vs : Sel) (imm5 : BitVec 5) (s : State) : Keeps (exec (.vf2id sz vd vs imm5) s) (Frame (.vf2id sz vd vs imm5) s) :=
  keeps_unimplemented

theorem vi2f (sz : VSize) (vd : Sel) (vs : Sel) (imm5 : BitVec 5) (s : State) : Keeps (exec (.vi2f sz vd vs imm5) s) (Frame (.vi2f sz vd vs imm5) s) :=
  keeps_unimplemented

theorem vcmovt (sz : VSize) (vd : Sel) (vs : Sel) (imm3 : BitVec 3) (s : State) : Keeps (exec (.vcmovt sz vd vs imm3) s) (Frame (.vcmovt sz vd vs imm3) s) :=
  keeps_unimplemented

theorem vcmovf (sz : VSize) (vd : Sel) (vs : Sel) (imm3 : BitVec 3) (s : State) : Keeps (exec (.vcmovf sz vd vs imm3) s) (Frame (.vcmovf sz vd vs imm3) s) :=
  keeps_unimplemented

theorem vwbn (sz : VSize) (vd : Sel) (vs : Sel) (imm8 : BitVec 8) (s : State) : Keeps (exec (.vwbn sz vd vs imm8) s) (Frame (.vwbn sz vd vs imm8) s) :=
  keeps_unimplemented

theorem vmscl (sz : VSize) (vd : Sel) (vs : Sel) (vt : Sel) (s : State) : Keeps (exec (.vmscl sz vd vs vt) s) (Frame (.vmscl sz vd vs vt) s) :=
  keeps_unimplemented

theorem vcrspT (vd : Sel) (vs : Sel) (vt : Sel) (s : State) : Keeps (exec (.vcrspT vd vs vt) s) (Frame (.vcrspT vd vs vt) s) :=
  keeps_unimplemented

theorem vqmulQ (vd : Sel) (vs : Sel) (vt : Sel) (s : State) : Keeps (exec (.vqmulQ vd vs vt) s) (Frame (.vqmulQ vd vs vt) s) :=
  keeps_unimplemented

theorem vfimS (vt : Sel) (imm16 : BitVec 16) (s : State) : Keeps (exec (.vfimS vt imm16) s) (Frame (.vfimS vt imm16) s) :=
  keeps_unimplemented

theorem mfvc (rt : Reg) (vd : Sel) (s : State) : Keeps (exec (.mfvc rt vd) s) (Frame (.mfvc rt vd) s) :=
  keeps_unimplemented

theorem mtvc (rt : Reg) (vd : Sel) (s : State) : Keeps (exec (.mtvc rt vd) s) (Frame (.mtvc rt vd) s) :=
  keeps_unimplemented

theorem syscall (code20 : BitVec 20) (s : State) : Keeps (exec (.syscall code20) s) (Frame (.syscall code20) s) :=
  keeps_raiseTrap
    ⟨(rfl), (⟨rfl, rfl⟩), (rfl), (.inr ⟨_, _, rfl⟩), (fun _ => ⟨rfl, rfl⟩), (fun _ => rfl), (fun _ => rfl), (tt rfl), (fun _ _ => ⟨rfl, rfl, rfl⟩), (fun _ => ⟨rfl, rfl⟩), (tt rfl)⟩

theorem brk (code20 : BitVec 20) (s : State) : Keeps (exec (.brk code20) s) (Frame (.brk code20) s) :=
  keeps_raiseTrap
    ⟨(rfl), (⟨rfl, rfl⟩), (rfl), (.inr ⟨_, _, rfl⟩), (fun _ => ⟨rfl, rfl⟩), (fun _ => rfl), (fun _ => rfl), (tt rfl), (fun _ _ => ⟨rfl, rfl, rfl⟩), (fun _ => ⟨rfl, rfl⟩), (tt rfl)⟩

theorem sync (s : State) : Keeps (exec .sync s) (Frame .sync s) :=
  keeps_complete
    ⟨(rfl), (⟨rfl, rfl⟩), (rfl), (.inl rfl), (fun _ => ⟨rfl, rfl⟩), (fun _ => rfl), (fun _ => rfl), (tt rfl), (fun _ _ => ⟨rfl, rfl, rfl⟩), (fun _ => ⟨rfl, rfl⟩), (tt rfl)⟩

theorem cache (off16 : BitVec 16) (rs : Reg) (s : State) : Keeps (exec (.cache off16 rs) s) (Frame (.cache off16 rs) s) :=
  keeps_complete
    ⟨(rfl), (⟨rfl, rfl⟩), (rfl), (.inl rfl), (fun _ => ⟨rfl, rfl⟩), (fun _ => rfl), (fun _ => rfl), (tt rfl), (fun _ _ => ⟨rfl, rfl, rfl⟩), (fun _ => ⟨rfl, rfl⟩), (tt rfl)⟩

theorem mfic (rt : Reg) (s : State) : Keeps (exec (.mfic rt) s) (Frame (.mfic rt) s) :=
  keeps_complete
    ⟨(rfl), (⟨rfl, rfl⟩), (rfl), (.inl rfl), (fun _ => ⟨rfl, rfl⟩), (fun _ => rfl), (fun _ => rfl), (tt rfl), (fun _ _ => ⟨rfl, rfl, rfl⟩), (fun _ => ⟨rfl, rfl⟩), (tt rfl)⟩

theorem mtic (rt : Reg) (s : State) : Keeps (exec (.mtic rt) s) (Frame (.mtic rt) s) :=
  keeps_complete
    ⟨(rfl), (⟨rfl, rfl⟩), (rfl), (.inl rfl), (fun _ => ⟨rfl, rfl⟩), (fun _ => rfl), (fun _ => rfl), (tt rfl), (fun _ _ => ⟨rfl, rfl, rfl⟩), (fun _ => ⟨rfl, rfl⟩), (tt rfl)⟩

theorem mfc0 (s : State) : Keeps (exec .mfc0 s) (Frame .mfc0 s) :=
  keeps_unimplemented

theorem mtc0 (s : State) : Keeps (exec .mtc0 s) (Frame .mtc0 s) :=
  keeps_unimplemented

theorem cfc0 (s : State) : Keeps (exec .cfc0 s) (Frame .cfc0 s) :=
  keeps_unimplemented

theorem ctc0 (s : State) : Keeps (exec .ctc0 s) (Frame .ctc0 s) :=
  keeps_unimplemented

theorem eret (s : State) : Keeps (exec .eret s) (Frame .eret s) :=
  keeps_unimplemented

theorem halt (s : State) : Keeps (exec .halt s) (Frame .halt s) :=
  keeps_unimplemented

theorem dret (s : State) : Keeps (exec .dret s) (Frame .dret s) :=
  keeps_unimplemented

theorem dbreak (s : State) : Keeps (exec .dbreak s) (Frame .dbreak s) :=
  keeps_unimplemented

theorem mfdr (s : State) : Keeps (exec .mfdr s) (Frame .mfdr s) :=
  keeps_unimplemented

theorem mtdr (s : State) : Keeps (exec .mtdr s) (Frame .mtdr s) :=
  keeps_unimplemented

end ExecFrame

/-- What any instruction can have done. -/
theorem exec_frame (i : Instr) (s t : State) (h : exec i s = .next t) : Frame i s t := by
  revert h
  show exec i s = .next t → Frame i s t
  cases i with
  | add rd rs rt => exact ExecFrame.add rd rs rt s t
  | addu rd rs rt => exact ExecFrame.addu rd rs rt s t
  | addi rt rs imm16 => exact ExecFrame.addi rt rs imm16 s t
  | addiu rt rs imm16 => exact ExecFrame.addiu rt rs imm16 s t
  | sub rd rs rt => exact ExecFrame.sub rd rs rt s t
  | subu rd rs rt => exact ExecFrame.subu rd rs rt s t
  | and rd rs rt => exact ExecFrame.and rd rs rt s t
  | or rd rs rt => exact ExecFrame.or rd rs rt s t
  | xor rd rs rt => exact ExecFrame.xor rd rs rt s t
  | nor rd rs rt => exact ExecFrame.nor rd rs rt s t
  | andi rt rs imm16 => exact ExecFrame.andi rt rs imm16 s t
  | ori rt rs imm16 => exact ExecFrame.ori rt rs imm16 s t
  | xori rt rs imm16 => exact ExecFrame.xori rt rs imm16 s t
  | lui rt imm16 => exact ExecFrame.lui rt imm16 s t
  | slt rd rs rt => exact ExecFrame.slt rd rs rt s t
  | sltu rd rs rt => exact ExecFrame.sltu rd rs rt s t
  | slti rt rs imm16 => exact ExecFrame.slti rt rs imm16 s t
  | sltiu rt rs imm16 => exact ExecFrame.sltiu rt rs imm16 s t
  | sll rd rt sa => exact ExecFrame.sll rd rt sa s t
  | srl rd rt sa => exact ExecFrame.srl rd rt sa s t
  | sra rd rt sa => exact ExecFrame.sra rd rt sa s t
  | sllv rd rt rs => exact ExecFrame.sllv rd rt rs s t
  | srlv rd rt rs => exact ExecFrame.srlv rd rt rs s t
  | srav rd rt rs => exact ExecFrame.srav rd rt rs s t
  | rotr rd rt sa => exact ExecFrame.rotr rd rt sa s t
  | rotrv rd rt rs => exact ExecFrame.rotrv rd rt rs s t
  | ext rt rs lsb msb => exact ExecFrame.ext rt rs lsb msb s t
  | ins rt rs lsb msb => exact ExecFrame.ins rt rs lsb msb s t
  | clz rd rs => exact ExecFrame.clz rd rs s t
  | clo rd rs => exact ExecFrame.clo rd rs s t
  | seb rd rt => exact ExecFrame.seb rd rt s t
  | seh rd rt => exact ExecFrame.seh rd rt s t
  | wsbh rd rt => exact ExecFrame.wsbh rd rt s t
  | wsbw rd rt => exact ExecFrame.wsbw rd rt s t
  | bitrev rd rt => exact ExecFrame.bitrev rd rt s t
  | movz rd rs rt => exact ExecFrame.movz rd rs rt s t
  | movn rd rs rt => exact ExecFrame.movn rd rs rt s t
  | max rd rs rt => exact ExecFrame.max rd rs rt s t
  | min rd rs rt => exact ExecFrame.min rd rs rt s t
  | mult rs rt => exact ExecFrame.mult rs rt s t
  | multu rs rt => exact ExecFrame.multu rs rt s t
  | div rs rt => exact ExecFrame.div rs rt s t
  | divu rs rt => exact ExecFrame.divu rs rt s t
  | madd rs rt => exact ExecFrame.madd rs rt s t
  | maddu rs rt => exact ExecFrame.maddu rs rt s t
  | msub rs rt => exact ExecFrame.msub rs rt s t
  | msubu rs rt => exact ExecFrame.msubu rs rt s t
  | mfhi rd => exact ExecFrame.mfhi rd s t
  | mflo rd => exact ExecFrame.mflo rd s t
  | mthi rs => exact ExecFrame.mthi rs s t
  | mtlo rs => exact ExecFrame.mtlo rs s t
  | lb rt off16 rs => exact ExecFrame.lb rt off16 rs s t
  | lbu rt off16 rs => exact ExecFrame.lbu rt off16 rs s t
  | lh rt off16 rs => exact ExecFrame.lh rt off16 rs s t
  | lhu rt off16 rs => exact ExecFrame.lhu rt off16 rs s t
  | lw rt off16 rs => exact ExecFrame.lw rt off16 rs s t
  | sb rt off16 rs => exact ExecFrame.sb rt off16 rs s t
  | sh rt off16 rs => exact ExecFrame.sh rt off16 rs s t
  | sw rt off16 rs => exact ExecFrame.sw rt off16 rs s t
  | lwl rt off16 rs => exact ExecFrame.lwl rt off16 rs s t
  | lwr rt off16 rs => exact ExecFrame.lwr rt off16 rs s t
  | swl rt off16 rs => exact ExecFrame.swl rt off16 rs s t
  | swr rt off16 rs => exact ExecFrame.swr rt off16 rs s t
  | lwc1 ft off16 rs => exact ExecFrame.lwc1 ft off16 rs s t
  | swc1 ft off16 rs => exact ExecFrame.swc1 ft off16 rs s t
  | ll rt off16 rs => exact ExecFrame.ll rt off16 rs s t
  | sc rt off16 rs => exact ExecFrame.sc rt off16 rs s t
  | beq rs rt off16 => exact ExecFrame.beq rs rt off16 s t
  | bne rs rt off16 => exact ExecFrame.bne rs rt off16 s t
  | blez rs off16 => exact ExecFrame.blez rs off16 s t
  | bgtz rs off16 => exact ExecFrame.bgtz rs off16 s t
  | bltz rs off16 => exact ExecFrame.bltz rs off16 s t
  | bgez rs off16 => exact ExecFrame.bgez rs off16 s t
  | j imm26 => exact ExecFrame.j imm26 s t
  | jal imm26 => exact ExecFrame.jal imm26 s t
  | jr rs => exact ExecFrame.jr rs s t
  | jalr rd rs => exact ExecFrame.jalr rd rs s t
  | bltzal rs off16 => exact ExecFrame.bltzal rs off16 s t
  | bgezal rs off16 => exact ExecFrame.bgezal rs off16 s t
  | bltzall rs off16 => exact ExecFrame.bltzall rs off16 s t
  | bgezall rs off16 => exact ExecFrame.bgezall rs off16 s t
  | beql rs rt off16 => exact ExecFrame.beql rs rt off16 s t
  | bnel rs rt off16 => exact ExecFrame.bnel rs rt off16 s t
  | blezl rs off16 => exact ExecFrame.blezl rs off16 s t
  | bgtzl rs off16 => exact ExecFrame.bgtzl rs off16 s t
  | bltzl rs off16 => exact ExecFrame.bltzl rs off16 s t
  | bgezl rs off16 => exact ExecFrame.bgezl rs off16 s t
  | bc1f off16 => exact ExecFrame.bc1f off16 s t
  | bc1t off16 => exact ExecFrame.bc1t off16 s t
  | bc1fl off16 => exact ExecFrame.bc1fl off16 s t
  | bc1tl off16 => exact ExecFrame.bc1tl off16 s t
  | bvf imm3 off16 => exact ExecFrame.bvf imm3 off16 s t
  | bvt imm3 off16 => exact ExecFrame.bvt imm3 off16 s t
  | bvfl imm3 off16 => exact ExecFrame.bvfl imm3 off16 s t
  | bvtl imm3 off16 => exact ExecFrame.bvtl imm3 off16 s t
  | addS fd fs ft => exact ExecFrame.addS fd fs ft s t
  | subS fd fs ft => exact ExecFrame.subS fd fs ft s t
  | mulS fd fs ft => exact ExecFrame.mulS fd fs ft s t
  | divS fd fs ft => exact ExecFrame.divS fd fs ft s t
  | sqrtS fd fs => exact ExecFrame.sqrtS fd fs s t
  | absS fd fs => exact ExecFrame.absS fd fs s t
  | movS fd fs => exact ExecFrame.movS fd fs s t
  | negS fd fs => exact ExecFrame.negS fd fs s t
  | cvtWS fd fs => exact ExecFrame.cvtWS fd fs s t
  | roundWS fd fs => exact ExecFrame.roundWS fd fs s t
  | truncWS fd fs => exact ExecFrame.truncWS fd fs s t
  | ceilWS fd fs => exact ExecFrame.ceilWS fd fs s t
  | floorWS fd fs => exact ExecFrame.floorWS fd fs s t
  | cvtSW fd fs => exact ExecFrame.cvtSW fd fs s t
  | cFS fs ft => exact ExecFrame.cFS fs ft s t
  | cUnS fs ft => exact ExecFrame.cUnS fs ft s t
  | cEqS fs ft => exact ExecFrame.cEqS fs ft s t
  | cUeqS fs ft => exact ExecFrame.cUeqS fs ft s t
  | cOltS fs ft => exact ExecFrame.cOltS fs ft s t
  | cUltS fs ft => exact ExecFrame.cUltS fs ft s t
  | cOleS fs ft => exact ExecFrame.cOleS fs ft s t
  | cUleS fs ft => exact ExecFrame.cUleS fs ft s t
  | cSfS fs ft => exact ExecFrame.cSfS fs ft s t
  | cNgleS fs ft => exact ExecFrame.cNgleS fs ft s t
  | cSeqS fs ft => exact ExecFrame.cSeqS fs ft s t
  | cNglS fs ft => exact ExecFrame.cNglS fs ft s t
  | cLtS fs ft => exact ExecFrame.cLtS fs ft s t
  | cNgeS fs ft => exact ExecFrame.cNgeS fs ft s t
  | cLeS fs ft => exact ExecFrame.cLeS fs ft s t
  | cNgtS fs ft => exact ExecFrame.cNgtS fs ft s t
  | ctc1 rt cr => exact ExecFrame.ctc1 rt cr s t
  | cfc1 rt cr => exact ExecFrame.cfc1 rt cr s t
  | mfc1 rt fs => exact ExecFrame.mfc1 rt fs s t
  | mtc1 rt fs => exact ExecFrame.mtc1 rt fs s t
  | vpfxs imm20 => exact ExecFrame.vpfxs imm20 s t
  | vpfxt imm20 => exact ExecFrame.vpfxt imm20 s t
  | vpfxd imm12 => exact ExecFrame.vpfxd imm12 s t
  | lvQ vt6 off14 rs => exact ExecFrame.lvQ vt6 off14 rs s t
  | svQ vt6 off14 rs => exact ExecFrame.svQ vt6 off14 rs s t
  | lvlQ vt6 off14 rs => exact ExecFrame.lvlQ vt6 off14 rs s t
  | lvrQ vt6 off14 rs => exact ExecFrame.lvrQ vt6 off14 rs s t
  | svlQ vt6 off14 rs => exact ExecFrame.svlQ vt6 off14 rs s t
  | svrQ vt6 off14 rs => exact ExecFrame.svrQ vt6 off14 rs s t
  | lvS vt off14 rs => exact ExecFrame.lvS vt off14 rs s t
  | svS vt off14 rs => exact ExecFrame.svS vt off14 rs s t
  | vmzero sz vd => exact ExecFrame.vmzero sz vd s t
  | vmone sz vd => exact ExecFrame.vmone sz vd s t
  | vmidt sz vd => exact ExecFrame.vmidt sz vd s t
  | vmmov sz vd vs => exact ExecFrame.vmmov sz vd vs s t
  | vmmul sz vd vs vt => exact ExecFrame.vmmul sz vd vs vt s t
  | vrot sz vd vs imm5 => exact ExecFrame.vrot sz vd vs imm5 s t
  | vt4444Q sz vd vs => exact ExecFrame.vt4444Q sz vd vs s t
  | vt5551Q sz vd vs => exact ExecFrame.vt5551Q sz vd vs s t
  | vt5650Q sz vd vs => exact ExecFrame.vt5650Q sz vd vs s t
  | vadd sz vd vs vt => exact ExecFrame.vadd sz vd vs vt s t
  | vsub sz vd vs vt => exact ExecFrame.vsub sz vd vs vt s t
  | vmul sz vd vs vt => exact ExecFrame.vmul sz vd vs vt s t
  | vdiv sz vd vs vt => exact ExecFrame.vdiv sz vd vs vt s t
  | vmov sz vd vs => exact ExecFrame.vmov sz vd vs s t
  | vabs sz vd vs => exact ExecFrame.vabs sz vd vs s t
  | vneg sz vd vs => exact ExecFrame.vneg sz vd vs s t
  | vzero sz vd => exact ExecFrame.vzero sz vd s t
  | vone sz vd => exact ExecFrame.vone sz vd s t
  | vscl sz vd vs vt => exact ExecFrame.vscl sz vd vs vt s t
  | vdot sz vd vs vt => exact ExecFrame.vdot sz vd vs vt s t
  | viimS vt imm16 => exact ExecFrame.viimS vt imm16 s t
  | mtv rt vd => exact ExecFrame.mtv rt vd s t
  | mfv rt vd => exact ExecFrame.mfv rt vd s t
  | vnop => exact ExecFrame.vnop s t
  | vsync => exact ExecFrame.vsync s t
  | vflush => exact ExecFrame.vflush s t
  | vsin sz vd vs => exact ExecFrame.vsin sz vd vs s t
  | vcos sz vd vs => exact ExecFrame.vcos sz vd vs s t
  | vsqrt sz vd vs => exact ExecFrame.vsqrt sz vd vs s t
  | vtfm2 vd vs vt => exact ExecFrame.vtfm2 vd vs vt s t
  | vtfm3 vd vs vt => exact ExecFrame.vtfm3 vd vs vt s t
  | vtfm4 vd vs vt => exact ExecFrame.vtfm4 vd vs vt s t
  | vcrsT vd vs vt => exact ExecFrame.vcrsT vd vs vt s t
  | vsrt1 sz vd vs => exact ExecFrame.vsrt1 sz vd vs s t
  | vsrt2 sz vd vs => exact ExecFrame.vsrt2 sz vd vs s t
  | vsrt3 sz vd vs => exact ExecFrame.vsrt3 sz vd vs s t
  | vsrt4 sz vd vs => exact ExecFrame.vsrt4 sz vd vs s t
  | vhtfm2 vd vs vt => exact ExecFrame.vhtfm2 vd vs vt s t
  | vhtfm3 vd vs vt => exact ExecFrame.vhtfm3 vd vs vt s t
  | vhtfm4 vd vs vt => exact ExecFrame.vhtfm4 vd vs vt s t
  | vsbn sz vd vs vt => exact ExecFrame.vsbn sz vd vs vt s t
  | vhdp sz vd vs vt => exact ExecFrame.vhdp sz vd vs vt s t
  | vdet sz vd vs vt => exact ExecFrame.vdet sz vd vs vt s t
  | vcmp sz imm4 vs vt => exact ExecFrame.vcmp sz imm4 vs vt s t
  | vmin sz vd vs vt => exact ExecFrame.vmin sz vd vs vt s t
  | vmax sz vd vs vt => exact ExecFrame.vmax sz vd vs vt s t
  | vscmp sz vd vs vt => exact ExecFrame.vscmp sz vd vs vt s t
  | vsge sz vd vs vt => exact ExecFrame.vsge sz vd vs vt s t
  | vslt sz vd vs vt => exact ExecFrame.vslt sz vd vs vt s t
  | vidt sz vd => exact ExecFrame.vidt sz vd s t
  | vsat0 sz vd vs => exact ExecFrame.vsat0 sz vd vs s t
  | vsat1 sz vd vs => exact ExecFrame.vsat1 sz vd vs s t
  | vrcp sz vd vs => exact ExecFrame.vrcp sz vd vs s t
  | vrsq sz vd vs => exact ExecFrame.vrsq sz vd vs s t
  | vexp2 sz vd vs => exact ExecFrame.vexp2 sz vd vs s t
  | vlog2 sz vd vs => exact ExecFrame.vlog2 sz vd vs s t
  | vasin sz vd vs => exact ExecFrame.vasin sz vd vs s t
  | vnrcp sz vd vs => exact ExecFrame.vnrcp sz vd vs s t
  | vnsin sz vd vs => exact ExecFrame.vnsin sz vd vs s t
  | vrexp2 sz vd vs => exact ExecFrame.vrexp2 sz vd vs s t
  | vrnds sz vs => exact ExecFrame.vrnds sz vs s t
  | vrndi sz vd => exact ExecFrame.vrndi sz vd s t
  | vrndf1 sz vd => exact ExecFrame.vrndf1 sz vd s t
  | vrndf2 sz vd => exact ExecFrame.vrndf2 sz vd s t
  | vf2h sz vd vs => exact ExecFrame.vf2h sz vd vs s t
  | vh2f sz vd vs => exact ExecFrame.vh2f sz vd vs s t
  | vsbz sz vd vs => exact ExecFrame.vsbz sz vd vs s t
  | vlgb sz vd vs => exact ExecFrame.vlgb sz vd vs s t
  | vuc2i sz vd vs => exact ExecFrame.vuc2i sz vd vs s t
  | vc2i sz vd vs => exact ExecFrame.vc2i sz vd vs s t
  | vus2i sz vd vs => exact ExecFrame.vus2i sz vd vs s t
  | vs2i sz vd vs => exact ExecFrame.vs2i sz vd vs s t
  | vi2uc sz vd vs => exact ExecFrame.vi2uc sz vd vs s t
  | vi2c sz vd vs => exact ExecFrame.vi2c sz vd vs s t
  | vi2us sz vd vs => exact ExecFrame.vi2us sz vd vs s t
  | vi2s sz vd vs => exact ExecFrame.vi2s sz vd vs s t
  | vbfy1 sz vd vs => exact ExecFrame.vbfy1 sz vd vs s t
  | vbfy2 sz vd vs => exact ExecFrame.vbfy2 sz vd vs s t
  | vocp sz vd vs => exact ExecFrame.vocp sz vd vs s t
  | vsocp sz vd vs => exact ExecFrame.vsocp sz vd vs s t
  | vfad sz vd vs => exact ExecFrame.vfad sz vd vs s t
  | vavg sz vd vs => exact ExecFrame.vavg sz vd vs s t
  | vsgn sz vd vs => exact ExecFrame.vsgn sz vd vs s t
  | vmfvc vd imm7 => exact ExecFrame.vmfvc vd imm7 s t
  | vmtvc imm7 vs => exact ExecFrame.vmtvc imm7 vs s t
  | vcst sz vd imm5 => exact ExecFrame.vcst sz vd imm5 s t
  | vf2in sz vd vs imm5 => exact ExecFrame.vf2in sz vd vs imm5 s t
  | vf2iz sz vd vs imm5 => exact ExecFrame.vf2iz sz vd vs imm5 s t
  | vf2iu sz vd vs imm5 => exact ExecFrame.vf2iu sz vd vs imm5 s t
  | vf2id sz vd vs imm5 => exact ExecFrame.vf2id sz vd vs imm5 s t
  | vi2f sz vd vs imm5 => exact ExecFrame.vi2f sz vd vs imm5 s t
  | vcmovt sz vd vs imm3 => exact ExecFrame.vcmovt sz vd vs imm3 s t
  | vcmovf sz vd vs imm3 => exact ExecFrame.vcmovf sz vd vs imm3 s t
  | vwbn sz vd vs imm8 => exact ExecFrame.vwbn sz vd vs imm8 s t
  | vmscl sz vd vs vt => exact ExecFrame.vmscl sz vd vs vt s t
  | vcrspT vd vs vt => exact ExecFrame.vcrspT vd vs vt s t
  | vqmulQ vd vs vt => exact ExecFrame.vqmulQ vd vs vt s t
  | vfimS vt imm16 => exact ExecFrame.vfimS vt imm16 s t
  | mfvc rt vd => exact ExecFrame.mfvc rt vd s t
  | mtvc rt vd => exact ExecFrame.mtvc rt vd s t
  | syscall code20 => exact ExecFrame.syscall code20 s t
  | brk code20 => exact ExecFrame.brk code20 s t
  | sync => exact ExecFrame.sync s t
  | cache off16 rs => exact ExecFrame.cache off16 rs s t
  | mfic rt => exact ExecFrame.mfic rt s t
  | mtic rt => exact ExecFrame.mtic rt s t
  | mfc0 => exact ExecFrame.mfc0 s t
  | mtc0 => exact ExecFrame.mtc0 s t
  | cfc0 => exact ExecFrame.cfc0 s t
  | ctc0 => exact ExecFrame.ctc0 s t
  | eret => exact ExecFrame.eret s t
  | halt => exact ExecFrame.halt s t
  | dret => exact ExecFrame.dret s t
  | dbreak => exact ExecFrame.dbreak s t
  | mfdr => exact ExecFrame.mfdr s t
  | mtdr => exact ExecFrame.mtdr s t

end Sys2Proof.Machine
end

