-- ==== Sys2Proof/Laws/PerInstr.lean ====
section
/-! SUPPORT. The family `EncodeInRow`: the word of an instruction stands in the instruction's row of the opcode
table, and the row reads the instruction back from it. One lemma per constructor. -/
namespace Sys2Proof.Laws.EncodeInRow

set_option Elab.async false
set_option linter.unusedSimpArgs false

/-- What the family says of an instruction, as syntax. -/
def Statement (i : Instr) : Prop :=
  i.row ∈ table ∧ encode i &&& i.row.mask = i.row.bits ∧ i.row.build (encode i) = i

theorem add (rd : Reg) (rs : Reg) (rt : Reg) : Statement (.add rd rs rt) := by
  refine ⟨mem_table_of_alu (List.mem_of_getElem? (i := 0) rfl), ?_, ?_⟩
  · simp only [encode, Instr.row, rowAdd]
    rw [show 0xFC0007FF#32 = fR 63 0 0 0 31 63 by decide, fR_and]
    simp only [BitVec.ofNat_eq_ofNat, BitVec.and_zero, BitVec.zero_and]
    rfl
  · simp only [encode, Instr.row, rowAdd, regAt, selAt, sizeAt, quadSelAt, singleSelAt, fR_op, fR_rs, fR_rt, fR_rd, fR_sa, fR_fn,
      ofBits_two_one, quadSel_parts, singleSel_parts, BitVec.toFin_ofFin]

theorem addu (rd : Reg) (rs : Reg) (rt : Reg) : Statement (.addu rd rs rt) := by
  refine ⟨mem_table_of_alu (List.mem_of_getElem? (i := 1) rfl), ?_, ?_⟩
  · simp only [encode, Instr.row, rowAddu]
    rw [show 0xFC0007FF#32 = fR 63 0 0 0 31 63 by decide, fR_and]
    simp only [BitVec.ofNat_eq_ofNat, BitVec.and_zero, BitVec.zero_and]
    rfl
  · simp only [encode, Instr.row, rowAddu, regAt, selAt, sizeAt, quadSelAt, singleSelAt, fR_op, fR_rs, fR_rt, fR_rd, fR_sa, fR_fn,
      ofBits_two_one, quadSel_parts, singleSel_parts, BitVec.toFin_ofFin]

theorem addi (rt : Reg) (rs : Reg) (imm16 : BitVec 16) : Statement (.addi rt rs imm16) := by
  refine ⟨mem_table_of_alu (List.mem_of_getElem? (i := 2) rfl), ?_, ?_⟩
  · simp only [encode, Instr.row, rowAddi]
    rw [show 0xFC000000#32 = fI 63 0 0 0 by decide, fI_and]
    simp only [BitVec.ofNat_eq_ofNat, BitVec.and_zero, BitVec.zero_and]
    rfl
  · simp only [encode, Instr.row, rowAddi, regAt, selAt, sizeAt, quadSelAt, singleSelAt, fI_op, fI_rs, fI_rt, fI_imm,
      ofBits_two_one, quadSel_parts, singleSel_parts, BitVec.toFin_ofFin]

theorem addiu (rt : Reg) (rs : Reg) (imm16 : BitVec 16) : Statement (.addiu rt rs imm16) := by
  refine ⟨mem_table_of_alu (List.mem_of_getElem? (i := 3) rfl), ?_, ?_⟩
  · simp only [encode, Instr.row, rowAddiu]
    rw [show 0xFC000000#32 = fI 63 0 0 0 by decide, fI_and]
    simp only [BitVec.ofNat_eq_ofNat, BitVec.and_zero, BitVec.zero_and]
    rfl
  · simp only [encode, Instr.row, rowAddiu, regAt, selAt, sizeAt, quadSelAt, singleSelAt, fI_op, fI_rs, fI_rt, fI_imm,
      ofBits_two_one, quadSel_parts, singleSel_parts, BitVec.toFin_ofFin]

theorem sub (rd : Reg) (rs : Reg) (rt : Reg) : Statement (.sub rd rs rt) := by
  refine ⟨mem_table_of_alu (List.mem_of_getElem? (i := 4) rfl), ?_, ?_⟩
  · simp only [encode, Instr.row, rowSub]
    rw [show 0xFC0007FF#32 = fR 63 0 0 0 31 63 by decide, fR_and]
    simp only [BitVec.ofNat_eq_ofNat, BitVec.and_zero, BitVec.zero_and]
    rfl
  · simp only [encode, Instr.row, rowSub, regAt, selAt, sizeAt, quadSelAt, singleSelAt, fR_op, fR_rs, fR_rt, fR_rd, fR_sa, fR_fn,
      ofBits_two_one, quadSel_parts, singleSel_parts, BitVec.toFin_ofFin]

theorem subu (rd : Reg) (rs : Reg) (rt : Reg) : Statement (.subu rd rs rt) := by
  refine ⟨mem_table_of_alu (List.mem_of_getElem? (i := 5) rfl), ?_, ?_⟩
  · simp only [encode, Instr.row, rowSubu]
    rw [show 0xFC0007FF#32 = fR 63 0 0 0 31 63 by decide, fR_and]
    simp only [BitVec.ofNat_eq_ofNat, BitVec.and_zero, BitVec.zero_and]
    rfl
  · simp only [encode, Instr.row, rowSubu, regAt, selAt, sizeAt, quadSelAt, singleSelAt, fR_op, fR_rs, fR_rt, fR_rd, fR_sa, fR_fn,
      ofBits_two_one, quadSel_parts, singleSel_parts, BitVec.toFin_ofFin]

theorem and (rd : Reg) (rs : Reg) (rt : Reg) : Statement (.and rd rs rt) := by
  refine ⟨mem_table_of_alu (List.mem_of_getElem? (i := 6) rfl), ?_, ?_⟩
  · simp only [encode, Instr.row, rowAnd]
    rw [show 0xFC0007FF#32 = fR 63 0 0 0 31 63 by decide, fR_and]
    simp only [BitVec.ofNat_eq_ofNat, BitVec.and_zero, BitVec.zero_and]
    rfl
  · simp only [encode, Instr.row, rowAnd, regAt, selAt, sizeAt, quadSelAt, singleSelAt, fR_op, fR_rs, fR_rt, fR_rd, fR_sa, fR_fn,
      ofBits_two_one, quadSel_parts, singleSel_parts, BitVec.toFin_ofFin]

theorem or (rd : Reg) (rs : Reg) (rt : Reg) : Statement (.or rd rs rt) := by
  refine ⟨mem_table_of_alu (List.mem_of_getElem? (i := 7) rfl), ?_, ?_⟩
  · simp only [encode, Instr.row, rowOr]
    rw [show 0xFC0007FF#32 = fR 63 0 0 0 31 63 by decide, fR_and]
    simp only [BitVec.ofNat_eq_ofNat, BitVec.and_zero, BitVec.zero_and]
    rfl
  · simp only [encode, Instr.row, rowOr, regAt, selAt, sizeAt, quadSelAt, singleSelAt, fR_op, fR_rs, fR_rt, fR_rd, fR_sa, fR_fn,
      ofBits_two_one, quadSel_parts, singleSel_parts, BitVec.toFin_ofFin]

theorem xor (rd : Reg) (rs : Reg) (rt : Reg) : Statement (.xor rd rs rt) := by
  refine ⟨mem_table_of_alu (List.mem_of_getElem? (i := 8) rfl), ?_, ?_⟩
  · simp only [encode, Instr.row, rowXor]
    rw [show 0xFC0007FF#32 = fR 63 0 0 0 31 63 by decide, fR_and]
    simp only [BitVec.ofNat_eq_ofNat, BitVec.and_zero, BitVec.zero_and]
    rfl
  · simp only [encode, Instr.row, rowXor, regAt, selAt, sizeAt, quadSelAt, singleSelAt, fR_op, fR_rs, fR_rt, fR_rd, fR_sa, fR_fn,
      ofBits_two_one, quadSel_parts, singleSel_parts, BitVec.toFin_ofFin]

theorem nor (rd : Reg) (rs : Reg) (rt : Reg) : Statement (.nor rd rs rt) := by
  refine ⟨mem_table_of_alu (List.mem_of_getElem? (i := 9) rfl), ?_, ?_⟩
  · simp only [encode, Instr.row, rowNor]
    rw [show 0xFC0007FF#32 = fR 63 0 0 0 31 63 by decide, fR_and]
    simp only [BitVec.ofNat_eq_ofNat, BitVec.and_zero, BitVec.zero_and]
    rfl
  · simp only [encode, Instr.row, rowNor, regAt, selAt, sizeAt, quadSelAt, singleSelAt, fR_op, fR_rs, fR_rt, fR_rd, fR_sa, fR_fn,
      ofBits_two_one, quadSel_parts, singleSel_parts, BitVec.toFin_ofFin]

theorem andi (rt : Reg) (rs : Reg) (imm16 : BitVec 16) : Statement (.andi rt rs imm16) := by
  refine ⟨mem_table_of_alu (List.mem_of_getElem? (i := 10) rfl), ?_, ?_⟩
  · simp only [encode, Instr.row, rowAndi]
    rw [show 0xFC000000#32 = fI 63 0 0 0 by decide, fI_and]
    simp only [BitVec.ofNat_eq_ofNat, BitVec.and_zero, BitVec.zero_and]
    rfl
  · simp only [encode, Instr.row, rowAndi, regAt, selAt, sizeAt, quadSelAt, singleSelAt, fI_op, fI_rs, fI_rt, fI_imm,
      ofBits_two_one, quadSel_parts, singleSel_parts, BitVec.toFin_ofFin]

theorem ori (rt : Reg) (rs : Reg) (imm16 : BitVec 16) : Statement (.ori rt rs imm16) := by
  refine ⟨mem_table_of_alu (List.mem_of_getElem? (i := 11) rfl), ?_, ?_⟩
  · simp only [encode, Instr.row, rowOri]
    rw [show 0xFC000000#32 = fI 63 0 0 0 by decide, fI_and]
    simp only [BitVec.ofNat_eq_ofNat, BitVec.and_zero, BitVec.zero_and]
    rfl
  · simp only [encode, Instr.row, rowOri, regAt, selAt, sizeAt, quadSelAt, singleSelAt, fI_op, fI_rs, fI_rt, fI_imm,
      ofBits_two_one, quadSel_parts, singleSel_parts, BitVec.toFin_ofFin]

theorem xori (rt : Reg) (rs : Reg) (imm16 : BitVec 16) : Statement (.xori rt rs imm16) := by
  refine ⟨mem_table_of_alu (List.mem_of_getElem? (i := 12) rfl), ?_, ?_⟩
  · simp only [encode, Instr.row, rowXori]
    rw [show 0xFC000000#32 = fI 63 0 0 0 by decide, fI_and]
    simp only [BitVec.ofNat_eq_ofNat, BitVec.and_zero, BitVec.zero_and]
    rfl
  · simp only [encode, Instr.row, rowXori, regAt, selAt, sizeAt, quadSelAt, singleSelAt, fI_op, fI_rs, fI_rt, fI_imm,
      ofBits_two_one, quadSel_parts, singleSel_parts, BitVec.toFin_ofFin]

theorem lui (rt : Reg) (imm16 : BitVec 16) : Statement (.lui rt imm16) := by
  refine ⟨mem_table_of_alu (List.mem_of_getElem? (i := 13) rfl), ?_, ?_⟩
  · simp only [encode, Instr.row, rowLui]
    rw [show 0xFFE00000#32 = fI 63 31 0 0 by decide, fI_and]
    simp only [BitVec.ofNat_eq_ofNat, BitVec.and_zero, BitVec.zero_and]
    rfl
  · simp only [encode, Instr.row, rowLui, regAt, selAt, sizeAt, quadSelAt, singleSelAt, fI_op, fI_rs, fI_rt, fI_imm,
      ofBits_two_one, quadSel_parts, singleSel_parts, BitVec.toFin_ofFin]

theorem slt (rd : Reg) (rs : Reg) (rt : Reg) : Statement (.slt rd rs rt) := by
  refine ⟨mem_table_of_alu (List.mem_of_getElem? (i := 14) rfl), ?_, ?_⟩
  · simp only [encode, Instr.row, rowSlt]
    rw [show 0xFC0007FF#32 = fR 63 0 0 0 31 63 by decide, fR_and]
    simp only [BitVec.ofNat_eq_ofNat, BitVec.and_zero, BitVec.zero_and]
    rfl
  · simp only [encode, Instr.row, rowSlt, regAt, selAt, sizeAt, quadSelAt, singleSelAt, fR_op, fR_rs, fR_rt, fR_rd, fR_sa, fR_fn,
      ofBits_two_one, quadSel_parts, singleSel_parts, BitVec.toFin_ofFin]

theorem sltu (rd : Reg) (rs : Reg) (rt : Reg) : Statement (.sltu rd rs rt) := by
  refine ⟨mem_table_of_alu (List.mem_of_getElem? (i := 15) rfl), ?_, ?_⟩
  · simp only [encode, Instr.row, rowSltu]
    rw [show 0xFC0007FF#32 = fR 63 0 0 0 31 63 by decide, fR_and]
    simp only [BitVec.ofNat_eq_ofNat, BitVec.and_zero, BitVec.zero_and]
    rfl
  · simp only [encode, Instr.row, rowSltu, regAt, selAt, sizeAt, quadSelAt, singleSelAt, fR_op, fR_rs, fR_rt, fR_rd, fR_sa, fR_fn,
      ofBits_two_one, quadSel_parts, singleSel_parts, BitVec.toFin_ofFin]

theorem slti (rt : Reg) (rs : Reg) (imm16 : BitVec 16) : Statement (.slti rt rs imm16) := by
  refine ⟨mem_table_of_alu (List.mem_of_getElem? (i := 16) rfl), ?_, ?_⟩
  · simp only [encode, Instr.row, rowSlti]
    rw [show 0xFC000000#32 = fI 63 0 0 0 by decide, fI_and]
    simp only [BitVec.ofNat_eq_ofNat, BitVec.and_zero, BitVec.zero_and]
    rfl
  · simp only [encode, Instr.row, rowSlti, regAt, selAt, sizeAt, quadSelAt, singleSelAt, fI_op, fI_rs, fI_rt, fI_imm,
      ofBits_two_one, quadSel_parts, singleSel_parts, BitVec.toFin_ofFin]

theorem sltiu (rt : Reg) (rs : Reg) (imm16 : BitVec 16) : Statement (.sltiu rt rs imm16) := by
  refine ⟨mem_table_of_alu (List.mem_of_getElem? (i := 17) rfl), ?_, ?_⟩
  · simp only [encode, Instr.row, rowSltiu]
    rw [show 0xFC000000#32 = fI 63 0 0 0 by decide, fI_and]
    simp only [BitVec.ofNat_eq_ofNat, BitVec.and_zero, BitVec.zero_and]
    rfl
  · simp only [encode, Instr.row, rowSltiu, regAt, selAt, sizeAt, quadSelAt, singleSelAt, fI_op, fI_rs, fI_rt, fI_imm,
      ofBits_two_one, quadSel_parts, singleSel_parts, BitVec.toFin_ofFin]

theorem sll (rd : Reg) (rt : Reg) (sa : Fin 32) : Statement (.sll rd rt sa) := by
  refine ⟨mem_table_of_alu (List.mem_of_getElem? (i := 18) rfl), ?_, ?_⟩
  · simp only [encode, Instr.row, rowSll]
    rw [show 0xFFE0003F#32 = fR 63 31 0 0 0 63 by decide, fR_and]
    simp only [BitVec.ofNat_eq_ofNat, BitVec.and_zero, BitVec.zero_and]
    rfl
  · simp only [encode, Instr.row, rowSll, regAt, selAt, sizeAt, quadSelAt, singleSelAt, fR_op, fR_rs, fR_rt, fR_rd, fR_sa, fR_fn,
      ofBits_two_one, quadSel_parts, singleSel_parts, BitVec.toFin_ofFin]

theorem srl (rd : Reg) (rt : Reg) (sa : Fin 32) : Statement (.srl rd rt sa) := by
  refine ⟨mem_table_of_alu (List.mem_of_getElem? (i := 19) rfl), ?_, ?_⟩
  · simp only [encode, Instr.row, rowSrl]
    rw [show 0xFFE0003F#32 = fR 63 31 0 0 0 63 by decide, fR_and]
    simp only [BitVec.ofNat_eq_ofNat, BitVec.and_zero, BitVec.zero_and]
    rfl
  · simp only [encode, Instr.row, rowSrl, regAt, selAt, sizeAt, quadSelAt, singleSelAt, fR_op, fR_rs, fR_rt, fR_rd, fR_sa, fR_fn,
      ofBits_two_one, quadSel_parts, singleSel_parts, BitVec.toFin_ofFin]

theorem sra (rd : Reg) (rt : Reg) (sa : Fin 32) : Statement (.sra rd rt sa) := by
  refine ⟨mem_table_of_alu (List.mem_of_getElem? (i := 20) rfl), ?_, ?_⟩
  · simp only [encode, Instr.row, rowSra]
    rw [show 0xFFE0003F#32 = fR 63 31 0 0 0 63 by decide, fR_and]
    simp only [BitVec.ofNat_eq_ofNat, BitVec.and_zero, BitVec.zero_and]
    rfl
  · simp only [encode, Instr.row, rowSra, regAt, selAt, sizeAt, quadSelAt, singleSelAt, fR_op, fR_rs, fR_rt, fR_rd, fR_sa, fR_fn,
      ofBits_two_one, quadSel_parts, singleSel_parts, BitVec.toFin_ofFin]

theorem sllv (rd : Reg) (rt : Reg) (rs : Reg) : Statement (.sllv rd rt rs) := by
  refine ⟨mem_table_of_alu (List.mem_of_getElem? (i := 21) rfl), ?_, ?_⟩
  · simp only [encode, Instr.row, rowSllv]
    rw [show 0xFC0007FF#32 = fR 63 0 0 0 31 63 by decide, fR_and]
    simp only [BitVec.ofNat_eq_ofNat, BitVec.and_zero, BitVec.zero_and]
    rfl
  · simp only [encode, Instr.row, rowSllv, regAt, selAt, sizeAt, quadSelAt, singleSelAt, fR_op, fR_rs, fR_rt, fR_rd, fR_sa, fR_fn,
      ofBits_two_one, quadSel_parts, singleSel_parts, BitVec.toFin_ofFin]

theorem srlv (rd : Reg) (rt : Reg) (rs : Reg) : Statement (.srlv rd rt rs) := by
  refine ⟨mem_table_of_alu (List.mem_of_getElem? (i := 22) rfl), ?_, ?_⟩
  · simp only [encode, Instr.row, rowSrlv]
    rw [show 0xFC0007FF#32 = fR 63 0 0 0 31 63 by decide, fR_and]
    simp only [BitVec.ofNat_eq_ofNat, BitVec.and_zero, BitVec.zero_and]
    rfl
  · simp only [encode, Instr.row, rowSrlv, regAt, selAt, sizeAt, quadSelAt, singleSelAt, fR_op, fR_rs, fR_rt, fR_rd, fR_sa, fR_fn,
      ofBits_two_one, quadSel_parts, singleSel_parts, BitVec.toFin_ofFin]

theorem srav (rd : Reg) (rt : Reg) (rs : Reg) : Statement (.srav rd rt rs) := by
  refine ⟨mem_table_of_alu (List.mem_of_getElem? (i := 23) rfl), ?_, ?_⟩
  · simp only [encode, Instr.row, rowSrav]
    rw [show 0xFC0007FF#32 = fR 63 0 0 0 31 63 by decide, fR_and]
    simp only [BitVec.ofNat_eq_ofNat, BitVec.and_zero, BitVec.zero_and]
    rfl
  · simp only [encode, Instr.row, rowSrav, regAt, selAt, sizeAt, quadSelAt, singleSelAt, fR_op, fR_rs, fR_rt, fR_rd, fR_sa, fR_fn,
      ofBits_two_one, quadSel_parts, singleSel_parts, BitVec.toFin_ofFin]

theorem rotr (rd : Reg) (rt : Reg) (sa : Fin 32) : Statement (.rotr rd rt sa) := by
  refine ⟨mem_table_of_alu (List.mem_of_getElem? (i := 24) rfl), ?_, ?_⟩
  · simp only [encode, Instr.row, rowRotr]
    rw [show 0xFFE0003F#32 = fR 63 31 0 0 0 63 by decide, fR_and]
    simp only [BitVec.ofNat_eq_ofNat, BitVec.and_zero, BitVec.zero_and]
    rfl
  · simp only [encode, Instr.row, rowRotr, regAt, selAt, sizeAt, quadSelAt, singleSelAt, fR_op, fR_rs, fR_rt, fR_rd, fR_sa, fR_fn,
      ofBits_two_one, quadSel_parts, singleSel_parts, BitVec.toFin_ofFin]

theorem rotrv (rd : Reg) (rt : Reg) (rs : Reg) : Statement (.rotrv rd rt rs) := by
  refine ⟨mem_table_of_alu (List.mem_of_getElem? (i := 25) rfl), ?_, ?_⟩
  · simp only [encode, Instr.row, rowRotrv]
    rw [show 0xFC0007FF#32 = fR 63 0 0 0 31 63 by decide, fR_and]
    simp only [BitVec.ofNat_eq_ofNat, BitVec.and_zero, BitVec.zero_and]
    rfl
  · simp only [encode, Instr.row, rowRotrv, regAt, selAt, sizeAt, quadSelAt, singleSelAt, fR_op, fR_rs, fR_rt, fR_rd, fR_sa, fR_fn,
      ofBits_two_one, quadSel_parts, singleSel_parts, BitVec.toFin_ofFin]

theorem ext (rt : Reg) (rs : Reg) (lsb : Fin 32) (msb : Fin 32) : Statement (.ext rt rs lsb msb) := by
  refine ⟨mem_table_of_alu (List.mem_of_getElem? (i := 26) rfl), ?_, ?_⟩
  · simp only [encode, Instr.row, rowExt]
    rw [show 0xFC00003F#32 = fR 63 0 0 0 0 63 by decide, fR_and]
    simp only [BitVec.ofNat_eq_ofNat, BitVec.and_zero, BitVec.zero_and]
    rfl
  · simp only [encode, Instr.row, rowExt, regAt, selAt, sizeAt, quadSelAt, singleSelAt, fR_op, fR_rs, fR_rt, fR_rd, fR_sa, fR_fn,
      ofBits_two_one, quadSel_parts, singleSel_parts, BitVec.toFin_ofFin]

theorem ins (rt : Reg) (rs : Reg) (lsb : Fin 32) (msb : Fin 32) : Statement (.ins rt rs lsb msb) := by
  refine ⟨mem_table_of_alu (List.mem_of_getElem? (i := 27) rfl), ?_, ?_⟩
  · simp only [encode, Instr.row, rowIns]
    rw [show 0xFC00003F#32 = fR 63 0 0 0 0 63 by decide, fR_and]
    simp only [BitVec.ofNat_eq_ofNat, BitVec.and_zero, BitVec.zero_and]
    rfl
  · simp only [encode, Instr.row, rowIns, regAt, selAt, sizeAt, quadSelAt, singleSelAt, fR_op, fR_rs, fR_rt, fR_rd, fR_sa, fR_fn,
      ofBits_two_one, quadSel_parts, singleSel_parts, BitVec.toFin_ofFin]

theorem clz (rd : Reg) (rs : Reg) : Statement (.clz rd rs) := by
  refine ⟨mem_table_of_alu (List.mem_of_getElem? (i := 28) rfl), ?_, ?_⟩
  · simp only [encode, Instr.row, rowClz]
    rw [show 0xFC1F07FF#32 = fR 63 0 31 0 31 63 by decide, fR_and]
    simp only [BitVec.ofNat_eq_ofNat, BitVec.and_zero, BitVec.zero_and]
    rfl
  · simp only [encode, Instr.row, rowClz, regAt, selAt, sizeAt, quadSelAt, singleSelAt, fR_op, fR_rs, fR_rt, fR_rd, fR_sa, fR_fn,
      ofBits_two_one, quadSel_parts, singleSel_parts, BitVec.toFin_ofFin]

theorem clo (rd : Reg) (rs : Reg) : Statement (.clo rd rs) := by
  refine ⟨mem_table_of_alu (List.mem_of_getElem? (i := 29) rfl), ?_, ?_⟩
  · simp only [encode, Instr.row, rowClo]
    rw [show 0xFC1F07FF#32 = fR 63 0 31 0 31 63 by decide, fR_and]
    simp only [BitVec.ofNat_eq_ofNat, BitVec.and_zero, BitVec.zero_and]
    rfl
  · simp only [encode, Instr.row, rowClo, regAt, selAt, sizeAt, quadSelAt, singleSelAt, fR_op, fR_rs, fR_rt, fR_rd, fR_sa, fR_fn,
      ofBits_two_one, quadSel_parts, singleSel_parts, BitVec.toFin_ofFin]

theorem seb (rd : Reg) (rt : Reg) : Statement (.seb rd rt) := by
  refine ⟨mem_table_of_alu (List.mem_of_getElem? (i := 30) rfl), ?_, ?_⟩
  · simp only [encode, Instr.row, rowSeb]
    rw [show 0xFFE007FF#32 = fR 63 31 0 0 31 63 by decide, fR_and]
    simp only [BitVec.ofNat_eq_ofNat, BitVec.and_zero, BitVec.zero_and]
    rfl
  · simp only [encode, Instr.row, rowSeb, regAt, selAt, sizeAt, quadSelAt, singleSelAt, fR_op, fR_rs, fR_rt, fR_rd, fR_sa, fR_fn,
      ofBits_two_one, quadSel_parts, singleSel_parts, BitVec.toFin_ofFin]

theorem seh (rd : Reg) (rt : Reg) : Statement (.seh rd rt) := by
  refine ⟨mem_table_of_alu (List.mem_of_getElem? (i := 31) rfl), ?_, ?_⟩
  · simp only [encode, Instr.row, rowSeh]
    rw [show 0xFFE007FF#32 = fR 63 31 0 0 31 63 by decide, fR_and]
    simp only [BitVec.ofNat_eq_ofNat, BitVec.and_zero, BitVec.zero_and]
    rfl
  · simp only [encode, Instr.row, rowSeh, regAt, selAt, sizeAt, quadSelAt, singleSelAt, fR_op, fR_rs, fR_rt, fR_rd, fR_sa, fR_fn,
      ofBits_two_one, quadSel_parts, singleSel_parts, BitVec.toFin_ofFin]

theorem wsbh (rd : Reg) (rt : Reg) : Statement (.wsbh rd rt) := by
  refine ⟨mem_table_of_alu (List.mem_of_getElem? (i := 32) rfl), ?_, ?_⟩
  · simp only [encode, Instr.row, rowWsbh]
    rw [show 0xFFE007FF#32 = fR 63 31 0 0 31 63 by decide, fR_and]
    simp only [BitVec.ofNat_eq_ofNat, BitVec.and_zero, BitVec.zero_and]
    rfl
  · simp only [encode, Instr.row, rowWsbh, regAt, selAt, sizeAt, quadSelAt, singleSelAt, fR_op, fR_rs, fR_rt, fR_rd, fR_sa, fR_fn,
      ofBits_two_one, quadSel_parts, singleSel_parts, BitVec.toFin_ofFin]

theorem wsbw (rd : Reg) (rt : Reg) : Statement (.wsbw rd rt) := by
  refine ⟨mem_table_of_alu (List.mem_of_getElem? (i := 33) rfl), ?_, ?_⟩
  · simp only [encode, Instr.row, rowWsbw]
    rw [show 0xFFE007FF#32 = fR 63 31 0 0 31 63 by decide, fR_and]
    simp only [BitVec.ofNat_eq_ofNat, BitVec.and_zero, BitVec.zero_and]
    rfl
  · simp only [encode, Instr.row, rowWsbw, regAt, selAt, sizeAt, quadSelAt, singleSelAt, fR_op, fR_rs, fR_rt, fR_rd, fR_sa, fR_fn,
      ofBits_two_one, quadSel_parts, singleSel_parts, BitVec.toFin_ofFin]

theorem bitrev (rd : Reg) (rt : Reg) : Statement (.bitrev rd rt) := by
  refine ⟨mem_table_of_alu (List.mem_of_getElem? (i := 34) rfl), ?_, ?_⟩
  · simp only [encode, Instr.row, rowBitrev]
    rw [show 0xFFE007FF#32 = fR 63 31 0 0 31 63 by decide, fR_and]
    simp only [BitVec.ofNat_eq_ofNat, BitVec.and_zero, BitVec.zero_and]
    rfl
  · simp only [encode, Instr.row, rowBitrev, regAt, selAt, sizeAt, quadSelAt, singleSelAt, fR_op, fR_rs, fR_rt, fR_rd, fR_sa, fR_fn,
      ofBits_two_one, quadSel_parts, singleSel_parts, BitVec.toFin_ofFin]

theorem movz (rd : Reg) (rs : Reg) (rt : Reg) : Statement (.movz rd rs rt) := by
  refine ⟨mem_table_of_alu (List.mem_of_getElem? (i := 35) rfl), ?_, ?_⟩
  · simp only [encode, Instr.row, rowMovz]
    rw [show 0xFC0007FF#32 = fR 63 0 0 0 31 63 by decide, fR_and]
    simp only [BitVec.ofNat_eq_ofNat, BitVec.and_zero, BitVec.zero_and]
    rfl
  · simp only [encode, Instr.row, rowMovz, regAt, selAt, sizeAt, quadSelAt, singleSelAt, fR_op, fR_rs, fR_rt, fR_rd, fR_sa, fR_fn,
      ofBits_two_one, quadSel_parts, singleSel_parts, BitVec.toFin_ofFin]

theorem movn (rd : Reg) (rs : Reg) (rt : Reg) : Statement (.movn rd rs rt) := by
  refine ⟨mem_table_of_alu (List.mem_of_getElem? (i := 36) rfl), ?_, ?_⟩
  · simp only [encode, Instr.row, rowMovn]
    rw [show 0xFC0007FF#32 = fR 63 0 0 0 31 63 by decide, fR_and]
    simp only [BitVec.ofNat_eq_ofNat, BitVec.and_zero, BitVec.zero_and]
    rfl
  · simp only [encode, Instr.row, rowMovn, regAt, selAt, sizeAt, quadSelAt, singleSelAt, fR_op, fR_rs, fR_rt, fR_rd, fR_sa, fR_fn,
      ofBits_two_one, quadSel_parts, singleSel_parts, BitVec.toFin_ofFin]

theorem max (rd : Reg) (rs : Reg) (rt : Reg) : Statement (.max rd rs rt) := by
  refine ⟨mem_table_of_alu (List.mem_of_getElem? (i := 37) rfl), ?_, ?_⟩
  · simp only [encode, Instr.row, rowMax]
    rw [show 0xFC0007FF#32 = fR 63 0 0 0 31 63 by decide, fR_and]
    simp only [BitVec.ofNat_eq_ofNat, BitVec.and_zero, BitVec.zero_and]
    rfl
  · simp only [encode, Instr.row, rowMax, regAt, selAt, sizeAt, quadSelAt, singleSelAt, fR_op, fR_rs, fR_rt, fR_rd, fR_sa, fR_fn,
      ofBits_two_one, quadSel_parts, singleSel_parts, BitVec.toFin_ofFin]

theorem min (rd : Reg) (rs : Reg) (rt : Reg) : Statement (.min rd rs rt) := by
  refine ⟨mem_table_of_alu (List.mem_of_getElem? (i := 38) rfl), ?_, ?_⟩
  · simp only [encode, Instr.row, rowMin]
    rw [show 0xFC0007FF#32 = fR 63 0 0 0 31 63 by decide, fR_and]
    simp only [BitVec.ofNat_eq_ofNat, BitVec.and_zero, BitVec.zero_and]
    rfl
  · simp only [encode, Instr.row, rowMin, regAt, selAt, sizeAt, quadSelAt, singleSelAt, fR_op, fR_rs, fR_rt, fR_rd, fR_sa, fR_fn,
      ofBits_two_one, quadSel_parts, singleSel_parts, BitVec.toFin_ofFin]

theorem mult (rs : Reg) (rt : Reg) : Statement (.mult rs rt) := by
  refine ⟨mem_table_of_mulDiv (List.mem_of_getElem? (i := 0) rfl), ?_, ?_⟩
  · simp only [encode, Instr.row, rowMult]
    rw [show 0xFC00FFFF#32 = fR 63 0 0 31 31 63 by decide, fR_and]
    simp only [BitVec.ofNat_eq_ofNat, BitVec.and_zero, BitVec.zero_and]
    rfl
  · simp only [encode, Instr.row, rowMult, regAt, selAt, sizeAt, quadSelAt, singleSelAt, fR_op, fR_rs, fR_rt, fR_rd, fR_sa, fR_fn,
      ofBits_two_one, quadSel_parts, singleSel_parts, BitVec.toFin_ofFin]

theorem multu (rs : Reg) (rt : Reg) : Statement (.multu rs rt) := by
  refine ⟨mem_table_of_mulDiv (List.mem_of_getElem? (i := 1) rfl), ?_, ?_⟩
  · simp only [encode, Instr.row, rowMultu]
    rw [show 0xFC00FFFF#32 = fR 63 0 0 31 31 63 by decide, fR_and]
    simp only [BitVec.ofNat_eq_ofNat, BitVec.and_zero, BitVec.zero_and]
    rfl
  · simp only [encode, Instr.row, rowMultu, regAt, selAt, sizeAt, quadSelAt, singleSelAt, fR_op, fR_rs, fR_rt, fR_rd, fR_sa, fR_fn,
      ofBits_two_one, quadSel_parts, singleSel_parts, BitVec.toFin_ofFin]

theorem div (rs : Reg) (rt : Reg) : Statement (.div rs rt) := by
  refine ⟨mem_table_of_mulDiv (List.mem_of_getElem? (i := 2) rfl), ?_, ?_⟩
  · simp only [encode, Instr.row, rowDiv]
    rw [show 0xFC00FFFF#32 = fR 63 0 0 31 31 63 by decide, fR_and]
    simp only [BitVec.ofNat_eq_ofNat, BitVec.and_zero, BitVec.zero_and]
    rfl
  · simp only [encode, Instr.row, rowDiv, regAt, selAt, sizeAt, quadSelAt, singleSelAt, fR_op, fR_rs, fR_rt, fR_rd, fR_sa, fR_fn,
      ofBits_two_one, quadSel_parts, singleSel_parts, BitVec.toFin_ofFin]

theorem divu (rs : Reg) (rt : Reg) : Statement (.divu rs rt) := by
  refine ⟨mem_table_of_mulDiv (List.mem_of_getElem? (i := 3) rfl), ?_, ?_⟩
  · simp only [encode, Instr.row, rowDivu]
    rw [show 0xFC00FFFF#32 = fR 63 0 0 31 31 63 by decide, fR_and]
    simp only [BitVec.ofNat_eq_ofNat, BitVec.and_zero, BitVec.zero_and]
    rfl
  · simp only [encode, Instr.row, rowDivu, regAt, selAt, sizeAt, quadSelAt, singleSelAt, fR_op, fR_rs, fR_rt, fR_rd, fR_sa, fR_fn,
      ofBits_two_one, quadSel_parts, singleSel_parts, BitVec.toFin_ofFin]

theorem madd (rs : Reg) (rt : Reg) : Statement (.madd rs rt) := by
  refine ⟨mem_table_of_mulDiv (List.mem_of_getElem? (i := 4) rfl), ?_, ?_⟩
  · simp only [encode, Instr.row, rowMadd]
    rw [show 0xFC00FFFF#32 = fR 63 0 0 31 31 63 by decide, fR_and]
    simp only [BitVec.ofNat_eq_ofNat, BitVec.and_zero, BitVec.zero_and]
    rfl
  · simp only [encode, Instr.row, rowMadd, regAt, selAt, sizeAt, quadSelAt, singleSelAt, fR_op, fR_rs, fR_rt, fR_rd, fR_sa, fR_fn,
      ofBits_two_one, quadSel_parts, singleSel_parts, BitVec.toFin_ofFin]

theorem maddu (rs : Reg) (rt : Reg) : Statement (.maddu rs rt) := by
  refine ⟨mem_table_of_mulDiv (List.mem_of_getElem? (i := 5) rfl), ?_, ?_⟩
  · simp only [encode, Instr.row, rowMaddu]
    rw [show 0xFC00FFFF#32 = fR 63 0 0 31 31 63 by decide, fR_and]
    simp only [BitVec.ofNat_eq_ofNat, BitVec.and_zero, BitVec.zero_and]
    rfl
  · simp only [encode, Instr.row, rowMaddu, regAt, selAt, sizeAt, quadSelAt, singleSelAt, fR_op, fR_rs, fR_rt, fR_rd, fR_sa, fR_fn,
      ofBits_two_one, quadSel_parts, singleSel_parts, BitVec.toFin_ofFin]

theorem msub (rs : Reg) (rt : Reg) : Statement (.msub rs rt) := by
  refine ⟨mem_table_of_mulDiv (List.mem_of_getElem? (i := 6) rfl), ?_, ?_⟩
  · simp only [encode, Instr.row, rowMsub]
    rw [show 0xFC00FFFF#32 = fR 63 0 0 31 31 63 by decide, fR_and]
    simp only [BitVec.ofNat_eq_ofNat, BitVec.and_zero, BitVec.zero_and]
    rfl
  · simp only [encode, Instr.row, rowMsub, regAt, selAt, sizeAt, quadSelAt, singleSelAt, fR_op, fR_rs, fR_rt, fR_rd, fR_sa, fR_fn,
      ofBits_two_one, quadSel_parts, singleSel_parts, BitVec.toFin_ofFin]

theorem msubu (rs : Reg) (rt : Reg) : Statement (.msubu rs rt) := by
  refine ⟨mem_table_of_mulDiv (List.mem_of_getElem? (i := 7) rfl), ?_, ?_⟩
  · simp only [encode, Instr.row, rowMsubu]
    rw [show 0xFC00FFFF#32 = fR 63 0 0 31 31 63 by decide, fR_and]
    simp only [BitVec.ofNat_eq_ofNat, BitVec.and_zero, BitVec.zero_and]
    rfl
  · simp only [encode, Instr.row, rowMsubu, regAt, selAt, sizeAt, quadSelAt, singleSelAt, fR_op, fR_rs, fR_rt, fR_rd, fR_sa, fR_fn,
      ofBits_two_one, quadSel_parts, singleSel_parts, BitVec.toFin_ofFin]

theorem mfhi (rd : Reg) : Statement (.mfhi rd) := by
  refine ⟨mem_table_of_mulDiv (List.mem_of_getElem? (i := 8) rfl), ?_, ?_⟩
  · simp only [encode, Instr.row, rowMfhi]
    rw [show 0xFFFF07FF#32 = fR 63 31 31 0 31 63 by decide, fR_and]
    simp only [BitVec.ofNat_eq_ofNat, BitVec.and_zero, BitVec.zero_and]
    rfl
  · simp only [encode, Instr.row, rowMfhi, regAt, selAt, sizeAt, quadSelAt, singleSelAt, fR_op, fR_rs, fR_rt, fR_rd, fR_sa, fR_fn,
      ofBits_two_one, quadSel_parts, singleSel_parts, BitVec.toFin_ofFin]

theorem mflo (rd : Reg) : Statement (.mflo rd) := by
  refine ⟨mem_table_of_mulDiv (List.mem_of_getElem? (i := 9) rfl), ?_, ?_⟩
  · simp only [encode, Instr.row, rowMflo]
    rw [show 0xFFFF07FF#32 = fR 63 31 31 0 31 63 by decide, fR_and]
    simp only [BitVec.ofNat_eq_ofNat, BitVec.and_zero, BitVec.zero_and]
    rfl
  · simp only [encode, Instr.row, rowMflo, regAt, selAt, sizeAt, quadSelAt, singleSelAt, fR_op, fR_rs, fR_rt, fR_rd, fR_sa, fR_fn,
      ofBits_two_one, quadSel_parts, singleSel_parts, BitVec.toFin_ofFin]

theorem mthi (rs : Reg) : Statement (.mthi rs) := by
  refine ⟨mem_table_of_mulDiv (List.mem_of_getElem? (i := 10) rfl), ?_, ?_⟩
  · simp only [encode, Instr.row, rowMthi]
    rw [show 0xFC1FFFFF#32 = fR 63 0 31 31 31 63 by decide, fR_and]
    simp only [BitVec.ofNat_eq_ofNat, BitVec.and_zero, BitVec.zero_and]
    rfl
  · simp only [encode, Instr.row, rowMthi, regAt, selAt, sizeAt, quadSelAt, singleSelAt, fR_op, fR_rs, fR_rt, fR_rd, fR_sa, fR_fn,
      ofBits_two_one, quadSel_parts, singleSel_parts, BitVec.toFin_ofFin]

theorem mtlo (rs : Reg) : Statement (.mtlo rs) := by
  refine ⟨mem_table_of_mulDiv (List.mem_of_getElem? (i := 11) rfl), ?_, ?_⟩
  · simp only [encode, Instr.row, rowMtlo]
    rw [show 0xFC1FFFFF#32 = fR 63 0 31 31 31 63 by decide, fR_and]
    simp only [BitVec.ofNat_eq_ofNat, BitVec.and_zero, BitVec.zero_and]
    rfl
  · simp only [encode, Instr.row, rowMtlo, regAt, selAt, sizeAt, quadSelAt, singleSelAt, fR_op, fR_rs, fR_rt, fR_rd, fR_sa, fR_fn,
      ofBits_two_one, quadSel_parts, singleSel_parts, BitVec.toFin_ofFin]

theorem lb (rt : Reg) (off16 : BitVec 16) (rs : Reg) : Statement (.lb rt off16 rs) := by
  refine ⟨mem_table_of_loadStore (List.mem_of_getElem? (i := 0) rfl), ?_, ?_⟩
  · simp only [encode, Instr.row, rowLb]
    rw [show 0xFC000000#32 = fI 63 0 0 0 by decide, fI_and]
    simp only [BitVec.ofNat_eq_ofNat, BitVec.and_zero, BitVec.zero_and]
    rfl
  · simp only [encode, Instr.row, rowLb, regAt, selAt, sizeAt, quadSelAt, singleSelAt, fI_op, fI_rs, fI_rt, fI_imm,
      ofBits_two_one, quadSel_parts, singleSel_parts, BitVec.toFin_ofFin]

theorem lbu (rt : Reg) (off16 : BitVec 16) (rs : Reg) : Statement (.lbu rt off16 rs) := by
  refine ⟨mem_table_of_loadStore (List.mem_of_getElem? (i := 1) rfl), ?_, ?_⟩
  · simp only [encode, Instr.row, rowLbu]
    rw [show 0xFC000000#32 = fI 63 0 0 0 by decide, fI_and]
    simp only [BitVec.ofNat_eq_ofNat, BitVec.and_zero, BitVec.zero_and]
    rfl
  · simp only [encode, Instr.row, rowLbu, regAt, selAt, sizeAt, quadSelAt, singleSelAt, fI_op, fI_rs, fI_rt, fI_imm,
      ofBits_two_one, quadSel_parts, singleSel_parts, BitVec.toFin_ofFin]

theorem lh (rt : Reg) (off16 : BitVec 16) (rs : Reg) : Statement (.lh rt off16 rs) := by
  refine ⟨mem_table_of_loadStore (List.mem_of_getElem? (i := 2) rfl), ?_, ?_⟩
  · simp only [encode, Instr.row, rowLh]
    rw [show 0xFC000000#32 = fI 63 0 0 0 by decide, fI_and]
    simp only [BitVec.ofNat_eq_ofNat, BitVec.and_zero, BitVec.zero_and]
    rfl
  · simp only [encode, Instr.row, rowLh, regAt, selAt, sizeAt, quadSelAt, singleSelAt, fI_op, fI_rs, fI_rt, fI_imm,
      ofBits_two_one, quadSel_parts, singleSel_parts, BitVec.toFin_ofFin]

theorem lhu (rt : Reg) (off16 : BitVec 16) (rs : Reg) : Statement (.lhu rt off16 rs) := by
  refine ⟨mem_table_of_loadStore (List.mem_of_getElem? (i := 3) rfl), ?_, ?_⟩
  · simp only [encode, Instr.row, rowLhu]
    rw [show 0xFC000000#32 = fI 63 0 0 0 by decide, fI_and]
    simp only [BitVec.ofNat_eq_ofNat, BitVec.and_zero, BitVec.zero_and]
    rfl
  · simp only [encode, Instr.row, rowLhu, regAt, selAt, sizeAt, quadSelAt, singleSelAt, fI_op, fI_rs, fI_rt, fI_imm,
      ofBits_two_one, quadSel_parts, singleSel_parts, BitVec.toFin_ofFin]

theorem lw (rt : Reg) (off16 : BitVec 16) (rs : Reg) : Statement (.lw rt off16 rs) := by
  refine ⟨mem_table_of_loadStore (List.mem_of_getElem? (i := 4) rfl), ?_, ?_⟩
  · simp only [encode, Instr.row, rowLw]
    rw [show 0xFC000000#32 = fI 63 0 0 0 by decide, fI_and]
    simp only [BitVec.ofNat_eq_ofNat, BitVec.and_zero, BitVec.zero_and]
    rfl
  · simp only [encode, Instr.row, rowLw, regAt, selAt, sizeAt, quadSelAt, singleSelAt, fI_op, fI_rs, fI_rt, fI_imm,
      ofBits_two_one, quadSel_parts, singleSel_parts, BitVec.toFin_ofFin]

theorem sb (rt : Reg) (off16 : BitVec 16) (rs : Reg) : Statement (.sb rt off16 rs) := by
  refine ⟨mem_table_of_loadStore (List.mem_of_getElem? (i := 5) rfl), ?_, ?_⟩
  · simp only [encode, Instr.row, rowSb]
    rw [show 0xFC000000#32 = fI 63 0 0 0 by decide, fI_and]
    simp only [BitVec.ofNat_eq_ofNat, BitVec.and_zero, BitVec.zero_and]
    rfl
  · simp only [encode, Instr.row, rowSb, regAt, selAt, sizeAt, quadSelAt, singleSelAt, fI_op, fI_rs, fI_rt, fI_imm,
      ofBits_two_one, quadSel_parts, singleSel_parts, BitVec.toFin_ofFin]

theorem sh (rt : Reg) (off16 : BitVec 16) (rs : Reg) : Statement (.sh rt off16 rs) := by
  refine ⟨mem_table_of_loadStore (List.mem_of_getElem? (i := 6) rfl), ?_, ?_⟩
  · simp only [encode, Instr.row, rowSh]
    rw [show 0xFC000000#32 = fI 63 0 0 0 by decide, fI_and]
    simp only [BitVec.ofNat_eq_ofNat, BitVec.and_zero, BitVec.zero_and]
    rfl
  · simp only [encode, Instr.row, rowSh, regAt, selAt, sizeAt, quadSelAt, singleSelAt, fI_op, fI_rs, fI_rt, fI_imm,
      ofBits_two_one, quadSel_parts, singleSel_parts, BitVec.toFin_ofFin]

theorem sw (rt : Reg) (off16 : BitVec 16) (rs : Reg) : Statement (.sw rt off16 rs) := by
  refine ⟨mem_table_of_loadStore (List.mem_of_getElem? (i := 7) rfl), ?_, ?_⟩
  · simp only [encode, Instr.row, rowSw]
    rw [show 0xFC000000#32 = fI 63 0 0 0 by decide, fI_and]
    simp only [BitVec.ofNat_eq_ofNat, BitVec.and_zero, BitVec.zero_and]
    rfl
  · simp only [encode, Instr.row, rowSw, regAt, selAt, sizeAt, quadSelAt, singleSelAt, fI_op, fI_rs, fI_rt, fI_imm,
      ofBits_two_one, quadSel_parts, singleSel_parts, BitVec.toFin_ofFin]

theorem lwl (rt : Reg) (off16 : BitVec 16) (rs : Reg) : Statement (.lwl rt off16 rs) := by
  refine ⟨mem_table_of_loadStore (List.mem_of_getElem? (i := 8) rfl), ?_, ?_⟩
  · simp only [encode, Instr.row, rowLwl]
    rw [show 0xFC000000#32 = fI 63 0 0 0 by decide, fI_and]
    simp only [BitVec.ofNat_eq_ofNat, BitVec.and_zero, BitVec.zero_and]
    rfl
  · simp only [encode, Instr.row, rowLwl, regAt, selAt, sizeAt, quadSelAt, singleSelAt, fI_op, fI_rs, fI_rt, fI_imm,
      ofBits_two_one, quadSel_parts, singleSel_parts, BitVec.toFin_ofFin]

theorem lwr (rt : Reg) (off16 : BitVec 16) (rs : Reg) : Statement (.lwr rt off16 rs) := by
  refine ⟨mem_table_of_loadStore (List.mem_of_getElem? (i := 9) rfl), ?_, ?_⟩
  · simp only [encode, Instr.row, rowLwr]
    rw [show 0xFC000000#32 = fI 63 0 0 0 by decide, fI_and]
    simp only [BitVec.ofNat_eq_ofNat, BitVec.and_zero, BitVec.zero_and]
    rfl
  · simp only [encode, Instr.row, rowLwr, regAt, selAt, sizeAt, quadSelAt, singleSelAt, fI_op, fI_rs, fI_rt, fI_imm,
      ofBits_two_one, quadSel_parts, singleSel_parts, BitVec.toFin_ofFin]

theorem swl (rt : Reg) (off16 : BitVec 16) (rs : Reg) : Statement (.swl rt off16 rs) := by
  refine ⟨mem_table_of_loadStore (List.mem_of_getElem? (i := 10) rfl), ?_, ?_⟩
  · simp only [encode, Instr.row, rowSwl]
    rw [show 0xFC000000#32 = fI 63 0 0 0 by decide, fI_and]
    simp only [BitVec.ofNat_eq_ofNat, BitVec.and_zero, BitVec.zero_and]
    rfl
  · simp only [encode, Instr.row, rowSwl, regAt, selAt, sizeAt, quadSelAt, singleSelAt, fI_op, fI_rs, fI_rt, fI_imm,
      ofBits_two_one, quadSel_parts, singleSel_parts, BitVec.toFin_ofFin]

theorem swr (rt : Reg) (off16 : BitVec 16) (rs : Reg) : Statement (.swr rt off16 rs) := by
  refine ⟨mem_table_of_loadStore (List.mem_of_getElem? (i := 11) rfl), ?_, ?_⟩
  · simp only [encode, Instr.row, rowSwr]
    rw [show 0xFC000000#32 = fI 63 0 0 0 by decide, fI_and]
    simp only [BitVec.ofNat_eq_ofNat, BitVec.and_zero, BitVec.zero_and]
    rfl
  · simp only [encode, Instr.row, rowSwr, regAt, selAt, sizeAt, quadSelAt, singleSelAt, fI_op, fI_rs, fI_rt, fI_imm,
      ofBits_two_one, quadSel_parts, singleSel_parts, BitVec.toFin_ofFin]

theorem lwc1 (ft : FReg) (off16 : BitVec 16) (rs : Reg) : Statement (.lwc1 ft off16 rs) := by
  refine ⟨mem_table_of_loadStore (List.mem_of_getElem? (i := 12) rfl), ?_, ?_⟩
  · simp only [encode, Instr.row, rowLwc1]
    rw [show 0xFC000000#32 = fI 63 0 0 0 by decide, fI_and]
    simp only [BitVec.ofNat_eq_ofNat, BitVec.and_zero, BitVec.zero_and]
    rfl
  · simp only [encode, Instr.row, rowLwc1, regAt, selAt, sizeAt, quadSelAt, singleSelAt, fI_op, fI_rs, fI_rt, fI_imm,
      ofBits_two_one, quadSel_parts, singleSel_parts, BitVec.toFin_ofFin]

theorem swc1 (ft : FReg) (off16 : BitVec 16) (rs : Reg) : Statement (.swc1 ft off16 rs) := by
  refine ⟨mem_table_of_loadStore (List.mem_of_getElem? (i := 13) rfl), ?_, ?_⟩
  · simp only [encode, Instr.row, rowSwc1]
    rw [show 0xFC000000#32 = fI 63 0 0 0 by decide, fI_and]
    simp only [BitVec.ofNat_eq_ofNat, BitVec.and_zero, BitVec.zero_and]
    rfl
  · simp only [encode, Instr.row, rowSwc1, regAt, selAt, sizeAt, quadSelAt, singleSelAt, fI_op, fI_rs, fI_rt, fI_imm,
      ofBits_two_one, quadSel_parts, singleSel_parts, BitVec.toFin_ofFin]

theorem ll (rt : Reg) (off16 : BitVec 16) (rs : Reg) : Statement (.ll rt off16 rs) := by
  refine ⟨mem_table_of_loadStore (List.mem_of_getElem? (i := 14) rfl), ?_, ?_⟩
  · simp only [encode, Instr.row, rowLl]
    rw [show 0xFC000000#32 = fI 63 0 0 0 by decide, fI_and]
    simp only [BitVec.ofNat_eq_ofNat, BitVec.and_zero, BitVec.zero_and]
    rfl
  · simp only [encode, Instr.row, rowLl, regAt, selAt, sizeAt, quadSelAt, singleSelAt, fI_op, fI_rs, fI_rt, fI_imm,
      ofBits_two_one, quadSel_parts, singleSel_parts, BitVec.toFin_ofFin]

theorem sc (rt : Reg) (off16 : BitVec 16) (rs : Reg) : Statement (.sc rt off16 rs) := by
  refine ⟨mem_table_of_loadStore (List.mem_of_getElem? (i := 15) rfl), ?_, ?_⟩
  · simp only [encode, Instr.row, rowSc]
    rw [show 0xFC000000#32 = fI 63 0 0 0 by decide, fI_and]
    simp only [BitVec.ofNat_eq_ofNat, BitVec.and_zero, BitVec.zero_and]
    rfl
  · simp only [encode, Instr.row, rowSc, regAt, selAt, sizeAt, quadSelAt, singleSelAt, fI_op, fI_rs, fI_rt, fI_imm,
      ofBits_two_one, quadSel_parts, singleSel_parts, BitVec.toFin_ofFin]

theorem beq (rs : Reg) (rt : Reg) (off16 : BitVec 16) : Statement (.beq rs rt off16) := by
  refine ⟨mem_table_of_branch (List.mem_of_getElem? (i := 0) rfl), ?_, ?_⟩
  · simp only [encode, Instr.row, rowBeq]
    rw [show 0xFC000000#32 = fI 63 0 0 0 by decide, fI_and]
    simp only [BitVec.ofNat_eq_ofNat, BitVec.and_zero, BitVec.zero_and]
    rfl
  · simp only [encode, Instr.row, rowBeq, regAt, selAt, sizeAt, quadSelAt, singleSelAt, fI_op, fI_rs, fI_rt, fI_imm,
      ofBits_two_one, quadSel_parts, singleSel_parts, BitVec.toFin_ofFin]

theorem bne (rs : Reg) (rt : Reg) (off16 : BitVec 16) : Statement (.bne rs rt off16) := by
  refine ⟨mem_table_of_branch (List.mem_of_getElem? (i := 1) rfl), ?_, ?_⟩
  · simp only [encode, Instr.row, rowBne]
    rw [show 0xFC000000#32 = fI 63 0 0 0 by decide, fI_and]
    simp only [BitVec.ofNat_eq_ofNat, BitVec.and_zero, BitVec.zero_and]
    rfl
  · simp only [encode, Instr.row, rowBne, regAt, selAt, sizeAt, quadSelAt, singleSelAt, fI_op, fI_rs, fI_rt, fI_imm,
      ofBits_two_one, quadSel_parts, singleSel_parts, BitVec.toFin_ofFin]

theorem blez (rs : Reg) (off16 : BitVec 16) : Statement (.blez rs off16) := by
  refine ⟨mem_table_of_branch (List.mem_of_getElem? (i := 2) rfl), ?_, ?_⟩
  · simp only [encode, Instr.row, rowBlez]
    rw [show 0xFC1F0000#32 = fI 63 0 31 0 by decide, fI_and]
    simp only [BitVec.ofNat_eq_ofNat, BitVec.and_zero, BitVec.zero_and]
    rfl
  · simp only [encode, Instr.row, rowBlez, regAt, selAt, sizeAt, quadSelAt, singleSelAt, fI_op, fI_rs, fI_rt, fI_imm,
      ofBits_two_one, quadSel_parts, singleSel_parts, BitVec.toFin_ofFin]

theorem bgtz (rs : Reg) (off16 : BitVec 16) : Statement (.bgtz rs off16) := by
  refine ⟨mem_table_of_branch (List.mem_of_getElem? (i := 3) rfl), ?_, ?_⟩
  · simp only [encode, Instr.row, rowBgtz]
    rw [show 0xFC1F0000#32 = fI 63 0 31 0 by decide, fI_and]
    simp only [BitVec.ofNat_eq_ofNat, BitVec.and_zero, BitVec.zero_and]
    rfl
  · simp only [encode, Instr.row, rowBgtz, regAt, selAt, sizeAt, quadSelAt, singleSelAt, fI_op, fI_rs, fI_rt, fI_imm,
      ofBits_two_one, quadSel_parts, singleSel_parts, BitVec.toFin_ofFin]

theorem bltz (rs : Reg) (off16 : BitVec 16) : Statement (.bltz rs off16) := by
  refine ⟨mem_table_of_branch (List.mem_of_getElem? (i := 4) rfl), ?_, ?_⟩
  · simp only [encode, Instr.row, rowBltz]
    rw [show 0xFC1F0000#32 = fI 63 0 31 0 by decide, fI_and]
    simp only [BitVec.ofNat_eq_ofNat, BitVec.and_zero, BitVec.zero_and]
    rfl
  · simp only [encode, Instr.row, rowBltz, regAt, selAt, sizeAt, quadSelAt, singleSelAt, fI_op, fI_rs, fI_rt, fI_imm,
      ofBits_two_one, quadSel_parts, singleSel_parts, BitVec.toFin_ofFin]

theorem bgez (rs : Reg) (off16 : BitVec 16) : Statement (.bgez rs off16) := by
  refine ⟨mem_table_of_branch (List.mem_of_getElem? (i := 5) rfl), ?_, ?_⟩
  · simp only [encode, Instr.row, rowBgez]
    rw [show 0xFC1F0000#32 = fI 63 0 31 0 by decide, fI_and]
    simp only [BitVec.ofNat_eq_ofNat, BitVec.and_zero, BitVec.zero_and]
    rfl
  · simp only [encode, Instr.row, rowBgez, regAt, selAt, sizeAt, quadSelAt, singleSelAt, fI_op, fI_rs, fI_rt, fI_imm,
      ofBits_two_one, quadSel_parts, singleSel_parts, BitVec.toFin_ofFin]

theorem j (imm26 : BitVec 26) : Statement (.j imm26) := by
  refine ⟨mem_table_of_branch (List.mem_of_getElem? (i := 6) rfl), ?_, ?_⟩
  · simp only [encode, Instr.row, rowJ]
    rw [show 0xFC000000#32 = fJ 63 0 by decide, fJ_and]
    simp only [BitVec.ofNat_eq_ofNat, BitVec.and_zero, BitVec.zero_and]
    rfl
  · simp only [encode, Instr.row, rowJ, regAt, selAt, sizeAt, quadSelAt, singleSelAt, fJ_op, fJ_target,
      ofBits_two_one, quadSel_parts, singleSel_parts, BitVec.toFin_ofFin]

theorem jal (imm26 : BitVec 26) : Statement (.jal imm26) := by
  refine ⟨mem_table_of_branch (List.mem_of_getElem? (i := 7) rfl), ?_, ?_⟩
  · simp only [encode, Instr.row, rowJal]
    rw [show 0xFC000000#32 = fJ 63 0 by decide, fJ_and]
    simp only [BitVec.ofNat_eq_ofNat, BitVec.and_zero, BitVec.zero_and]
    rfl
  · simp only [encode, Instr.row, rowJal, regAt, selAt, sizeAt, quadSelAt, singleSelAt, fJ_op, fJ_target,
      ofBits_two_one, quadSel_parts, singleSel_parts, BitVec.toFin_ofFin]

theorem jr (rs : Reg) : Statement (.jr rs) := by
  refine ⟨mem_table_of_branch (List.mem_of_getElem? (i := 8) rfl), ?_, ?_⟩
  · simp only [encode, Instr.row, rowJr]
    rw [show 0xFC1FFFFF#32 = fR 63 0 31 31 31 63 by decide, fR_and]
    simp only [BitVec.ofNat_eq_ofNat, BitVec.and_zero, BitVec.zero_and]
    rfl
  · simp only [encode, Instr.row, rowJr, regAt, selAt, sizeAt, quadSelAt, singleSelAt, fR_op, fR_rs, fR_rt, fR_rd, fR_sa, fR_fn,
      ofBits_two_one, quadSel_parts, singleSel_parts, BitVec.toFin_ofFin]

theorem jalr (rd : Reg) (rs : Reg) : Statement (.jalr rd rs) := by
  refine ⟨mem_table_of_branch (List.mem_of_getElem? (i := 9) rfl), ?_, ?_⟩
  · simp only [encode, Instr.row, rowJalr]
    rw [show 0xFC1F07FF#32 = fR 63 0 31 0 31 63 by decide, fR_and]
    simp only [BitVec.ofNat_eq_ofNat, BitVec.and_zero, BitVec.zero_and]
    rfl
  · simp only [encode, Instr.row, rowJalr, regAt, selAt, sizeAt, quadSelAt, singleSelAt, fR_op, fR_rs, fR_rt, fR_rd, fR_sa, fR_fn,
      ofBits_two_one, quadSel_parts, singleSel_parts, BitVec.toFin_ofFin]

theorem bltzal (rs : Reg) (off16 : BitVec 16) : Statement (.bltzal rs off16) := by
  refine ⟨mem_table_of_branch (List.mem_of_getElem? (i := 10) rfl), ?_, ?_⟩
  · simp only [encode, Instr.row, rowBltzal]
    rw [show 0xFC1F0000#32 = fI 63 0 31 0 by decide, fI_and]
    simp only [BitVec.ofNat_eq_ofNat, BitVec.and_zero, BitVec.zero_and]
    rfl
  · simp only [encode, Instr.row, rowBltzal, regAt, selAt, sizeAt, quadSelAt, singleSelAt, fI_op, fI_rs, fI_rt, fI_imm,
      ofBits_two_one, quadSel_parts, singleSel_parts, BitVec.toFin_ofFin]

theorem bgezal (rs : Reg) (off16 : BitVec 16) : Statement (.bgezal rs off16) := by
  refine ⟨mem_table_of_branch (List.mem_of_getElem? (i := 11) rfl), ?_, ?_⟩
  · simp only [encode, Instr.row, rowBgezal]
    rw [show 0xFC1F0000#32 = fI 63 0 31 0 by decide, fI_and]
    simp only [BitVec.ofNat_eq_ofNat, BitVec.and_zero, BitVec.zero_and]
    rfl
  · simp only [encode, Instr.row, rowBgezal, regAt, selAt, sizeAt, quadSelAt, singleSelAt, fI_op, fI_rs, fI_rt, fI_imm,
      ofBits_two_one, quadSel_parts, singleSel_parts, BitVec.toFin_ofFin]

theorem bltzall (rs : Reg) (off16 : BitVec 16) : Statement (.bltzall rs off16) := by
  refine ⟨mem_table_of_branch (List.mem_of_getElem? (i := 12) rfl), ?_, ?_⟩
  · simp only [encode, Instr.row, rowBltzall]
    rw [show 0xFC1F0000#32 = fI 63 0 31 0 by decide, fI_and]
    simp only [BitVec.ofNat_eq_ofNat, BitVec.and_zero, BitVec.zero_and]
    rfl
  · simp only [encode, Instr.row, rowBltzall, regAt, selAt, sizeAt, quadSelAt, singleSelAt, fI_op, fI_rs, fI_rt, fI_imm,
      ofBits_two_one, quadSel_parts, singleSel_parts, BitVec.toFin_ofFin]

theorem bgezall (rs : Reg) (off16 : BitVec 16) : Statement (.bgezall rs off16) := by
  refine ⟨mem_table_of_branch (List.mem_of_getElem? (i := 13) rfl), ?_, ?_⟩
  · simp only [encode, Instr.row, rowBgezall]
    rw [show 0xFC1F0000#32 = fI 63 0 31 0 by decide, fI_and]
    simp only [BitVec.ofNat_eq_ofNat, BitVec.and_zero, BitVec.zero_and]
    rfl
  · simp only [encode, Instr.row, rowBgezall, regAt, selAt, sizeAt, quadSelAt, singleSelAt, fI_op, fI_rs, fI_rt, fI_imm,
      ofBits_two_one, quadSel_parts, singleSel_parts, BitVec.toFin_ofFin]

theorem beql (rs : Reg) (rt : Reg) (off16 : BitVec 16) : Statement (.beql rs rt off16) := by
  refine ⟨mem_table_of_branch (List.mem_of_getElem? (i := 14) rfl), ?_, ?_⟩
  · simp only [encode, Instr.row, rowBeql]
    rw [show 0xFC000000#32 = fI 63 0 0 0 by decide, fI_and]
    simp only [BitVec.ofNat_eq_ofNat, BitVec.and_zero, BitVec.zero_and]
    rfl
  · simp only [encode, Instr.row, rowBeql, regAt, selAt, sizeAt, quadSelAt, singleSelAt, fI_op, fI_rs, fI_rt, fI_imm,
      ofBits_two_one, quadSel_parts, singleSel_parts, BitVec.toFin_ofFin]

theorem bnel (rs : Reg) (rt : Reg) (off16 : BitVec 16) : Statement (.bnel rs rt off16) := by
  refine ⟨mem_table_of_branch (List.mem_of_getElem? (i := 15) rfl), ?_, ?_⟩
  · simp only [encode, Instr.row, rowBnel]
    rw [show 0xFC000000#32 = fI 63 0 0 0 by decide, fI_and]
    simp only [BitVec.ofNat_eq_ofNat, BitVec.and_zero, BitVec.zero_and]
    rfl
  · simp only [encode, Instr.row, rowBnel, regAt, selAt, sizeAt, quadSelAt, singleSelAt, fI_op, fI_rs, fI_rt, fI_imm,
      ofBits_two_one, quadSel_parts, singleSel_parts, BitVec.toFin_ofFin]

theorem blezl (rs : Reg) (off16 : BitVec 16) : Statement (.blezl rs off16) := by
  refine ⟨mem_table_of_branch (List.mem_of_getElem? (i := 16) rfl), ?_, ?_⟩
  · simp only [encode, Instr.row, rowBlezl]
    rw [show 0xFC1F0000#32 = fI 63 0 31 0 by decide, fI_and]
    simp only [BitVec.ofNat_eq_ofNat, BitVec.and_zero, BitVec.zero_and]
    rfl
  · simp only [encode, Instr.row, rowBlezl, regAt, selAt, sizeAt, quadSelAt, singleSelAt, fI_op, fI_rs, fI_rt, fI_imm,
      ofBits_two_one, quadSel_parts, singleSel_parts, BitVec.toFin_ofFin]

theorem bgtzl (rs : Reg) (off16 : BitVec 16) : Statement (.bgtzl rs off16) := by
  refine ⟨mem_table_of_branch (List.mem_of_getElem? (i := 17) rfl), ?_, ?_⟩
  · simp only [encode, Instr.row, rowBgtzl]
    rw [show 0xFC1F0000#32 = fI 63 0 31 0 by decide, fI_and]
    simp only [BitVec.ofNat_eq_ofNat, BitVec.and_zero, BitVec.zero_and]
    rfl
  · simp only [encode, Instr.row, rowBgtzl, regAt, selAt, sizeAt, quadSelAt, singleSelAt, fI_op, fI_rs, fI_rt, fI_imm,
      ofBits_two_one, quadSel_parts, singleSel_parts, BitVec.toFin_ofFin]

theorem bltzl (rs : Reg) (off16 : BitVec 16) : Statement (.bltzl rs off16) := by
  refine ⟨mem_table_of_branch (List.mem_of_getElem? (i := 18) rfl), ?_, ?_⟩
  · simp only [encode, Instr.row, rowBltzl]
    rw [show 0xFC1F0000#32 = fI 63 0 31 0 by decide, fI_and]
    simp only [BitVec.ofNat_eq_ofNat, BitVec.and_zero, BitVec.zero_and]
    rfl
  · simp only [encode, Instr.row, rowBltzl, regAt, selAt, sizeAt, quadSelAt, singleSelAt, fI_op, fI_rs, fI_rt, fI_imm,
      ofBits_two_one, quadSel_parts, singleSel_parts, BitVec.toFin_ofFin]

theorem bgezl (rs : Reg) (off16 : BitVec 16) : Statement (.bgezl rs off16) := by
  refine ⟨mem_table_of_branch (List.mem_of_getElem? (i := 19) rfl), ?_, ?_⟩
  · simp only [encode, Instr.row, rowBgezl]
    rw [show 0xFC1F0000#32 = fI 63 0 31 0 by decide, fI_and]
    simp only [BitVec.ofNat_eq_ofNat, BitVec.and_zero, BitVec.zero_and]
    rfl
  · simp only [encode, Instr.row, rowBgezl, regAt, selAt, sizeAt, quadSelAt, singleSelAt, fI_op, fI_rs, fI_rt, fI_imm,
      ofBits_two_one, quadSel_parts, singleSel_parts, BitVec.toFin_ofFin]

theorem bc1f (off16 : BitVec 16) : Statement (.bc1f off16) := by
  refine ⟨mem_table_of_branch (List.mem_of_getElem? (i := 20) rfl), ?_, ?_⟩
  · simp only [encode, Instr.row, rowBc1f]
    rw [show 0xFFFF0000#32 = fI 63 31 31 0 by decide, fI_and]
    simp only [BitVec.ofNat_eq_ofNat, BitVec.and_zero, BitVec.zero_and]
    rfl
  · simp only [encode, Instr.row, rowBc1f, regAt, selAt, sizeAt, quadSelAt, singleSelAt, fI_op, fI_rs, fI_rt, fI_imm,
      ofBits_two_one, quadSel_parts, singleSel_parts, BitVec.toFin_ofFin]

theorem bc1t (off16 : BitVec 16) : Statement (.bc1t off16) := by
  refine ⟨mem_table_of_branch (List.mem_of_getElem? (i := 21) rfl), ?_, ?_⟩
  · simp only [encode, Instr.row, rowBc1t]
    rw [show 0xFFFF0000#32 = fI 63 31 31 0 by decide, fI_and]
    simp only [BitVec.ofNat_eq_ofNat, BitVec.and_zero, BitVec.zero_and]
    rfl
  · simp only [encode, Instr.row, rowBc1t, regAt, selAt, sizeAt, quadSelAt, singleSelAt, fI_op, fI_rs, fI_rt, fI_imm,
      ofBits_two_one, quadSel_parts, singleSel_parts, BitVec.toFin_ofFin]

theorem bc1fl (off16 : BitVec 16) : Statement (.bc1fl off16) := by
  refine ⟨mem_table_of_branch (List.mem_of_getElem? (i := 22) rfl), ?_, ?_⟩
  · simp only [encode, Instr.row, rowBc1fl]
    rw [show 0xFFFF0000#32 = fI 63 31 31 0 by decide, fI_and]
    simp only [BitVec.ofNat_eq_ofNat, BitVec.and_zero, BitVec.zero_and]
    rfl
  · simp only [encode, Instr.row, rowBc1fl, regAt, selAt, sizeAt, quadSelAt, singleSelAt, fI_op, fI_rs, fI_rt, fI_imm,
      ofBits_two_one, quadSel_parts, singleSel_parts, BitVec.toFin_ofFin]

theorem bc1tl (off16 : BitVec 16) : Statement (.bc1tl off16) := by
  refine ⟨mem_table_of_branch (List.mem_of_getElem? (i := 23) rfl), ?_, ?_⟩
  · simp only [encode, Instr.row, rowBc1tl]
    rw [show 0xFFFF0000#32 = fI 63 31 31 0 by decide, fI_and]
    simp only [BitVec.ofNat_eq_ofNat, BitVec.and_zero, BitVec.zero_and]
    rfl
  · simp only [encode, Instr.row, rowBc1tl, regAt, selAt, sizeAt, quadSelAt, singleSelAt, fI_op, fI_rs, fI_rt, fI_imm,
      ofBits_two_one, quadSel_parts, singleSel_parts, BitVec.toFin_ofFin]

theorem bvf (imm3 : BitVec 3) (off16 : BitVec 16) : Statement (.bvf imm3 off16) := by
  refine ⟨mem_table_of_branch (List.mem_of_getElem? (i := 24) rfl), ?_, ?_⟩
  · simp only [encode, Instr.row, rowBvf]
    rw [show 0xFFE30000#32 = fVbr 63 31 0 3 0 by decide, fVbr_and]
    simp only [BitVec.ofNat_eq_ofNat, BitVec.and_zero, BitVec.zero_and]
    rfl
  · simp only [encode, Instr.row, rowBvf, regAt, selAt, sizeAt, quadSelAt, singleSelAt, fVbr_op, fVbr_sub, fVbr_imm, fVbr_lt, fVbr_off,
      ofBits_two_one, quadSel_parts, singleSel_parts, BitVec.toFin_ofFin]

theorem bvt (imm3 : BitVec 3) (off16 : BitVec 16) : Statement (.bvt imm3 off16) := by
  refine ⟨mem_table_of_branch (List.mem_of_getElem? (i := 25) rfl), ?_, ?_⟩
  · simp only [encode, Instr.row, rowBvt]
    rw [show 0xFFE30000#32 = fVbr 63 31 0 3 0 by decide, fVbr_and]
    simp only [BitVec.ofNat_eq_ofNat, BitVec.and_zero, BitVec.zero_and]
    rfl
  · simp only [encode, Instr.row, rowBvt, regAt, selAt, sizeAt, quadSelAt, singleSelAt, fVbr_op, fVbr_sub, fVbr_imm, fVbr_lt, fVbr_off,
      ofBits_two_one, quadSel_parts, singleSel_parts, BitVec.toFin_ofFin]

theorem bvfl (imm3 : BitVec 3) (off16 : BitVec 16) : Statement (.bvfl imm3 off16) := by
  refine ⟨mem_table_of_branch (List.mem_of_getElem? (i := 26) rfl), ?_, ?_⟩
  · simp only [encode, Instr.row, rowBvfl]
    rw [show 0xFFE30000#32 = fVbr 63 31 0 3 0 by decide, fVbr_and]
    simp only [BitVec.ofNat_eq_ofNat, BitVec.and_zero, BitVec.zero_and]
    rfl
  · simp only [encode, Instr.row, rowBvfl, regAt, selAt, sizeAt, quadSelAt, singleSelAt, fVbr_op, fVbr_sub, fVbr_imm, fVbr_lt, fVbr_off,
      ofBits_two_one, quadSel_parts, singleSel_parts, BitVec.toFin_ofFin]

theorem bvtl (imm3 : BitVec 3) (off16 : BitVec 16) : Statement (.bvtl imm3 off16) := by
  refine ⟨mem_table_of_branch (List.mem_of_getElem? (i := 27) rfl), ?_, ?_⟩
  · simp only [encode, Instr.row, rowBvtl]
    rw [show 0xFFE30000#32 = fVbr 63 31 0 3 0 by decide, fVbr_and]
    simp only [BitVec.ofNat_eq_ofNat, BitVec.and_zero, BitVec.zero_and]
    rfl
  · simp only [encode, Instr.row, rowBvtl, regAt, selAt, sizeAt, quadSelAt, singleSelAt, fVbr_op, fVbr_sub, fVbr_imm, fVbr_lt, fVbr_off,
      ofBits_two_one, quadSel_parts, singleSel_parts, BitVec.toFin_ofFin]

theorem addS (fd : FReg) (fs : FReg) (ft : FReg) : Statement (.addS fd fs ft) := by
  refine ⟨mem_table_of_fpu (List.mem_of_getElem? (i := 0) rfl), ?_, ?_⟩
  · simp only [encode, Instr.row, rowAddS]
    rw [show 0xFFE0003F#32 = fR 63 31 0 0 0 63 by decide, fR_and]
    simp only [BitVec.ofNat_eq_ofNat, BitVec.and_zero, BitVec.zero_and]
    rfl
  · simp only [encode, Instr.row, rowAddS, regAt, selAt, sizeAt, quadSelAt, singleSelAt, fR_op, fR_rs, fR_rt, fR_rd, fR_sa, fR_fn,
      ofBits_two_one, quadSel_parts, singleSel_parts, BitVec.toFin_ofFin]

theorem subS (fd : FReg) (fs : FReg) (ft : FReg) : Statement (.subS fd fs ft) := by
  refine ⟨mem_table_of_fpu (List.mem_of_getElem? (i := 1) rfl), ?_, ?_⟩
  · simp only [encode, Instr.row, rowSubS]
    rw [show 0xFFE0003F#32 = fR 63 31 0 0 0 63 by decide, fR_and]
    simp only [BitVec.ofNat_eq_ofNat, BitVec.and_zero, BitVec.zero_and]
    rfl
  · simp only [encode, Instr.row, rowSubS, regAt, selAt, sizeAt, quadSelAt, singleSelAt, fR_op, fR_rs, fR_rt, fR_rd, fR_sa, fR_fn,
      ofBits_two_one, quadSel_parts, singleSel_parts, BitVec.toFin_ofFin]

theorem mulS (fd : FReg) (fs : FReg) (ft : FReg) : Statement (.mulS fd fs ft) := by
  refine ⟨mem_table_of_fpu (List.mem_of_getElem? (i := 2) rfl), ?_, ?_⟩
  · simp only [encode, Instr.row, rowMulS]
    rw [show 0xFFE0003F#32 = fR 63 31 0 0 0 63 by decide, fR_and]
    simp only [BitVec.ofNat_eq_ofNat, BitVec.and_zero, BitVec.zero_and]
    rfl
  · simp only [encode, Instr.row, rowMulS, regAt, selAt, sizeAt, quadSelAt, singleSelAt, fR_op, fR_rs, fR_rt, fR_rd, fR_sa, fR_fn,
      ofBits_two_one, quadSel_parts, singleSel_parts, BitVec.toFin_ofFin]

theorem divS (fd : FReg) (fs : FReg) (ft : FReg) : Statement (.divS fd fs ft) := by
  refine ⟨mem_table_of_fpu (List.mem_of_getElem? (i := 3) rfl), ?_, ?_⟩
  · simp only [encode, Instr.row, rowDivS]
    rw [show 0xFFE0003F#32 = fR 63 31 0 0 0 63 by decide, fR_and]
    simp only [BitVec.ofNat_eq_ofNat, BitVec.and_zero, BitVec.zero_and]
    rfl
  · simp only [encode, Instr.row, rowDivS, regAt, selAt, sizeAt, quadSelAt, singleSelAt, fR_op, fR_rs, fR_rt, fR_rd, fR_sa, fR_fn,
      ofBits_two_one, quadSel_parts, singleSel_parts, BitVec.toFin_ofFin]

theorem sqrtS (fd : FReg) (fs : FReg) : Statement (.sqrtS fd fs) := by
  refine ⟨mem_table_of_fpu (List.mem_of_getElem? (i := 4) rfl), ?_, ?_⟩
  · simp only [encode, Instr.row, rowSqrtS]
    rw [show 0xFFFF003F#32 = fR 63 31 31 0 0 63 by decide, fR_and]
    simp only [BitVec.ofNat_eq_ofNat, BitVec.and_zero, BitVec.zero_and]
    rfl
  · simp only [encode, Instr.row, rowSqrtS, regAt, selAt, sizeAt, quadSelAt, singleSelAt, fR_op, fR_rs, fR_rt, fR_rd, fR_sa, fR_fn,
      ofBits_two_one, quadSel_parts, singleSel_parts, BitVec.toFin_ofFin]

theorem absS (fd : FReg) (fs : FReg) : Statement (.absS fd fs) := by
  refine ⟨mem_table_of_fpu (List.mem_of_getElem? (i := 5) rfl), ?_, ?_⟩
  · simp only [encode, Instr.row, rowAbsS]
    rw [show 0xFFFF003F#32 = fR 63 31 31 0 0 63 by decide, fR_and]
    simp only [BitVec.ofNat_eq_ofNat, BitVec.and_zero, BitVec.zero_and]
    rfl
  · simp only [encode, Instr.row, rowAbsS, regAt, selAt, sizeAt, quadSelAt, singleSelAt, fR_op, fR_rs, fR_rt, fR_rd, fR_sa, fR_fn,
      ofBits_two_one, quadSel_parts, singleSel_parts, BitVec.toFin_ofFin]

theorem movS (fd : FReg) (fs : FReg) : Statement (.movS fd fs) := by
  refine ⟨mem_table_of_fpu (List.mem_of_getElem? (i := 6) rfl), ?_, ?_⟩
  · simp only [encode, Instr.row, rowMovS]
    rw [show 0xFFFF003F#32 = fR 63 31 31 0 0 63 by decide, fR_and]
    simp only [BitVec.ofNat_eq_ofNat, BitVec.and_zero, BitVec.zero_and]
    rfl
  · simp only [encode, Instr.row, rowMovS, regAt, selAt, sizeAt, quadSelAt, singleSelAt, fR_op, fR_rs, fR_rt, fR_rd, fR_sa, fR_fn,
      ofBits_two_one, quadSel_parts, singleSel_parts, BitVec.toFin_ofFin]

theorem negS (fd : FReg) (fs : FReg) : Statement (.negS fd fs) := by
  refine ⟨mem_table_of_fpu (List.mem_of_getElem? (i := 7) rfl), ?_, ?_⟩
  · simp only [encode, Instr.row, rowNegS]
    rw [show 0xFFFF003F#32 = fR 63 31 31 0 0 63 by decide, fR_and]
    simp only [BitVec.ofNat_eq_ofNat, BitVec.and_zero, BitVec.zero_and]
    rfl
  · simp only [encode, Instr.row, rowNegS, regAt, selAt, sizeAt, quadSelAt, singleSelAt, fR_op, fR_rs, fR_rt, fR_rd, fR_sa, fR_fn,
      ofBits_two_one, quadSel_parts, singleSel_parts, BitVec.toFin_ofFin]

theorem cvtWS (fd : FReg) (fs : FReg) : Statement (.cvtWS fd fs) := by
  refine ⟨mem_table_of_fpu (List.mem_of_getElem? (i := 8) rfl), ?_, ?_⟩
  · simp only [encode, Instr.row, rowCvtWS]
    rw [show 0xFFFF003F#32 = fR 63 31 31 0 0 63 by decide, fR_and]
    simp only [BitVec.ofNat_eq_ofNat, BitVec.and_zero, BitVec.zero_and]
    rfl
  · simp only [encode, Instr.row, rowCvtWS, regAt, selAt, sizeAt, quadSelAt, singleSelAt, fR_op, fR_rs, fR_rt, fR_rd, fR_sa, fR_fn,
      ofBits_two_one, quadSel_parts, singleSel_parts, BitVec.toFin_ofFin]

theorem roundWS (fd : FReg) (fs : FReg) : Statement (.roundWS fd fs) := by
  refine ⟨mem_table_of_fpu (List.mem_of_getElem? (i := 9) rfl), ?_, ?_⟩
  · simp only [encode, Instr.row, rowRoundWS]
    rw [show 0xFFFF003F#32 = fR 63 31 31 0 0 63 by decide, fR_and]
    simp only [BitVec.ofNat_eq_ofNat, BitVec.and_zero, BitVec.zero_and]
    rfl
  · simp only [encode, Instr.row, rowRoundWS, regAt, selAt, sizeAt, quadSelAt, singleSelAt, fR_op, fR_rs, fR_rt, fR_rd, fR_sa, fR_fn,
      ofBits_two_one, quadSel_parts, singleSel_parts, BitVec.toFin_ofFin]

theorem truncWS (fd : FReg) (fs : FReg) : Statement (.truncWS fd fs) := by
  refine ⟨mem_table_of_fpu (List.mem_of_getElem? (i := 10) rfl), ?_, ?_⟩
  · simp only [encode, Instr.row, rowTruncWS]
    rw [show 0xFFFF003F#32 = fR 63 31 31 0 0 63 by decide, fR_and]
    simp only [BitVec.ofNat_eq_ofNat, BitVec.and_zero, BitVec.zero_and]
    rfl
  · simp only [encode, Instr.row, rowTruncWS, regAt, selAt, sizeAt, quadSelAt, singleSelAt, fR_op, fR_rs, fR_rt, fR_rd, fR_sa, fR_fn,
      ofBits_two_one, quadSel_parts, singleSel_parts, BitVec.toFin_ofFin]

theorem ceilWS (fd : FReg) (fs : FReg) : Statement (.ceilWS fd fs) := by
  refine ⟨mem_table_of_fpu (List.mem_of_getElem? (i := 11) rfl), ?_, ?_⟩
  · simp only [encode, Instr.row, rowCeilWS]
    rw [show 0xFFFF003F#32 = fR 63 31 31 0 0 63 by decide, fR_and]
    simp only [BitVec.ofNat_eq_ofNat, BitVec.and_zero, BitVec.zero_and]
    rfl
  · simp only [encode, Instr.row, rowCeilWS, regAt, selAt, sizeAt, quadSelAt, singleSelAt, fR_op, fR_rs, fR_rt, fR_rd, fR_sa, fR_fn,
      ofBits_two_one, quadSel_parts, singleSel_parts, BitVec.toFin_ofFin]

theorem floorWS (fd : FReg) (fs : FReg) : Statement (.floorWS fd fs) := by
  refine ⟨mem_table_of_fpu (List.mem_of_getElem? (i := 12) rfl), ?_, ?_⟩
  · simp only [encode, Instr.row, rowFloorWS]
    rw [show 0xFFFF003F#32 = fR 63 31 31 0 0 63 by decide, fR_and]
    simp only [BitVec.ofNat_eq_ofNat, BitVec.and_zero, BitVec.zero_and]
    rfl
  · simp only [encode, Instr.row, rowFloorWS, regAt, selAt, sizeAt, quadSelAt, singleSelAt, fR_op, fR_rs, fR_rt, fR_rd, fR_sa, fR_fn,
      ofBits_two_one, quadSel_parts, singleSel_parts, BitVec.toFin_ofFin]

theorem cvtSW (fd : FReg) (fs : FReg) : Statement (.cvtSW fd fs) := by
  refine ⟨mem_table_of_fpu (List.mem_of_getElem? (i := 13) rfl), ?_, ?_⟩
  · simp only [encode, Instr.row, rowCvtSW]
    rw [show 0xFFFF003F#32 = fR 63 31 31 0 0 63 by decide, fR_and]
    simp only [BitVec.ofNat_eq_ofNat, BitVec.and_zero, BitVec.zero_and]
    rfl
  · simp only [encode, Instr.row, rowCvtSW, regAt, selAt, sizeAt, quadSelAt, singleSelAt, fR_op, fR_rs, fR_rt, fR_rd, fR_sa, fR_fn,
      ofBits_two_one, quadSel_parts, singleSel_parts, BitVec.toFin_ofFin]

theorem cFS (fs : FReg) (ft : FReg) : Statement (.cFS fs ft) := by
  refine ⟨mem_table_of_fpu (List.mem_of_getElem? (i := 14) rfl), ?_, ?_⟩
  · simp only [encode, Instr.row, rowCFS]
    rw [show 0xFFE007FF#32 = fR 63 31 0 0 31 63 by decide, fR_and]
    simp only [BitVec.ofNat_eq_ofNat, BitVec.and_zero, BitVec.zero_and]
    rfl
  · simp only [encode, Instr.row, rowCFS, regAt, selAt, sizeAt, quadSelAt, singleSelAt, fR_op, fR_rs, fR_rt, fR_rd, fR_sa, fR_fn,
      ofBits_two_one, quadSel_parts, singleSel_parts, BitVec.toFin_ofFin]

theorem cUnS (fs : FReg) (ft : FReg) : Statement (.cUnS fs ft) := by
  refine ⟨mem_table_of_fpu (List.mem_of_getElem? (i := 15) rfl), ?_, ?_⟩
  · simp only [encode, Instr.row, rowCUnS]
    rw [show 0xFFE007FF#32 = fR 63 31 0 0 31 63 by decide, fR_and]
    simp only [BitVec.ofNat_eq_ofNat, BitVec.and_zero, BitVec.zero_and]
    rfl
  · simp only [encode, Instr.row, rowCUnS, regAt, selAt, sizeAt, quadSelAt, singleSelAt, fR_op, fR_rs, fR_rt, fR_rd, fR_sa, fR_fn,
      ofBits_two_one, quadSel_parts, singleSel_parts, BitVec.toFin_ofFin]

theorem cEqS (fs : FReg) (ft : FReg) : Statement (.cEqS fs ft) := by
  refine ⟨mem_table_of_fpu (List.mem_of_getElem? (i := 16) rfl), ?_, ?_⟩
  · simp only [encode, Instr.row, rowCEqS]
    rw [show 0xFFE007FF#32 = fR 63 31 0 0 31 63 by decide, fR_and]
    simp only [BitVec.ofNat_eq_ofNat, BitVec.and_zero, BitVec.zero_and]
    rfl
  · simp only [encode, Instr.row, rowCEqS, regAt, selAt, sizeAt, quadSelAt, singleSelAt, fR_op, fR_rs, fR_rt, fR_rd, fR_sa, fR_fn,
      ofBits_two_one, quadSel_parts, singleSel_parts, BitVec.toFin_ofFin]

theorem cUeqS (fs : FReg) (ft : FReg) : Statement (.cUeqS fs ft) := by
  refine ⟨mem_table_of_fpu (List.mem_of_getElem? (i := 17) rfl), ?_, ?_⟩
  · simp only [encode, Instr.row, rowCUeqS]
    rw [show 0xFFE007FF#32 = fR 63 31 0 0 31 63 by decide, fR_and]
    simp only [BitVec.ofNat_eq_ofNat, BitVec.and_zero, BitVec.zero_and]
    rfl
  · simp only [encode, Instr.row, rowCUeqS, regAt, selAt, sizeAt, quadSelAt, singleSelAt, fR_op, fR_rs, fR_rt, fR_rd, fR_sa, fR_fn,
      ofBits_two_one, quadSel_parts, singleSel_parts, BitVec.toFin_ofFin]

theorem cOltS (fs : FReg) (ft : FReg) : Statement (.cOltS fs ft) := by
  refine ⟨mem_table_of_fpu (List.mem_of_getElem? (i := 18) rfl), ?_, ?_⟩
  · simp only [encode, Instr.row, rowCOltS]
    rw [show 0xFFE007FF#32 = fR 63 31 0 0 31 63 by decide, fR_and]
    simp only [BitVec.ofNat_eq_ofNat, BitVec.and_zero, BitVec.zero_and]
    rfl
  · simp only [encode, Instr.row, rowCOltS, regAt, selAt, sizeAt, quadSelAt, singleSelAt, fR_op, fR_rs, fR_rt, fR_rd, fR_sa, fR_fn,
      ofBits_two_one, quadSel_parts, singleSel_parts, BitVec.toFin_ofFin]

theorem cUltS (fs : FReg) (ft : FReg) : Statement (.cUltS fs ft) := by
  refine ⟨mem_table_of_fpu (List.mem_of_getElem? (i := 19) rfl), ?_, ?_⟩
  · simp only [encode, Instr.row, rowCUltS]
    rw [show 0xFFE007FF#32 = fR 63 31 0 0 31 63 by decide, fR_and]
    simp only [BitVec.ofNat_eq_ofNat, BitVec.and_zero, BitVec.zero_and]
    rfl
  · simp only [encode, Instr.row, rowCUltS, regAt, selAt, sizeAt, quadSelAt, singleSelAt, fR_op, fR_rs, fR_rt, fR_rd, fR_sa, fR_fn,
      ofBits_two_one, quadSel_parts, singleSel_parts, BitVec.toFin_ofFin]

theorem cOleS (fs : FReg) (ft : FReg) : Statement (.cOleS fs ft) := by
  refine ⟨mem_table_of_fpu (List.mem_of_getElem? (i := 20) rfl), ?_, ?_⟩
  · simp only [encode, Instr.row, rowCOleS]
    rw [show 0xFFE007FF#32 = fR 63 31 0 0 31 63 by decide, fR_and]
    simp only [BitVec.ofNat_eq_ofNat, BitVec.and_zero, BitVec.zero_and]
    rfl
  · simp only [encode, Instr.row, rowCOleS, regAt, selAt, sizeAt, quadSelAt, singleSelAt, fR_op, fR_rs, fR_rt, fR_rd, fR_sa, fR_fn,
      ofBits_two_one, quadSel_parts, singleSel_parts, BitVec.toFin_ofFin]

theorem cUleS (fs : FReg) (ft : FReg) : Statement (.cUleS fs ft) := by
  refine ⟨mem_table_of_fpu (List.mem_of_getElem? (i := 21) rfl), ?_, ?_⟩
  · simp only [encode, Instr.row, rowCUleS]
    rw [show 0xFFE007FF#32 = fR 63 31 0 0 31 63 by decide, fR_and]
    simp only [BitVec.ofNat_eq_ofNat, BitVec.and_zero, BitVec.zero_and]
    rfl
  · simp only [encode, Instr.row, rowCUleS, regAt, selAt, sizeAt, quadSelAt, singleSelAt, fR_op, fR_rs, fR_rt, fR_rd, fR_sa, fR_fn,
      ofBits_two_one, quadSel_parts, singleSel_parts, BitVec.toFin_ofFin]

theorem cSfS (fs : FReg) (ft : FReg) : Statement (.cSfS fs ft) := by
  refine ⟨mem_table_of_fpu (List.mem_of_getElem? (i := 22) rfl), ?_, ?_⟩
  · simp only [encode, Instr.row, rowCSfS]
    rw [show 0xFFE007FF#32 = fR 63 31 0 0 31 63 by decide, fR_and]
    simp only [BitVec.ofNat_eq_ofNat, BitVec.and_zero, BitVec.zero_and]
    rfl
  · simp only [encode, Instr.row, rowCSfS, regAt, selAt, sizeAt, quadSelAt, singleSelAt, fR_op, fR_rs, fR_rt, fR_rd, fR_sa, fR_fn,
      ofBits_two_one, quadSel_parts, singleSel_parts, BitVec.toFin_ofFin]

theorem cNgleS (fs : FReg) (ft : FReg) : Statement (.cNgleS fs ft) := by
  refine ⟨mem_table_of_fpu (List.mem_of_getElem? (i := 23) rfl), ?_, ?_⟩
  · simp only [encode, Instr.row, rowCNgleS]
    rw [show 0xFFE007FF#32 = fR 63 31 0 0 31 63 by decide, fR_and]
    simp only [BitVec.ofNat_eq_ofNat, BitVec.and_zero, BitVec.zero_and]
    rfl
  · simp only [encode, Instr.row, rowCNgleS, regAt, selAt, sizeAt, quadSelAt, singleSelAt, fR_op, fR_rs, fR_rt, fR_rd, fR_sa, fR_fn,
      ofBits_two_one, quadSel_parts, singleSel_parts, BitVec.toFin_ofFin]

theorem cSeqS (fs : FReg) (ft : FReg) : Statement (.cSeqS fs ft) := by
  refine ⟨mem_table_of_fpu (List.mem_of_getElem? (i := 24) rfl), ?_, ?_⟩
  · simp only [encode, Instr.row, rowCSeqS]
    rw [show 0xFFE007FF#32 = fR 63 31 0 0 31 63 by decide, fR_and]
    simp only [BitVec.ofNat_eq_ofNat, BitVec.and_zero, BitVec.zero_and]
    rfl
  · simp only [encode, Instr.row, rowCSeqS, regAt, selAt, sizeAt, quadSelAt, singleSelAt, fR_op, fR_rs, fR_rt, fR_rd, fR_sa, fR_fn,
      ofBits_two_one, quadSel_parts, singleSel_parts, BitVec.toFin_ofFin]

theorem cNglS (fs : FReg) (ft : FReg) : Statement (.cNglS fs ft) := by
  refine ⟨mem_table_of_fpu (List.mem_of_getElem? (i := 25) rfl), ?_, ?_⟩
  · simp only [encode, Instr.row, rowCNglS]
    rw [show 0xFFE007FF#32 = fR 63 31 0 0 31 63 by decide, fR_and]
    simp only [BitVec.ofNat_eq_ofNat, BitVec.and_zero, BitVec.zero_and]
    rfl
  · simp only [encode, Instr.row, rowCNglS, regAt, selAt, sizeAt, quadSelAt, singleSelAt, fR_op, fR_rs, fR_rt, fR_rd, fR_sa, fR_fn,
      ofBits_two_one, quadSel_parts, singleSel_parts, BitVec.toFin_ofFin]

theorem cLtS (fs : FReg) (ft : FReg) : Statement (.cLtS fs ft) := by
  refine ⟨mem_table_of_fpu (List.mem_of_getElem? (i := 26) rfl), ?_, ?_⟩
  · simp only [encode, Instr.row, rowCLtS]
    rw [show 0xFFE007FF#32 = fR 63 31 0 0 31 63 by decide, fR_and]
    simp only [BitVec.ofNat_eq_ofNat, BitVec.and_zero, BitVec.zero_and]
    rfl
  · simp only [encode, Instr.row, rowCLtS, regAt, selAt, sizeAt, quadSelAt, singleSelAt, fR_op, fR_rs, fR_rt, fR_rd, fR_sa, fR_fn,
      ofBits_two_one, quadSel_parts, singleSel_parts, BitVec.toFin_ofFin]

theorem cNgeS (fs : FReg) (ft : FReg) : Statement (.cNgeS fs ft) := by
  refine ⟨mem_table_of_fpu (List.mem_of_getElem? (i := 27) rfl), ?_, ?_⟩
  · simp only [encode, Instr.row, rowCNgeS]
    rw [show 0xFFE007FF#32 = fR 63 31 0 0 31 63 by decide, fR_and]
    simp only [BitVec.ofNat_eq_ofNat, BitVec.and_zero, BitVec.zero_and]
    rfl
  · simp only [encode, Instr.row, rowCNgeS, regAt, selAt, sizeAt, quadSelAt, singleSelAt, fR_op, fR_rs, fR_rt, fR_rd, fR_sa, fR_fn,
      ofBits_two_one, quadSel_parts, singleSel_parts, BitVec.toFin_ofFin]

theorem cLeS (fs : FReg) (ft : FReg) : Statement (.cLeS fs ft) := by
  refine ⟨mem_table_of_fpu (List.mem_of_getElem? (i := 28) rfl), ?_, ?_⟩
  · simp only [encode, Instr.row, rowCLeS]
    rw [show 0xFFE007FF#32 = fR 63 31 0 0 31 63 by decide, fR_and]
    simp only [BitVec.ofNat_eq_ofNat, BitVec.and_zero, BitVec.zero_and]
    rfl
  · simp only [encode, Instr.row, rowCLeS, regAt, selAt, sizeAt, quadSelAt, singleSelAt, fR_op, fR_rs, fR_rt, fR_rd, fR_sa, fR_fn,
      ofBits_two_one, quadSel_parts, singleSel_parts, BitVec.toFin_ofFin]

theorem cNgtS (fs : FReg) (ft : FReg) : Statement (.cNgtS fs ft) := by
  refine ⟨mem_table_of_fpu (List.mem_of_getElem? (i := 29) rfl), ?_, ?_⟩
  · simp only [encode, Instr.row, rowCNgtS]
    rw [show 0xFFE007FF#32 = fR 63 31 0 0 31 63 by decide, fR_and]
    simp only [BitVec.ofNat_eq_ofNat, BitVec.and_zero, BitVec.zero_and]
    rfl
  · simp only [encode, Instr.row, rowCNgtS, regAt, selAt, sizeAt, quadSelAt, singleSelAt, fR_op, fR_rs, fR_rt, fR_rd, fR_sa, fR_fn,
      ofBits_two_one, quadSel_parts, singleSel_parts, BitVec.toFin_ofFin]

theorem ctc1 (rt : Reg) (cr : Fin 32) : Statement (.ctc1 rt cr) := by
  refine ⟨mem_table_of_fpu (List.mem_of_getElem? (i := 30) rfl), ?_, ?_⟩
  · simp only [encode, Instr.row, rowCtc1]
    rw [show 0xFFE007FF#32 = fR 63 31 0 0 31 63 by decide, fR_and]
    simp only [BitVec.ofNat_eq_ofNat, BitVec.and_zero, BitVec.zero_and]
    rfl
  · simp only [encode, Instr.row, rowCtc1, regAt, selAt, sizeAt, quadSelAt, singleSelAt, fR_op, fR_rs, fR_rt, fR_rd, fR_sa, fR_fn,
      ofBits_two_one, quadSel_parts, singleSel_parts, BitVec.toFin_ofFin]

theorem cfc1 (rt : Reg) (cr : Fin 32) : Statement (.cfc1 rt cr) := by
  refine ⟨mem_table_of_fpu (List.mem_of_getElem? (i := 31) rfl), ?_, ?_⟩
  · simp only [encode, Instr.row, rowCfc1]
    rw [show 0xFFE007FF#32 = fR 63 31 0 0 31 63 by decide, fR_and]
    simp only [BitVec.ofNat_eq_ofNat, BitVec.and_zero, BitVec.zero_and]
    rfl
  · simp only [encode, Instr.row, rowCfc1, regAt, selAt, sizeAt, quadSelAt, singleSelAt, fR_op, fR_rs, fR_rt, fR_rd, fR_sa, fR_fn,
      ofBits_two_one, quadSel_parts, singleSel_parts, BitVec.toFin_ofFin]

theorem mfc1 (rt : Reg) (fs : FReg) : Statement (.mfc1 rt fs) := by
  refine ⟨mem_table_of_fpu (List.mem_of_getElem? (i := 32) rfl), ?_, ?_⟩
  · simp only [encode, Instr.row, rowMfc1]
    rw [show 0xFFE007FF#32 = fR 63 31 0 0 31 63 by decide, fR_and]
    simp only [BitVec.ofNat_eq_ofNat, BitVec.and_zero, BitVec.zero_and]
    rfl
  · simp only [encode, Instr.row, rowMfc1, regAt, selAt, sizeAt, quadSelAt, singleSelAt, fR_op, fR_rs, fR_rt, fR_rd, fR_sa, fR_fn,
      ofBits_two_one, quadSel_parts, singleSel_parts, BitVec.toFin_ofFin]

theorem mtc1 (rt : Reg) (fs : FReg) : Statement (.mtc1 rt fs) := by
  refine ⟨mem_table_of_fpu (List.mem_of_getElem? (i := 33) rfl), ?_, ?_⟩
  · simp only [encode, Instr.row, rowMtc1]
    rw [show 0xFFE007FF#32 = fR 63 31 0 0 31 63 by decide, fR_and]
    simp only [BitVec.ofNat_eq_ofNat, BitVec.and_zero, BitVec.zero_and]
    rfl
  · simp only [encode, Instr.row, rowMtc1, regAt, selAt, sizeAt, quadSelAt, singleSelAt, fR_op, fR_rs, fR_rt, fR_rd, fR_sa, fR_fn,
      ofBits_two_one, quadSel_parts, singleSel_parts, BitVec.toFin_ofFin]

theorem vpfxs (imm20 : BitVec 20) : Statement (.vpfxs imm20) := by
  refine ⟨mem_table_of_vfpuPfx (List.mem_of_getElem? (i := 0) rfl), ?_, ?_⟩
  · simp only [encode, Instr.row, rowVpfxs]
    rw [show 0xFF000000#32 = fPfx 63 3 0 0 by decide, fPfx_and]
    simp only [BitVec.ofNat_eq_ofNat, BitVec.and_zero, BitVec.zero_and]
    rfl
  · simp only [encode, Instr.row, rowVpfxs, regAt, selAt, sizeAt, quadSelAt, singleSelAt, fPfx_op, fPfx_sub, fPfx_skip, fPfx_desc,
      ofBits_two_one, quadSel_parts, singleSel_parts, BitVec.toFin_ofFin]

theorem vpfxt (imm20 : BitVec 20) : Statement (.vpfxt imm20) := by
  refine ⟨mem_table_of_vfpuPfx (List.mem_of_getElem? (i := 1) rfl), ?_, ?_⟩
  · simp only [encode, Instr.row, rowVpfxt]
    rw [show 0xFF000000#32 = fPfx 63 3 0 0 by decide, fPfx_and]
    simp only [BitVec.ofNat_eq_ofNat, BitVec.and_zero, BitVec.zero_and]
    rfl
  · simp only [encode, Instr.row, rowVpfxt, regAt, selAt, sizeAt, quadSelAt, singleSelAt, fPfx_op, fPfx_sub, fPfx_skip, fPfx_desc,
      ofBits_two_one, quadSel_parts, singleSel_parts, BitVec.toFin_ofFin]

theorem vpfxd (imm12 : BitVec 12) : Statement (.vpfxd imm12) := by
  refine ⟨mem_table_of_vfpuPfx (List.mem_of_getElem? (i := 2) rfl), ?_, ?_⟩
  · simp only [encode, Instr.row, rowVpfxd]
    rw [show 0xFF000000#32 = fPfxD 63 3 0 0 by decide, fPfxD_and]
    simp only [BitVec.ofNat_eq_ofNat, BitVec.and_zero, BitVec.zero_and]
    rfl
  · simp only [encode, Instr.row, rowVpfxd, regAt, selAt, sizeAt, quadSelAt, singleSelAt, fPfxD_op, fPfxD_sub, fPfxD_skip, fPfxD_desc,
      ofBits_two_one, quadSel_parts, singleSel_parts, BitVec.toFin_ofFin]

theorem lvQ (vt6 : BitVec 6) (off14 : BitVec 14) (rs : Reg) : Statement (.lvQ vt6 off14 rs) := by
  refine ⟨mem_table_of_vfpuMem (List.mem_of_getElem? (i := 0) rfl), ?_, ?_⟩
  · simp only [encode, Instr.row, rowLvQ]
    rw [show 0xFC000002#32 = fVq 63 0 0 0 1 0 by decide, fVq_and]
    simp only [BitVec.ofNat_eq_ofNat, BitVec.and_zero, BitVec.zero_and]
    rfl
  · simp only [encode, Instr.row, rowLvQ, regAt, selAt, sizeAt, quadSelAt, singleSelAt, fVq_op, fVq_rs, fVq_vt, fVq_off, fVq_x, fVq_u,
      ofBits_two_one, quadSel_parts, singleSel_parts, BitVec.toFin_ofFin]

theorem svQ (vt6 : BitVec 6) (off14 : BitVec 14) (rs : Reg) : Statement (.svQ vt6 off14 rs) := by
  refine ⟨mem_table_of_vfpuMem (List.mem_of_getElem? (i := 1) rfl), ?_, ?_⟩
  · simp only [encode, Instr.row, rowSvQ]
    rw [show 0xFC000002#32 = fVq 63 0 0 0 1 0 by decide, fVq_and]
    simp only [BitVec.ofNat_eq_ofNat, BitVec.and_zero, BitVec.zero_and]
    rfl
  · simp only [encode, Instr.row, rowSvQ, regAt, selAt, sizeAt, quadSelAt, singleSelAt, fVq_op, fVq_rs, fVq_vt, fVq_off, fVq_x, fVq_u,
      ofBits_two_one, quadSel_parts, singleSel_parts, BitVec.toFin_ofFin]

theorem lvlQ (vt6 : BitVec 6) (off14 : BitVec 14) (rs : Reg) : Statement (.lvlQ vt6 off14 rs) := by
  refine ⟨mem_table_of_vfpuMem (List.mem_of_getElem? (i := 2) rfl), ?_, ?_⟩
  · simp only [encode, Instr.row, rowLvlQ]
    rw [show 0xFC000002#32 = fVq 63 0 0 0 1 0 by decide, fVq_and]
    simp only [BitVec.ofNat_eq_ofNat, BitVec.and_zero, BitVec.zero_and]
    rfl
  · simp only [encode, Instr.row, rowLvlQ, regAt, selAt, sizeAt, quadSelAt, singleSelAt, fVq_op, fVq_rs, fVq_vt, fVq_off, fVq_x, fVq_u,
      ofBits_two_one, quadSel_parts, singleSel_parts, BitVec.toFin_ofFin]

theorem lvrQ (vt6 : BitVec 6) (off14 : BitVec 14) (rs : Reg) : Statement (.lvrQ vt6 off14 rs) := by
  refine ⟨mem_table_of_vfpuMem (List.mem_of_getElem? (i := 3) rfl), ?_, ?_⟩
  · simp only [encode, Instr.row, rowLvrQ]
    rw [show 0xFC000002#32 = fVq 63 0 0 0 1 0 by decide, fVq_and]
    simp only [BitVec.ofNat_eq_ofNat, BitVec.and_zero, BitVec.zero_and]
    rfl
  · simp only [encode, Instr.row, rowLvrQ, regAt, selAt, sizeAt, quadSelAt, singleSelAt, fVq_op, fVq_rs, fVq_vt, fVq_off, fVq_x, fVq_u,
      ofBits_two_one, quadSel_parts, singleSel_parts, BitVec.toFin_ofFin]

theorem svlQ (vt6 : BitVec 6) (off14 : BitVec 14) (rs : Reg) : Statement (.svlQ vt6 off14 rs) := by
  refine ⟨mem_table_of_vfpuMem (List.mem_of_getElem? (i := 4) rfl), ?_, ?_⟩
  · simp only [encode, Instr.row, rowSvlQ]
    rw [show 0xFC000002#32 = fVq 63 0 0 0 1 0 by decide, fVq_and]
    simp only [BitVec.ofNat_eq_ofNat, BitVec.and_zero, BitVec.zero_and]
    rfl
  · simp only [encode, Instr.row, rowSvlQ, regAt, selAt, sizeAt, quadSelAt, singleSelAt, fVq_op, fVq_rs, fVq_vt, fVq_off, fVq_x, fVq_u,
      ofBits_two_one, quadSel_parts, singleSel_parts, BitVec.toFin_ofFin]

theorem svrQ (vt6 : BitVec 6) (off14 : BitVec 14) (rs : Reg) : Statement (.svrQ vt6 off14 rs) := by
  refine ⟨mem_table_of_vfpuMem (List.mem_of_getElem? (i := 5) rfl), ?_, ?_⟩
  · simp only [encode, Instr.row, rowSvrQ]
    rw [show 0xFC000002#32 = fVq 63 0 0 0 1 0 by decide, fVq_and]
    simp only [BitVec.ofNat_eq_ofNat, BitVec.and_zero, BitVec.zero_and]
    rfl
  · simp only [encode, Instr.row, rowSvrQ, regAt, selAt, sizeAt, quadSelAt, singleSelAt, fVq_op, fVq_rs, fVq_vt, fVq_off, fVq_x, fVq_u,
      ofBits_two_one, quadSel_parts, singleSel_parts, BitVec.toFin_ofFin]

theorem lvS (vt : Sel) (off14 : BitVec 14) (rs : Reg) : Statement (.lvS vt off14 rs) := by
  refine ⟨mem_table_of_vfpuMem (List.mem_of_getElem? (i := 6) rfl), ?_, ?_⟩
  · simp only [encode, Instr.row, rowLvS]
    rw [show 0xFC000000#32 = fVs 63 0 0 0 0 by decide, fVs_and]
    simp only [BitVec.ofNat_eq_ofNat, BitVec.and_zero, BitVec.zero_and]
    rfl
  · simp only [encode, Instr.row, rowLvS, regAt, selAt, sizeAt, quadSelAt, singleSelAt, fVs_op, fVs_rs, fVs_vt, fVs_off, fVs_u,
      ofBits_two_one, quadSel_parts, singleSel_parts, BitVec.toFin_ofFin]

theorem svS (vt : Sel) (off14 : BitVec 14) (rs : Reg) : Statement (.svS vt off14 rs) := by
  refine ⟨mem_table_of_vfpuMem (List.mem_of_getElem? (i := 7) rfl), ?_, ?_⟩
  · simp only [encode, Instr.row, rowSvS]
    rw [show 0xFC000000#32 = fVs 63 0 0 0 0 by decide, fVs_and]
    simp only [BitVec.ofNat_eq_ofNat, BitVec.and_zero, BitVec.zero_and]
    rfl
  · simp only [encode, Instr.row, rowSvS, regAt, selAt, sizeAt, quadSelAt, singleSelAt, fVs_op, fVs_rs, fVs_vt, fVs_off, fVs_u,
      ofBits_two_one, quadSel_parts, singleSel_parts, BitVec.toFin_ofFin]

theorem vmzero (sz : VSize) (vd : Sel) : Statement (.vmzero sz vd) := by
  refine ⟨mem_table_of_vfpuOps (List.mem_of_getElem? (i := 0) rfl), ?_, ?_⟩
  · simp only [encode, Instr.row, rowVmzero]
    rw [show 0xFFFF7F00#32 = fV 63 7 127 0 127 0 0 by decide, fV_and]
    simp only [BitVec.ofNat_eq_ofNat, BitVec.and_zero, BitVec.zero_and]
    rfl
  · simp only [encode, Instr.row, rowVmzero, regAt, selAt, sizeAt, quadSelAt, singleSelAt, fV_op, fV_sub, fV_vt, fV_two, fV_vs, fV_one, fV_vd,
      ofBits_two_one, quadSel_parts, singleSel_parts, BitVec.toFin_ofFin]

theorem vmone (sz : VSize) (vd : Sel) : Statement (.vmone sz vd) := by
  refine ⟨mem_table_of_vfpuOps (List.mem_of_getElem? (i := 1) rfl), ?_, ?_⟩
  · simp only [encode, Instr.row, rowVmone]
    rw [show 0xFFFF7F00#32 = fV 63 7 127 0 127 0 0 by decide, fV_and]
    simp only [BitVec.ofNat_eq_ofNat, BitVec.and_zero, BitVec.zero_and]
    rfl
  · simp only [encode, Instr.row, rowVmone, regAt, selAt, sizeAt, quadSelAt, singleSelAt, fV_op, fV_sub, fV_vt, fV_two, fV_vs, fV_one, fV_vd,
      ofBits_two_one, quadSel_parts, singleSel_parts, BitVec.toFin_ofFin]

theorem vmidt (sz : VSize) (vd : Sel) : Statement (.vmidt sz vd) := by
  refine ⟨mem_table_of_vfpuOps (List.mem_of_getElem? (i := 2) rfl), ?_, ?_⟩
  · simp only [encode, Instr.row, rowVmidt]
    rw [show 0xFFFF7F00#32 = fV 63 7 127 0 127 0 0 by decide, fV_and]
    simp only [BitVec.ofNat_eq_ofNat, BitVec.and_zero, BitVec.zero_and]
    rfl
  · simp only [encode, Instr.row, rowVmidt, regAt, selAt, sizeAt, quadSelAt, singleSelAt, fV_op, fV_sub, fV_vt, fV_two, fV_vs, fV_one, fV_vd,
      ofBits_two_one, quadSel_parts, singleSel_parts, BitVec.toFin_ofFin]

theorem vmmov (sz : VSize) (vd : Sel) (vs : Sel) : Statement (.vmmov sz vd vs) := by
  refine ⟨mem_table_of_vfpuOps (List.mem_of_getElem? (i := 3) rfl), ?_, ?_⟩
  · simp only [encode, Instr.row, rowVmmov]
    rw [show 0xFFFF0000#32 = fV 63 7 127 0 0 0 0 by decide, fV_and]
    simp only [BitVec.ofNat_eq_ofNat, BitVec.and_zero, BitVec.zero_and]
    rfl
  · simp only [encode, Instr.row, rowVmmov, regAt, selAt, sizeAt, quadSelAt, singleSelAt, fV_op, fV_sub, fV_vt, fV_two, fV_vs, fV_one, fV_vd,
      ofBits_two_one, quadSel_parts, singleSel_parts, BitVec.toFin_ofFin]

theorem vmmul (sz : VSize) (vd : Sel) (vs : Sel) (vt : Sel) : Statement (.vmmul sz vd vs vt) := by
  refine ⟨mem_table_of_vfpuOps (List.mem_of_getElem? (i := 4) rfl), ?_, ?_⟩
  · simp only [encode, Instr.row, rowVmmul]
    rw [show 0xFF800000#32 = fV 63 7 0 0 0 0 0 by decide, fV_and]
    simp only [BitVec.ofNat_eq_ofNat, BitVec.and_zero, BitVec.zero_and]
    rfl
  · simp only [encode, Instr.row, rowVmmul, regAt, selAt, sizeAt, quadSelAt, singleSelAt, fV_op, fV_sub, fV_vt, fV_two, fV_vs, fV_one, fV_vd,
      ofBits_two_one, quadSel_parts, singleSel_parts, BitVec.toFin_ofFin]

theorem vrot (sz : VSize) (vd : Sel) (vs : Sel) (imm5 : BitVec 5) : Statement (.vrot sz vd vs imm5) := by
  refine ⟨mem_table_of_vfpuOps (List.mem_of_getElem? (i := 5) rfl), ?_, ?_⟩
  · simp only [encode, Instr.row, rowVrot]
    rw [show 0xFFE00000#32 = fVimm5 63 31 0 0 0 0 0 by decide, fVimm5_and]
    simp only [BitVec.ofNat_eq_ofNat, BitVec.and_zero, BitVec.zero_and]
    rfl
  · simp only [encode, Instr.row, rowVrot, regAt, selAt, sizeAt, quadSelAt, singleSelAt, fVimm5_op, fVimm5_sub, fVimm5_imm, fVimm5_two, fVimm5_vs, fVimm5_one, fVimm5_vd,
      ofBits_two_one, quadSel_parts, singleSel_parts, BitVec.toFin_ofFin]

theorem vt4444Q (sz : VSize) (vd : Sel) (vs : Sel) : Statement (.vt4444Q sz vd vs) := by
  refine ⟨mem_table_of_vfpuOps (List.mem_of_getElem? (i := 6) rfl), ?_, ?_⟩
  · simp only [encode, Instr.row, rowVt4444Q]
    rw [show 0xFFFF0000#32 = fV 63 7 127 0 0 0 0 by decide, fV_and]
    simp only [BitVec.ofNat_eq_ofNat, BitVec.and_zero, BitVec.zero_and]
    rfl
  · simp only [encode, Instr.row, rowVt4444Q, regAt, selAt, sizeAt, quadSelAt, singleSelAt, fV_op, fV_sub, fV_vt, fV_two, fV_vs, fV_one, fV_vd,
      ofBits_two_one, quadSel_parts, singleSel_parts, BitVec.toFin_ofFin]

theorem vt5551Q (sz : VSize) (vd : Sel) (vs : Sel) : Statement (.vt5551Q sz vd vs) := by
  refine ⟨mem_table_of_vfpuOps (List.mem_of_getElem? (i := 7) rfl), ?_, ?_⟩
  · simp only [encode, Instr.row, rowVt5551Q]
    rw [show 0xFFFF0000#32 = fV 63 7 127 0 0 0 0 by decide, fV_and]
    simp only [BitVec.ofNat_eq_ofNat, BitVec.and_zero, BitVec.zero_and]
    rfl
  · simp only [encode, Instr.row, rowVt5551Q, regAt, selAt, sizeAt, quadSelAt, singleSelAt, fV_op, fV_sub, fV_vt, fV_two, fV_vs, fV_one, fV_vd,
      ofBits_two_one, quadSel_parts, singleSel_parts, BitVec.toFin_ofFin]

theorem vt5650Q (sz : VSize) (vd : Sel) (vs : Sel) : Statement (.vt5650Q sz vd vs) := by
  refine ⟨mem_table_of_vfpuOps (List.mem_of_getElem? (i := 8) rfl), ?_, ?_⟩
  · simp only [encode, Instr.row, rowVt5650Q]
    rw [show 0xFFFF0000#32 = fV 63 7 127 0 0 0 0 by decide, fV_and]
    simp only [BitVec.ofNat_eq_ofNat, BitVec.and_zero, BitVec.zero_and]
    rfl
  · simp only [encode, Instr.row, rowVt5650Q, regAt, selAt, sizeAt, quadSelAt, singleSelAt, fV_op, fV_sub, fV_vt, fV_two, fV_vs, fV_one, fV_vd,
      ofBits_two_one, quadSel_parts, singleSel_parts, BitVec.toFin_ofFin]

theorem vadd (sz : VSize) (vd : Sel) (vs : Sel) (vt : Sel) : Statement (.vadd sz vd vs vt) := by
  refine ⟨mem_table_of_vfpuOps (List.mem_of_getElem? (i := 9) rfl), ?_, ?_⟩
  · simp only [encode, Instr.row, rowVadd]
    rw [show 0xFF800000#32 = fV 63 7 0 0 0 0 0 by decide, fV_and]
    simp only [BitVec.ofNat_eq_ofNat, BitVec.and_zero, BitVec.zero_and]
    rfl
  · simp only [encode, Instr.row, rowVadd, regAt, selAt, sizeAt, quadSelAt, singleSelAt, fV_op, fV_sub, fV_vt, fV_two, fV_vs, fV_one, fV_vd,
      ofBits_two_one, quadSel_parts, singleSel_parts, BitVec.toFin_ofFin]

theorem vsub (sz : VSize) (vd : Sel) (vs : Sel) (vt : Sel) : Statement (.vsub sz vd vs vt) := by
  refine ⟨mem_table_of_vfpuOps (List.mem_of_getElem? (i := 10) rfl), ?_, ?_⟩
  · simp only [encode, Instr.row, rowVsub]
    rw [show 0xFF800000#32 = fV 63 7 0 0 0 0 0 by decide, fV_and]
    simp only [BitVec.ofNat_eq_ofNat, BitVec.and_zero, BitVec.zero_and]
    rfl
  · simp only [encode, Instr.row, rowVsub, regAt, selAt, sizeAt, quadSelAt, singleSelAt, fV_op, fV_sub, fV_vt, fV_two, fV_vs, fV_one, fV_vd,
      ofBits_two_one, quadSel_parts, singleSel_parts, BitVec.toFin_ofFin]

theorem vmul (sz : VSize) (vd : Sel) (vs : Sel) (vt : Sel) : Statement (.vmul sz vd vs vt) := by
  refine ⟨mem_table_of_vfpuOps (List.mem_of_getElem? (i := 11) rfl), ?_, ?_⟩
  · simp only [encode, Instr.row, rowVmul]
    rw [show 0xFF800000#32 = fV 63 7 0 0 0 0 0 by decide, fV_and]
    simp only [BitVec.ofNat_eq_ofNat, BitVec.and_zero, BitVec.zero_and]
    rfl
  · simp only [encode, Instr.row, rowVmul, regAt, selAt, sizeAt, quadSelAt, singleSelAt, fV_op, fV_sub, fV_vt, fV_two, fV_vs, fV_one, fV_vd,
      ofBits_two_one, quadSel_parts, singleSel_parts, BitVec.toFin_ofFin]

theorem vdiv (sz : VSize) (vd : Sel) (vs : Sel) (vt : Sel) : Statement (.vdiv sz vd vs vt) := by
  refine ⟨mem_table_of_vfpuOps (List.mem_of_getElem? (i := 12) rfl), ?_, ?_⟩
  · simp only [encode, Instr.row, rowVdiv]
    rw [show 0xFF800000#32 = fV 63 7 0 0 0 0 0 by decide, fV_and]
    simp only [BitVec.ofNat_eq_ofNat, BitVec.and_zero, BitVec.zero_and]
    rfl
  · simp only [encode, Instr.row, rowVdiv, regAt, selAt, sizeAt, quadSelAt, singleSelAt, fV_op, fV_sub, fV_vt, fV_two, fV_vs, fV_one, fV_vd,
      ofBits_two_one, quadSel_parts, singleSel_parts, BitVec.toFin_ofFin]

theorem vmov (sz : VSize) (vd : Sel) (vs : Sel) : Statement (.vmov sz vd vs) := by
  refine ⟨mem_table_of_vfpuOps (List.mem_of_getElem? (i := 13) rfl), ?_, ?_⟩
  · simp only [encode, Instr.row, rowVmov]
    rw [show 0xFFFF0000#32 = fV 63 7 127 0 0 0 0 by decide, fV_and]
    simp only [BitVec.ofNat_eq_ofNat, BitVec.and_zero, BitVec.zero_and]
    rfl
  · simp only [encode, Instr.row, rowVmov, regAt, selAt, sizeAt, quadSelAt, singleSelAt, fV_op, fV_sub, fV_vt, fV_two, fV_vs, fV_one, fV_vd,
      ofBits_two_one, quadSel_parts, singleSel_parts, BitVec.toFin_ofFin]

theorem vabs (sz : VSize) (vd : Sel) (vs : Sel) : Statement (.vabs sz vd vs) := by
  refine ⟨mem_table_of_vfpuOps (List.mem_of_getElem? (i := 14) rfl), ?_, ?_⟩
  · simp only [encode, Instr.row, rowVabs]
    rw [show 0xFFFF0000#32 = fV 63 7 127 0 0 0 0 by decide, fV_and]
    simp only [BitVec.ofNat_eq_ofNat, BitVec.and_zero, BitVec.zero_and]
    rfl
  · simp only [encode, Instr.row, rowVabs, regAt, selAt, sizeAt, quadSelAt, singleSelAt, fV_op, fV_sub, fV_vt, fV_two, fV_vs, fV_one, fV_vd,
      ofBits_two_one, quadSel_parts, singleSel_parts, BitVec.toFin_ofFin]

theorem vneg (sz : VSize) (vd : Sel) (vs : Sel) : Statement (.vneg sz vd vs) := by
  refine ⟨mem_table_of_vfpuOps (List.mem_of_getElem? (i := 15) rfl), ?_, ?_⟩
  · simp only [encode, Instr.row, rowVneg]
    rw [show 0xFFFF0000#32 = fV 63 7 127 0 0 0 0 by decide, fV_and]
    simp only [BitVec.ofNat_eq_ofNat, BitVec.and_zero, BitVec.zero_and]
    rfl
  · simp only [encode, Instr.row, rowVneg, regAt, selAt, sizeAt, quadSelAt, singleSelAt, fV_op, fV_sub, fV_vt, fV_two, fV_vs, fV_one, fV_vd,
      ofBits_two_one, quadSel_parts, singleSel_parts, BitVec.toFin_ofFin]

theorem vzero (sz : VSize) (vd : Sel) : Statement (.vzero sz vd) := by
  refine ⟨mem_table_of_vfpuOps (List.mem_of_getElem? (i := 16) rfl), ?_, ?_⟩
  · simp only [encode, Instr.row, rowVzero]
    rw [show 0xFFFF7F00#32 = fV 63 7 127 0 127 0 0 by decide, fV_and]
    simp only [BitVec.ofNat_eq_ofNat, BitVec.and_zero, BitVec.zero_and]
    rfl
  · simp only [encode, Instr.row, rowVzero, regAt, selAt, sizeAt, quadSelAt, singleSelAt, fV_op, fV_sub, fV_vt, fV_two, fV_vs, fV_one, fV_vd,
      ofBits_two_one, quadSel_parts, singleSel_parts, BitVec.toFin_ofFin]

theorem vone (sz : VSize) (vd : Sel) : Statement (.vone sz vd) := by
  refine ⟨mem_table_of_vfpuOps (List.mem_of_getElem? (i := 17) rfl), ?_, ?_⟩
  · simp only [encode, Instr.row, rowVone]
    rw [show 0xFFFF7F00#32 = fV 63 7 127 0 127 0 0 by decide, fV_and]
    simp only [BitVec.ofNat_eq_ofNat, BitVec.and_zero, BitVec.zero_and]
    rfl
  · simp only [encode, Instr.row, rowVone, regAt, selAt, sizeAt, quadSelAt, singleSelAt, fV_op, fV_sub, fV_vt, fV_two, fV_vs, fV_one, fV_vd,
      ofBits_two_one, quadSel_parts, singleSel_parts, BitVec.toFin_ofFin]

theorem vscl (sz : VSize) (vd : Sel) (vs : Sel) (vt : Sel) : Statement (.vscl sz vd vs vt) := by
  refine ⟨mem_table_of_vfpuOps (List.mem_of_getElem? (i := 18) rfl), ?_, ?_⟩
  · simp only [encode, Instr.row, rowVscl]
    rw [show 0xFF800000#32 = fV 63 7 0 0 0 0 0 by decide, fV_and]
    simp only [BitVec.ofNat_eq_ofNat, BitVec.and_zero, BitVec.zero_and]
    rfl
  · simp only [encode, Instr.row, rowVscl, regAt, selAt, sizeAt, quadSelAt, singleSelAt, fV_op, fV_sub, fV_vt, fV_two, fV_vs, fV_one, fV_vd,
      ofBits_two_one, quadSel_parts, singleSel_parts, BitVec.toFin_ofFin]

theorem vdot (sz : VSize) (vd : Sel) (vs : Sel) (vt : Sel) : Statement (.vdot sz vd vs vt) := by
  refine ⟨mem_table_of_vfpuOps (List.mem_of_getElem? (i := 19) rfl), ?_, ?_⟩
  · simp only [encode, Instr.row, rowVdot]
    rw [show 0xFF800000#32 = fV 63 7 0 0 0 0 0 by decide, fV_and]
    simp only [BitVec.ofNat_eq_ofNat, BitVec.and_zero, BitVec.zero_and]
    rfl
  · simp only [encode, Instr.row, rowVdot, regAt, selAt, sizeAt, quadSelAt, singleSelAt, fV_op, fV_sub, fV_vt, fV_two, fV_vs, fV_one, fV_vd,
      ofBits_two_one, quadSel_parts, singleSel_parts, BitVec.toFin_ofFin]

theorem viimS (vt : Sel) (imm16 : BitVec 16) : Statement (.viimS vt imm16) := by
  refine ⟨mem_table_of_vfpuOps (List.mem_of_getElem? (i := 20) rfl), ?_, ?_⟩
  · simp only [encode, Instr.row, rowViimS]
    rw [show 0xFF800000#32 = fViim 63 7 0 0 by decide, fViim_and]
    simp only [BitVec.ofNat_eq_ofNat, BitVec.and_zero, BitVec.zero_and]
    rfl
  · simp only [encode, Instr.row, rowViimS, regAt, selAt, sizeAt, quadSelAt, singleSelAt, fViim_op, fViim_sub, fViim_vd, fViim_imm,
      ofBits_two_one, quadSel_parts, singleSel_parts, BitVec.toFin_ofFin]

theorem mtv (rt : Reg) (vd : Sel) : Statement (.mtv rt vd) := by
  refine ⟨mem_table_of_vfpuOps (List.mem_of_getElem? (i := 21) rfl), ?_, ?_⟩
  · simp only [encode, Instr.row, rowMtv]
    rw [show 0xFFE0FF80#32 = fVimm5 63 31 0 1 127 1 0 by decide, fVimm5_and]
    simp only [BitVec.ofNat_eq_ofNat, BitVec.and_zero, BitVec.zero_and]
    rfl
  · simp only [encode, Instr.row, rowMtv, regAt, selAt, sizeAt, quadSelAt, singleSelAt, fVimm5_op, fVimm5_sub, fVimm5_imm, fVimm5_two, fVimm5_vs, fVimm5_one, fVimm5_vd,
      ofBits_two_one, quadSel_parts, singleSel_parts, BitVec.toFin_ofFin]

theorem mfv (rt : Reg) (vd : Sel) : Statement (.mfv rt vd) := by
  refine ⟨mem_table_of_vfpuOps (List.mem_of_getElem? (i := 22) rfl), ?_, ?_⟩
  · simp only [encode, Instr.row, rowMfv]
    rw [show 0xFFE0FF80#32 = fVimm5 63 31 0 1 127 1 0 by decide, fVimm5_and]
    simp only [BitVec.ofNat_eq_ofNat, BitVec.and_zero, BitVec.zero_and]
    rfl
  · simp only [encode, Instr.row, rowMfv, regAt, selAt, sizeAt, quadSelAt, singleSelAt, fVimm5_op, fVimm5_sub, fVimm5_imm, fVimm5_two, fVimm5_vs, fVimm5_one, fVimm5_vd,
      ofBits_two_one, quadSel_parts, singleSel_parts, BitVec.toFin_ofFin]

theorem vnop : Statement .vnop := by
  refine ⟨mem_table_of_vfpuOps (List.mem_of_getElem? (i := 23) rfl), ?_, ?_⟩
  · simp only [encode, Instr.row, rowVnop]
    rw [show 0xFFFFFFFF#32 = fI 63 31 31 65535 by decide, fI_and]
    simp only [BitVec.ofNat_eq_ofNat, BitVec.and_zero, BitVec.zero_and]
    rfl
  · rfl

theorem vsync : Statement .vsync := by
  refine ⟨mem_table_of_vfpuOps (List.mem_of_getElem? (i := 24) rfl), ?_, ?_⟩
  · simp only [encode, Instr.row, rowVsync]
    rw [show 0xFFFFFFFF#32 = fI 63 31 31 65535 by decide, fI_and]
    simp only [BitVec.ofNat_eq_ofNat, BitVec.and_zero, BitVec.zero_and]
    rfl
  · rfl

theorem vflush : Statement .vflush := by
  refine ⟨mem_table_of_vfpuOps (List.mem_of_getElem? (i := 25) rfl), ?_, ?_⟩
  · simp only [encode, Instr.row, rowVflush]
    rw [show 0xFFFFFFFF#32 = fI 63 31 31 65535 by decide, fI_and]
    simp only [BitVec.ofNat_eq_ofNat, BitVec.and_zero, BitVec.zero_and]
    rfl
  · rfl

theorem vsin (sz : VSize) (vd : Sel) (vs : Sel) : Statement (.vsin sz vd vs) := by
  refine ⟨mem_table_of_vfpuUnimplemented (List.mem_of_getElem? (i := 0) rfl), ?_, ?_⟩
  · simp only [encode, Instr.row, rowVsin]
    rw [show 0xFFFF0000#32 = fV 63 7 127 0 0 0 0 by decide, fV_and]
    simp only [BitVec.ofNat_eq_ofNat, BitVec.and_zero, BitVec.zero_and]
    rfl
  · simp only [encode, Instr.row, rowVsin, regAt, selAt, sizeAt, quadSelAt, singleSelAt, fV_op, fV_sub, fV_vt, fV_two, fV_vs, fV_one, fV_vd,
      ofBits_two_one, quadSel_parts, singleSel_parts, BitVec.toFin_ofFin]

theorem vcos (sz : VSize) (vd : Sel) (vs : Sel) : Statement (.vcos sz vd vs) := by
  refine ⟨mem_table_of_vfpuUnimplemented (List.mem_of_getElem? (i := 1) rfl), ?_, ?_⟩
  · simp only [encode, Instr.row, rowVcos]
    rw [show 0xFFFF0000#32 = fV 63 7 127 0 0 0 0 by decide, fV_and]
    simp only [BitVec.ofNat_eq_ofNat, BitVec.and_zero, BitVec.zero_and]
    rfl
  · simp only [encode, Instr.row, rowVcos, regAt, selAt, sizeAt, quadSelAt, singleSelAt, fV_op, fV_sub, fV_vt, fV_two, fV_vs, fV_one, fV_vd,
      ofBits_two_one, quadSel_parts, singleSel_parts, BitVec.toFin_ofFin]

theorem vsqrt (sz : VSize) (vd : Sel) (vs : Sel) : Statement (.vsqrt sz vd vs) := by
  refine ⟨mem_table_of_vfpuUnimplemented (List.mem_of_getElem? (i := 2) rfl), ?_, ?_⟩
  · simp only [encode, Instr.row, rowVsqrt]
    rw [show 0xFFFF0000#32 = fV 63 7 127 0 0 0 0 by decide, fV_and]
    simp only [BitVec.ofNat_eq_ofNat, BitVec.and_zero, BitVec.zero_and]
    rfl
  · simp only [encode, Instr.row, rowVsqrt, regAt, selAt, sizeAt, quadSelAt, singleSelAt, fV_op, fV_sub, fV_vt, fV_two, fV_vs, fV_one, fV_vd,
      ofBits_two_one, quadSel_parts, singleSel_parts, BitVec.toFin_ofFin]

theorem vtfm2 (vd : Sel) (vs : Sel) (vt : Sel) : Statement (.vtfm2 vd vs vt) := by
  refine ⟨mem_table_of_vfpuUnimplemented (List.mem_of_getElem? (i := 3) rfl), ?_, ?_⟩
  · simp only [encode, Instr.row, rowVtfm2]
    rw [show 0xFF808080#32 = fV 63 7 0 1 0 1 0 by decide, fV_and]
    simp only [BitVec.ofNat_eq_ofNat, BitVec.and_zero, BitVec.zero_and]
    rfl
  · simp only [encode, Instr.row, rowVtfm2, regAt, selAt, sizeAt, quadSelAt, singleSelAt, fV_op, fV_sub, fV_vt, fV_two, fV_vs, fV_one, fV_vd,
      ofBits_two_one, quadSel_parts, singleSel_parts, BitVec.toFin_ofFin]

theorem vtfm3 (vd : Sel) (vs : Sel) (vt : Sel) : Statement (.vtfm3 vd vs vt) := by
  refine ⟨mem_table_of_vfpuUnimplemented (List.mem_of_getElem? (i := 4) rfl), ?_, ?_⟩
  · simp only [encode, Instr.row, rowVtfm3]
    rw [show 0xFF808080#32 = fV 63 7 0 1 0 1 0 by decide, fV_and]
    simp only [BitVec.ofNat_eq_ofNat, BitVec.and_zero, BitVec.zero_and]
    rfl
  · simp only [encode, Instr.row, rowVtfm3, regAt, selAt, sizeAt, quadSelAt, singleSelAt, fV_op, fV_sub, fV_vt, fV_two, fV_vs, fV_one, fV_vd,
      ofBits_two_one, quadSel_parts, singleSel_parts, BitVec.toFin_ofFin]

theorem vtfm4 (vd : Sel) (vs : Sel) (vt : Sel) : Statement (.vtfm4 vd vs vt) := by
  refine ⟨mem_table_of_vfpuUnimplemented (List.mem_of_getElem? (i := 5) rfl), ?_, ?_⟩
  · simp only [encode, Instr.row, rowVtfm4]
    rw [show 0xFF808080#32 = fV 63 7 0 1 0 1 0 by decide, fV_and]
    simp only [BitVec.ofNat_eq_ofNat, BitVec.and_zero, BitVec.zero_and]
    rfl
  · simp only [encode, Instr.row, rowVtfm4, regAt, selAt, sizeAt, quadSelAt, singleSelAt, fV_op, fV_sub, fV_vt, fV_two, fV_vs, fV_one, fV_vd,
      ofBits_two_one, quadSel_parts, singleSel_parts, BitVec.toFin_ofFin]

theorem vcrsT (vd : Sel) (vs : Sel) (vt : Sel) : Statement (.vcrsT vd vs vt) := by
  refine ⟨mem_table_of_vfpuUnimplemented (List.mem_of_getElem? (i := 6) rfl), ?_, ?_⟩
  · simp only [encode, Instr.row, rowVcrsT]
    rw [show 0xFF808080#32 = fV 63 7 0 1 0 1 0 by decide, fV_and]
    simp only [BitVec.ofNat_eq_ofNat, BitVec.and_zero, BitVec.zero_and]
    rfl
  · simp only [encode, Instr.row, rowVcrsT, regAt, selAt, sizeAt, quadSelAt, singleSelAt, fV_op, fV_sub, fV_vt, fV_two, fV_vs, fV_one, fV_vd,
      ofBits_two_one, quadSel_parts, singleSel_parts, BitVec.toFin_ofFin]

theorem vsrt1 (sz : VSize) (vd : Sel) (vs : Sel) : Statement (.vsrt1 sz vd vs) := by
  refine ⟨mem_table_of_vfpuUnimplemented (List.mem_of_getElem? (i := 7) rfl), ?_, ?_⟩
  · simp only [encode, Instr.row, rowVsrt1]
    rw [show 0xFFFF0000#32 = fV 63 7 127 0 0 0 0 by decide, fV_and]
    simp only [BitVec.ofNat_eq_ofNat, BitVec.and_zero, BitVec.zero_and]
    rfl
  · simp only [encode, Instr.row, rowVsrt1, regAt, selAt, sizeAt, quadSelAt, singleSelAt, fV_op, fV_sub, fV_vt, fV_two, fV_vs, fV_one, fV_vd,
      ofBits_two_one, quadSel_parts, singleSel_parts, BitVec.toFin_ofFin]

theorem vsrt2 (sz : VSize) (vd : Sel) (vs : Sel) : Statement (.vsrt2 sz vd vs) := by
  refine ⟨mem_table_of_vfpuUnimplemented (List.mem_of_getElem? (i := 8) rfl), ?_, ?_⟩
  · simp only [encode, Instr.row, rowVsrt2]
    rw [show 0xFFFF0000#32 = fV 63 7 127 0 0 0 0 by decide, fV_and]
    simp only [BitVec.ofNat_eq_ofNat, BitVec.and_zero, BitVec.zero_and]
    rfl
  · simp only [encode, Instr.row, rowVsrt2, regAt, selAt, sizeAt, quadSelAt, singleSelAt, fV_op, fV_sub, fV_vt, fV_two, fV_vs, fV_one, fV_vd,
      ofBits_two_one, quadSel_parts, singleSel_parts, BitVec.toFin_ofFin]

theorem vsrt3 (sz : VSize) (vd : Sel) (vs : Sel) : Statement (.vsrt3 sz vd vs) := by
  refine ⟨mem_table_of_vfpuUnimplemented (List.mem_of_getElem? (i := 9) rfl), ?_, ?_⟩
  · simp only [encode, Instr.row, rowVsrt3]
    rw [show 0xFFFF0000#32 = fV 63 7 127 0 0 0 0 by decide, fV_and]
    simp only [BitVec.ofNat_eq_ofNat, BitVec.and_zero, BitVec.zero_and]
    rfl
  · simp only [encode, Instr.row, rowVsrt3, regAt, selAt, sizeAt, quadSelAt, singleSelAt, fV_op, fV_sub, fV_vt, fV_two, fV_vs, fV_one, fV_vd,
      ofBits_two_one, quadSel_parts, singleSel_parts, BitVec.toFin_ofFin]

theorem vsrt4 (sz : VSize) (vd : Sel) (vs : Sel) : Statement (.vsrt4 sz vd vs) := by
  refine ⟨mem_table_of_vfpuUnimplemented (List.mem_of_getElem? (i := 10) rfl), ?_, ?_⟩
  · simp only [encode, Instr.row, rowVsrt4]
    rw [show 0xFFFF0000#32 = fV 63 7 127 0 0 0 0 by decide, fV_and]
    simp only [BitVec.ofNat_eq_ofNat, BitVec.and_zero, BitVec.zero_and]
    rfl
  · simp only [encode, Instr.row, rowVsrt4, regAt, selAt, sizeAt, quadSelAt, singleSelAt, fV_op, fV_sub, fV_vt, fV_two, fV_vs, fV_one, fV_vd,
      ofBits_two_one, quadSel_parts, singleSel_parts, BitVec.toFin_ofFin]

theorem vhtfm2 (vd : Sel) (vs : Sel) (vt : Sel) : Statement (.vhtfm2 vd vs vt) := by
  refine ⟨mem_table_of_vfpuUnimplemented (List.mem_of_getElem? (i := 11) rfl), ?_, ?_⟩
  · simp only [encode, Instr.row, rowVhtfm2]
    rw [show 0xFF808080#32 = fV 63 7 0 1 0 1 0 by decide, fV_and]
    simp only [BitVec.ofNat_eq_ofNat, BitVec.and_zero, BitVec.zero_and]
    rfl
  · simp only [encode, Instr.row, rowVhtfm2, regAt, selAt, sizeAt, quadSelAt, singleSelAt, fV_op, fV_sub, fV_vt, fV_two, fV_vs, fV_one, fV_vd,
      ofBits_two_one, quadSel_parts, singleSel_parts, BitVec.toFin_ofFin]

theorem vhtfm3 (vd : Sel) (vs : Sel) (vt : Sel) : Statement (.vhtfm3 vd vs vt) := by
  refine ⟨mem_table_of_vfpuUnimplemented (List.mem_of_getElem? (i := 12) rfl), ?_, ?_⟩
  · simp only [encode, Instr.row, rowVhtfm3]
    rw [show 0xFF808080#32 = fV 63 7 0 1 0 1 0 by decide, fV_and]
    simp only [BitVec.ofNat_eq_ofNat, BitVec.and_zero, BitVec.zero_and]
    rfl
  · simp only [encode, Instr.row, rowVhtfm3, regAt, selAt, sizeAt, quadSelAt, singleSelAt, fV_op, fV_sub, fV_vt, fV_two, fV_vs, fV_one, fV_vd,
      ofBits_two_one, quadSel_parts, singleSel_parts, BitVec.toFin_ofFin]

theorem vhtfm4 (vd : Sel) (vs : Sel) (vt : Sel) : Statement (.vhtfm4 vd vs vt) := by
  refine ⟨mem_table_of_vfpuUnimplemented (List.mem_of_getElem? (i := 13) rfl), ?_, ?_⟩
  · simp only [encode, Instr.row, rowVhtfm4]
    rw [show 0xFF808080#32 = fV 63 7 0 1 0 1 0 by decide, fV_and]
    simp only [BitVec.ofNat_eq_ofNat, BitVec.and_zero, BitVec.zero_and]
    rfl
  · simp only [encode, Instr.row, rowVhtfm4, regAt, selAt, sizeAt, quadSelAt, singleSelAt, fV_op, fV_sub, fV_vt, fV_two, fV_vs, fV_one, fV_vd,
      ofBits_two_one, quadSel_parts, singleSel_parts, BitVec.toFin_ofFin]

theorem vsbn (sz : VSize) (vd : Sel) (vs : Sel) (vt : Sel) : Statement (.vsbn sz vd vs vt) := by
  refine ⟨mem_table_of_vfpuUnimplemented (List.mem_of_getElem? (i := 14) rfl), ?_, ?_⟩
  · simp only [encode, Instr.row, rowVsbn]
    rw [show 0xFF800000#32 = fV 63 7 0 0 0 0 0 by decide, fV_and]
    simp only [BitVec.ofNat_eq_ofNat, BitVec.and_zero, BitVec.zero_and]
    rfl
  · simp only [encode, Instr.row, rowVsbn, regAt, selAt, sizeAt, quadSelAt, singleSelAt, fV_op, fV_sub, fV_vt, fV_two, fV_vs, fV_one, fV_vd,
      ofBits_two_one, quadSel_parts, singleSel_parts, BitVec.toFin_ofFin]

theorem vhdp (sz : VSize) (vd : Sel) (vs : Sel) (vt : Sel) : Statement (.vhdp sz vd vs vt) := by
  refine ⟨mem_table_of_vfpuUnimplemented (List.mem_of_getElem? (i := 15) rfl), ?_, ?_⟩
  · simp only [encode, Instr.row, rowVhdp]
    rw [show 0xFF800000#32 = fV 63 7 0 0 0 0 0 by decide, fV_and]
    simp only [BitVec.ofNat_eq_ofNat, BitVec.and_zero, BitVec.zero_and]
    rfl
  · simp only [encode, Instr.row, rowVhdp, regAt, selAt, sizeAt, quadSelAt, singleSelAt, fV_op, fV_sub, fV_vt, fV_two, fV_vs, fV_one, fV_vd,
      ofBits_two_one, quadSel_parts, singleSel_parts, BitVec.toFin_ofFin]

theorem vdet (sz : VSize) (vd : Sel) (vs : Sel) (vt : Sel) : Statement (.vdet sz vd vs vt) := by
  refine ⟨mem_table_of_vfpuUnimplemented (List.mem_of_getElem? (i := 16) rfl), ?_, ?_⟩
  · simp only [encode, Instr.row, rowVdet]
    rw [show 0xFF800000#32 = fV 63 7 0 0 0 0 0 by decide, fV_and]
    simp only [BitVec.ofNat_eq_ofNat, BitVec.and_zero, BitVec.zero_and]
    rfl
  · simp only [encode, Instr.row, rowVdet, regAt, selAt, sizeAt, quadSelAt, singleSelAt, fV_op, fV_sub, fV_vt, fV_two, fV_vs, fV_one, fV_vd,
      ofBits_two_one, quadSel_parts, singleSel_parts, BitVec.toFin_ofFin]

theorem vcmp (sz : VSize) (imm4 : BitVec 4) (vs : Sel) (vt : Sel) : Statement (.vcmp sz imm4 vs vt) := by
  refine ⟨mem_table_of_vfpuUnimplemented (List.mem_of_getElem? (i := 17) rfl), ?_, ?_⟩
  · simp only [encode, Instr.row, rowVcmp]
    rw [show 0xFF800070#32 = fVcmp 63 7 0 0 0 0 7 0 by decide, fVcmp_and]
    simp only [BitVec.ofNat_eq_ofNat, BitVec.and_zero, BitVec.zero_and]
    rfl
  · simp only [encode, Instr.row, rowVcmp, regAt, selAt, sizeAt, quadSelAt, singleSelAt, fVcmp_op, fVcmp_sub, fVcmp_vt, fVcmp_two, fVcmp_vs, fVcmp_one, fVcmp_zero, fVcmp_cond,
      ofBits_two_one, quadSel_parts, singleSel_parts, BitVec.toFin_ofFin]

theorem vmin (sz : VSize) (vd : Sel) (vs : Sel) (vt : Sel) : Statement (.vmin sz vd vs vt) := by
  refine ⟨mem_table_of_vfpuUnimplemented (List.mem_of_getElem? (i := 18) rfl), ?_, ?_⟩
  · simp only [encode, Instr.row, rowVmin]
    rw [show 0xFF800000#32 = fV 63 7 0 0 0 0 0 by decide, fV_and]
    simp only [BitVec.ofNat_eq_ofNat, BitVec.and_zero, BitVec.zero_and]
    rfl
  · simp only [encode, Instr.row, rowVmin, regAt, selAt, sizeAt, quadSelAt, singleSelAt, fV_op, fV_sub, fV_vt, fV_two, fV_vs, fV_one, fV_vd,
      ofBits_two_one, quadSel_parts, singleSel_parts, BitVec.toFin_ofFin]

theorem vmax (sz : VSize) (vd : Sel) (vs : Sel) (vt : Sel) : Statement (.vmax sz vd vs vt) := by
  refine ⟨mem_table_of_vfpuUnimplemented (List.mem_of_getElem? (i := 19) rfl), ?_, ?_⟩
  · simp only [encode, Instr.row, rowVmax]
    rw [show 0xFF800000#32 = fV 63 7 0 0 0 0 0 by decide, fV_and]
    simp only [BitVec.ofNat_eq_ofNat, BitVec.and_zero, BitVec.zero_and]
    rfl
  · simp only [encode, Instr.row, rowVmax, regAt, selAt, sizeAt, quadSelAt, singleSelAt, fV_op, fV_sub, fV_vt, fV_two, fV_vs, fV_one, fV_vd,
      ofBits_two_one, quadSel_parts, singleSel_parts, BitVec.toFin_ofFin]

theorem vscmp (sz : VSize) (vd : Sel) (vs : Sel) (vt : Sel) : Statement (.vscmp sz vd vs vt) := by
  refine ⟨mem_table_of_vfpuUnimplemented (List.mem_of_getElem? (i := 20) rfl), ?_, ?_⟩
  · simp only [encode, Instr.row, rowVscmp]
    rw [show 0xFF800000#32 = fV 63 7 0 0 0 0 0 by decide, fV_and]
    simp only [BitVec.ofNat_eq_ofNat, BitVec.and_zero, BitVec.zero_and]
    rfl
  · simp only [encode, Instr.row, rowVscmp, regAt, selAt, sizeAt, quadSelAt, singleSelAt, fV_op, fV_sub, fV_vt, fV_two, fV_vs, fV_one, fV_vd,
      ofBits_two_one, quadSel_parts, singleSel_parts, BitVec.toFin_ofFin]

theorem vsge (sz : VSize) (vd : Sel) (vs : Sel) (vt : Sel) : Statement (.vsge sz vd vs vt) := by
  refine ⟨mem_table_of_vfpuUnimplemented (List.mem_of_getElem? (i := 21) rfl), ?_, ?_⟩
  · simp only [encode, Instr.row, rowVsge]
    rw [show 0xFF800000#32 = fV 63 7 0 0 0 0 0 by decide, fV_and]
    simp only [BitVec.ofNat_eq_ofNat, BitVec.and_zero, BitVec.zero_and]
    rfl
  · simp only [encode, Instr.row, rowVsge, regAt, selAt, sizeAt, quadSelAt, singleSelAt, fV_op, fV_sub, fV_vt, fV_two, fV_vs, fV_one, fV_vd,
      ofBits_two_one, quadSel_parts, singleSel_parts, BitVec.toFin_ofFin]

theorem vslt (sz : VSize) (vd : Sel) (vs : Sel) (vt : Sel) : Statement (.vslt sz vd vs vt) := by
  refine ⟨mem_table_of_vfpuUnimplemented (List.mem_of_getElem? (i := 22) rfl), ?_, ?_⟩
  · simp only [encode, Instr.row, rowVslt]
    rw [show 0xFF800000#32 = fV 63 7 0 0 0 0 0 by decide, fV_and]
    simp only [BitVec.ofNat_eq_ofNat, BitVec.and_zero, BitVec.zero_and]
    rfl
  · simp only [encode, Instr.row, rowVslt, regAt, selAt, sizeAt, quadSelAt, singleSelAt, fV_op, fV_sub, fV_vt, fV_two, fV_vs, fV_one, fV_vd,
      ofBits_two_one, quadSel_parts, singleSel_parts, BitVec.toFin_ofFin]

theorem vidt (sz : VSize) (vd : Sel) : Statement (.vidt sz vd) := by
  refine ⟨mem_table_of_vfpuUnimplemented (List.mem_of_getElem? (i := 23) rfl), ?_, ?_⟩
  · simp only [encode, Instr.row, rowVidt]
    rw [show 0xFFFF7F00#32 = fV 63 7 127 0 127 0 0 by decide, fV_and]
    simp only [BitVec.ofNat_eq_ofNat, BitVec.and_zero, BitVec.zero_and]
    rfl
  · simp only [encode, Instr.row, rowVidt, regAt, selAt, sizeAt, quadSelAt, singleSelAt, fV_op, fV_sub, fV_vt, fV_two, fV_vs, fV_one, fV_vd,
      ofBits_two_one, quadSel_parts, singleSel_parts, BitVec.toFin_ofFin]

theorem vsat0 (sz : VSize) (vd : Sel) (vs : Sel) : Statement (.vsat0 sz vd vs) := by
  refine ⟨mem_table_of_vfpuUnimplemented (List.mem_of_getElem? (i := 24) rfl), ?_, ?_⟩
  · simp only [encode, Instr.row, rowVsat0]
    rw [show 0xFFFF0000#32 = fV 63 7 127 0 0 0 0 by decide, fV_and]
    simp only [BitVec.ofNat_eq_ofNat, BitVec.and_zero, BitVec.zero_and]
    rfl
  · simp only [encode, Instr.row, rowVsat0, regAt, selAt, sizeAt, quadSelAt, singleSelAt, fV_op, fV_sub, fV_vt, fV_two, fV_vs, fV_one, fV_vd,
      ofBits_two_one, quadSel_parts, singleSel_parts, BitVec.toFin_ofFin]

theorem vsat1 (sz : VSize) (vd : Sel) (vs : Sel) : Statement (.vsat1 sz vd vs) := by
  refine ⟨mem_table_of_vfpuUnimplemented (List.mem_of_getElem? (i := 25) rfl), ?_, ?_⟩
  · simp only [encode, Instr.row, rowVsat1]
    rw [show 0xFFFF0000#32 = fV 63 7 127 0 0 0 0 by decide, fV_and]
    simp only [BitVec.ofNat_eq_ofNat, BitVec.and_zero, BitVec.zero_and]
    rfl
  · simp only [encode, Instr.row, rowVsat1, regAt, selAt, sizeAt, quadSelAt, singleSelAt, fV_op, fV_sub, fV_vt, fV_two, fV_vs, fV_one, fV_vd,
      ofBits_two_one, quadSel_parts, singleSel_parts, BitVec.toFin_ofFin]

theorem vrcp (sz : VSize) (vd : Sel) (vs : Sel) : Statement (.vrcp sz vd vs) := by
  refine ⟨mem_table_of_vfpuUnimplemented (List.mem_of_getElem? (i := 26) rfl), ?_, ?_⟩
  · simp only [encode, Instr.row, rowVrcp]
    rw [show 0xFFFF0000#32 = fV 63 7 127 0 0 0 0 by decide, fV_and]
    simp only [BitVec.ofNat_eq_ofNat, BitVec.and_zero, BitVec.zero_and]
    rfl
  · simp only [encode, Instr.row, rowVrcp, regAt, selAt, sizeAt, quadSelAt, singleSelAt, fV_op, fV_sub, fV_vt, fV_two, fV_vs, fV_one, fV_vd,
      ofBits_two_one, quadSel_parts, singleSel_parts, BitVec.toFin_ofFin]

theorem vrsq (sz : VSize) (vd : Sel) (vs : Sel) : Statement (.vrsq sz vd vs) := by
  refine ⟨mem_table_of_vfpuUnimplemented (List.mem_of_getElem? (i := 27) rfl), ?_, ?_⟩
  · simp only [encode, Instr.row, rowVrsq]
    rw [show 0xFFFF0000#32 = fV 63 7 127 0 0 0 0 by decide, fV_and]
    simp only [BitVec.ofNat_eq_ofNat, BitVec.and_zero, BitVec.zero_and]
    rfl
  · simp only [encode, Instr.row, rowVrsq, regAt, selAt, sizeAt, quadSelAt, singleSelAt, fV_op, fV_sub, fV_vt, fV_two, fV_vs, fV_one, fV_vd,
      ofBits_two_one, quadSel_parts, singleSel_parts, BitVec.toFin_ofFin]

theorem vexp2 (sz : VSize) (vd : Sel) (vs : Sel) : Statement (.vexp2 sz vd vs) := by
  refine ⟨mem_table_of_vfpuUnimplemented (List.mem_of_getElem? (i := 28) rfl), ?_, ?_⟩
  · simp only [encode, Instr.row, rowVexp2]
    rw [show 0xFFFF0000#32 = fV 63 7 127 0 0 0 0 by decide, fV_and]
    simp only [BitVec.ofNat_eq_ofNat, BitVec.and_zero, BitVec.zero_and]
    rfl
  · simp only [encode, Instr.row, rowVexp2, regAt, selAt, sizeAt, quadSelAt, singleSelAt, fV_op, fV_sub, fV_vt, fV_two, fV_vs, fV_one, fV_vd,
      ofBits_two_one, quadSel_parts, singleSel_parts, BitVec.toFin_ofFin]

theorem vlog2 (sz : VSize) (vd : Sel) (vs : Sel) : Statement (.vlog2 sz vd vs) := by
  refine ⟨mem_table_of_vfpuUnimplemented (List.mem_of_getElem? (i := 29) rfl), ?_, ?_⟩
  · simp only [encode, Instr.row, rowVlog2]
    rw [show 0xFFFF0000#32 = fV 63 7 127 0 0 0 0 by decide, fV_and]
    simp only [BitVec.ofNat_eq_ofNat, BitVec.and_zero, BitVec.zero_and]
    rfl
  · simp only [encode, Instr.row, rowVlog2, regAt, selAt, sizeAt, quadSelAt, singleSelAt, fV_op, fV_sub, fV_vt, fV_two, fV_vs, fV_one, fV_vd,
      ofBits_two_one, quadSel_parts, singleSel_parts, BitVec.toFin_ofFin]

theorem vasin (sz : VSize) (vd : Sel) (vs : Sel) : Statement (.vasin sz vd vs) := by
  refine ⟨mem_table_of_vfpuUnimplemented (List.mem_of_getElem? (i := 30) rfl), ?_, ?_⟩
  · simp only [encode, Instr.row, rowVasin]
    rw [show 0xFFFF0000#32 = fV 63 7 127 0 0 0 0 by decide, fV_and]
    simp only [BitVec.ofNat_eq_ofNat, BitVec.and_zero, BitVec.zero_and]
    rfl
  · simp only [encode, Instr.row, rowVasin, regAt, selAt, sizeAt, quadSelAt, singleSelAt, fV_op, fV_sub, fV_vt, fV_two, fV_vs, fV_one, fV_vd,
      ofBits_two_one, quadSel_parts, singleSel_parts, BitVec.toFin_ofFin]

theorem vnrcp (sz : VSize) (vd : Sel) (vs : Sel) : Statement (.vnrcp sz vd vs) := by
  refine ⟨mem_table_of_vfpuUnimplemented (List.mem_of_getElem? (i := 31) rfl), ?_, ?_⟩
  · simp only [encode, Instr.row, rowVnrcp]
    rw [show 0xFFFF0000#32 = fV 63 7 127 0 0 0 0 by decide, fV_and]
    simp only [BitVec.ofNat_eq_ofNat, BitVec.and_zero, BitVec.zero_and]
    rfl
  · simp only [encode, Instr.row, rowVnrcp, regAt, selAt, sizeAt, quadSelAt, singleSelAt, fV_op, fV_sub, fV_vt, fV_two, fV_vs, fV_one, fV_vd,
      ofBits_two_one, quadSel_parts, singleSel_parts, BitVec.toFin_ofFin]

theorem vnsin (sz : VSize) (vd : Sel) (vs : Sel) : Statement (.vnsin sz vd vs) := by
  refine ⟨mem_table_of_vfpuUnimplemented (List.mem_of_getElem? (i := 32) rfl), ?_, ?_⟩
  · simp only [encode, Instr.row, rowVnsin]
    rw [show 0xFFFF0000#32 = fV 63 7 127 0 0 0 0 by decide, fV_and]
    simp only [BitVec.ofNat_eq_ofNat, BitVec.and_zero, BitVec.zero_and]
    rfl
  · simp only [encode, Instr.row, rowVnsin, regAt, selAt, sizeAt, quadSelAt, singleSelAt, fV_op, fV_sub, fV_vt, fV_two, fV_vs, fV_one, fV_vd,
      ofBits_two_one, quadSel_parts, singleSel_parts, BitVec.toFin_ofFin]

theorem vrexp2 (sz : VSize) (vd : Sel) (vs : Sel) : Statement (.vrexp2 sz vd vs) := by
  refine ⟨mem_table_of_vfpuUnimplemented (List.mem_of_getElem? (i := 33) rfl), ?_, ?_⟩
  · simp only [encode, Instr.row, rowVrexp2]
    rw [show 0xFFFF0000#32 = fV 63 7 127 0 0 0 0 by decide, fV_and]
    simp only [BitVec.ofNat_eq_ofNat, BitVec.and_zero, BitVec.zero_and]
    rfl
  · simp only [encode, Instr.row, rowVrexp2, regAt, selAt, sizeAt, quadSelAt, singleSelAt, fV_op, fV_sub, fV_vt, fV_two, fV_vs, fV_one, fV_vd,
      ofBits_two_one, quadSel_parts, singleSel_parts, BitVec.toFin_ofFin]

theorem vrnds (sz : VSize) (vs : Sel) : Statement (.vrnds sz vs) := by
  refine ⟨mem_table_of_vfpuUnimplemented (List.mem_of_getElem? (i := 34) rfl), ?_, ?_⟩
  · simp only [encode, Instr.row, rowVrnds]
    rw [show 0xFFFF007F#32 = fV 63 7 127 0 0 0 127 by decide, fV_and]
    simp only [BitVec.ofNat_eq_ofNat, BitVec.and_zero, BitVec.zero_and]
    rfl
  · simp only [encode, Instr.row, rowVrnds, regAt, selAt, sizeAt, quadSelAt, singleSelAt, fV_op, fV_sub, fV_vt, fV_two, fV_vs, fV_one, fV_vd,
      ofBits_two_one, quadSel_parts, singleSel_parts, BitVec.toFin_ofFin]

theorem vrndi (sz : VSize) (vd : Sel) : Statement (.vrndi sz vd) := by
  refine ⟨mem_table_of_vfpuUnimplemented (List.mem_of_getElem? (i := 35) rfl), ?_, ?_⟩
  · simp only [encode, Instr.row, rowVrndi]
    rw [show 0xFFFF7F00#32 = fV 63 7 127 0 127 0 0 by decide, fV_and]
    simp only [BitVec.ofNat_eq_ofNat, BitVec.and_zero, BitVec.zero_and]
    rfl
  · simp only [encode, Instr.row, rowVrndi, regAt, selAt, sizeAt, quadSelAt, singleSelAt, fV_op, fV_sub, fV_vt, fV_two, fV_vs, fV_one, fV_vd,
      ofBits_two_one, quadSel_parts, singleSel_parts, BitVec.toFin_ofFin]

theorem vrndf1 (sz : VSize) (vd : Sel) : Statement (.vrndf1 sz vd) := by
  refine ⟨mem_table_of_vfpuUnimplemented (List.mem_of_getElem? (i := 36) rfl), ?_, ?_⟩
  · simp only [encode, Instr.row, rowVrndf1]
    rw [show 0xFFFF7F00#32 = fV 63 7 127 0 127 0 0 by decide, fV_and]
    simp only [BitVec.ofNat_eq_ofNat, BitVec.and_zero, BitVec.zero_and]
    rfl
  · simp only [encode, Instr.row, rowVrndf1, regAt, selAt, sizeAt, quadSelAt, singleSelAt, fV_op, fV_sub, fV_vt, fV_two, fV_vs, fV_one, fV_vd,
      ofBits_two_one, quadSel_parts, singleSel_parts, BitVec.toFin_ofFin]

theorem vrndf2 (sz : VSize) (vd : Sel) : Statement (.vrndf2 sz vd) := by
  refine ⟨mem_table_of_vfpuUnimplemented (List.mem_of_getElem? (i := 37) rfl), ?_, ?_⟩
  · simp only [encode, Instr.row, rowVrndf2]
    rw [show 0xFFFF7F00#32 = fV 63 7 127 0 127 0 0 by decide, fV_and]
    simp only [BitVec.ofNat_eq_ofNat, BitVec.and_zero, BitVec.zero_and]
    rfl
  · simp only [encode, Instr.row, rowVrndf2, regAt, selAt, sizeAt, quadSelAt, singleSelAt, fV_op, fV_sub, fV_vt, fV_two, fV_vs, fV_one, fV_vd,
      ofBits_two_one, quadSel_parts, singleSel_parts, BitVec.toFin_ofFin]

theorem vf2h (sz : VSize) (vd : Sel) (vs : Sel) : Statement (.vf2h sz vd vs) := by
  refine ⟨mem_table_of_vfpuUnimplemented (List.mem_of_getElem? (i := 38) rfl), ?_, ?_⟩
  · simp only [encode, Instr.row, rowVf2h]
    rw [show 0xFFFF0000#32 = fV 63 7 127 0 0 0 0 by decide, fV_and]
    simp only [BitVec.ofNat_eq_ofNat, BitVec.and_zero, BitVec.zero_and]
    rfl
  · simp only [encode, Instr.row, rowVf2h, regAt, selAt, sizeAt, quadSelAt, singleSelAt, fV_op, fV_sub, fV_vt, fV_two, fV_vs, fV_one, fV_vd,
      ofBits_two_one, quadSel_parts, singleSel_parts, BitVec.toFin_ofFin]

theorem vh2f (sz : VSize) (vd : Sel) (vs : Sel) : Statement (.vh2f sz vd vs) := by
  refine ⟨mem_table_of_vfpuUnimplemented (List.mem_of_getElem? (i := 39) rfl), ?_, ?_⟩
  · simp only [encode, Instr.row, rowVh2f]
    rw [show 0xFFFF0000#32 = fV 63 7 127 0 0 0 0 by decide, fV_and]
    simp only [BitVec.ofNat_eq_ofNat, BitVec.and_zero, BitVec.zero_and]
    rfl
  · simp only [encode, Instr.row, rowVh2f, regAt, selAt, sizeAt, quadSelAt, singleSelAt, fV_op, fV_sub, fV_vt, fV_two, fV_vs, fV_one, fV_vd,
      ofBits_two_one, quadSel_parts, singleSel_parts, BitVec.toFin_ofFin]

theorem vsbz (sz : VSize) (vd : Sel) (vs : Sel) : Statement (.vsbz sz vd vs) := by
  refine ⟨mem_table_of_vfpuUnimplemented (List.mem_of_getElem? (i := 40) rfl), ?_, ?_⟩
  · simp only [encode, Instr.row, rowVsbz]
    rw [show 0xFFFF0000#32 = fV 63 7 127 0 0 0 0 by decide, fV_and]
    simp only [BitVec.ofNat_eq_ofNat, BitVec.and_zero, BitVec.zero_and]
    rfl
  · simp only [encode, Instr.row, rowVsbz, regAt, selAt, sizeAt, quadSelAt, singleSelAt, fV_op, fV_sub, fV_vt, fV_two, fV_vs, fV_one, fV_vd,
      ofBits_two_one, quadSel_parts, singleSel_parts, BitVec.toFin_ofFin]

theorem vlgb (sz : VSize) (vd : Sel) (vs : Sel) : Statement (.vlgb sz vd vs) := by
  refine ⟨mem_table_of_vfpuUnimplemented (List.mem_of_getElem? (i := 41) rfl), ?_, ?_⟩
  · simp only [encode, Instr.row, rowVlgb]
    rw [show 0xFFFF0000#32 = fV 63 7 127 0 0 0 0 by decide, fV_and]
    simp only [BitVec.ofNat_eq_ofNat, BitVec.and_zero, BitVec.zero_and]
    rfl
  · simp only [encode, Instr.row, rowVlgb, regAt, selAt, sizeAt, quadSelAt, singleSelAt, fV_op, fV_sub, fV_vt, fV_two, fV_vs, fV_one, fV_vd,
      ofBits_two_one, quadSel_parts, singleSel_parts, BitVec.toFin_ofFin]

theorem vuc2i (sz : VSize) (vd : Sel) (vs : Sel) : Statement (.vuc2i sz vd vs) := by
  refine ⟨mem_table_of_vfpuUnimplemented (List.mem_of_getElem? (i := 42) rfl), ?_, ?_⟩
  · simp only [encode, Instr.row, rowVuc2i]
    rw [show 0xFFFF0000#32 = fV 63 7 127 0 0 0 0 by decide, fV_and]
    simp only [BitVec.ofNat_eq_ofNat, BitVec.and_zero, BitVec.zero_and]
    rfl
  · simp only [encode, Instr.row, rowVuc2i, regAt, selAt, sizeAt, quadSelAt, singleSelAt, fV_op, fV_sub, fV_vt, fV_two, fV_vs, fV_one, fV_vd,
      ofBits_two_one, quadSel_parts, singleSel_parts, BitVec.toFin_ofFin]

theorem vc2i (sz : VSize) (vd : Sel) (vs : Sel) : Statement (.vc2i sz vd vs) := by
  refine ⟨mem_table_of_vfpuUnimplemented (List.mem_of_getElem? (i := 43) rfl), ?_, ?_⟩
  · simp only [encode, Instr.row, rowVc2i]
    rw [show 0xFFFF0000#32 = fV 63 7 127 0 0 0 0 by decide, fV_and]
    simp only [BitVec.ofNat_eq_ofNat, BitVec.and_zero, BitVec.zero_and]
    rfl
  · simp only [encode, Instr.row, rowVc2i, regAt, selAt, sizeAt, quadSelAt, singleSelAt, fV_op, fV_sub, fV_vt, fV_two, fV_vs, fV_one, fV_vd,
      ofBits_two_one, quadSel_parts, singleSel_parts, BitVec.toFin_ofFin]

theorem vus2i (sz : VSize) (vd : Sel) (vs : Sel) : Statement (.vus2i sz vd vs) := by
  refine ⟨mem_table_of_vfpuUnimplemented (List.mem_of_getElem? (i := 44) rfl), ?_, ?_⟩
  · simp only [encode, Instr.row, rowVus2i]
    rw [show 0xFFFF0000#32 = fV 63 7 127 0 0 0 0 by decide, fV_and]
    simp only [BitVec.ofNat_eq_ofNat, BitVec.and_zero, BitVec.zero_and]
    rfl
  · simp only [encode, Instr.row, rowVus2i, regAt, selAt, sizeAt, quadSelAt, singleSelAt, fV_op, fV_sub, fV_vt, fV_two, fV_vs, fV_one, fV_vd,
      ofBits_two_one, quadSel_parts, singleSel_parts, BitVec.toFin_ofFin]

theorem vs2i (sz : VSize) (vd : Sel) (vs : Sel) : Statement (.vs2i sz vd vs) := by
  refine ⟨mem_table_of_vfpuUnimplemented (List.mem_of_getElem? (i := 45) rfl), ?_, ?_⟩
  · simp only [encode, Instr.row, rowVs2i]
    rw [show 0xFFFF0000#32 = fV 63 7 127 0 0 0 0 by decide, fV_and]
    simp only [BitVec.ofNat_eq_ofNat, BitVec.and_zero, BitVec.zero_and]
    rfl
  · simp only [encode, Instr.row, rowVs2i, regAt, selAt, sizeAt, quadSelAt, singleSelAt, fV_op, fV_sub, fV_vt, fV_two, fV_vs, fV_one, fV_vd,
      ofBits_two_one, quadSel_parts, singleSel_parts, BitVec.toFin_ofFin]

theorem vi2uc (sz : VSize) (vd : Sel) (vs : Sel) : Statement (.vi2uc sz vd vs) := by
  refine ⟨mem_table_of_vfpuUnimplemented (List.mem_of_getElem? (i := 46) rfl), ?_, ?_⟩
  · simp only [encode, Instr.row, rowVi2uc]
    rw [show 0xFFFF0000#32 = fV 63 7 127 0 0 0 0 by decide, fV_and]
    simp only [BitVec.ofNat_eq_ofNat, BitVec.and_zero, BitVec.zero_and]
    rfl
  · simp only [encode, Instr.row, rowVi2uc, regAt, selAt, sizeAt, quadSelAt, singleSelAt, fV_op, fV_sub, fV_vt, fV_two, fV_vs, fV_one, fV_vd,
      ofBits_two_one, quadSel_parts, singleSel_parts, BitVec.toFin_ofFin]

theorem vi2c (sz : VSize) (vd : Sel) (vs : Sel) : Statement (.vi2c sz vd vs) := by
  refine ⟨mem_table_of_vfpuUnimplemented (List.mem_of_getElem? (i := 47) rfl), ?_, ?_⟩
  · simp only [encode, Instr.row, rowVi2c]
    rw [show 0xFFFF0000#32 = fV 63 7 127 0 0 0 0 by decide, fV_and]
    simp only [BitVec.ofNat_eq_ofNat, BitVec.and_zero, BitVec.zero_and]
    rfl
  · simp only [encode, Instr.row, rowVi2c, regAt, selAt, sizeAt, quadSelAt, singleSelAt, fV_op, fV_sub, fV_vt, fV_two, fV_vs, fV_one, fV_vd,
      ofBits_two_one, quadSel_parts, singleSel_parts, BitVec.toFin_ofFin]

theorem vi2us (sz : VSize) (vd : Sel) (vs : Sel) : Statement (.vi2us sz vd vs) := by
  refine ⟨mem_table_of_vfpuUnimplemented (List.mem_of_getElem? (i := 48) rfl), ?_, ?_⟩
  · simp only [encode, Instr.row, rowVi2us]
    rw [show 0xFFFF0000#32 = fV 63 7 127 0 0 0 0 by decide, fV_and]
    simp only [BitVec.ofNat_eq_ofNat, BitVec.and_zero, BitVec.zero_and]
    rfl
  · simp only [encode, Instr.row, rowVi2us, regAt, selAt, sizeAt, quadSelAt, singleSelAt, fV_op, fV_sub, fV_vt, fV_two, fV_vs, fV_one, fV_vd,
      ofBits_two_one, quadSel_parts, singleSel_parts, BitVec.toFin_ofFin]

theorem vi2s (sz : VSize) (vd : Sel) (vs : Sel) : Statement (.vi2s sz vd vs) := by
  refine ⟨mem_table_of_vfpuUnimplemented (List.mem_of_getElem? (i := 49) rfl), ?_, ?_⟩
  · simp only [encode, Instr.row, rowVi2s]
    rw [show 0xFFFF0000#32 = fV 63 7 127 0 0 0 0 by decide, fV_and]
    simp only [BitVec.ofNat_eq_ofNat, BitVec.and_zero, BitVec.zero_and]
    rfl
  · simp only [encode, Instr.row, rowVi2s, regAt, selAt, sizeAt, quadSelAt, singleSelAt, fV_op, fV_sub, fV_vt, fV_two, fV_vs, fV_one, fV_vd,
      ofBits_two_one, quadSel_parts, singleSel_parts, BitVec.toFin_ofFin]

theorem vbfy1 (sz : VSize) (vd : Sel) (vs : Sel) : Statement (.vbfy1 sz vd vs) := by
  refine ⟨mem_table_of_vfpuUnimplemented (List.mem_of_getElem? (i := 50) rfl), ?_, ?_⟩
  · simp only [encode, Instr.row, rowVbfy1]
    rw [show 0xFFFF0000#32 = fV 63 7 127 0 0 0 0 by decide, fV_and]
    simp only [BitVec.ofNat_eq_ofNat, BitVec.and_zero, BitVec.zero_and]
    rfl
  · simp only [encode, Instr.row, rowVbfy1, regAt, selAt, sizeAt, quadSelAt, singleSelAt, fV_op, fV_sub, fV_vt, fV_two, fV_vs, fV_one, fV_vd,
      ofBits_two_one, quadSel_parts, singleSel_parts, BitVec.toFin_ofFin]

theorem vbfy2 (sz : VSize) (vd : Sel) (vs : Sel) : Statement (.vbfy2 sz vd vs) := by
  refine ⟨mem_table_of_vfpuUnimplemented (List.mem_of_getElem? (i := 51) rfl), ?_, ?_⟩
  · simp only [encode, Instr.row, rowVbfy2]
    rw [show 0xFFFF0000#32 = fV 63 7 127 0 0 0 0 by decide, fV_and]
    simp only [BitVec.ofNat_eq_ofNat, BitVec.and_zero, BitVec.zero_and]
    rfl
  · simp only [encode, Instr.row, rowVbfy2, regAt, selAt, sizeAt, quadSelAt, singleSelAt, fV_op, fV_sub, fV_vt, fV_two, fV_vs, fV_one, fV_vd,
      ofBits_two_one, quadSel_parts, singleSel_parts, BitVec.toFin_ofFin]

theorem vocp (sz : VSize) (vd : Sel) (vs : Sel) : Statement (.vocp sz vd vs) := by
  refine ⟨mem_table_of_vfpuUnimplemented (List.mem_of_getElem? (i := 52) rfl), ?_, ?_⟩
  · simp only [encode, Instr.row, rowVocp]
    rw [show 0xFFFF0000#32 = fV 63 7 127 0 0 0 0 by decide, fV_and]
    simp only [BitVec.ofNat_eq_ofNat, BitVec.and_zero, BitVec.zero_and]
    rfl
  · simp only [encode, Instr.row, rowVocp, regAt, selAt, sizeAt, quadSelAt, singleSelAt, fV_op, fV_sub, fV_vt, fV_two, fV_vs, fV_one, fV_vd,
      ofBits_two_one, quadSel_parts, singleSel_parts, BitVec.toFin_ofFin]

theorem vsocp (sz : VSize) (vd : Sel) (vs : Sel) : Statement (.vsocp sz vd vs) := by
  refine ⟨mem_table_of_vfpuUnimplemented (List.mem_of_getElem? (i := 53) rfl), ?_, ?_⟩
  · simp only [encode, Instr.row, rowVsocp]
    rw [show 0xFFFF0000#32 = fV 63 7 127 0 0 0 0 by decide, fV_and]
    simp only [BitVec.ofNat_eq_ofNat, BitVec.and_zero, BitVec.zero_and]
    rfl
  · simp only [encode, Instr.row, rowVsocp, regAt, selAt, sizeAt, quadSelAt, singleSelAt, fV_op, fV_sub, fV_vt, fV_two, fV_vs, fV_one, fV_vd,
      ofBits_two_one, quadSel_parts, singleSel_parts, BitVec.toFin_ofFin]

theorem vfad (sz : VSize) (vd : Sel) (vs : Sel) : Statement (.vfad sz vd vs) := by
  refine ⟨mem_table_of_vfpuUnimplemented (List.mem_of_getElem? (i := 54) rfl), ?_, ?_⟩
  · simp only [encode, Instr.row, rowVfad]
    rw [show 0xFFFF0000#32 = fV 63 7 127 0 0 0 0 by decide, fV_and]
    simp only [BitVec.ofNat_eq_ofNat, BitVec.and_zero, BitVec.zero_and]
    rfl
  · simp only [encode, Instr.row, rowVfad, regAt, selAt, sizeAt, quadSelAt, singleSelAt, fV_op, fV_sub, fV_vt, fV_two, fV_vs, fV_one, fV_vd,
      ofBits_two_one, quadSel_parts, singleSel_parts, BitVec.toFin_ofFin]

theorem vavg (sz : VSize) (vd : Sel) (vs : Sel) : Statement (.vavg sz vd vs) := by
  refine ⟨mem_table_of_vfpuUnimplemented (List.mem_of_getElem? (i := 55) rfl), ?_, ?_⟩
  · simp only [encode, Instr.row, rowVavg]
    rw [show 0xFFFF0000#32 = fV 63 7 127 0 0 0 0 by decide, fV_and]
    simp only [BitVec.ofNat_eq_ofNat, BitVec.and_zero, BitVec.zero_and]
    rfl
  · simp only [encode, Instr.row, rowVavg, regAt, selAt, sizeAt, quadSelAt, singleSelAt, fV_op, fV_sub, fV_vt, fV_two, fV_vs, fV_one, fV_vd,
      ofBits_two_one, quadSel_parts, singleSel_parts, BitVec.toFin_ofFin]

theorem vsgn (sz : VSize) (vd : Sel) (vs : Sel) : Statement (.vsgn sz vd vs) := by
  refine ⟨mem_table_of_vfpuUnimplemented (List.mem_of_getElem? (i := 56) rfl), ?_, ?_⟩
  · simp only [encode, Instr.row, rowVsgn]
    rw [show 0xFFFF0000#32 = fV 63 7 127 0 0 0 0 by decide, fV_and]
    simp only [BitVec.ofNat_eq_ofNat, BitVec.and_zero, BitVec.zero_and]
    rfl
  · simp only [encode, Instr.row, rowVsgn, regAt, selAt, sizeAt, quadSelAt, singleSelAt, fV_op, fV_sub, fV_vt, fV_two, fV_vs, fV_one, fV_vd,
      ofBits_two_one, quadSel_parts, singleSel_parts, BitVec.toFin_ofFin]

theorem vmfvc (vd : Sel) (imm7 : BitVec 7) : Statement (.vmfvc vd imm7) := by
  refine ⟨mem_table_of_vfpuUnimplemented (List.mem_of_getElem? (i := 57) rfl), ?_, ?_⟩
  · simp only [encode, Instr.row, rowVmfvc]
    rw [show 0xFFFF8080#32 = fV 63 7 127 1 0 1 0 by decide, fV_and]
    simp only [BitVec.ofNat_eq_ofNat, BitVec.and_zero, BitVec.zero_and]
    rfl
  · simp only [encode, Instr.row, rowVmfvc, regAt, selAt, sizeAt, quadSelAt, singleSelAt, fV_op, fV_sub, fV_vt, fV_two, fV_vs, fV_one, fV_vd,
      ofBits_two_one, quadSel_parts, singleSel_parts, BitVec.toFin_ofFin]

theorem vmtvc (imm7 : BitVec 7) (vs : Sel) : Statement (.vmtvc imm7 vs) := by
  refine ⟨mem_table_of_vfpuUnimplemented (List.mem_of_getElem? (i := 58) rfl), ?_, ?_⟩
  · simp only [encode, Instr.row, rowVmtvc]
    rw [show 0xFFFF8080#32 = fV 63 7 127 1 0 1 0 by decide, fV_and]
    simp only [BitVec.ofNat_eq_ofNat, BitVec.and_zero, BitVec.zero_and]
    rfl
  · simp only [encode, Instr.row, rowVmtvc, regAt, selAt, sizeAt, quadSelAt, singleSelAt, fV_op, fV_sub, fV_vt, fV_two, fV_vs, fV_one, fV_vd,
      ofBits_two_one, quadSel_parts, singleSel_parts, BitVec.toFin_ofFin]

theorem vcst (sz : VSize) (vd : Sel) (imm5 : BitVec 5) : Statement (.vcst sz vd imm5) := by
  refine ⟨mem_table_of_vfpuUnimplemented (List.mem_of_getElem? (i := 59) rfl), ?_, ?_⟩
  · simp only [encode, Instr.row, rowVcst]
    rw [show 0xFFE07F00#32 = fVimm5 63 31 0 0 127 0 0 by decide, fVimm5_and]
    simp only [BitVec.ofNat_eq_ofNat, BitVec.and_zero, BitVec.zero_and]
    rfl
  · simp only [encode, Instr.row, rowVcst, regAt, selAt, sizeAt, quadSelAt, singleSelAt, fVimm5_op, fVimm5_sub, fVimm5_imm, fVimm5_two, fVimm5_vs, fVimm5_one, fVimm5_vd,
      ofBits_two_one, quadSel_parts, singleSel_parts, BitVec.toFin_ofFin]

theorem vf2in (sz : VSize) (vd : Sel) (vs : Sel) (imm5 : BitVec 5) : Statement (.vf2in sz vd vs imm5) := by
  refine ⟨mem_table_of_vfpuUnimplemented (List.mem_of_getElem? (i := 60) rfl), ?_, ?_⟩
  · simp only [encode, Instr.row, rowVf2in]
    rw [show 0xFFE00000#32 = fVimm5 63 31 0 0 0 0 0 by decide, fVimm5_and]
    simp only [BitVec.ofNat_eq_ofNat, BitVec.and_zero, BitVec.zero_and]
    rfl
  · simp only [encode, Instr.row, rowVf2in, regAt, selAt, sizeAt, quadSelAt, singleSelAt, fVimm5_op, fVimm5_sub, fVimm5_imm, fVimm5_two, fVimm5_vs, fVimm5_one, fVimm5_vd,
      ofBits_two_one, quadSel_parts, singleSel_parts, BitVec.toFin_ofFin]

theorem vf2iz (sz : VSize) (vd : Sel) (vs : Sel) (imm5 : BitVec 5) : Statement (.vf2iz sz vd vs imm5) := by
  refine ⟨mem_table_of_vfpuUnimplemented (List.mem_of_getElem? (i := 61) rfl), ?_, ?_⟩
  · simp only [encode, Instr.row, rowVf2iz]
    rw [show 0xFFE00000#32 = fVimm5 63 31 0 0 0 0 0 by decide, fVimm5_and]
    simp only [BitVec.ofNat_eq_ofNat, BitVec.and_zero, BitVec.zero_and]
    rfl
  · simp only [encode, Instr.row, rowVf2iz, regAt, selAt, sizeAt, quadSelAt, singleSelAt, fVimm5_op, fVimm5_sub, fVimm5_imm, fVimm5_two, fVimm5_vs, fVimm5_one, fVimm5_vd,
      ofBits_two_one, quadSel_parts, singleSel_parts, BitVec.toFin_ofFin]

theorem vf2iu (sz : VSize) (vd : Sel) (vs : Sel) (imm5 : BitVec 5) : Statement (.vf2iu sz vd vs imm5) := by
  refine ⟨mem_table_of_vfpuUnimplemented (List.mem_of_getElem? (i := 62) rfl), ?_, ?_⟩
  · simp only [encode, Instr.row, rowVf2iu]
    rw [show 0xFFE00000#32 = fVimm5 63 31 0 0 0 0 0 by decide, fVimm5_and]
    simp only [BitVec.ofNat_eq_ofNat, BitVec.and_zero, BitVec.zero_and]
    rfl
  · simp only [encode, Instr.row, rowVf2iu, regAt, selAt, sizeAt, quadSelAt, singleSelAt, fVimm5_op, fVimm5_sub, fVimm5_imm, fVimm5_two, fVimm5_vs, fVimm5_one, fVimm5_vd,
      ofBits_two_one, quadSel_parts, singleSel_parts, BitVec.toFin_ofFin]

theorem vf2id (sz : VSize) (vd : Sel) (vs : Sel) (imm5 : BitVec 5) : Statement (.vf2id sz vd vs imm5) := by
  refine ⟨mem_table_of_vfpuUnimplemented (List.mem_of_getElem? (i := 63) rfl), ?_, ?_⟩
  · simp only [encode, Instr.row, rowVf2id]
    rw [show 0xFFE00000#32 = fVimm5 63 31 0 0 0 0 0 by decide, fVimm5_and]
    simp only [BitVec.ofNat_eq_ofNat, BitVec.and_zero, BitVec.zero_and]
    rfl
  · simp only [encode, Instr.row, rowVf2id, regAt, selAt, sizeAt, quadSelAt, singleSelAt, fVimm5_op, fVimm5_sub, fVimm5_imm, fVimm5_two, fVimm5_vs, fVimm5_one, fVimm5_vd,
      ofBits_two_one, quadSel_parts, singleSel_parts, BitVec.toFin_ofFin]

theorem vi2f (sz : VSize) (vd : Sel) (vs : Sel) (imm5 : BitVec 5) : Statement (.vi2f sz vd vs imm5) := by
  refine ⟨mem_table_of_vfpuUnimplemented (List.mem_of_getElem? (i := 64) rfl), ?_, ?_⟩
  · simp only [encode, Instr.row, rowVi2f]
    rw [show 0xFFE00000#32 = fVimm5 63 31 0 0 0 0 0 by decide, fVimm5_and]
    simp only [BitVec.ofNat_eq_ofNat, BitVec.and_zero, BitVec.zero_and]
    rfl
  · simp only [encode, Instr.row, rowVi2f, regAt, selAt, sizeAt, quadSelAt, singleSelAt, fVimm5_op, fVimm5_sub, fVimm5_imm, fVimm5_two, fVimm5_vs, fVimm5_one, fVimm5_vd,
      ofBits_two_one, quadSel_parts, singleSel_parts, BitVec.toFin_ofFin]

theorem vcmovt (sz : VSize) (vd : Sel) (vs : Sel) (imm3 : BitVec 3) : Statement (.vcmovt sz vd vs imm3) := by
  refine ⟨mem_table_of_vfpuUnimplemented (List.mem_of_getElem? (i := 65) rfl), ?_, ?_⟩
  · simp only [encode, Instr.row, rowVcmovt]
    rw [show 0xFFF80000#32 = fVimm3 63 127 0 0 0 0 0 by decide, fVimm3_and]
    simp only [BitVec.ofNat_eq_ofNat, BitVec.and_zero, BitVec.zero_and]
    rfl
  · simp only [encode, Instr.row, rowVcmovt, regAt, selAt, sizeAt, quadSelAt, singleSelAt, fVimm3_op, fVimm3_sub, fVimm3_imm, fVimm3_two, fVimm3_vs, fVimm3_one, fVimm3_vd,
      ofBits_two_one, quadSel_parts, singleSel_parts, BitVec.toFin_ofFin]

theorem vcmovf (sz : VSize) (vd : Sel) (vs : Sel) (imm3 : BitVec 3) : Statement (.vcmovf sz vd vs imm3) := by
  refine ⟨mem_table_of_vfpuUnimplemented (List.mem_of_getElem? (i := 66) rfl), ?_, ?_⟩
  · simp only [encode, Instr.row, rowVcmovf]
    rw [show 0xFFF80000#32 = fVimm3 63 127 0 0 0 0 0 by decide, fVimm3_and]
    simp only [BitVec.ofNat_eq_ofNat, BitVec.and_zero, BitVec.zero_and]
    rfl
  · simp only [encode, Instr.row, rowVcmovf, regAt, selAt, sizeAt, quadSelAt, singleSelAt, fVimm3_op, fVimm3_sub, fVimm3_imm, fVimm3_two, fVimm3_vs, fVimm3_one, fVimm3_vd,
      ofBits_two_one, quadSel_parts, singleSel_parts, BitVec.toFin_ofFin]

theorem vwbn (sz : VSize) (vd : Sel) (vs : Sel) (imm8 : BitVec 8) : Statement (.vwbn sz vd vs imm8) := by
  refine ⟨mem_table_of_vfpuUnimplemented (List.mem_of_getElem? (i := 67) rfl), ?_, ?_⟩
  · simp only [encode, Instr.row, rowVwbn]
    rw [show 0xFF000000#32 = fVimm8 63 3 0 0 0 0 0 by decide, fVimm8_and]
    simp only [BitVec.ofNat_eq_ofNat, BitVec.and_zero, BitVec.zero_and]
    rfl
  · simp only [encode, Instr.row, rowVwbn, regAt, selAt, sizeAt, quadSelAt, singleSelAt, fVimm8_op, fVimm8_sub, fVimm8_imm, fVimm8_two, fVimm8_vs, fVimm8_one, fVimm8_vd,
      ofBits_two_one, quadSel_parts, singleSel_parts, BitVec.toFin_ofFin]

theorem vmscl (sz : VSize) (vd : Sel) (vs : Sel) (vt : Sel) : Statement (.vmscl sz vd vs vt) := by
  refine ⟨mem_table_of_vfpuUnimplemented (List.mem_of_getElem? (i := 68) rfl), ?_, ?_⟩
  · simp only [encode, Instr.row, rowVmscl]
    rw [show 0xFF800000#32 = fV 63 7 0 0 0 0 0 by decide, fV_and]
    simp only [BitVec.ofNat_eq_ofNat, BitVec.and_zero, BitVec.zero_and]
    rfl
  · simp only [encode, Instr.row, rowVmscl, regAt, selAt, sizeAt, quadSelAt, singleSelAt, fV_op, fV_sub, fV_vt, fV_two, fV_vs, fV_one, fV_vd,
      ofBits_two_one, quadSel_parts, singleSel_parts, BitVec.toFin_ofFin]

theorem vcrspT (vd : Sel) (vs : Sel) (vt : Sel) : Statement (.vcrspT vd vs vt) := by
  refine ⟨mem_table_of_vfpuUnimplemented (List.mem_of_getElem? (i := 69) rfl), ?_, ?_⟩
  · simp only [encode, Instr.row, rowVcrspT]
    rw [show 0xFF808080#32 = fV 63 7 0 1 0 1 0 by decide, fV_and]
    simp only [BitVec.ofNat_eq_ofNat, BitVec.and_zero, BitVec.zero_and]
    rfl
  · simp only [encode, Instr.row, rowVcrspT, regAt, selAt, sizeAt, quadSelAt, singleSelAt, fV_op, fV_sub, fV_vt, fV_two, fV_vs, fV_one, fV_vd,
      ofBits_two_one, quadSel_parts, singleSel_parts, BitVec.toFin_ofFin]

theorem vqmulQ (vd : Sel) (vs : Sel) (vt : Sel) : Statement (.vqmulQ vd vs vt) := by
  refine ⟨mem_table_of_vfpuUnimplemented (List.mem_of_getElem? (i := 70) rfl), ?_, ?_⟩
  · simp only [encode, Instr.row, rowVqmulQ]
    rw [show 0xFF808080#32 = fV 63 7 0 1 0 1 0 by decide, fV_and]
    simp only [BitVec.ofNat_eq_ofNat, BitVec.and_zero, BitVec.zero_and]
    rfl
  · simp only [encode, Instr.row, rowVqmulQ, regAt, selAt, sizeAt, quadSelAt, singleSelAt, fV_op, fV_sub, fV_vt, fV_two, fV_vs, fV_one, fV_vd,
      ofBits_two_one, quadSel_parts, singleSel_parts, BitVec.toFin_ofFin]

theorem vfimS (vt : Sel) (imm16 : BitVec 16) : Statement (.vfimS vt imm16) := by
  refine ⟨mem_table_of_vfpuUnimplemented (List.mem_of_getElem? (i := 71) rfl), ?_, ?_⟩
  · simp only [encode, Instr.row, rowVfimS]
    rw [show 0xFF800000#32 = fViim 63 7 0 0 by decide, fViim_and]
    simp only [BitVec.ofNat_eq_ofNat, BitVec.and_zero, BitVec.zero_and]
    rfl
  · simp only [encode, Instr.row, rowVfimS, regAt, selAt, sizeAt, quadSelAt, singleSelAt, fViim_op, fViim_sub, fViim_vd, fViim_imm,
      ofBits_two_one, quadSel_parts, singleSel_parts, BitVec.toFin_ofFin]

theorem mfvc (rt : Reg) (vd : Sel) : Statement (.mfvc rt vd) := by
  refine ⟨mem_table_of_vfpuUnimplemented (List.mem_of_getElem? (i := 72) rfl), ?_, ?_⟩
  · simp only [encode, Instr.row, rowMfvc]
    rw [show 0xFFE0FF80#32 = fVimm5 63 31 0 1 127 1 0 by decide, fVimm5_and]
    simp only [BitVec.ofNat_eq_ofNat, BitVec.and_zero, BitVec.zero_and]
    rfl
  · simp only [encode, Instr.row, rowMfvc, regAt, selAt, sizeAt, quadSelAt, singleSelAt, fVimm5_op, fVimm5_sub, fVimm5_imm, fVimm5_two, fVimm5_vs, fVimm5_one, fVimm5_vd,
      ofBits_two_one, quadSel_parts, singleSel_parts, BitVec.toFin_ofFin]

theorem mtvc (rt : Reg) (vd : Sel) : Statement (.mtvc rt vd) := by
  refine ⟨mem_table_of_vfpuUnimplemented (List.mem_of_getElem? (i := 73) rfl), ?_, ?_⟩
  · simp only [encode, Instr.row, rowMtvc]
    rw [show 0xFFE0FF80#32 = fVimm5 63 31 0 1 127 1 0 by decide, fVimm5_and]
    simp only [BitVec.ofNat_eq_ofNat, BitVec.and_zero, BitVec.zero_and]
    rfl
  · simp only [encode, Instr.row, rowMtvc, regAt, selAt, sizeAt, quadSelAt, singleSelAt, fVimm5_op, fVimm5_sub, fVimm5_imm, fVimm5_two, fVimm5_vs, fVimm5_one, fVimm5_vd,
      ofBits_two_one, quadSel_parts, singleSel_parts, BitVec.toFin_ofFin]

theorem syscall (code20 : BitVec 20) : Statement (.syscall code20) := by
  refine ⟨mem_table_of_system (List.mem_of_getElem? (i := 0) rfl), ?_, ?_⟩
  · simp only [encode, Instr.row, rowSyscall]
    rw [show 0xFC00003F#32 = fCode 63 0 63 by decide, fCode_and]
    simp only [BitVec.ofNat_eq_ofNat, BitVec.and_zero, BitVec.zero_and]
    rfl
  · simp only [encode, Instr.row, rowSyscall, regAt, selAt, sizeAt, quadSelAt, singleSelAt, fCode_op, fCode_code, fCode_fn,
      ofBits_two_one, quadSel_parts, singleSel_parts, BitVec.toFin_ofFin]

theorem brk (code20 : BitVec 20) : Statement (.brk code20) := by
  refine ⟨mem_table_of_system (List.mem_of_getElem? (i := 1) rfl), ?_, ?_⟩
  · simp only [encode, Instr.row, rowBrk]
    rw [show 0xFC00003F#32 = fCode 63 0 63 by decide, fCode_and]
    simp only [BitVec.ofNat_eq_ofNat, BitVec.and_zero, BitVec.zero_and]
    rfl
  · simp only [encode, Instr.row, rowBrk, regAt, selAt, sizeAt, quadSelAt, singleSelAt, fCode_op, fCode_code, fCode_fn,
      ofBits_two_one, quadSel_parts, singleSel_parts, BitVec.toFin_ofFin]

theorem sync : Statement .sync := by
  refine ⟨mem_table_of_system (List.mem_of_getElem? (i := 2) rfl), ?_, ?_⟩
  · simp only [encode, Instr.row, rowSync]
    rw [show 0xFFFFFFFF#32 = fR 63 31 31 31 31 63 by decide, fR_and]
    simp only [BitVec.ofNat_eq_ofNat, BitVec.and_zero, BitVec.zero_and]
    rfl
  · rfl

theorem cache (off16 : BitVec 16) (rs : Reg) : Statement (.cache off16 rs) := by
  refine ⟨mem_table_of_system (List.mem_of_getElem? (i := 3) rfl), ?_, ?_⟩
  · simp only [encode, Instr.row, rowCache]
    rw [show 0xFC000000#32 = fI 63 0 0 0 by decide, fI_and]
    simp only [BitVec.ofNat_eq_ofNat, BitVec.and_zero, BitVec.zero_and]
    rfl
  · simp only [encode, Instr.row, rowCache, regAt, selAt, sizeAt, quadSelAt, singleSelAt, fI_op, fI_rs, fI_rt, fI_imm,
      ofBits_two_one, quadSel_parts, singleSel_parts, BitVec.toFin_ofFin]

theorem mfic (rt : Reg) : Statement (.mfic rt) := by
  refine ⟨mem_table_of_system (List.mem_of_getElem? (i := 4) rfl), ?_, ?_⟩
  · simp only [encode, Instr.row, rowMfic]
    rw [show 0xFC1FFFFF#32 = fR 63 0 31 31 31 63 by decide, fR_and]
    simp only [BitVec.ofNat_eq_ofNat, BitVec.and_zero, BitVec.zero_and]
    rfl
  · simp only [encode, Instr.row, rowMfic, regAt, selAt, sizeAt, quadSelAt, singleSelAt, fR_op, fR_rs, fR_rt, fR_rd, fR_sa, fR_fn,
      ofBits_two_one, quadSel_parts, singleSel_parts, BitVec.toFin_ofFin]

theorem mtic (rt : Reg) : Statement (.mtic rt) := by
  refine ⟨mem_table_of_system (List.mem_of_getElem? (i := 5) rfl), ?_, ?_⟩
  · simp only [encode, Instr.row, rowMtic]
    rw [show 0xFC1FFFFF#32 = fR 63 0 31 31 31 63 by decide, fR_and]
    simp only [BitVec.ofNat_eq_ofNat, BitVec.and_zero, BitVec.zero_and]
    rfl
  · simp only [encode, Instr.row, rowMtic, regAt, selAt, sizeAt, quadSelAt, singleSelAt, fR_op, fR_rs, fR_rt, fR_rd, fR_sa, fR_fn,
      ofBits_two_one, quadSel_parts, singleSel_parts, BitVec.toFin_ofFin]

theorem mfc0 : Statement .mfc0 := by
  refine ⟨mem_table_of_system (List.mem_of_getElem? (i := 6) rfl), ?_, ?_⟩
  · simp only [encode, Instr.row, rowMfc0]
    rw [show 0xFFE007FF#32 = fR 63 31 0 0 31 63 by decide, fR_and]
    simp only [BitVec.ofNat_eq_ofNat, BitVec.and_zero, BitVec.zero_and]
    rfl
  · rfl

theorem mtc0 : Statement .mtc0 := by
  refine ⟨mem_table_of_system (List.mem_of_getElem? (i := 7) rfl), ?_, ?_⟩
  · simp only [encode, Instr.row, rowMtc0]
    rw [show 0xFFE007FF#32 = fR 63 31 0 0 31 63 by decide, fR_and]
    simp only [BitVec.ofNat_eq_ofNat, BitVec.and_zero, BitVec.zero_and]
    rfl
  · rfl

theorem cfc0 : Statement .cfc0 := by
  refine ⟨mem_table_of_system (List.mem_of_getElem? (i := 8) rfl), ?_, ?_⟩
  · simp only [encode, Instr.row, rowCfc0]
    rw [show 0xFFE007FF#32 = fR 63 31 0 0 31 63 by decide, fR_and]
    simp only [BitVec.ofNat_eq_ofNat, BitVec.and_zero, BitVec.zero_and]
    rfl
  · rfl

theorem ctc0 : Statement .ctc0 := by
  refine ⟨mem_table_of_system (List.mem_of_getElem? (i := 9) rfl), ?_, ?_⟩
  · simp only [encode, Instr.row, rowCtc0]
    rw [show 0xFFE007FF#32 = fR 63 31 0 0 31 63 by decide, fR_and]
    simp only [BitVec.ofNat_eq_ofNat, BitVec.and_zero, BitVec.zero_and]
    rfl
  · rfl

theorem eret : Statement .eret := by
  refine ⟨mem_table_of_system (List.mem_of_getElem? (i := 10) rfl), ?_, ?_⟩
  · simp only [encode, Instr.row, rowEret]
    rw [show 0xFFFFFFFF#32 = fR 63 31 31 31 31 63 by decide, fR_and]
    simp only [BitVec.ofNat_eq_ofNat, BitVec.and_zero, BitVec.zero_and]
    rfl
  · rfl

theorem halt : Statement .halt := by
  refine ⟨mem_table_of_system (List.mem_of_getElem? (i := 11) rfl), ?_, ?_⟩
  · simp only [encode, Instr.row, rowHalt]
    rw [show 0xFFFFFFFF#32 = fR 63 31 31 31 31 63 by decide, fR_and]
    simp only [BitVec.ofNat_eq_ofNat, BitVec.and_zero, BitVec.zero_and]
    rfl
  · rfl

theorem dret : Statement .dret := by
  refine ⟨mem_table_of_system (List.mem_of_getElem? (i := 12) rfl), ?_, ?_⟩
  · simp only [encode, Instr.row, rowDret]
    rw [show 0xFFFFFFFF#32 = fR 63 31 31 31 31 63 by decide, fR_and]
    simp only [BitVec.ofNat_eq_ofNat, BitVec.and_zero, BitVec.zero_and]
    rfl
  · rfl

theorem dbreak : Statement .dbreak := by
  refine ⟨mem_table_of_system (List.mem_of_getElem? (i := 13) rfl), ?_, ?_⟩
  · simp only [encode, Instr.row, rowDbreak]
    rw [show 0xFFFFFFFF#32 = fR 63 31 31 31 31 63 by decide, fR_and]
    simp only [BitVec.ofNat_eq_ofNat, BitVec.and_zero, BitVec.zero_and]
    rfl
  · rfl

theorem mfdr : Statement .mfdr := by
  refine ⟨mem_table_of_system (List.mem_of_getElem? (i := 14) rfl), ?_, ?_⟩
  · simp only [encode, Instr.row, rowMfdr]
    rw [show 0xFFE007FF#32 = fR 63 31 0 0 31 63 by decide, fR_and]
    simp only [BitVec.ofNat_eq_ofNat, BitVec.and_zero, BitVec.zero_and]
    rfl
  · rfl

theorem mtdr : Statement .mtdr := by
  refine ⟨mem_table_of_system (List.mem_of_getElem? (i := 15) rfl), ?_, ?_⟩
  · simp only [encode, Instr.row, rowMtdr]
    rw [show 0xFFE007FF#32 = fR 63 31 0 0 31 63 by decide, fR_and]
    simp only [BitVec.ofNat_eq_ofNat, BitVec.and_zero, BitVec.zero_and]
    rfl
  · rfl

end Sys2Proof.Laws.EncodeInRow
end

