-- ==== Sys2Proof/Laws/Sine.lean ====
section
/-! SUPPORT. The sine and cosine of Machine/Float.lean against the real ones: the bound of R420. -/
namespace Sys2Proof.Machine

open Real in
/-- The sine lies between the thirteenth partial sum of its series and that sum less the next term. -/
theorem sin_partial_sum {r : ℝ} (h0 : 0 ≤ r) (h1 : r ^ 2 ≤ 3) :
    |sin r - ∑ i ∈ Finset.range 13, (-1) ^ i * (r ^ (2 * i + 1) / (2 * i + 1).factorial)| ≤
      r ^ 27 / Nat.factorial 27 := by
  have hl := (Real.hasSum_sin r).tendsto_sum_nat
  simp_rw [mul_div_assoc] at hl
  have ha : Antitone fun i : ℕ => r ^ (2 * i + 1) / ((2 * i + 1).factorial : ℝ) := by
    refine antitone_nat_of_succ_le fun n => ?_
    rw [div_le_div_iff₀ (by positivity) (by positivity), show 2 * (n + 1) + 1 = 2 * n + 1 + 1 + 1 by ring,
      Nat.factorial_succ (2 * n + 1 + 1), Nat.factorial_succ (2 * n + 1)]
    generalize (2 * n + 1).factorial = q
    have hp : 0 ≤ r ^ (2 * n + 1) * (q : ℝ) := by positivity
    have hn : (6 : ℝ) ≤ ((2 * n + 1 + 1 + 1 : ℕ) : ℝ) * ((2 * n + 1 + 1 : ℕ) : ℝ) := by
      have : (0 : ℝ) ≤ n := by positivity
      push_cast; nlinarith
    push_cast at hn ⊢
    rw [pow_succ, pow_succ]
    nlinarith [mul_le_mul_of_nonneg_left (h1.trans ((by norm_num : (3 : ℝ) ≤ 6).trans hn)) hp]
  have up := ha.tendsto_le_alternating_series hl 6
  have lo := ha.alternating_series_le_tendsto hl 7
  rw [show 2 * 7 = 13 + 1 by rfl, Finset.sum_range_succ] at lo
  rw [abs_le]
  constructor <;> norm_num at up lo ⊢ <;> linarith

/-- `acc` units of 2^-96 approximate `A`. -/
def Near (acc : Nat) (A : ℝ) : Prop := acc ≤ fixOne ∧ 0 ≤ A ∧ A ≤ 1 ∧ |(acc : ℝ) / 2 ^ 96 - A| ≤ 4 / 2 ^ 96

/-- One step of Horner's form keeps the approximation. -/
theorem near_step {acc u : Nat} {A V : ℝ} (c : Nat) (hc : 6 ≤ c) (h : Near acc A) (hV : 0 ≤ V) (hV' : V ≤ 3)
    (hu : |(u : ℝ) / 2 ^ 96 - V| ≤ 1 / 2 ^ 96) (hu' : u ≤ 3 * fixOne) :
    Near (fixOne - u * acc / fixOne / c) (1 - V * A / c) := by
  obtain ⟨h1, hA, hA', he⟩ := h
  have hc' : (6 : ℝ) ≤ c := by exact_mod_cast hc
  have e96 : ((fixOne : ℕ) : ℝ) = 2 ^ 96 := by norm_num [fixOne]
  have hle : u * acc / fixOne / c ≤ fixOne := by
    refine Nat.div_le_of_le_mul (Nat.div_le_of_le_mul ?_)
    calc u * acc ≤ (3 * fixOne) * fixOne := Nat.mul_le_mul hu' h1
      _ ≤ fixOne * (c * fixOne) := by nlinarith [Nat.mul_le_mul_right (fixOne * fixOne) (show 3 ≤ c by omega)]
  have fl : ((u * acc / fixOne / c : ℕ) : ℝ) ≤ (u : ℝ) * acc / 2 ^ 96 / c := by
    rw [Nat.div_div_eq_div_mul, div_div]
    have := Nat.cast_div_le (α := ℝ) (m := u * acc) (n := fixOne * c)
    rwa [Nat.cast_mul, Nat.cast_mul, e96] at this
  have fg : (u : ℝ) * acc / 2 ^ 96 / c ≤ ((u * acc / fixOne / c : ℕ) : ℝ) + 1 := by
    rw [Nat.div_div_eq_div_mul, div_div, div_le_iff₀ (by positivity)]
    have hpos : 0 < fixOne * c := by unfold fixOne; positivity
    have := Nat.lt_div_mul_add (a := u * acc) hpos
    have : (u * acc : ℕ) ≤ (u * acc / (fixOne * c) + 1) * (fixOne * c) := by nlinarith
    have := (Nat.cast_le (α := ℝ)).2 this
    rwa [Nat.cast_mul, Nat.cast_mul, Nat.cast_mul, e96, Nat.cast_succ] at this
  refine ⟨Nat.sub_le _ _, ?_, ?_, ?_⟩
  · rw [sub_nonneg, div_le_one (by positivity)]; nlinarith
  · linarith [div_nonneg (mul_nonneg hV hA) (by positivity : (0 : ℝ) ≤ c)]
  · rw [Nat.cast_sub hle, e96]
    generalize ((u * acc / fixOne / c : ℕ) : ℝ) = q at fl fg
    have hacc : (acc : ℝ) / 2 ^ 96 ≤ 1 := by
      rw [div_le_one (by positivity), ← e96]; exact_mod_cast h1
    have hacc0 : 0 ≤ (acc : ℝ) / 2 ^ 96 := by positivity
    have hprod : |(u : ℝ) / 2 ^ 96 * (acc / 2 ^ 96) - V * A| ≤ 13 / 2 ^ 96 := by
      have e : (u : ℝ) / 2 ^ 96 * (acc / 2 ^ 96) - V * A =
          ((u : ℝ) / 2 ^ 96 - V) * (acc / 2 ^ 96) + V * (acc / 2 ^ 96 - A) := by ring
      rw [e]
      refine (abs_add_le _ _).trans ?_
      rw [abs_mul, abs_mul, abs_of_nonneg hacc0, abs_of_nonneg hV]
      have a1 := mul_le_mul hu hacc hacc0 (by positivity)
      have a2 := mul_le_mul hV' he (abs_nonneg _) (by norm_num)
      linarith
    have hdiv : |(u : ℝ) / 2 ^ 96 * (acc / 2 ^ 96) / c - V * A / c| ≤ 13 / 2 ^ 96 / 6 := by
      rw [← sub_div, abs_div, abs_of_pos (by linarith : (0 : ℝ) < c)]
      exact div_le_div₀ (by positivity) hprod (by norm_num) hc'
    have hx : (u : ℝ) * acc / 2 ^ 96 / c / 2 ^ 96 = (u : ℝ) / 2 ^ 96 * (acc / 2 ^ 96) / c := by ring
    have f1 := div_le_div_of_nonneg_right fl (by positivity : (0 : ℝ) ≤ 2 ^ 96)
    have f2 := div_le_div_of_nonneg_right fg (by positivity : (0 : ℝ) ≤ 2 ^ 96)
    rw [hx] at f1 f2
    rw [add_div] at f2
    rw [sub_div, div_self (by positivity)]
    rw [abs_le] at hdiv ⊢
    norm_num at hdiv f1 f2 ⊢
    constructor <;> linarith [hdiv.1, hdiv.2]

/-- Horner's form over any list of indices. -/
theorem near_foldl {u : Nat} {V : ℝ} (hV : 0 ≤ V) (hV' : V ≤ 3) (hu : |(u : ℝ) / 2 ^ 96 - V| ≤ 1 / 2 ^ 96)
    (hu' : u ≤ 3 * fixOne) : ∀ (l : List Nat) {acc : Nat} {A : ℝ}, (∀ k ∈ l, 1 ≤ k) → Near acc A →
    Near (l.foldl (fun acc k => fixOne - u * acc / fixOne / (2 * k * (2 * k + 1))) acc)
      (l.foldl (fun A k => 1 - V * A / ((2 * k * (2 * k + 1) : ℕ) : ℝ)) A)
  | [], _, _, _, h => h
  | k :: l, _, _, hl, h =>
    near_foldl hV hV' hu hu' l (fun j hj => hl j (List.mem_cons_of_mem k hj))
      (near_step _ (by have := hl k List.mem_cons_self; nlinarith) h hV hV' hu hu')

/-- The thirteen terms in Horner's form. -/
theorem horner_eq (r : ℝ) :
    ∑ i ∈ Finset.range 13, (-1) ^ i * (r ^ (2 * i + 1) / (2 * i + 1).factorial) =
      r * [12, 11, 10, 9, 8, 7, 6, 5, 4, 3, 2, 1].foldl
        (fun A k => 1 - r ^ 2 * A / ((2 * k * (2 * k + 1) : ℕ) : ℝ)) 1 := by
  simp only [Finset.sum_range_succ, Finset.sum_range_zero, List.foldl]
  norm_num [Nat.factorial]
  ring

/-- The series of the machine approximates the series of the sine over its argument. -/
theorem near_sineSeries {u : Nat} {V : ℝ} (hV : 0 ≤ V) (hV' : V ≤ 3) (hu : |(u : ℝ) / 2 ^ 96 - V| ≤ 1 / 2 ^ 96)
    (hu' : u ≤ 3 * fixOne) : Near (sineSeries u) ([12, 11, 10, 9, 8, 7, 6, 5, 4, 3, 2, 1].foldl
      (fun A k => 1 - V * A / ((2 * k * (2 * k + 1) : ℕ) : ℝ)) 1) := by
  unfold sineSeries
  exact near_foldl hV hV' hu hu' _ (by decide) ⟨le_rfl, by norm_num, le_rfl, by norm_num [fixOne]⟩

/-- A floor of a product in fixed point. -/
theorem fix_mul (a b : Nat) : |((a * b / fixOne : ℕ) : ℝ) / 2 ^ 96 - (a : ℝ) / 2 ^ 96 * (b / 2 ^ 96)| ≤ 1 / 2 ^ 96 := by
  have hl := Nat.cast_div_le (α := ℝ) (m := a * b) (n := fixOne)
  have hg : (a * b : ℕ) ≤ (a * b / fixOne + 1) * fixOne := by
    have := Nat.lt_div_mul_add (a := a * b) (show 0 < fixOne by unfold fixOne; positivity); nlinarith
  have hg := (Nat.cast_le (α := ℝ)).2 hg
  have e96 : ((fixOne : ℕ) : ℝ) = 2 ^ 96 := by norm_num [fixOne]
  push_cast at hl hg
  rw [e96] at hl hg
  rw [le_div_iff₀ (by positivity)] at hl
  have e : ((a * b / fixOne : ℕ) : ℝ) / 2 ^ 96 - (a : ℝ) / 2 ^ 96 * (b / 2 ^ 96) =
      (((a * b / fixOne : ℕ) : ℝ) * 2 ^ 96 - a * b) / (2 ^ 96 * 2 ^ 96) := by field_simp
  rw [e, abs_le, le_div_iff₀ (by positivity), div_le_iff₀ (by positivity)]
  constructor <;> norm_num at hl hg ⊢ <;> linarith

open Real in
theorem halfPi_near : |(fixHalfPi : ℝ) / 2 ^ 96 - π / 2| ≤ 1 / 2 ^ 60 := by
  have h1 := pi_gt_d20
  have h2 := pi_lt_d20
  rw [abs_le]
  norm_num [fixHalfPi] at *
  constructor <;> linarith

open Real in
/-- The sine of a fraction of a quarter turn. -/
theorem sineQuarter_near {f : Nat} (hf : f ≤ fixOne) :
    |(sineQuarter f : ℝ) / 2 ^ 96 - sin ((f : ℝ) / 2 ^ 96 * (π / 2))| ≤ 1 / 2 ^ 52 := by
  set t := f * fixHalfPi / fixOne with ht
  have htle : t ≤ fixHalfPi := Nat.div_le_of_le_mul (Nat.mul_le_mul_right _ hf)
  have hT : |(t : ℝ) / 2 ^ 96 - (f : ℝ) / 2 ^ 96 * (π / 2)| ≤ 1 / 2 ^ 96 + 1 / 2 ^ 60 := by
    have h1 := fix_mul f fixHalfPi
    rw [← ht] at h1
    have hf1 : (f : ℝ) / 2 ^ 96 ≤ 1 := by
      rw [div_le_one (by positivity)]
      have : ((fixOne : ℕ) : ℝ) = 2 ^ 96 := by norm_num [fixOne]
      rw [← this]; exact_mod_cast hf
    have h2 : |(f : ℝ) / 2 ^ 96 * ((fixHalfPi : ℝ) / 2 ^ 96) - (f : ℝ) / 2 ^ 96 * (π / 2)| ≤ 1 / 2 ^ 60 := by
      rw [← mul_sub, abs_mul, abs_of_nonneg (by positivity)]
      exact (mul_le_mul hf1 halfPi_near (abs_nonneg _) zero_le_one).trans_eq (one_mul _)
    exact (abs_sub_le _ _ _).trans (add_le_add h1 h2)
  have ht' : (t : ℝ) / 2 ^ 96 ≤ 1.6 := by
    have : (t : ℝ) ≤ (fixHalfPi : ℕ) := by exact_mod_cast htle
    rw [div_le_iff₀ (by positivity)]
    refine this.trans ?_
    norm_num [fixHalfPi]
  have ht0 : 0 ≤ (t : ℝ) / 2 ^ 96 := by positivity
  have hV' : ((t : ℝ) / 2 ^ 96) ^ 2 ≤ 3 := by nlinarith
  have hu := fix_mul t t
  rw [← sq ((t : ℝ) / 2 ^ 96)] at hu
  have hu' : t * t / fixOne ≤ 3 * fixOne := by
    refine Nat.div_le_of_le_mul ((Nat.mul_le_mul htle htle).trans ?_)
    norm_num [fixHalfPi, fixOne]
  obtain ⟨-, hA, hA', hS⟩ := near_sineSeries (sq_nonneg _) hV' hu hu'
  have hq : sineQuarter f = t * sineSeries (t * t / fixOne) / fixOne := rfl
  have hm := fix_mul t (sineSeries (t * t / fixOne))
  rw [← hq] at hm
  have hp := sin_partial_sum ht0 hV'
  rw [horner_eq] at hp
  generalize List.foldl _ (1 : ℝ) _ = A at *
  have hm2 : |(t : ℝ) / 2 ^ 96 * ((sineSeries (t * t / fixOne) : ℝ) / 2 ^ 96) - (t : ℝ) / 2 ^ 96 * A| ≤ 1.6 * (4 / 2 ^ 96) := by
    rw [← mul_sub, abs_mul, abs_of_nonneg ht0]
    exact mul_le_mul ht' hS (abs_nonneg _) (by norm_num)
  have hr : ((t : ℝ) / 2 ^ 96) ^ 27 / Nat.factorial 27 ≤ 1 / 2 ^ 60 := by
    have := pow_le_pow_left₀ ht0 ht' 27
    refine (div_le_div_of_nonneg_right this (by positivity)).trans ?_
    norm_num [Nat.factorial]
  have hs := abs_sin_sub_sin_le ((t : ℝ) / 2 ^ 96) ((f : ℝ) / 2 ^ 96 * (π / 2))
  rw [abs_sub_comm] at hp
  have := (abs_sub_le _ _ _).trans (add_le_add hm (((abs_sub_le _ _ _).trans
    (add_le_add hm2 ((abs_sub_le _ _ _).trans (add_le_add (hp.trans hr) (hs.trans hT)))))))
  refine this.trans ?_
  norm_num

open Real in
/-- The fixed-point sine of `z` units of 2^-149 quarter turns is within 2^-50 of the sine (R420). -/
theorem sineFix_near (z : Int) :
    |(sineFix z : ℝ) / 2 ^ 96 - sin ((z : ℝ) / 2 ^ 149 * (π / 2))| ≤ 1 / 2 ^ 50 := by
  have hq0 := Int.emod_nonneg z (show (f32One : ℤ) ≠ 0 by norm_num [f32One])
  have hq1 := Int.emod_lt_of_pos z (show 0 < (f32One : ℤ) by norm_num [f32One])
  have hz := Int.mul_ediv_add_emod z f32One
  obtain ⟨m, hm⟩ := Int.eq_ofNat_of_zero_le hq0
  set d := z / (f32One : ℤ) with hd
  have hm1 : m < 2 ^ 149 := by rw [hm] at hq1; unfold f32One at hq1; exact_mod_cast hq1
  -- the fraction of a quarter turn
  set f := m / 2 ^ 53 with hf
  have hf1 : f ≤ fixOne := by unfold fixOne; omega
  have hfr : |(f : ℝ) / 2 ^ 96 - (m : ℝ) / 2 ^ 149| ≤ 1 / 2 ^ 96 := by
    have a1 : (f : ℝ) * 2 ^ 53 ≤ m := by exact_mod_cast (Nat.div_mul_le_self m (2 ^ 53))
    have a2 : (m : ℝ) ≤ (f + 1) * 2 ^ 53 := by
      have : m ≤ (f + 1) * 2 ^ 53 := by omega
      exact_mod_cast this
    rw [abs_le]; norm_num at *; constructor <;> linarith
  have hang : (z : ℝ) / 2 ^ 149 * (π / 2) = d * (π / 2) + (m : ℝ) / 2 ^ 149 * (π / 2) := by
    have : (z : ℝ) = 2 ^ 149 * d + m := by
      rw [hm] at hz; have := congrArg (Int.cast : ℤ → ℝ) hz; push_cast [f32One] at this; linarith
    rw [this]; field_simp
  have hpi : 0 ≤ π / 2 ∧ π / 2 ≤ 2 := ⟨by positivity, by linarith [pi_le_four]⟩
  have close : ∀ (v : Nat) (r : ℝ), v ≤ fixOne → |(v : ℝ) / 2 ^ 96 - r| ≤ 1 / 2 ^ 96 →
      |(sineQuarter v : ℝ) / 2 ^ 96 - sin (r * (π / 2))| ≤ 1 / 2 ^ 50 := by
    intro v r hv hr
    have h1 := sineQuarter_near hv
    have h2 := abs_sin_sub_sin_le ((v : ℝ) / 2 ^ 96 * (π / 2)) (r * (π / 2))
    rw [← sub_mul, abs_mul, abs_of_nonneg hpi.1] at h2
    have h3 := mul_le_mul hr hpi.2 hpi.1 (by positivity)
    refine ((abs_sub_le _ _ _).trans (add_le_add h1 (h2.trans h3))).trans ?_
    norm_num
  have hfwd := close f ((m : ℝ) / 2 ^ 149) hf1 hfr
  have hbwd := close (fixOne - f) (1 - (m : ℝ) / 2 ^ 149) (Nat.sub_le _ _) (by
    rw [Nat.cast_sub hf1, sub_div]
    have e : ((fixOne : ℕ) : ℝ) / 2 ^ 96 = 1 := by norm_num [fixOne]
    rw [e, ← abs_neg]; convert hfr using 2; ring)
  obtain ⟨k, hk⟩ : ∃ k : ℤ, d = 4 * k + d % 4 := ⟨d / 4, by omega⟩
  have hper : ∀ x : ℝ, sin (x + (4 * k : ℤ) * (π / 2)) = sin x := fun x => by
    rw [show x + ((4 * k : ℤ) : ℝ) * (π / 2) = x + k * (2 * π) by push_cast; ring]
    exact sin_add_int_mul_two_pi x k
  have hsin : sin ((z : ℝ) / 2 ^ 149 * (π / 2)) = sin ((m : ℝ) / 2 ^ 149 * (π / 2) + ((d % 4 : ℤ) : ℝ) * (π / 2)) := by
    rw [hang, ← hper ((m : ℝ) / 2 ^ 149 * (π / 2) + ((d % 4 : ℤ) : ℝ) * (π / 2))]
    congr 1
    have := congrArg (Int.cast : ℤ → ℝ) hk
    push_cast at this ⊢
    nlinarith [this]
  have hmn : (z % (f32One : ℤ)).toNat / 2 ^ 53 = f := by rw [hm]; simp [hf]
  have hb : sin ((1 - (m : ℝ) / 2 ^ 149) * (π / 2)) = cos ((m : ℝ) / 2 ^ 149 * (π / 2)) := by
    rw [← sin_pi_div_two_sub]; congr 1; ring
  rw [hb] at hbwd
  rw [hsin]
  have hr4 : d % 4 = 0 ∨ d % 4 = 1 ∨ d % 4 = 2 ∨ d % 4 = 3 := by omega
  unfold sineFix
  rw [← hd, hmn]
  rcases hr4 with h | h | h | h <;> rw [h]
  · simpa using hfwd
  · simpa [sin_add_pi_div_two] using hbwd
  · have e : (m : ℝ) / 2 ^ 149 * (π / 2) + ((2 : ℤ) : ℝ) * (π / 2) = (m : ℝ) / 2 ^ 149 * (π / 2) + π := by push_cast; ring
    rw [e, sin_add_pi, ← abs_neg]
    convert hfwd using 2; simp; ring
  · have e : (m : ℝ) / 2 ^ 149 * (π / 2) + ((3 : ℤ) : ℝ) * (π / 2) = (m : ℝ) / 2 ^ 149 * (π / 2) + π / 2 + π := by push_cast; ring
    rw [e, sin_add_pi, sin_add_pi_div_two, ← abs_neg]
    convert hbwd using 2; simp; ring

/-! ### The word nearest to a fixed-point value -/

theorem roundDiv_near (n : Nat) {d : Nat} (hd : 0 < d) :
    2 * (roundDiv n d * d) ≤ 2 * n + d ∧ 2 * n ≤ 2 * (roundDiv n d * d) + d ∧ n / d ≤ roundDiv n d ∧
      roundDiv n d ≤ n / d + 1 := by
  have h := Nat.div_add_mod n d
  have hm := Nat.mod_lt n hd
  unfold roundDiv
  generalize n / d = q at h ⊢
  generalize n % d = r at h hm ⊢
  have e : (q + 1) * d = d * q + d := by ring
  have e0 : q * d = d * q := by ring
  split
  · rw [e0]; omega
  · split
    · rw [e]; omega
    · rcases Nat.mod_two_eq_zero_or_one q with hq | hq <;> rw [hq]
      · rw [Nat.add_zero, e0]; omega
      · rw [e]; omega

/-- The fields of a word made from a sign and a number below 2^31. -/
theorem signed_fields (neg : Bool) {n : Nat} (h : n < 2 ^ 31) :
    f32Neg (signWord neg ||| BitVec.ofNat 32 n) = neg ∧ f32Exp (signWord neg ||| BitVec.ofNat 32 n) = n / 2 ^ 23 ∧
      f32Frac (signWord neg ||| BitVec.ofNat 32 n) = n % 2 ^ 23 := by
  have e : signWord neg ||| BitVec.ofNat 32 n = BitVec.ofNat 32 (n + if neg then 2 ^ 31 else 0) := by
    cases neg
    · simp [signWord]
    · refine BitVec.eq_of_toNat_eq ?_
      have := Nat.two_pow_add_eq_or_of_lt h 1
      rw [BitVec.toNat_or, BitVec.toNat_ofNat, BitVec.toNat_ofNat, Nat.mod_eq_of_lt (show n < 2 ^ 32 by omega),
        show (signWord true).toNat = 2 ^ 31 * 1 from rfl, ← this, if_pos rfl]
      omega
  rw [e]
  unfold f32Neg f32Exp f32Frac
  rw [BitVec.extractLsb'_toNat, BitVec.extractLsb'_toNat, Nat.shiftRight_eq_div_pow,
    show (31 : Nat) = 32 - 1 from rfl, ← BitVec.msb_eq_getLsbD_last, BitVec.msb_eq_decide, BitVec.toNat_ofNat]
  cases neg <;> simp <;> omega

/-- The magnitude below the overflow threshold that `roundMag` gives for `n` units, as a number: within half of the
last place. -/
theorem roundMag_near {n : Nat} (h : n < 2 ^ 151) : ∃ m, m < 0x7F800000 ∧ roundMag n 1 = BitVec.ofNat 32 m ∧
    2 * magOf m ≤ 2 * n + 2 ^ 127 ∧ 2 * n ≤ 2 * magOf m + 2 ^ 127 := by
  obtain ⟨e, q, he, hq, hqe, h1, h2, h3⟩ : ∃ e q, e = excessBits (n / 1) ∧ q = roundDiv n (1 * 2 ^ e) ∧ e ≤ 127 ∧
      2 * (q * 2 ^ e) ≤ 2 * n + 2 ^ e ∧ 2 * n ≤ 2 * (q * 2 ^ e) + 2 ^ e ∧
      (e = 0 ∧ q < 2 ^ 24 ∨ 2 ^ 23 ≤ q ∧ q ≤ 2 ^ 24) := by
    refine ⟨_, _, rfl, rfl, ?_, ?_, ?_, ?_⟩
    all_goals rw [Nat.div_one]
    · unfold excessBits; split
      · omega
      · have := (Nat.log2_lt (by omega)).2 h; omega
    · have := (roundDiv_near n (d := 1 * 2 ^ excessBits n) (by positivity)).1; rwa [Nat.one_mul] at this ⊢
    · have := (roundDiv_near n (d := 1 * 2 ^ excessBits n) (by positivity)).2.1; rwa [Nat.one_mul] at this ⊢
    · by_cases hn : n < 2 ^ 24
      · left
        have e0 : excessBits n = 0 := by simp only [excessBits, if_pos hn]
        rw [e0]
        have := roundDiv_near n (d := 1 * 2 ^ 0) (by norm_num)
        refine ⟨rfl, ?_⟩
        simp only [pow_zero, Nat.mul_one] at this ⊢; omega
      · right
        have hlo : 2 ^ n.log2 ≤ n := Nat.log2_self_le (by omega)
        have hhi : n < 2 ^ (n.log2 + 1) := Nat.lt_log2_self
        have h24 : 24 ≤ n.log2 := (Nat.le_log2 (by omega)).2 (by omega)
        have ee : excessBits n = n.log2 - 23 := by simp only [excessBits, if_neg hn]
        have hb := roundDiv_near n (d := 1 * 2 ^ excessBits n) (by positivity)
        rw [Nat.one_mul, ee] at hb ⊢
        have s1 : 2 ^ n.log2 = 2 ^ 23 * 2 ^ (n.log2 - 23) := by rw [← pow_add]; congr 1; omega
        have s2 : 2 ^ (n.log2 + 1) = 2 ^ 24 * 2 ^ (n.log2 - 23) := by rw [← pow_add]; congr 1; omega
        have d1 : 2 ^ 23 ≤ n / 2 ^ (n.log2 - 23) := (Nat.le_div_iff_mul_le (by positivity)).2 (s1 ▸ hlo)
        have d2 : n / 2 ^ (n.log2 - 23) < 2 ^ 24 := (Nat.div_lt_iff_lt_mul (by positivity)).2 (s2 ▸ hhi)
        omega
  have hm : magOf (e * 2 ^ 23 + q) = q * 2 ^ e := by
    unfold magOf
    rcases h3 with ⟨rfl, h3⟩ | ⟨h3, h4⟩
    · by_cases hb : q < 2 ^ 23
      · rw [if_pos (by omega)]; omega
      · rw [if_neg (by omega), show (0 * 2 ^ 23 + q) / 2 ^ 23 - 1 = 0 by omega]; omega
    · rcases Nat.lt_or_eq_of_le h4 with h4 | rfl
      · rw [if_neg (by omega), show (e * 2 ^ 23 + q) / 2 ^ 23 - 1 = e by omega]
        congr 1; omega
      · rw [if_neg (by omega), show (e * 2 ^ 23 + 2 ^ 24) / 2 ^ 23 - 1 = e + 1 by omega,
          show (e * 2 ^ 23 + 2 ^ 24) % 2 ^ 23 = 0 by omega, pow_succ]
        ring
  have hp : 2 ^ e ≤ 2 ^ 127 := Nat.pow_le_pow_right (by norm_num) hqe
  have hlt : e * 2 ^ 23 + q < 0x7F800000 := by rcases h3 with h3 | h3 <;> omega
  refine ⟨e * 2 ^ 23 + q, hlt, ?_, by rw [hm]; omega, by rw [hm]; omega⟩
  unfold roundMag
  rw [← he, ← hq, if_neg (by omega)]

/-- The nearest word to a fixed-point value of magnitude at most 2 passes the test of the free word. -/
theorem nearFix_fixWord {v : Int} (h : v.natAbs ≤ 2 ^ 97) : nearFix (fixWord v) v = true := by
  obtain ⟨m, hm, e, h1, h2⟩ := roundMag_near (n := v.natAbs * 2 ^ 53) (by omega)
  obtain ⟨hn, he, hf⟩ := signed_fields (decide (v < 0)) (n := m) (by omega)
  have hmag : f32Mag (signWord (decide (v < 0)) ||| BitVec.ofNat 32 m) = magOf m := by
    unfold f32Mag magOf; rw [he, hf]
  unfold nearFix fixWord isNaN isInf f32Scaled
  rw [e, hn, he, hf, hmag]
  have hx : (m / 2 ^ 23 == 255) = false := by simp; omega
  rw [hx]
  by_cases hv : v < 0 <;> simp [hv] <;> omega

/-- A word that passes the test is finite and within 2^-20 - 2^-50 of the fixed-point value. -/
theorem near_of_nearFix {w : Word} {v : Int} (h : nearFix w v = true) :
    IsFinite w ∧ |value w - (v : ℝ) / 2 ^ 96| ≤ 1 / 2 ^ 20 - 1 / 2 ^ 50 := by
  unfold nearFix at h
  simp only [Bool.and_eq_true, Bool.not_eq_true', decide_eq_true_eq] at h
  obtain ⟨⟨h1, h2⟩, h3⟩ := h
  refine ⟨(isFinite_iff w).2 ⟨(isNaN_eq_false_iff w).1 h1, (isInf_eq_false_iff w).1 h2⟩, ?_⟩
  have h4 : |f32Scaled w - v * 2 ^ 53| ≤ 2 ^ 129 - 2 ^ 99 := by rw [Int.abs_eq_natAbs]; omega
  have h5 : |(f32Scaled w : ℝ) - v * 2 ^ 53| ≤ 2 ^ 129 - 2 ^ 99 := by exact_mod_cast h4
  rw [value_eq, show (2 : ℝ) ^ (-149 : ℤ) = 1 / 2 ^ 149 by rw [zpow_neg, one_div]; norm_cast]
  rw [abs_le] at h5 ⊢
  constructor <;> norm_num at * <;> linarith

open Real in
/-- The sine of a finite angle is finite and within 2^-20 of the real sine, whatever the free word is (R420). -/
theorem sineOf_near (c : Word) (z : Int) : IsFinite (sineOf c z) ∧
    |value (sineOf c z) - sin ((z : ℝ) / 2 ^ 149 * (π / 2))| ≤ 1 / 2 ^ 20 := by
  have hs := sineFix_near z
  have key : ∀ w, IsFinite w ∧ |value w - (sineFix z : ℝ) / 2 ^ 96| ≤ 1 / 2 ^ 20 - 1 / 2 ^ 50 →
      IsFinite w ∧ |value w - sin ((z : ℝ) / 2 ^ 149 * (π / 2))| ≤ 1 / 2 ^ 20 := fun w h =>
    ⟨h.1, ((abs_sub_le _ _ _).trans (add_le_add h.2 hs)).trans (by norm_num)⟩
  refine key _ ?_
  unfold sineOf
  split
  · next hz =>
    have hq : (z % f32One).toNat / 2 ^ 53 = 0 := by rw [hz]; rfl
    have v0 : value 0#32 = 0 := by rw [value_eq, show f32Scaled 0#32 = 0 by decide]; simp
    have v1 : value 0x3F800000#32 = 1 := by
      rw [value_eq, show f32Scaled 0x3F800000#32 = 2 ^ 149 by decide +kernel]; norm_num [zpow_neg]
    have v3 : value 0xBF800000#32 = -1 := by
      rw [value_eq, show f32Scaled 0xBF800000#32 = -2 ^ 149 by decide +kernel]; norm_num [zpow_neg]
    have q0 : sineQuarter 0 = 0 := by decide +kernel
    have q1 : sineQuarter fixOne ≤ 2 ^ 96 + 2 ^ 40 ∧ 2 ^ 96 ≤ sineQuarter fixOne + 2 ^ 40 := by decide +kernel
    have q2 : |1 - (sineQuarter fixOne : ℝ) / 2 ^ 96| ≤ 1 / 2 ^ 20 - 1 / 2 ^ 50 := by
      have a : (sineQuarter fixOne : ℝ) ≤ 2 ^ 96 + 2 ^ 40 := by exact_mod_cast q1.1
      have b : (2 : ℝ) ^ 96 ≤ sineQuarter fixOne + 2 ^ 40 := by exact_mod_cast q1.2
      generalize (sineQuarter fixOne : ℝ) = y at a b ⊢
      rw [abs_le]; constructor <;> norm_num at a b ⊢ <;> linarith
    have f0 : IsFinite 0#32 := by unfold IsFinite expOf; decide
    have f1 : IsFinite 0x3F800000#32 := by unfold IsFinite expOf; decide
    have f3 : IsFinite 0xBF800000#32 := by unfold IsFinite expOf; decide
    have hr : (z / f32One % 4).toNat = 0 ∨ (z / f32One % 4).toNat = 1 ∨ (z / f32One % 4).toNat = 2 ∨
        (z / f32One % 4).toNat = 3 := by omega
    unfold sineExact sineFix
    rw [hq, Nat.sub_zero, q0]
    rcases hr with h | h | h | h <;> rw [h]
    · refine ⟨f0, ?_⟩; simp only [v0]; norm_num
    · exact ⟨f1, by simpa only [v1, Int.cast_natCast] using q2⟩
    · refine ⟨f0, ?_⟩; simp only [v0]; norm_num
    · refine ⟨f3, ?_⟩
      simp only [v3]; rw [← abs_neg]; convert q2 using 2; push_cast; ring
  · split
    · next h => exact near_of_nearFix h
    · refine near_of_nearFix (nearFix_fixWord ?_)
      have h1 := abs_le.1 hs
      have h2 := neg_one_le_sin ((z : ℝ) / 2 ^ 149 * (π / 2))
      have h3 := sin_le_one ((z : ℝ) / 2 ^ 149 * (π / 2))
      have a : (sineFix z : ℝ) ≤ 2 ^ 97 := by norm_num at *; linarith
      have b : -(2 ^ 97) ≤ (sineFix z : ℝ) := by norm_num at *; linarith
      have a' : sineFix z ≤ 2 ^ 97 := by exact_mod_cast a
      have b' : -(2 ^ 97) ≤ sineFix z := by exact_mod_cast b
      omega

open Real in
/-- `VSIN` of a finite angle (R420): finite, within 2^-20 of the sine of that many quarter turns. -/
theorem vsin_near {x : Word} (h : IsFinite x) :
    IsFinite (vsin x) ∧ |value (vsin x) - sin (value x * (π / 2))| ≤ 1 / 2 ^ 20 := by
  have hx := (isFinite_iff x).1 h
  unfold vsin
  rw [(isNaN_eq_false_iff x).2 hx.1, (isInf_eq_false_iff x).2 hx.2, value_eq x]
  simpa [div_eq_mul_inv, zpow_neg] using sineOf_near (Config.sineFree x) (f32Scaled x)

open Real in
/-- `VCOS` of a finite angle (R420): finite, within 2^-20 of the cosine of that many quarter turns. -/
theorem vcos_near {x : Word} (h : IsFinite x) :
    IsFinite (vcos x) ∧ |value (vcos x) - cos (value x * (π / 2))| ≤ 1 / 2 ^ 20 := by
  have hx := (isFinite_iff x).1 h
  have hs := sineOf_near (Config.cosineFree x) (f32Scaled x + f32One)
  have e : ((f32Scaled x + f32One : ℤ) : ℝ) / 2 ^ 149 * (π / 2) = value x * (π / 2) + π / 2 := by
    rw [value_eq, zpow_neg]; push_cast [f32One]; norm_num; ring
  rw [e, sin_add_pi_div_two] at hs
  unfold vcos
  rw [(isNaN_eq_false_iff x).2 hx.1, (isInf_eq_false_iff x).2 hx.2]
  exact hs

end Sys2Proof.Machine
end

