-- ==== Sys2Proof/Machine/HostActions.lean ====
section
/-! DEFINITION. What the host may do between batches (spec/70_reset_and_hazards.md R683; breakpoints,
spec/60_exceptions.md R650). No step takes one of these (log entry 16). -/
namespace Sys2Proof.Machine

/-- One write of the host to a context (R683: "the host may write any state of a context"). -/
inductive HostAction where
  | setGpr (r : Reg) (v : Word)
  /-- `PC` and `nPC` together (R682 item 2). -/
  | setPc (pc npc : Word)
  | setHilo (v : BitVec 64)
  | setFpr (f : FReg) (v : Word)
  | setVfr (k : Slot) (v : Word)
  | setFcr31 (v : Word)
  | setLatches (s t d : PrefixLatch)
  | setIc (v : Word)
  | setIr (v : Word)
  | setCount (n : Nat)
  /-- A byte of memory, at a masked address (R72). -/
  | setByte (addr : Word) (v : Byte)
  | setBreakpoints (set : List Word)
  | enableBreakpoints (enabled : Bool)
  deriving DecidableEq, Repr

/-- The effect of a host's write (R683). -/
def applyHost (a : HostAction) (s : State) : State :=
  match a with
  | .setGpr r v          => writeGpr s r v
  | .setPc pc npc        => { s with pc := pc, npc := npc }
  | .setHilo v           => writeHilo s v
  | .setFpr f v          => writeFpr s f v
  | .setVfr k v          => writeVfr s k v
  | .setFcr31 v          => { s with fcr31 := v }
  | .setLatches p t d    => { s with pfxs := p, pfxt := t, pfxd := d }
  | .setIc v             => { s with ic := v }
  | .setIr v             => { s with ir := v }
  | .setCount n          => { s with count := n }
  | .setByte addr v      => { s with mem := s.mem.setByteAt (maskAddr s addr) v }
  | .setBreakpoints set  => { s with bpSet := set }
  | .enableBreakpoints e => { s with bpEnabled := e }

end Sys2Proof.Machine
end

