-- ==== Sys2Proof/Tests/Slice0.lean ====
section
/-! SUPPORT. Tests of the model. Expected values come from spec/95_test_vectors.md (words, start states and results),
from the encodings of spec/opcode_table.json (words written out field by field), or from the rule named. -/
open Sys2Proof Sys2Proof.Machine

section
set_option Elab.async false

namespace Tests

/-- What a test looks at after a step. -/
inductive Seen where
  | x (r : Reg) (v : Word)
  | f (r : FReg) (v : Word)
  | v (k : Slot) (w : Word)
  | m (a w : Word)
  | hi (v : Word)
  | lo (v : Word)
  | fcr31 (v : Word)
  | ic (v : Word)
  | pc (v : Word)
  | npc (v : Word)
  | count (n : Nat)
  | latches (s t d : Bool)
  | ends (o : StepOutcome)

/-- The state shows it. -/
def Seen.holds (s : State) : Seen → Bool
  | .x r w         => readGpr s r == w
  | .f r w         => readFpr s r == w
  | .v k w         => readVfr s k == w
  | .m a w         => s.mem.word a == w
  | .hi w          => s.hi == w
  | .lo w          => s.lo == w
  | .fcr31 w       => s.fcr31 == w
  | .ic w          => s.ic == w
  | .pc w          => s.pc == w
  | .npc w         => s.npc == w
  | .count n       => s.count == n
  | .latches a b d => s.pfxs.enabled == a && s.pfxt.enabled == b && s.pfxd.enabled == d
  | .ends o        => s.outcome == o

/-- The four host writes of the word `w` at the aligned address `a`. -/
def bytes (a w : Word) : List HostAction :=
  [.setByte a (w.extractLsb' 0 8), .setByte (a + 1#32) (w.extractLsb' 8 8), .setByte (a + 2#32) (w.extractLsb' 16 8),
    .setByte (a + 3#32) (w.extractLsb' 24 8)]

/-- These words written to memory before the other writes of the host. -/
def withWords (l : List (Word × Word)) (pre : List HostAction) : List HostAction :=
  l.flatMap (fun p => bytes p.1 p.2) ++ pre

/-- The reset state after some writes of the host, the word `w` placed at its `PC`. -/
def ready (pre : List HostAction) (w : Nat) : State :=
  (pre.foldl (fun s a => applyHost a s) State.reset).withFetchWord 32 w

/-- The step completes, and everything looked at is as expected. -/
def gives (pre : List HostAction) (w : Nat) (post : List Seen) : Bool :=
  match step (ready pre w) with
  | .next t => post.all (Seen.holds t)
  | _       => false

/-- The step ends in this fault. -/
def faults (pre : List HostAction) (w : Nat) (f : Fault) : Bool :=
  match step (ready pre w) with
  | .fault g => g == f
  | _        => false

/-- The word decodes to the instruction. -/
def reads (w : Word) (i : Instr) : Bool :=
  match decodeWord w with
  | .ok j    => j == i
  | .error _ => false

/-- Every row of a list of checks holds. -/
def allOf (l : List Bool) : Bool := l.all id

end Tests

open Tests

/-! ### The words of every constructor, from the encodings of the table -/

theorem test_decode_alu_1 : allOf [
    reads 0b00000001011111110010100000100000#32 (.add 5 11 31),
    reads 0b00000001101101010001000000100001#32 (.addu 2 13 21),
    reads 0b00100000011110111000100100110000#32 (.addi 27 3 35120#16),
    reads 0b00100100100011001001010100110010#32 (.addiu 12 4 38194#16),
    reads 0b00000000010111101000100000100010#32 (.sub 17 2 30),
    reads 0b00000000111000100001100000100011#32 (.subu 3 7 2),
    reads 0b00000001110011100001100000100100#32 (.and 3 14 14),
    reads 0b00000001000000111001000000100101#32 (.or 18 8 3),
    reads 0b00000001110000101101100000100110#32 (.xor 27 14 2),
    reads 0b00000010011001001111100000100111#32 (.nor 31 19 4),
    reads 0b00110001000101011010000010100000#32 (.andi 21 8 41120#16),
    reads 0b00110110011111110000111111010111#32 (.ori 31 19 4055#16),
    reads 0b00111010011100110110010110001101#32 (.xori 19 19 25997#16),
    reads 0b00111100000000101111100111101100#32 (.lui 2 63980#16),
    reads 0b00000001000000101001000000101010#32 (.slt 18 8 2),
    reads 0b00000011100001010101000000101011#32 (.sltu 10 28 5),
    reads 0b00101001110001011000101001101011#32 (.slti 5 14 35435#16),
    reads 0b00101100100100110100111011111001#32 (.sltiu 19 4 20217#16),
    reads 0b00000000000100101101110110000000#32 (.sll 27 18 22),
    reads 0b00000000000001100010010011000010#32 (.srl 4 6 19)] = true := by decide +kernel

theorem test_decode_alu_2 : allOf [
    reads 0b00000000000100111010100111000011#32 (.sra 21 19 7),
    reads 0b00000001100001001001000000000100#32 (.sllv 18 4 12),
    reads 0b00000010111000111001100000000110#32 (.srlv 19 3 23),
    reads 0b00000000010101000011100000000111#32 (.srav 7 20 2),
    reads 0b00000000001100001011010010000010#32 (.rotr 22 16 18),
    reads 0b00000001110110010101100001000110#32 (.rotrv 11 25 14),
    reads 0b01111101111100111111001111000000#32 (.ext 19 15 15 30),
    reads 0b01111101100010100100011010000100#32 (.ins 10 12 26 8),
    reads 0b00000000110000001011100000010110#32 (.clz 23 6),
    reads 0b00000011001000000100000000010111#32 (.clo 8 25),
    reads 0b01111100000000111001110000100000#32 (.seb 19 3),
    reads 0b01111100000010101000111000100000#32 (.seh 17 10),
    reads 0b01111100000100001110100010100000#32 (.wsbh 29 16),
    reads 0b01111100000010111100000011100000#32 (.wsbw 24 11),
    reads 0b01111100000011110101010100100000#32 (.bitrev 10 15),
    reads 0b00000010100000110010000000001010#32 (.movz 4 20 3),
    reads 0b00000010001011100011000000001011#32 (.movn 6 17 14),
    reads 0b00000011001010110010100000101100#32 (.max 5 25 11),
    reads 0b00000011110100000111000000101101#32 (.min 14 30 16)] = true := by decide +kernel

theorem test_decode_mul_div : allOf [
    reads 0b00000000010111110000000000011000#32 (.mult 2 31),
    reads 0b00000010110000110000000000011001#32 (.multu 22 3),
    reads 0b00000011001100100000000000011010#32 (.div 25 18),
    reads 0b00000010011110100000000000011011#32 (.divu 19 26),
    reads 0b00000011101110110000000000011100#32 (.madd 29 27),
    reads 0b00000001011010110000000000011101#32 (.maddu 11 11),
    reads 0b00000010111011000000000000101110#32 (.msub 23 12),
    reads 0b00000010100100000000000000101111#32 (.msubu 20 16),
    reads 0b00000000000000001001100000010000#32 (.mfhi 19),
    reads 0b00000000000000001101000000010010#32 (.mflo 26),
    reads 0b00000001111000000000000000010001#32 (.mthi 15),
    reads 0b00000000011000000000000000010011#32 (.mtlo 3)] = true := by decide +kernel

theorem test_decode_load_store : allOf [
    reads 0b10000011011000111111000111010111#32 (.lb 3 61911#16 27),
    reads 0b10010001001100001011001001110010#32 (.lbu 16 45682#16 9),
    reads 0b10000110110000110000111110001001#32 (.lh 3 3977#16 22),
    reads 0b10010111000101110100111101000011#32 (.lhu 23 20291#16 24),
    reads 0b10001110101100111111111000111100#32 (.lw 19 65084#16 21),
    reads 0b10100010110110110111001000010110#32 (.sb 27 29206#16 22),
    reads 0b10100101010101110110001011000100#32 (.sh 23 25284#16 10),
    reads 0b10101111101101100101100011010110#32 (.sw 22 22742#16 29),
    reads 0b10001000001111110111011000110010#32 (.lwl 31 30258#16 1),
    reads 0b10011001100001101001110001100110#32 (.lwr 6 40038#16 12),
    reads 0b10101000100100000000111100011000#32 (.swl 16 3864#16 4),
    reads 0b10111000111110010100100110010110#32 (.swr 25 18838#16 7),
    reads 0b11000100101110000011111101100100#32 (.lwc1 24 16228#16 5),
    reads 0b11100101101011011110101010110101#32 (.swc1 13 60085#16 13),
    reads 0b11000011100100000001010010100001#32 (.ll 16 5281#16 28),
    reads 0b11100000110011110110011011010011#32 (.sc 15 26323#16 6)] = true := by decide +kernel

theorem test_decode_branch_1 : allOf [
    reads 0b00010010010010011110001000100110#32 (.beq 18 9 57894#16),
    reads 0b00010100101110110110111000110111#32 (.bne 5 27 28215#16),
    reads 0b00011011100000001000110011011100#32 (.blez 28 36060#16),
    reads 0b00011101001000001011010011010111#32 (.bgtz 9 46295#16),
    reads 0b00000101110000001111110010001010#32 (.bltz 14 64650#16),
    reads 0b00000101100000011010111011000111#32 (.bgez 12 44743#16),
    reads 0b00001011100010010110100111011001#32 (.j 59337177#26),
    reads 0b00001101100001011001001001101000#32 (.jal 25530984#26),
    reads 0b00000011111000000000000000001000#32 (.jr 31),
    reads 0b00000001000000000010100000001001#32 (.jalr 5 8),
    reads 0b00000100011100000010110100011101#32 (.bltzal 3 11549#16),
    reads 0b00000100101100010011101101100010#32 (.bgezal 5 15202#16),
    reads 0b00000110110100100011101110111100#32 (.bltzall 22 15292#16),
    reads 0b00000100001100110111110000100111#32 (.bgezall 1 31783#16),
    reads 0b01010011011100110010111010101111#32 (.beql 27 19 11951#16),
    reads 0b01010101001010100000000100001101#32 (.bnel 9 10 269#16),
    reads 0b01011000101000000110101101000001#32 (.blezl 5 27457#16),
    reads 0b01011110010000000101111010001000#32 (.bgtzl 18 24200#16),
    reads 0b00000110100000101001000011111100#32 (.bltzl 20 37116#16),
    reads 0b00000101011000111111001111111111#32 (.bgezl 11 62463#16)] = true := by decide +kernel

theorem test_decode_branch_2 : allOf [
    reads 0b01000101000000000010000000100001#32 (.bc1f 8225#16),
    reads 0b01000101000000011011000011000101#32 (.bc1t 45253#16),
    reads 0b01000101000000101101101111110101#32 (.bc1fl 56309#16),
    reads 0b01000101000000111000001111111000#32 (.bc1tl 33784#16),
    reads 0b01001001000101001010011110101100#32 (.bvf 5#3 42924#16),
    reads 0b01001001000110011011110101100011#32 (.bvt 6#3 48483#16),
    reads 0b01001001000001100111010011100111#32 (.bvfl 1#3 29927#16),
    reads 0b01001001000111111100011110101101#32 (.bvtl 7#3 51117#16)] = true := by decide +kernel

theorem test_decode_fpu_1 : allOf [
    reads 0b01000110000111111110010110000000#32 (.addS 22 28 31),
    reads 0b01000110000110101001001101000001#32 (.subS 13 18 26),
    reads 0b01000110000011010110101101000010#32 (.mulS 13 13 13),
    reads 0b01000110000001001000010101000011#32 (.divS 21 16 4),
    reads 0b01000110000000000110100010000100#32 (.sqrtS 2 13),
    reads 0b01000110000000000011100011000101#32 (.absS 3 7),
    reads 0b01000110000000000011101111000110#32 (.movS 15 7),
    reads 0b01000110000000000011000100000111#32 (.negS 4 6),
    reads 0b01000110000000000101110100100100#32 (.cvtWS 20 11),
    reads 0b01000110000000000001000100001100#32 (.roundWS 4 2),
    reads 0b01000110000000000000110011001101#32 (.truncWS 19 1),
    reads 0b01000110000000000010110010001110#32 (.ceilWS 18 5),
    reads 0b01000110000000000010011111001111#32 (.floorWS 31 4),
    reads 0b01000110100000000110010100100000#32 (.cvtSW 20 12),
    reads 0b01000110000000010001100000110000#32 (.cFS 3 1),
    reads 0b01000110000111000011100000110001#32 (.cUnS 7 28),
    reads 0b01000110000101000110100000110010#32 (.cEqS 13 20),
    reads 0b01000110000001011010100000110011#32 (.cUeqS 21 5),
    reads 0b01000110000010011111100000110100#32 (.cOltS 31 9),
    reads 0b01000110000011001010000000110101#32 (.cUltS 20 12)] = true := by decide +kernel

theorem test_decode_fpu_2 : allOf [
    reads 0b01000110000011001000000000110110#32 (.cOleS 16 12),
    reads 0b01000110000001000010000000110111#32 (.cUleS 4 4),
    reads 0b01000110000111001000000000111000#32 (.cSfS 16 28),
    reads 0b01000110000011111000000000111001#32 (.cNgleS 16 15),
    reads 0b01000110000100000101000000111010#32 (.cSeqS 10 16),
    reads 0b01000110000000110010100000111011#32 (.cNglS 5 3),
    reads 0b01000110000001001100000000111100#32 (.cLtS 24 4),
    reads 0b01000110000010111100000000111101#32 (.cNgeS 24 11),
    reads 0b01000110000010011000000000111110#32 (.cLeS 16 9),
    reads 0b01000110000110111011100000111111#32 (.cNgtS 23 27),
    reads 0b01000100110001101000100000000000#32 (.ctc1 6 17),
    reads 0b01000100010000010011100000000000#32 (.cfc1 1 7),
    reads 0b01000100000111111111100000000000#32 (.mfc1 31 31),
    reads 0b01000100100100010110000000000000#32 (.mtc1 17 12)] = true := by decide +kernel

theorem test_decode_vfpu_pfx : allOf [
    reads 0b11011100000000100101100001111100#32 (.vpfxs 153724#20),
    reads 0b11011101000010110000101010000101#32 (.vpfxt 723589#20),
    reads 0b11011110000000000000100010110001#32 (.vpfxd 2225#12)] = true := by decide +kernel

theorem test_decode_vfpu_mem : allOf [
    reads 0b11011011110000011100001000011001#32 (.lvQ 33#6 12422#14 30),
    reads 0b11111010101111000001011101010001#32 (.svQ 60#6 1492#14 21),
    reads 0b11010110001011001110100010000100#32 (.lvlQ 12#6 14881#14 17),
    reads 0b11010101100110010011100100001111#32 (.lvrQ 57#6 3651#14 12),
    reads 0b11110110101010001001110100000000#32 (.svlQ 8#6 10048#14 21),
    reads 0b11110111010010001101000110000011#32 (.svrQ 40#6 13408#14 26),
    reads 0b11001011000110100011101000001101#32 (.lvS 58#7 3715#14 24),
    reads 0b11101010001100000101101100001011#32 (.svS 112#7 5826#14 17)] = true := by decide +kernel

theorem test_decode_vfpu_ops_1 : allOf [
    reads 0b11110011100001100000000001100110#32 (.vmzero .single 102#7),
    reads 0b11110011100001111000000010100010#32 (.vmone .quad 34#7),
    reads 0b11110011100000110000000010111010#32 (.vmidt .pair 58#7),
    reads 0b11110011100000001111101110001011#32 (.vmmov .quad 11#7 123#7),
    reads 0b11110000000111010001111010011010#32 (.vmmul .pair 26#7 30#7 29#7),
    reads 0b11110011101010110011111000111110#32 (.vrot .single 62#7 62#7 11#5),
    reads 0b11010000010110011110011101101011#32 (.vt4444Q .triple 107#7 103#7),
    reads 0b11010000010110100111010111100101#32 (.vt5551Q .pair 101#7 117#7),
    reads 0b11010000010110110011111000111000#32 (.vt5650Q .single 56#7 62#7),
    reads 0b01100000011001101000110010111100#32 (.vadd .quad 60#7 12#7 102#7),
    reads 0b01100000101101000101110100010110#32 (.vsub .single 22#7 93#7 52#7),
    reads 0b01100100000100010001010011101000#32 (.vmul .pair 104#7 20#7 17#7),
    reads 0b01100011110101000100111111010101#32 (.vdiv .pair 85#7 79#7 84#7),
    reads 0b11010000000000001001010000000011#32 (.vmov .triple 3#7 20#7),
    reads 0b11010000000000010110011101000100#32 (.vabs .single 68#7 103#7),
    reads 0b11010000000000100011100001101010#32 (.vneg .single 106#7 56#7),
    reads 0b11010000000001100000000000100001#32 (.vzero .single 33#7),
    reads 0b11010000000001110000000011000001#32 (.vone .pair 65#7),
    reads 0b01100101000111111010001011101011#32 (.vscl .quad 107#7 34#7 31#7),
    reads 0b01100100100100010111010111110011#32 (.vdot .pair 115#7 117#7 17#7)] = true := by decide +kernel

theorem test_decode_vfpu_ops_2 : allOf [
    reads 0b11011111001110111010100110011000#32 (.viimS 59#7 43416#16),
    reads 0b01001000111100110000000001101001#32 (.mtv 19 105#7),
    reads 0b01001000011111010000000001000011#32 (.mfv 29 67#7),
    reads 0b11111111111111110000000000000000#32 (.vnop),
    reads 0b11111111111111110000001100100000#32 (.vsync),
    reads 0b11111111111111110000010000001101#32 (.vflush)] = true := by decide +kernel

theorem test_decode_vfpu_unimplemented_1 : allOf [
    reads 0b11010000000100101110101001000101#32 (.vsin .triple 69#7 106#7),
    reads 0b11010000000100110100010001110000#32 (.vcos .single 112#7 68#7),
    reads 0b11010000000101101110010001001110#32 (.vsqrt .triple 78#7 100#7),
    reads 0b11110000100000010110010011100111#32 (.vtfm2 103#7 100#7 1#7),
    reads 0b11110001000101001001011100010011#32 (.vtfm3 19#7 23#7 20#7),
    reads 0b11110001101111011101000011011101#32 (.vtfm4 93#7 80#7 61#7),
    reads 0b01100110100100001100100000001000#32 (.vcrsT 8#7 72#7 16#7),
    reads 0b11010000010000001101100011100101#32 (.vsrt1 .quad 101#7 88#7),
    reads 0b11010000010000010111001000100000#32 (.vsrt2 .single 32#7 114#7),
    reads 0b11010000010010000010010001100011#32 (.vsrt3 .single 99#7 36#7),
    reads 0b11010000010010010100000111001000#32 (.vsrt4 .pair 72#7 65#7),
    reads 0b11110000100001000110001001110011#32 (.vhtfm2 115#7 98#7 4#7),
    reads 0b11110001011101010000100110111001#32 (.vhtfm3 57#7 9#7 117#7),
    reads 0b11110001101010101100111101111101#32 (.vhtfm4 125#7 79#7 42#7),
    reads 0b01100001010000010101100110111010#32 (.vsbn .pair 58#7 89#7 65#7),
    reads 0b01100110010000101100000101011010#32 (.vhdp .triple 90#7 65#7 66#7),
    reads 0b01100111010000111111011101101100#32 (.vdet .triple 108#7 119#7 67#7),
    reads 0b01101100001110100011011000000111#32 (.vcmp .single 7#4 54#7 58#7),
    reads 0b01101101001110011000101000110111#32 (.vmin .triple 55#7 10#7 57#7),
    reads 0b01101101100010100101011011100101#32 (.vmax .pair 101#7 86#7 10#7)] = true := by decide +kernel

theorem test_decode_vfpu_unimplemented_2 : allOf [
    reads 0b01101110100100000111100110010011#32 (.vscmp .pair 19#7 121#7 16#7),
    reads 0b01101111001000010111110010011101#32 (.vsge .pair 29#7 124#7 33#7),
    reads 0b01101111111000000011001110010101#32 (.vslt .pair 21#7 51#7 96#7),
    reads 0b11010000000000110000000001011011#32 (.vidt .single 91#7),
    reads 0b11010000000001001100001010101100#32 (.vsat0 .quad 44#7 66#7),
    reads 0b11010000000001011001101010101001#32 (.vsat1 .quad 41#7 26#7),
    reads 0b11010000000100000101110110000011#32 (.vrcp .pair 3#7 93#7),
    reads 0b11010000000100011100011110111001#32 (.vrsq .quad 57#7 71#7),
    reads 0b11010000000101000011001011000011#32 (.vexp2 .pair 67#7 50#7),
    reads 0b11010000000101011100001000001111#32 (.vlog2 .triple 15#7 66#7),
    reads 0b11010000000101110111110100001011#32 (.vasin .single 11#7 125#7),
    reads 0b11010000000110001010001101110100#32 (.vnrcp .triple 116#7 35#7),
    reads 0b11010000000110100010001101101001#32 (.vnsin .single 105#7 35#7),
    reads 0b11010000000111001110110110110100#32 (.vrexp2 .quad 52#7 109#7),
    reads 0b11010000001000000100010110000000#32 (.vrnds .pair 69#7),
    reads 0b11010000001000011000000000100100#32 (.vrndi .triple 36#7),
    reads 0b11010000001000100000000000110111#32 (.vrndf1 .single 55#7),
    reads 0b11010000001000110000000011111001#32 (.vrndf2 .pair 121#7),
    reads 0b11010000001100100101001001100111#32 (.vf2h .single 103#7 82#7),
    reads 0b11010000001100111000101100001001#32 (.vh2f .triple 9#7 11#7)] = true := by decide +kernel

theorem test_decode_vfpu_unimplemented_3 : allOf [
    reads 0b11010000001101101110111100111011#32 (.vsbz .triple 59#7 111#7),
    reads 0b11010000001101110010110011110111#32 (.vlgb .pair 119#7 44#7),
    reads 0b11010000001110001101000000000110#32 (.vuc2i .triple 6#7 80#7),
    reads 0b11010000001110010111100101111101#32 (.vc2i .single 125#7 121#7),
    reads 0b11010000001110100010001000011000#32 (.vus2i .single 24#7 34#7),
    reads 0b11010000001110110111100011010001#32 (.vs2i .pair 81#7 120#7),
    reads 0b11010000001111001100010000100110#32 (.vi2uc .triple 38#7 68#7),
    reads 0b11010000001111011100000100100011#32 (.vi2c .triple 35#7 65#7),
    reads 0b11010000001111101110011100100001#32 (.vi2us .triple 33#7 103#7),
    reads 0b11010000001111110000001001011110#32 (.vi2s .single 94#7 2#7),
    reads 0b11010000010000100100001010100000#32 (.vbfy1 .pair 32#7 66#7),
    reads 0b11010000010000111000111011010101#32 (.vbfy2 .quad 85#7 14#7),
    reads 0b11010000010001001100011011111101#32 (.vocp .quad 125#7 70#7),
    reads 0b11010000010001011101100101111110#32 (.vsocp .triple 126#7 89#7),
    reads 0b11010000010001100010110001101011#32 (.vfad .single 107#7 44#7),
    reads 0b11010000010001110011010011111110#32 (.vavg .pair 126#7 52#7),
    reads 0b11010000010010100110110000000010#32 (.vsgn .single 2#7 108#7),
    reads 0b11010000010100001000101001010001#32 (.vmfvc 81#7 10#7),
    reads 0b11010000010100010101111111110001#32 (.vmtvc 113#7 95#7),
    reads 0b11010000011010011000000000001000#32 (.vcst .triple 8#7 9#5)] = true := by decide +kernel

theorem test_decode_vfpu_unimplemented_4 : allOf [
    reads 0b11010010000000111111000011001101#32 (.vf2in .quad 77#7 112#7 3#5),
    reads 0b11010010001010001000011010011000#32 (.vf2iz .quad 24#7 6#7 8#5),
    reads 0b11010010010001101011101000100010#32 (.vf2iu .triple 34#7 58#7 6#5),
    reads 0b11010010011011001111110110100000#32 (.vf2id .quad 32#7 125#7 12#5),
    reads 0b11010010100000101001110010011000#32 (.vi2f .quad 24#7 28#7 2#5),
    reads 0b11010010101000011011000100111101#32 (.vcmovt .triple 61#7 49#7 1#3),
    reads 0b11010010101010110010000000001100#32 (.vcmovf .single 12#7 32#7 3#3),
    reads 0b11010011010001000001001111001100#32 (.vwbn .pair 76#7 19#7 68#8),
    reads 0b11110010000001101000001110100111#32 (.vmscl .quad 39#7 3#7 6#7),
    reads 0b11110010110100011001111000001011#32 (.vcrspT 11#7 30#7 81#7),
    reads 0b11110010110010111111101111000100#32 (.vqmulQ 68#7 123#7 75#7),
    reads 0b11011111111011101100000000100100#32 (.vfimS 110#7 49188#16),
    reads 0b01001000011001010000000011010101#32 (.mfvc 5 85#7),
    reads 0b01001000111111010000000011011100#32 (.mtvc 29 92#7)] = true := by decide +kernel

theorem test_decode_system : allOf [
    reads 0b00000011001000101101101111001100#32 (.syscall 822127#20),
    reads 0b00000011100001000011000010001101#32 (.brk 921794#20),
    reads 0b00000000000000000000000000001111#32 (.sync),
    reads 0b10111110100000000110001110111000#32 (.cache 25528#16 20),
    reads 0b01110011001000000000000000100100#32 (.mfic 25),
    reads 0b01110001011000000000000000100110#32 (.mtic 11),
    reads 0b01000000000000000000000000000000#32 (.mfc0),
    reads 0b01000000100000000000000000000000#32 (.mtc0),
    reads 0b01000000010000000000000000000000#32 (.cfc0),
    reads 0b01000000110000000000000000000000#32 (.ctc0),
    reads 0b01000010000000000000000000011000#32 (.eret),
    reads 0b01110000000000000000000000000000#32 (.halt),
    reads 0b01110000000000000000000000111110#32 (.dret),
    reads 0b01110000000000000000000000111111#32 (.dbreak),
    reads 0b01110000000000000000000000111101#32 (.mfdr),
    reads 0b01110000100000000000000000111101#32 (.mtdr)] = true := by decide +kernel

/-! ### Steps, from spec/95_test_vectors.md -/

theorem test_step_alu_1 : allOf [
    gives [.setGpr 1 0xFFFFFFFF#32, .setGpr 2 1#32] 0x00221821 [.x 3 0#32],
    gives [.setGpr 1 0#32, .setGpr 2 1#32] 0x00221823 [.x 3 0xFFFFFFFF#32],
    gives [.setGpr 1 0x7FFFFFFF#32, .setGpr 2 1#32] 0x00221820 [.x 3 0x80000000#32],
    gives [.setGpr 1 0x7FFFFFFF#32] 0x20230001 [.x 3 0x80000000#32],
    gives [.setGpr 1 0x80000000#32, .setGpr 2 1#32] 0x00221822 [.x 3 0x7FFFFFFF#32],
    gives [.setGpr 1 0xFFFFFFFF#32, .setGpr 2 1#32] 0x0022182A [.x 3 1#32],
    gives [.setGpr 1 0xFFFFFFFF#32, .setGpr 2 1#32] 0x0022182B [.x 3 0#32],
    gives [.setGpr 1 0x80000000#32, .setGpr 2 0x7FFFFFFF#32] 0x0022182A [.x 3 1#32],
    gives [.setGpr 1 5#32, .setGpr 2 5#32] 0x0022182B [.x 3 0#32],
    gives [.setGpr 1 0xFFFFFFFE#32] 0x2823FFFF [.x 3 1#32],
    gives [.setGpr 1 5#32] 0x2C23FFFF [.x 3 1#32],
    gives [.setGpr 1 0#32] 0x2422FFFF [.x 2 0xFFFFFFFF#32],
    gives [.setGpr 1 0xFF00FF00#32, .setGpr 2 0x0FF00FF0#32] 0x00221824 [.x 3 0x0F000F00#32],
    gives [.setGpr 1 0xFF00FF00#32, .setGpr 2 0x0FF00FF0#32] 0x00221825 [.x 3 0xFFF0FFF0#32],
    gives [.setGpr 1 0xFF00FF00#32, .setGpr 2 0x0FF00FF0#32] 0x00221826 [.x 3 0xF0F0F0F0#32],
    gives [.setGpr 1 0xFF00FF00#32, .setGpr 2 0x0FF00FF0#32] 0x00221827 [.x 3 0x000F000F#32]] = true := by decide +kernel

theorem test_step_alu_2 : allOf [
    gives [.setGpr 1 0x12345678#32] 0x3022FFFF [.x 2 0x00005678#32],
    gives [.setGpr 1 0x12340000#32] 0x34228000 [.x 2 0x12348000#32],
    gives [.setGpr 1 0x0000FFFF#32] 0x3822FFFF [.x 2 0#32],
    gives [] 0x3C028000 [.x 2 0x80000000#32],
    gives [.setGpr 1 0x000000AA#32, .setGpr 2 0#32, .setGpr 3 0x00000055#32] 0x0022180A [.x 3 0x000000AA#32],
    gives [.setGpr 1 0x000000AA#32, .setGpr 2 1#32, .setGpr 3 0x00000055#32] 0x0022180A [.x 3 0x00000055#32],
    gives [.setGpr 1 0x000000AA#32, .setGpr 2 1#32, .setGpr 3 0x00000055#32] 0x0022180B [.x 3 0x000000AA#32],
    gives [.setGpr 1 0xFFFFFFFF#32, .setGpr 2 1#32] 0x0022182C [.x 3 1#32],
    gives [.setGpr 1 0xFFFFFFFF#32, .setGpr 2 1#32] 0x0022182D [.x 3 0xFFFFFFFF#32],
    gives [.setGpr 1 3#32] 0x000117C0 [.x 2 0x80000000#32],
    gives [.setGpr 1 0x80000010#32] 0x00011102 [.x 2 0x08000001#32],
    gives [.setGpr 1 0x80000010#32] 0x00011103 [.x 2 0xF8000001#32],
    gives [.setGpr 1 1#32, .setGpr 2 0x00000021#32] 0x00411804 [.x 3 2#32],
    gives [.setGpr 1 0x80000000#32, .setGpr 2 0xFFFFFFFF#32] 0x00411806 [.x 3 1#32],
    gives [.setGpr 1 0x80000000#32, .setGpr 2 0x00000020#32] 0x00411807 [.x 3 0x80000000#32],
    gives [.setGpr 1 0x12345678#32] 0x00211202 [.x 2 0x78123456#32]] = true := by decide +kernel

theorem test_step_alu_3 : allOf [
    gives [.setGpr 1 0x12345678#32, .setGpr 2 0x00000024#32] 0x00411846 [.x 3 0x81234567#32],
    gives [.setGpr 1 0#32] 0x00201016 [.x 2 0x00000020#32],
    gives [.setGpr 1 0xFFFFFFFF#32] 0x00201017 [.x 2 0x00000020#32],
    gives [.setGpr 1 0x12345680#32] 0x7C011420 [.x 2 0xFFFFFF80#32],
    gives [.setGpr 1 0x12348000#32] 0x7C011620 [.x 2 0xFFFF8000#32],
    gives [.setGpr 1 0x11223344#32] 0x7C0110A0 [.x 2 0x22114433#32],
    gives [.setGpr 1 0x11223344#32] 0x7C0110E0 [.x 2 0x44332211#32],
    gives [.setGpr 1 1#32] 0x7C011520 [.x 2 0x80000000#32],
    gives [.setGpr 1 0x12345678#32] 0x7C223A00 [.x 2 0x00000056#32],
    gives [.setGpr 1 0x12345678#32] 0x7C22F800 [.x 2 0x12345678#32],
    gives [.setGpr 1 0x12345678#32, .setGpr 2 0xFFFFFFFF#32] 0x7C227A04 [.x 2 0xFFFF78FF#32],
    gives [.setGpr 1 0x12345678#32, .setGpr 2 0xFFFFFFFF#32] 0x7C22F804 [.x 2 0x12345678#32],
    gives [.setGpr 1 0x12345678#32, .setGpr 2 0xFFFFFFFF#32] 0x7C22FF04 [.x 2 0x8FFFFFFF#32],
    faults [] 0x7C2207C4 (.reservedOperand 0#32 0x7C2207C4#32)] = true := by decide +kernel

theorem test_step_mul_div_1 : allOf [
    gives [.setGpr 4 0xFFFFFFFF#32, .setGpr 5 2#32] 0x0085001B [.lo 0x7FFFFFFF#32, .hi 1#32],
    gives [.setGpr 4 7#32, .setGpr 5 0xFFFFFFFF#32] 0x0085001B [.lo 0#32, .hi 7#32],
    gives [.setGpr 4 0xFFFFFFFF#32, .setGpr 5 0xFFFFFFFF#32] 0x00850018 [.hi 0#32, .lo 1#32],
    gives [.setGpr 4 0xFFFFFFFF#32, .setGpr 5 0xFFFFFFFF#32] 0x00850019 [.hi 0xFFFFFFFE#32, .lo 1#32],
    gives [.setGpr 4 0x80000000#32, .setGpr 5 0x80000000#32] 0x00850018 [.hi 0x40000000#32, .lo 0#32],
    gives [.setGpr 4 7#32, .setGpr 5 0xFFFFFFFE#32] 0x0085001A [.lo 0xFFFFFFFD#32, .hi 1#32],
    gives [.setGpr 4 0xFFFFFFF9#32, .setGpr 5 2#32] 0x0085001A [.lo 0xFFFFFFFD#32, .hi 0xFFFFFFFF#32],
    gives [.setGpr 4 0x80000000#32, .setGpr 5 0xFFFFFFFF#32] 0x0085001A [.lo 0x80000000#32, .hi 0#32],
    faults [.setGpr 4 7#32, .setGpr 5 0#32, .setHilo 0x0000123400005678#64] 0x0085001A (.divideByZero 0#32),
    gives [.setGpr 4 3#32, .setGpr 5 0xFFFFFFFF#32, .setHilo 0x0000000000000002#64] 0x0085001C [.hi 0xFFFFFFFF#32, .lo 0xFFFFFFFF#32],
    gives [.setGpr 4 0xFFFFFFFF#32, .setGpr 5 0xFFFFFFFF#32, .setHilo 0xFFFFFFFFFFFFFFFF#64] 0x0085001D [.hi 0xFFFFFFFE#32, .lo 0#32],
    gives [.setGpr 4 3#32, .setGpr 5 4#32, .setHilo 0x0000000000000002#64] 0x0085002E [.hi 0xFFFFFFFF#32, .lo 0xFFFFFFF6#32],
    gives [.setGpr 4 1#32, .setGpr 5 1#32, .setHilo 0x0000000000000000#64] 0x0085002F [.hi 0xFFFFFFFF#32, .lo 0xFFFFFFFF#32],
    gives [.setHilo 0xCAFE000100000000#64] 0x00001010 [.x 2 0xCAFE0001#32],
    gives [.setHilo 0x00000000CAFE0002#64] 0x00001012 [.x 2 0xCAFE0002#32],
    gives [.setGpr 4 0xCAFE0003#32] 0x00800011 [.hi 0xCAFE0003#32, .lo 0#32]] = true := by decide +kernel

theorem test_step_mul_div_2 : allOf [
    gives [.setGpr 4 0xCAFE0004#32] 0x00800013 [.hi 0#32, .lo 0xCAFE0004#32]] = true := by decide +kernel

theorem test_step_load_store_1 : allOf [
    gives (withWords [(0x00000100#32, 0x8001FF80#32)] [.setGpr 4 0x00000100#32]) 0x80820000 [.x 2 0xFFFFFF80#32],
    gives (withWords [(0x00000100#32, 0x8001FF80#32)] [.setGpr 4 0x00000100#32]) 0x90820000 [.x 2 0x00000080#32],
    gives (withWords [(0x00000100#32, 0x8001FF80#32)] [.setGpr 4 0x00000100#32]) 0x80820001 [.x 2 0xFFFFFFFF#32],
    gives (withWords [(0x00000100#32, 0x8001FF80#32)] [.setGpr 4 0x00000100#32]) 0x84820002 [.x 2 0xFFFF8001#32],
    gives (withWords [(0x00000100#32, 0x8001FF80#32)] [.setGpr 4 0x00000100#32]) 0x94820002 [.x 2 0x00008001#32],
    gives (withWords [(0x00000100#32, 0x8001FF80#32)] [.setGpr 4 0x00000100#32]) 0x8C820000 [.x 2 0x8001FF80#32],
    gives (withWords [(0x00000100#32, 0x8001FF80#32)] [.setGpr 4 0x00000104#32]) 0x8C82FFFC [.x 2 0x8001FF80#32],
    gives (withWords [(0x00000100#32, 0x8001FF80#32)] [.setGpr 4 0x88000100#32]) 0x8C820000 [.x 2 0#32],
    gives (withWords [(0x00000100#32, 0x11111111#32)] [.setGpr 2 0x123456AB#32, .setGpr 4 0x00000100#32]) 0xA0820001 [.m 0x00000100#32 0x1111AB11#32],
    gives (withWords [(0x00000100#32, 0x11111111#32)] [.setGpr 2 0x1234ABCD#32, .setGpr 4 0x00000100#32]) 0xA4820002 [.m 0x00000100#32 0xABCD1111#32],
    gives [.setGpr 2 0xDEADBEEF#32, .setGpr 4 0x00000100#32] 0xAC820004 [.m 0x00000104#32 0xDEADBEEF#32],
    faults [.setGpr 2 0x00000055#32, .setGpr 4 0x00000100#32] 0x84820001 (.misaligned 0x101#32 2 .load),
    faults [.setGpr 2 0x00000055#32, .setGpr 4 0x00000100#32] 0x8C820002 (.misaligned 0x102#32 4 .load),
    faults (withWords [(0x00000100#32, 0x11111111#32)] [.setGpr 2 0x00000055#32, .setGpr 4 0x00000100#32]) 0xAC820001 (.misaligned 0x101#32 4 .store),
    gives (withWords [(0x00000100#32, 0x33221100#32)] [.setGpr 2 0xAAAAAAAA#32, .setGpr 4 0x00000100#32]) 0x88820000 [.x 2 0x00AAAAAA#32],
    gives (withWords [(0x00000100#32, 0x33221100#32)] [.setGpr 2 0xAAAAAAAA#32, .setGpr 4 0x00000100#32]) 0x88820001 [.x 2 0x1100AAAA#32]] = true := by decide +kernel

theorem test_step_load_store_2 : allOf [
    gives (withWords [(0x00000100#32, 0x33221100#32)] [.setGpr 2 0xAAAAAAAA#32, .setGpr 4 0x00000100#32]) 0x88820002 [.x 2 0x221100AA#32],
    gives (withWords [(0x00000100#32, 0x33221100#32)] [.setGpr 2 0xAAAAAAAA#32, .setGpr 4 0x00000100#32]) 0x88820003 [.x 2 0x33221100#32],
    gives (withWords [(0x00000100#32, 0x33221100#32)] [.setGpr 2 0xAAAAAAAA#32, .setGpr 4 0x00000100#32]) 0x98820000 [.x 2 0x33221100#32],
    gives (withWords [(0x00000100#32, 0x33221100#32)] [.setGpr 2 0xAAAAAAAA#32, .setGpr 4 0x00000100#32]) 0x98820001 [.x 2 0xAA332211#32],
    gives (withWords [(0x00000100#32, 0x33221100#32)] [.setGpr 2 0xAAAAAAAA#32, .setGpr 4 0x00000100#32]) 0x98820002 [.x 2 0xAAAA3322#32],
    gives (withWords [(0x00000100#32, 0x33221100#32)] [.setGpr 2 0xAAAAAAAA#32, .setGpr 4 0x00000100#32]) 0x98820003 [.x 2 0xAAAAAA33#32],
    gives (withWords [(0x00000100#32, 0x33221100#32)] [.setGpr 2 0xAABBCCDD#32, .setGpr 4 0x00000100#32]) 0xA8820000 [.m 0x00000100#32 0x332211AA#32],
    gives (withWords [(0x00000100#32, 0x33221100#32)] [.setGpr 2 0xAABBCCDD#32, .setGpr 4 0x00000100#32]) 0xA8820001 [.m 0x00000100#32 0x3322AABB#32],
    gives (withWords [(0x00000100#32, 0x33221100#32)] [.setGpr 2 0xAABBCCDD#32, .setGpr 4 0x00000100#32]) 0xA8820002 [.m 0x00000100#32 0x33AABBCC#32],
    gives (withWords [(0x00000100#32, 0x33221100#32)] [.setGpr 2 0xAABBCCDD#32, .setGpr 4 0x00000100#32]) 0xA8820003 [.m 0x00000100#32 0xAABBCCDD#32],
    gives (withWords [(0x00000100#32, 0x33221100#32)] [.setGpr 2 0xAABBCCDD#32, .setGpr 4 0x00000100#32]) 0xB8820000 [.m 0x00000100#32 0xAABBCCDD#32],
    gives (withWords [(0x00000100#32, 0x33221100#32)] [.setGpr 2 0xAABBCCDD#32, .setGpr 4 0x00000100#32]) 0xB8820001 [.m 0x00000100#32 0xBBCCDD00#32],
    gives (withWords [(0x00000100#32, 0x33221100#32)] [.setGpr 2 0xAABBCCDD#32, .setGpr 4 0x00000100#32]) 0xB8820002 [.m 0x00000100#32 0xCCDD1100#32],
    gives (withWords [(0x00000100#32, 0x33221100#32)] [.setGpr 2 0xAABBCCDD#32, .setGpr 4 0x00000100#32]) 0xB8820003 [.m 0x00000100#32 0xDD221100#32],
    gives (withWords [(0x00000108#32, 0x7FC00000#32)] [.setGpr 4 0x00000100#32]) 0xC4810008 [.f 1 0x7FC00000#32, .fcr31 0x00000E00#32],
    gives [.setGpr 4 0x00000100#32, .setFpr 1 0x40200000#32] 0xE4810008 [.m 0x00000108#32 0x40200000#32]] = true := by decide +kernel

theorem test_step_load_store_3 : allOf [
    gives (withWords [(0x00000108#32, 0x00000077#32)] [.setGpr 4 0x00000100#32]) 0xC0820008 [.x 2 0x00000077#32],
    gives [.setGpr 4 0x00000100#32, .setGpr 2 5#32] 0xE0820008 [.m 0x00000108#32 5#32, .x 2 1#32]] = true := by decide +kernel

theorem test_step_branch_1 : allOf [
    gives [.setGpr 1 5#32, .setGpr 2 5#32, .setPc 0x00000100#32 0x00000104#32] 0x10220004 [.pc 0x00000104#32, .npc 0x00000114#32],
    gives [.setGpr 1 5#32, .setGpr 2 6#32, .setPc 0x00000100#32 0x00000104#32] 0x1422FFFE [.pc 0x00000104#32, .npc 0x000000FC#32],
    gives [.setGpr 1 0#32, .setPc 0x00000100#32 0x00000104#32] 0x18200004 [.pc 0x00000104#32, .npc 0x00000114#32],
    gives [.setGpr 1 0#32, .setPc 0x00000100#32 0x00000104#32] 0x1C200004 [.pc 0x00000104#32, .npc 0x00000108#32],
    gives [.setGpr 1 0x80000000#32, .setPc 0x00000100#32 0x00000104#32] 0x04200004 [.pc 0x00000104#32, .npc 0x00000114#32],
    gives [.setGpr 1 0x80000000#32, .setPc 0x00000100#32 0x00000104#32] 0x04210004 [.pc 0x00000104#32, .npc 0x00000108#32],
    gives [.setGpr 1 5#32, .setGpr 2 5#32, .setPc 0x00000100#32 0x00000104#32] 0x50220004 [.pc 0x00000104#32, .npc 0x00000114#32],
    gives [.setGpr 1 5#32, .setGpr 2 5#32, .setPc 0x00000100#32 0x00000104#32] 0x54220004 [.pc 0x00000108#32, .npc 0x0000010C#32],
    gives [.setGpr 1 1#32, .setPc 0x00000100#32 0x00000104#32] 0x58200004 [.pc 0x00000108#32, .npc 0x0000010C#32],
    gives [.setGpr 1 1#32, .setPc 0x00000100#32 0x00000104#32] 0x5C200004 [.pc 0x00000104#32, .npc 0x00000114#32],
    gives [.setGpr 1 1#32, .setPc 0x00000100#32 0x00000104#32] 0x04220004 [.pc 0x00000108#32, .npc 0x0000010C#32],
    gives [.setGpr 1 1#32, .setPc 0x00000100#32 0x00000104#32] 0x04230004 [.pc 0x00000104#32, .npc 0x00000114#32],
    gives [.setGpr 1 0xFFFFFFFF#32, .setPc 0x00000100#32 0x00000104#32] 0x04300004 [.pc 0x00000104#32, .npc 0x00000114#32, .x 31 0x00000108#32],
    gives [.setPc 0x00000100#32 0x00000104#32] 0x04110004 [.pc 0x00000104#32, .npc 0x00000114#32, .x 31 0x00000108#32],
    gives [.setGpr 1 1#32, .setPc 0x00000100#32 0x00000104#32] 0x04320004 [.pc 0x00000108#32, .npc 0x0000010C#32, .x 31 0x00000108#32],
    gives [.setGpr 1 1#32, .setPc 0x00000100#32 0x00000104#32] 0x04330004 [.pc 0x00000104#32, .npc 0x00000114#32, .x 31 0x00000108#32]] = true := by decide +kernel

theorem test_step_branch_2 : allOf [
    gives [.setFcr31 0x00800E00#32, .setPc 0x00000100#32 0x00000104#32] 0x45010004 [.pc 0x00000104#32, .npc 0x00000114#32],
    gives [.setFcr31 0x00800E00#32, .setPc 0x00000100#32 0x00000104#32] 0x45000004 [.pc 0x00000104#32, .npc 0x00000108#32],
    gives [.setFcr31 0x00000E00#32, .setPc 0x00000100#32 0x00000104#32] 0x45030004 [.pc 0x00000108#32, .npc 0x0000010C#32],
    gives [.setFcr31 0x00000E00#32, .setPc 0x00000100#32 0x00000104#32] 0x45020004 [.pc 0x00000104#32, .npc 0x00000114#32],
    gives [.setPc 0x00000100#32 0x00000104#32] 0x08000080 [.pc 0x00000104#32, .npc 0x00000200#32],
    gives [.setPc 0x00000100#32 0x00000104#32] 0x0C000080 [.pc 0x00000104#32, .npc 0x00000200#32, .x 31 0x00000108#32],
    gives [.setGpr 4 0x08804000#32, .setPc 0x00000100#32 0x00000104#32] 0x00800008 [.pc 0x00000104#32, .npc 0x08804000#32],
    faults [.setGpr 4 0x08804002#32, .setPc 0x00000100#32 0x00000104#32] 0x00800008 (.misalignedJumpTarget 0x00000100#32 0x08804002#32),
    gives [.setGpr 4 0x00000400#32, .setPc 0x00000100#32 0x00000104#32] 0x00802809 [.pc 0x00000104#32, .npc 0x00000400#32, .x 5 0x00000108#32, .x 31 0#32],
    gives [.setGpr 4 0x00000400#32, .setPc 0x00000100#32 0x00000104#32] 0x00802009 [.pc 0x00000104#32, .npc 0x00000400#32, .x 4 0x00000108#32],
    faults [.setPc 0x00000100#32 0x00000200#32] 0x10000004 (.controlTransferInDelaySlot 0x00000100#32 0x10000004#32),
    faults [.setPc 0x00000100#32 0x00000200#32] 0x0C000080 (.controlTransferInDelaySlot 0x00000100#32 0x0C000080#32),
    faults [.setPc 0x00000100#32 0x00000104#32] 0x49010004 (.unimplemented 0x00000100#32 "bvt")] = true := by decide +kernel

theorem test_step_fpu_1 : allOf [
    gives [.setFpr 1 0x7F7FFFFF#32, .setFpr 2 0x7F7FFFFF#32, .setFcr31 0x00000E00#32] 0x460208C0 [.f 3 0x7F800000#32, .fcr31 0x00005E14#32],
    gives [.setFpr 1 0x3F800000#32, .setFpr 2 0x3F800000#32] 0x460208C1 [.f 3 0#32],
    gives [.setFpr 1 0x00800000#32, .setFpr 2 0x3F000000#32, .setFcr31 0x00000E00#32] 0x460208C2 [.f 3 0x00400000#32],
    gives [.setFpr 1 0x00800000#32, .setFpr 2 0x3F000000#32, .setFcr31 0x01000E00#32] 0x460208C2 [.f 3 0#32],
    gives [.setFpr 1 0x3F800000#32, .setFpr 2 0x80000000#32, .setFcr31 0x00000E00#32] 0x460208C3 [.f 3 0xFF800000#32, .fcr31 0x00005E14#32],
    gives [.setFpr 1 0x40000000#32] 0x46000884 [.f 2 0x3FB504F3#32],
    gives [.setFpr 1 0xFFC00001#32, .setFcr31 0x00000E00#32] 0x46000885 [.f 2 0x7FC00001#32, .fcr31 0x00010E40#32],
    gives [.setFpr 1 0#32] 0x46000887 [.f 2 0x80000000#32],
    gives [.setFpr 1 0xFF800000#32, .setFcr31 0x00000E00#32] 0x46000886 [.f 2 0xFF800000#32, .fcr31 0x00005E14#32],
    gives [.setFpr 1 0x3F000000#32, .setFcr31 0x00000E03#32] 0x4600088C [.f 2 0#32],
    gives [.setFpr 1 0xBF400000#32] 0x4600088D [.f 2 0#32],
    gives [.setFpr 1 0xBF400000#32] 0x4600088E [.f 2 0#32],
    gives [.setFpr 1 0xBF400000#32] 0x4600088F [.f 2 0xFFFFFFFF#32],
    gives [.setFpr 1 0xFFFFFFFF#32] 0x468008A0 [.f 2 0xBF800000#32],
    gives [.setFpr 1 0#32, .setFpr 2 0x80000000#32, .setFcr31 0x00000E00#32] 0x46020832 [.fcr31 0x00800E00#32],
    gives [.setFpr 1 0xFF800000#32, .setFpr 2 0x7F800000#32, .setFcr31 0x00800E00#32] 0x46020834 [.fcr31 0x00800E00#32]] = true := by decide +kernel

theorem test_step_fpu_2 : allOf [
    gives [.setFpr 1 0x3F800000#32, .setFpr 2 0x7FC00000#32, .setFcr31 0x00800E00#32] 0x4602083C [.fcr31 0x00000E00#32],
    gives [.setFpr 1 0x7FC00000#32, .setFpr 2 0x3F800000#32, .setFcr31 0x00000E00#32] 0x46020837 [.fcr31 0x00800E00#32],
    gives [.setGpr 2 0xFFFFFFFF#32, .setFcr31 0x00000E00#32] 0x44C2F800 [.fcr31 0x0183FFFF#32],
    faults [.setGpr 2 1#32, .setFcr31 0x00000E00#32] 0x44C2C800 (.invalidControlRegister 0#32 25 .write),
    gives [.setFcr31 0x00800E03#32] 0x4442F800 [.x 2 0x00800E03#32],
    faults [.setGpr 2 0x00000055#32] 0x44420800 (.invalidControlRegister 0#32 1 .read),
    gives [.setFpr 1 0xC0200000#32, .setFcr31 0x00000E00#32] 0x460008A4 [.f 2 0xFFFFFFFE#32],
    gives [.setFpr 1 0xC0200000#32, .setFcr31 0x00000E01#32] 0x460008A4 [.f 2 0xFFFFFFFE#32],
    gives [.setFpr 1 0xC0200000#32, .setFcr31 0x00000E02#32] 0x460008A4 [.f 2 0xFFFFFFFE#32],
    gives [.setFpr 1 0xC0200000#32, .setFcr31 0x00000E03#32] 0x460008A4 [.f 2 0xFFFFFFFD#32],
    gives [.setFpr 5 0x7F800001#32] 0x44022800 [.x 2 0x7F800001#32, .fcr31 0x00000E00#32],
    gives [.setGpr 2 0x7F800001#32] 0x44822800 [.f 5 0x7F800001#32, .fcr31 0x00000E00#32]] = true := by decide +kernel

theorem test_step_vfpu_pfx : allOf [
    gives [] 0xDC00001B [.latches true false false],
    gives [] 0xDD00001B [.latches false true false],
    gives [] 0xDE000A00 [.latches false false true]] = true := by decide +kernel

theorem test_step_vfpu_mem : allOf [
    gives (withWords [(0x00000110#32, 1#32), (0x00000114#32, 2#32), (0x00000118#32, 3#32), (0x0000011C#32, 4#32)] [.setGpr 4 0x00000100#32]) 0xD8800010 [.v 0 1#32, .v 32 2#32, .v 64 3#32, .v 96 4#32],
    faults [.setGpr 4 0x00000100#32, .setVfr 0 0x00000055#32] 0xD8800004 (.misaligned 0x104#32 16 .load),
    gives [.setGpr 4 0x00000110#32, .setVfr 0 1#32, .setVfr 32 2#32, .setVfr 64 3#32, .setVfr 96 4#32] 0xF880FFF0 [.m 0x00000100#32 1#32, .m 0x00000104#32 2#32, .m 0x00000108#32 3#32, .m 0x0000010C#32 4#32],
    gives (withWords [(0x00000100#32, 1#32), (0x00000104#32, 2#32), (0x00000108#32, 3#32), (0x0000010C#32, 4#32)] [.setGpr 4 0x00000100#32, .setVfr 0 0x000000A0#32, .setVfr 32 0x000000A1#32, .setVfr 64 0x000000A2#32, .setVfr 96 0x000000A3#32]) 0xD4800008 [.v 0 0x000000A0#32, .v 32 1#32, .v 64 2#32, .v 96 3#32],
    gives (withWords [(0x00000100#32, 1#32), (0x00000104#32, 2#32), (0x00000108#32, 3#32), (0x0000010C#32, 4#32)] [.setGpr 4 0x00000100#32, .setVfr 0 0x000000A0#32, .setVfr 32 0x000000A1#32, .setVfr 64 0x000000A2#32, .setVfr 96 0x000000A3#32]) 0xD480000A [.v 0 3#32, .v 32 4#32, .v 64 0x000000A2#32, .v 96 0x000000A3#32],
    gives [.setGpr 4 0x00000100#32, .setVfr 0 1#32, .setVfr 32 2#32, .setVfr 64 3#32, .setVfr 96 4#32] 0xF4800004 [.m 0x00000100#32 3#32, .m 0x00000104#32 4#32, .m 0x00000108#32 0#32, .m 0x0000010C#32 0#32],
    gives [.setGpr 4 0x00000100#32, .setVfr 0 1#32, .setVfr 32 2#32, .setVfr 64 3#32, .setVfr 96 4#32] 0xF4800006 [.m 0x00000100#32 0#32, .m 0x00000104#32 1#32, .m 0x00000108#32 2#32, .m 0x0000010C#32 3#32],
    gives (withWords [(0x00000108#32, 0x3F800000#32)] [.setGpr 4 0x00000100#32]) 0xC886000B [.v 102 0x3F800000#32],
    gives [.setGpr 4 0x00000100#32, .setVfr 102 0x40000000#32] 0xE886000B [.m 0x00000108#32 0x40000000#32]] = true := by decide +kernel

theorem test_step_vfpu_ops_1 : allOf [
    gives [.setVfr 0 0x3F800000#32, .setVfr 32 0xC0000000#32, .setVfr 64 0x40400000#32, .setVfr 96 0xC0800000#32, .setVfr 4 0x3F000000#32, .setVfr 36 0x3F000000#32, .setVfr 68 0x40000000#32, .setVfr 100 0x40000000#32] 0x60048088 [.v 8 0x3FC00000#32, .v 40 0xBFC00000#32, .v 72 0x40A00000#32, .v 104 0xC0000000#32],
    gives [.setVfr 0 0x3F800000#32, .setVfr 32 0xC0000000#32, .setVfr 64 0x40400000#32, .setVfr 96 0xC0800000#32, .setVfr 4 0x3F000000#32, .setVfr 36 0x3F000000#32, .setVfr 68 0x40000000#32, .setVfr 100 0x40000000#32, .setLatches ⟨true, 0x00000FE4#32⟩ ⟨false, 0#32⟩ ⟨false, 0#32⟩] 0x60048088 [.v 8 0x3FC00000#32, .v 40 0x40200000#32, .v 72 0x40A00000#32, .v 104 0x40C00000#32],
    gives [.setVfr 0 0x3F800000#32, .setVfr 32 0xC0000000#32, .setVfr 64 0x40400000#32, .setVfr 96 0xC0800000#32, .setVfr 4 0x3F000000#32, .setVfr 36 0x3F000000#32, .setVfr 68 0x40000000#32, .setVfr 100 0x40000000#32, .setLatches ⟨false, 0#32⟩ ⟨true, 0x000F00E4#32⟩ ⟨false, 0#32⟩] 0x60048088 [.v 8 0x3F000000#32, .v 40 0xC0200000#32, .v 72 0x3F800000#32, .v 104 0xC0C00000#32],
    gives [.setVfr 0 0x3F800000#32, .setVfr 32 0xC0000000#32, .setVfr 64 0x40400000#32, .setVfr 96 0xC0800000#32, .setVfr 4 0x3F000000#32, .setVfr 36 0x3F000000#32, .setVfr 68 0x40000000#32, .setVfr 100 0x40000000#32, .setLatches ⟨true, 0x0000F0E4#32⟩ ⟨true, 0x0000FFE4#32⟩ ⟨false, 0#32⟩] 0x60048088 [.v 8 0x40400000#32, .v 40 0x3FAAAAAB#32, .v 72 0x40100000#32, .v 104 0x3F2AAAAB#32],
    gives [.setVfr 0 0x3F800000#32, .setVfr 32 0xC0000000#32, .setVfr 64 0x40400000#32, .setVfr 96 0xC0800000#32, .setVfr 4 0x3F000000#32, .setVfr 36 0x3F000000#32, .setVfr 68 0x40000000#32, .setVfr 100 0x40000000#32, .setLatches ⟨false, 0#32⟩ ⟨false, 0#32⟩ ⟨true, 0x000000DD#32⟩] 0x60048088 [.v 8 0x3F800000#32, .v 40 0xBF800000#32, .v 72 0x3F800000#32, .v 104 0xBF800000#32],
    faults [.setVfr 0 0x3F800000#32, .setVfr 32 0xC0000000#32, .setVfr 64 0x40400000#32, .setVfr 96 0xC0800000#32, .setVfr 4 0x3F000000#32, .setVfr 36 0x3F000000#32, .setVfr 68 0x40000000#32, .setVfr 100 0x40000000#32, .setLatches ⟨true, 0x000000E6#32⟩ ⟨false, 0#32⟩ ⟨false, 0#32⟩] 0x60040088 (.reservedOperand 0#32 0x60040088#32),
    gives [.setVfr 0 0x3F800000#32, .setVfr 32 0xC0000000#32, .setVfr 64 0x40400000#32, .setVfr 96 0xC0800000#32, .setVfr 4 0x3F000000#32, .setVfr 36 0x3F000000#32, .setVfr 68 0x40000000#32, .setVfr 100 0x40000000#32] 0x60848008 [.v 8 0x3F000000#32, .v 40 0xC0200000#32, .v 72 0x3F800000#32],
    gives [.setVfr 0 0x3F800000#32, .setVfr 32 0xC0000000#32, .setVfr 64 0x40400000#32, .setVfr 96 0xC0800000#32, .setVfr 4 0x3F000000#32, .setVfr 36 0x3F000000#32, .setVfr 68 0x40000000#32, .setVfr 100 0x40000000#32] 0x64048088 [.v 8 0x3F000000#32, .v 40 0xBF800000#32, .v 72 0x40C00000#32, .v 104 0xC1000000#32],
    gives [.setVfr 0 0x3F800000#32, .setVfr 32 0xC0000000#32, .setVfr 64 0x40400000#32, .setVfr 96 0xC0800000#32, .setVfr 4 0#32, .setVfr 36 0x3F000000#32, .setVfr 68 0x40000000#32, .setVfr 100 0x40000000#32] 0x63848088 [.v 8 0x7F800000#32, .v 40 0xC0800000#32, .v 72 0x3FC00000#32, .v 104 0xC0000000#32],
    gives [.setVfr 0 0x3F800000#32, .setVfr 32 0xC0000000#32, .setVfr 64 0x40400000#32, .setVfr 96 0xC0800000#32, .setVfr 4 0x3F000000#32, .setVfr 36 0x3F000000#32, .setVfr 68 0x40000000#32, .setVfr 100 0x40000000#32, .setLatches ⟨true, 0x0000001B#32⟩ ⟨false, 0#32⟩ ⟨false, 0#32⟩] 0xD0008088 [.v 8 0xC0800000#32, .v 40 0x40400000#32, .v 72 0xC0000000#32, .v 104 0x3F800000#32],
    gives [.setVfr 0 0x3F800000#32, .setVfr 32 0xC0000000#32, .setVfr 64 0x40400000#32, .setVfr 96 0xC0800000#32, .setVfr 4 0x3F000000#32, .setVfr 36 0x3F000000#32, .setVfr 68 0x40000000#32, .setVfr 100 0x40000000#32] 0xD0018088 [.v 8 0x3F800000#32, .v 40 0x40000000#32, .v 72 0x40400000#32, .v 104 0x40800000#32],
    gives [.setVfr 0 0x3F800000#32, .setVfr 32 0xC0000000#32, .setVfr 64 0x40400000#32, .setVfr 96 0xC0800000#32, .setVfr 4 0x3F000000#32, .setVfr 36 0x3F000000#32, .setVfr 68 0x40000000#32, .setVfr 100 0x40000000#32] 0xD0028088 [.v 8 0xBF800000#32, .v 40 0x40000000#32, .v 72 0xC0400000#32, .v 104 0x40800000#32],
    gives [.setVfr 0 0x3F800000#32, .setVfr 32 0xC0000000#32, .setVfr 64 0x40400000#32, .setVfr 96 0xC0800000#32, .setVfr 4 0x3F000000#32, .setVfr 36 0x3F000000#32, .setVfr 68 0x40000000#32, .setVfr 100 0x40000000#32, .setVfr 8 0x00000055#32, .setVfr 40 0x00000055#32, .setVfr 72 0x00000055#32, .setVfr 104 0x00000055#32] 0xD0068088 [.v 8 0#32, .v 40 0#32, .v 72 0#32, .v 104 0#32],
    gives [.setVfr 0 0x3F800000#32, .setVfr 32 0xC0000000#32, .setVfr 64 0x40400000#32, .setVfr 96 0xC0800000#32, .setVfr 4 0x3F000000#32, .setVfr 36 0x3F000000#32, .setVfr 68 0x40000000#32, .setVfr 100 0x40000000#32, .setVfr 104 0x00000055#32] 0xD0078008 [.v 8 0x3F800000#32, .v 40 0x3F800000#32, .v 72 0x3F800000#32, .v 104 0x00000055#32],
    gives [.setVfr 0 0x3F800000#32, .setVfr 32 0xC0000000#32, .setVfr 64 0x40400000#32, .setVfr 96 0xC0800000#32, .setVfr 4 0x3F000000#32, .setVfr 36 0x3F000000#32, .setVfr 68 0x40000000#32, .setVfr 100 0x40000000#32] 0x65048088 [.v 8 0x3F000000#32, .v 40 0xBF800000#32, .v 72 0x3FC00000#32, .v 104 0xC0000000#32],
    gives [.setVfr 0 0x3F800000#32, .setVfr 32 0xC0000000#32, .setVfr 64 0x40400000#32, .setVfr 96 0xC0800000#32, .setVfr 4 0x3F000000#32, .setVfr 36 0x3F000000#32, .setVfr 68 0x40000000#32, .setVfr 100 0x40000000#32] 0x64848088 [.v 8 0xC0200000#32]] = true := by decide +kernel

theorem test_step_vfpu_ops_2 : allOf [
    gives [.setVfr 0 0x3F800000#32, .setVfr 32 0xC0000000#32, .setVfr 64 0x40400000#32, .setVfr 96 0xC0800000#32, .setVfr 4 0x3F000000#32, .setVfr 36 0x3F000000#32, .setVfr 68 0x40000000#32, .setVfr 100 0x40000000#32] 0x64840088 [.v 8 0xBF000000#32],
    gives [.setVfr 0 0x3F800000#32, .setVfr 32 0xC0000000#32, .setVfr 64 0x40400000#32, .setVfr 96 0xC0800000#32, .setVfr 4 0x3F000000#32, .setVfr 36 0x3F000000#32, .setVfr 68 0x40000000#32, .setVfr 100 0x40000000#32] 0xDF088000 [.v 8 0xC7000000#32],
    gives [.setVfr 0 0x3F800000#32, .setVfr 32 0xC0000000#32, .setVfr 64 0x40400000#32, .setVfr 96 0xC0800000#32, .setVfr 4 0x3F000000#32, .setVfr 36 0x3F000000#32, .setVfr 68 0x40000000#32, .setVfr 100 0x40000000#32] 0xF3A48088 [.v 8 0#32, .v 40 0x3F800000#32, .v 72 0#32, .v 104 0#32],
    gives [.setVfr 0 0x3F800000#32, .setVfr 32 0xC0000000#32, .setVfr 64 0x40400000#32, .setVfr 96 0xC0800000#32, .setVfr 4 0x3F000000#32, .setVfr 36 0x3F000000#32, .setVfr 68 0x40000000#32, .setVfr 100 0x40000000#32] 0xF3B18088 [.v 8 0xBF800000#32, .v 40 0#32, .v 72 0#32, .v 104 0#32],
    gives [.setVfr 0 0x00000055#32, .setVfr 1 0x00000055#32, .setVfr 32 0x00000055#32, .setVfr 33 0x00000055#32, .setVfr 2 0x00000077#32] 0xF3830080 [.v 0 0x3F800000#32, .v 1 0#32, .v 32 0#32, .v 33 0x3F800000#32, .v 2 0x00000077#32],
    faults [.setVfr 0 0x00000055#32] 0xF3860000 (.reservedOperand 0#32 0xF3860000#32),
    gives [] 0xF3870082 [.v 2 0x3F800000#32, .v 3 0x3F800000#32, .v 34 0x3F800000#32, .v 35 0x3F800000#32, .v 0 0#32],
    gives [.setVfr 0 0x0000000A#32, .setVfr 1 0x0000000B#32, .setVfr 32 0x0000000C#32, .setVfr 33 0x0000000D#32] 0xF3802084 [.v 4 0x0000000A#32, .v 5 0x0000000C#32, .v 36 0x0000000B#32, .v 37 0x0000000D#32],
    gives [.setVfr 0 0xFF804020#32, .setVfr 32 0#32, .setVfr 64 0xFFFFFFFF#32, .setVfr 96 0x12345678#32] 0xD0598084 [.v 4 0x0000F842#32, .v 36 0x1357FFFF#32, .v 68 0#32],
    gives [.setVfr 0 0xFF804020#32, .setVfr 32 0#32, .setVfr 64 0xFFFFFFFF#32, .setVfr 96 0x12345678#32] 0xD05A8084 [.v 4 0x0000C104#32, .v 36 0x194FFFFF#32],
    gives [.setVfr 0 0xFF804020#32, .setVfr 32 0#32, .setVfr 64 0xFFFFFFFF#32, .setVfr 96 0x12345678#32] 0xD05B8084 [.v 4 0x00008204#32, .v 36 0x32AFFFFF#32],
    faults [.setVfr 0 0xFF804020#32, .setVfr 32 0#32, .setVfr 64 0xFFFFFFFF#32, .setVfr 96 0x12345678#32] 0xD0590084 (.reservedOperand 0#32 0xD0590084#32),
    gives [.setGpr 2 0xCAFEF00D#32] 0x48E20066 [.v 102 0xCAFEF00D#32],
    gives [.setVfr 102 0xCAFEF00D#32] 0x48620066 [.x 2 0xCAFEF00D#32],
    gives [] 0xFFFF0000 [.count 1, .pc 4#32, .npc 8#32, .count 1],
    gives [.setVfr 0 0x40000000#32, .setVfr 32 0x40400000#32, .setVfr 4 0x40800000#32, .setVfr 36 0x40A00000#32] 0xF0040088 [.v 8 0x41B80000#32, .v 40 0#32, .v 9 0#32, .v 41 0#32]] = true := by decide +kernel

theorem test_step_vfpu_ops_3 : allOf [
    gives [] 0xFFFF0320 [.pc 4#32, .latches false false false],
    gives [] 0xFFFF040D [.pc 4#32, .latches false false false]] = true := by decide +kernel

theorem test_step_vfpu_unimplemented : allOf [
    faults [.setVfr 0 0x3F800000#32] 0xD0120000 (.unimplemented 0#32 "vsin")] = true := by decide +kernel

theorem test_step_system : allOf [
    gives [.setPc 0x00000040#32 0x00000044#32] 0x00080D0C [.pc 0x00000044#32, .npc 0x00000048#32, .count 1, .ends (.trap .syscall 0x2034#20)],
    gives [.setPc 0x00000040#32 0x00000100#32] 0x0000000C [.pc 0x00000100#32, .npc 0x00000104#32, .count 1, .ends (.trap .syscall 0x0#20)],
    gives [] 0x000001CD [.pc 4#32, .npc 8#32, .count 1, .ends (.trap .brk 0x7#20)],
    gives [] 0x0000000F [.pc 4#32, .count 1],
    gives [.setGpr 4 3#32] 0xBC800010 [.pc 4#32, .count 1],
    gives [.setGpr 2 0x12345678#32] 0x70400026 [.ic 0x12345678#32],
    gives [.setIc 0x12345678#32] 0x70400024 [.x 2 0x12345678#32],
    faults [.setGpr 2 0x00000055#32] 0x40026000 (.unimplemented 0#32 "mfc0"),
    faults [] 0x42000018 (.unimplemented 0#32 "eret")] = true := by decide +kernel

theorem test_step_words_of_no_row : allOf [
    faults [] 0xFFFFFFFF (.invalidInstruction 0#32 0xFFFFFFFF#32),
    faults [] 0x0000003F (.invalidInstruction 0#32 0x0000003F#32),
    faults [] 0x04180000 (.invalidInstruction 0#32 0x04180000#32),
    faults [] 0x7C000001 (.invalidInstruction 0#32 0x7C000001#32),
    faults [] 0x00000001 (.invalidInstruction 0#32 0x00000001#32),
    faults [] 0x00200861 (.invalidInstruction 0#32 0x00200861#32)] = true := by decide +kernel

/-- The predicates of R331 to R346 on a NaN operand: CC is bit 23 (the suggested parameters). -/
theorem test_compare_unordered : allOf [
    gives [.setFpr 1 0x7FC00000#32, .setFpr 2 0x3F800000#32] 0x46020830 [.fcr31 0x00000E00#32],
    gives [.setFpr 1 0x7FC00000#32, .setFpr 2 0x3F800000#32] 0x46020831 [.fcr31 0x00800E00#32],
    gives [.setFpr 1 0x7FC00000#32, .setFpr 2 0x3F800000#32] 0x46020832 [.fcr31 0x00000E00#32],
    gives [.setFpr 1 0x7FC00000#32, .setFpr 2 0x3F800000#32] 0x46020833 [.fcr31 0x00800E00#32],
    gives [.setFpr 1 0x7FC00000#32, .setFpr 2 0x3F800000#32] 0x46020834 [.fcr31 0x00000E00#32],
    gives [.setFpr 1 0x7FC00000#32, .setFpr 2 0x3F800000#32] 0x46020835 [.fcr31 0x00800E00#32],
    gives [.setFpr 1 0x7FC00000#32, .setFpr 2 0x3F800000#32] 0x46020836 [.fcr31 0x00000E00#32],
    gives [.setFpr 1 0x7FC00000#32, .setFpr 2 0x3F800000#32] 0x46020837 [.fcr31 0x00800E00#32],
    gives [.setFpr 1 0x7FC00000#32, .setFpr 2 0x3F800000#32] 0x46020838 [.fcr31 0x00000E00#32],
    gives [.setFpr 1 0x7FC00000#32, .setFpr 2 0x3F800000#32] 0x46020839 [.fcr31 0x00800E00#32],
    gives [.setFpr 1 0x7FC00000#32, .setFpr 2 0x3F800000#32] 0x4602083A [.fcr31 0x00000E00#32],
    gives [.setFpr 1 0x7FC00000#32, .setFpr 2 0x3F800000#32] 0x4602083B [.fcr31 0x00800E00#32],
    gives [.setFpr 1 0x7FC00000#32, .setFpr 2 0x3F800000#32] 0x4602083C [.fcr31 0x00000E00#32],
    gives [.setFpr 1 0x7FC00000#32, .setFpr 2 0x3F800000#32] 0x4602083D [.fcr31 0x00800E00#32],
    gives [.setFpr 1 0x7FC00000#32, .setFpr 2 0x3F800000#32] 0x4602083E [.fcr31 0x00000E00#32],
    gives [.setFpr 1 0x7FC00000#32, .setFpr 2 0x3F800000#32] 0x4602083F [.fcr31 0x00800E00#32]] = true := by decide +kernel

/-- The predicates of R331 to R346 on +0 and -0: CC is bit 23 (the suggested parameters). -/
theorem test_compare_equal : allOf [
    gives [.setFpr 1 0#32, .setFpr 2 0x80000000#32] 0x46020830 [.fcr31 0x00000E00#32],
    gives [.setFpr 1 0#32, .setFpr 2 0x80000000#32] 0x46020831 [.fcr31 0x00000E00#32],
    gives [.setFpr 1 0#32, .setFpr 2 0x80000000#32] 0x46020832 [.fcr31 0x00800E00#32],
    gives [.setFpr 1 0#32, .setFpr 2 0x80000000#32] 0x46020833 [.fcr31 0x00800E00#32],
    gives [.setFpr 1 0#32, .setFpr 2 0x80000000#32] 0x46020834 [.fcr31 0x00000E00#32],
    gives [.setFpr 1 0#32, .setFpr 2 0x80000000#32] 0x46020835 [.fcr31 0x00000E00#32],
    gives [.setFpr 1 0#32, .setFpr 2 0x80000000#32] 0x46020836 [.fcr31 0x00800E00#32],
    gives [.setFpr 1 0#32, .setFpr 2 0x80000000#32] 0x46020837 [.fcr31 0x00800E00#32],
    gives [.setFpr 1 0#32, .setFpr 2 0x80000000#32] 0x46020838 [.fcr31 0x00000E00#32],
    gives [.setFpr 1 0#32, .setFpr 2 0x80000000#32] 0x46020839 [.fcr31 0x00000E00#32],
    gives [.setFpr 1 0#32, .setFpr 2 0x80000000#32] 0x4602083A [.fcr31 0x00800E00#32],
    gives [.setFpr 1 0#32, .setFpr 2 0x80000000#32] 0x4602083B [.fcr31 0x00800E00#32],
    gives [.setFpr 1 0#32, .setFpr 2 0x80000000#32] 0x4602083C [.fcr31 0x00000E00#32],
    gives [.setFpr 1 0#32, .setFpr 2 0x80000000#32] 0x4602083D [.fcr31 0x00000E00#32],
    gives [.setFpr 1 0#32, .setFpr 2 0x80000000#32] 0x4602083E [.fcr31 0x00800E00#32],
    gives [.setFpr 1 0#32, .setFpr 2 0x80000000#32] 0x4602083F [.fcr31 0x00800E00#32]] = true := by decide +kernel

/-- The predicates of R331 to R346 on 1 and 2: CC is bit 23 (the suggested parameters). -/
theorem test_compare_less : allOf [
    gives [.setFpr 1 0x3F800000#32, .setFpr 2 0x40000000#32] 0x46020830 [.fcr31 0x00000E00#32],
    gives [.setFpr 1 0x3F800000#32, .setFpr 2 0x40000000#32] 0x46020831 [.fcr31 0x00000E00#32],
    gives [.setFpr 1 0x3F800000#32, .setFpr 2 0x40000000#32] 0x46020832 [.fcr31 0x00000E00#32],
    gives [.setFpr 1 0x3F800000#32, .setFpr 2 0x40000000#32] 0x46020833 [.fcr31 0x00000E00#32],
    gives [.setFpr 1 0x3F800000#32, .setFpr 2 0x40000000#32] 0x46020834 [.fcr31 0x00800E00#32],
    gives [.setFpr 1 0x3F800000#32, .setFpr 2 0x40000000#32] 0x46020835 [.fcr31 0x00800E00#32],
    gives [.setFpr 1 0x3F800000#32, .setFpr 2 0x40000000#32] 0x46020836 [.fcr31 0x00800E00#32],
    gives [.setFpr 1 0x3F800000#32, .setFpr 2 0x40000000#32] 0x46020837 [.fcr31 0x00800E00#32],
    gives [.setFpr 1 0x3F800000#32, .setFpr 2 0x40000000#32] 0x46020838 [.fcr31 0x00000E00#32],
    gives [.setFpr 1 0x3F800000#32, .setFpr 2 0x40000000#32] 0x46020839 [.fcr31 0x00000E00#32],
    gives [.setFpr 1 0x3F800000#32, .setFpr 2 0x40000000#32] 0x4602083A [.fcr31 0x00000E00#32],
    gives [.setFpr 1 0x3F800000#32, .setFpr 2 0x40000000#32] 0x4602083B [.fcr31 0x00000E00#32],
    gives [.setFpr 1 0x3F800000#32, .setFpr 2 0x40000000#32] 0x4602083C [.fcr31 0x00800E00#32],
    gives [.setFpr 1 0x3F800000#32, .setFpr 2 0x40000000#32] 0x4602083D [.fcr31 0x00800E00#32],
    gives [.setFpr 1 0x3F800000#32, .setFpr 2 0x40000000#32] 0x4602083E [.fcr31 0x00800E00#32],
    gives [.setFpr 1 0x3F800000#32, .setFpr 2 0x40000000#32] 0x4602083F [.fcr31 0x00800E00#32]] = true := by decide +kernel

/-! ### Ill-formed operands and parameters are refused -/

theorem test_ill_formed_operands : allOf [
    !(Instr.ext 2 1 31 1).wellFormed .asMIPS32R2, (Instr.ext 2 1 31 0).wellFormed .asMIPS32R2,
    !(Instr.ext 2 1 31 0).wellFormed .asSource, (Instr.ext 2 1 31 31).wellFormed .asSource,
    !(Instr.ins 2 1 31 0).wellFormed .asMIPS32R2, (Instr.ins 2 1 31 31).wellFormed .asMIPS32R2,
    !(Instr.ins 2 1 31 1).wellFormed .asSource, (Instr.ins 2 1 31 0).wellFormed .asSource,
    !(Instr.ctc1 2 25).wellFormed .asSource, (Instr.ctc1 2 31).wellFormed .asSource,
    !(Instr.cfc1 2 24).wellFormed .asSource, !(Instr.cfc1 2 29).wellFormed .asSource,
    (Instr.cfc1 2 28).wellFormed .asSource,
    !(Instr.vmzero .single 0#7).wellFormed .asSource, !(Instr.vmone .single 0#7).wellFormed .asSource,
    !(Instr.vmidt .single 0#7).wellFormed .asSource, !(Instr.vmmov .single 0#7 0#7).wellFormed .asSource,
    !(Instr.vmmul .single 0#7 0#7 0#7).wellFormed .asSource, (Instr.vmmul .pair 0#7 0#7 0#7).wellFormed .asSource,
    !(Instr.vt4444Q .triple 0#7 0#7).wellFormed .asSource, !(Instr.vt5551Q .pair 0#7 0#7).wellFormed .asSource,
    !(Instr.vt5650Q .single 0#7 0#7).wellFormed .asSource, (Instr.vt5650Q .quad 0#7 0#7).wellFormed .asSource]
    = true := by decide

theorem test_ill_formed_parameters : allOf [
    Config.suggested.wf, !({ Config.suggested with ccBit := 1 } : Config).wf,
    !({ Config.suggested with fsBit := 0 } : Config).wf, !({ Config.suggested with fsBit := 23 } : Config).wf,
    !({ Config.suggested with nanMask := 0x00800000#32 } : Config).wf,
    !({ Config.suggested with wmask := 0x0183FFFE#32 } : Config).wf,
    !({ Config.suggested with fprAlias := Vector.replicate 32 (some 5) } : Config).wf,
    !({ Config.suggested with vregLanes := [⟨0#7, .quad, 2, 32⟩] } : Config).wf,
    !({ Config.suggested with vregEntries := [⟨0#7, .pair, 0, 1, 0⟩] } : Config).wf,
    !({ Config.suggested with fprAlias := (Vector.replicate 32 none).set 3 (some 5) } : Config).wf] = true := by
  decide +kernel

/-! ### Witnesses: states and operands that meet the hypotheses of the statements -/

namespace Tests

/-- The result is a next state with the property. -/
def nextWith (r : Result) (p : State → Bool) : Bool :=
  match r with
  | .next t => p t
  | _       => false

/-- The result is a fault. -/
def isFault (r : Result) : Bool :=
  match r with
  | .fault _ => true
  | _        => false

theorem exists_next {r : Result} {p : State → Bool} (h : nextWith r p = true) : ∃ t, r = .next t ∧ p t = true := by
  cases r with
  | next t => exact ⟨t, rfl, h⟩
  | fault f => cases h
  | refused q => cases h

theorem exists_fault {r : Result} (h : isFault r = true) : ∃ f, r = .fault f := by
  cases r with
  | next t => cases h
  | fault f => exact ⟨f, rfl⟩
  | refused q => cases h

theorem ok_of_reads {w : Word} {i : Instr} (h : reads w i = true) : decodeWord w = .ok i := by
  unfold reads at h
  split at h
  · rename_i j e; rw [e, eq_of_beq h]
  · cases h

/-- A state ready to run `addiu $2,$0,5`, and one ready to run `rotr $2,$1,8` (Tier K). -/
def plain : State := ready [] 0x24020005
def tierK : State := ready [] 0x00211202

/-- The state whose parameters admit nothing at all. -/
def shut (s : State) : State := { s with cfg := { s.cfg with memAdmit := [], admitTierK := false } }

/-- The registers `$1 = 0xFFFFFFFF` and `$2 = 0x0FFFFFFC`, `$3 = 0x102`. -/
def loaded : State := ready [.setGpr 1 0xFFFFFFFF#32, .setGpr 2 0x0FFFFFFC#32, .setGpr 3 0x102#32] 0

/-- A delay slot: `nPC` is not `PC + 4`. -/
def pending : State := ready [.setPc 0x40#32 0x100#32] 0x24020005

/-- The value of a word, as an integer. -/
theorem value_of_word {w : Word} (n : Int) (h : f32Scaled w = n * 2 ^ 149) : value w = n := by
  rw [value_eq, h]; push_cast; rw [mul_assoc]; norm_num

/-- Parameters with a `VREG` of their own. -/
def moved : Config :=
  { Config.suggested with
    vregLanes := [⟨0#7, .quad, 2, 7⟩]
    vregEntries := [⟨127#7, .pair, 1, 0, 9⟩] }

/-- Source prefixes whose lane 0 names lane 2. -/
def crooked : State := ready [.setLatches ⟨true, 0xE6#32⟩ ⟨true, 0xE6#32⟩ ⟨false, 0#32⟩] 0

/-- A fault that a computation finds is the fault of the step. -/
theorem fault_of_step {r : Result} {f : Fault}
    (h : (match r with | .fault g => g == f | _ => false) = true) : r = .fault f := by
  cases r <;> simp_all

end Tests

theorem witness_StepRunsTheDecodedInstruction :
    ∀ p ∈ [(plain, 0x24020005#32, Instr.addiu 2 0 5#16), (tierK, 0x00211202#32, Instr.rotr 2 1 8)],
      ¬ (p.1.bpEnabled = true ∧ (p.1.pc ∈ p.1.bpSet ∨ maskAddr p.1 p.1.pc ∈ p.1.bpSet)) ∧
      Fetchable p.1 ∧ littleEndian p.1 (maskAddr p.1 p.1.pc).toNat 4 = p.2.1.toNat ∧
      reads p.2.1 p.2.2 = true ∧ (p.2.2.row.tier = .K → p.1.cfg.admitTierK = true) := by
  unfold Fetchable; decide +kernel

theorem witness_StepFaultsBeforeAnInstructionRuns :
    (({ plain with pc := 2#32 } : State).pc.toNat % 4 ≠ 0) ∧ plain.pc.toNat % 4 = 0 ∧ (ready [] 0xFFFFFFFF).pc.toNat % 4 = 0 ∧
    memAdmitted (ready [] 0xFFFFFFFF) (maskAddr (ready [] 0xFFFFFFFF) 0#32) 4 .fetch = true ∧
    (memAdmitted (shut plain) (maskAddr (shut plain) plain.pc) 4 .fetch = false) ∧
    (∀ r ∈ table, 0xFFFFFFFF#32 &&& r.mask ≠ r.bits) ∧ littleEndian (ready [] 0xFFFFFFFF) 0 4 = 0xFFFFFFFF ∧
    reads 0x00211202#32 (.rotr 2 1 8) = true ∧ (Instr.rotr 2 1 8).row.tier = .K ∧
    (shut tierK).cfg.admitTierK = false := by decide +kernel

/-- A `PC` of 2 faults under every mask (R77), one that clears its low bits too. -/
theorem test_misaligned_pc_faults :
    step { plain with pc := 2#32, npc := 6#32 } = .fault (.misaligned 2#32 4 .fetch) ∧
    step { plain with pc := 2#32, npc := 6#32, cfg := { plain.cfg with addrMask := 0x0FFFFFFC#32 } } =
      .fault (.misaligned 0#32 4 .fetch) :=
  ⟨fault_of_step (by decide +kernel), fault_of_step (by decide +kernel)⟩

theorem witness_BreakpointPausesWithNothingCommitted :
    let s : State := { plain with pc := 0x80000000#32, bpSet := [0#32], bpEnabled := true }
    s.bpEnabled = true ∧ maskAddr s s.pc ∈ s.bpSet ∧ s.pc ∉ s.bpSet ∧ nextWith (step s) (fun t => t.outcome == .paused s.pc) = true := by
  decide +kernel

theorem witness_DisabledBreakpointsAreInvisible :
    plain.bpEnabled = false ∧ nextWith (step plain) (fun _ => true) = true ∧ isFault (step (shut plain)) = true := by
  decide +kernel

theorem witness_EveryStepKeepsTheInvariant : Inv plain ∧ ∃ t, step plain = .next t ∧ (t.count == 1) = true :=
  ⟨⟨by decide +kernel, by decide +kernel, by decide +kernel, by decide +kernel, by decide +kernel, by decide +kernel,
    by decide +kernel⟩, exists_next (by decide +kernel)⟩

theorem witness_ResetMeetsTheInvariant : (0xFFFFFFFC#32).toNat % 4 = 0 ∧ Memory.wf [(4, 1#8)] = true := by decide

/-- One step that goes on, one that traps, one that pauses. -/
theorem witness_CountCountsCompletedSteps :
    (∃ t, step plain = .next t ∧ (t.outcome == .continued) = true) ∧
    (∃ t, step (ready [] 0x0000000C) = .next t ∧ (t.outcome == .trap .syscall 0#20) = true) ∧
    (∃ t, step { plain with bpSet := [0#32], bpEnabled := true } = .next t ∧ (t.outcome == .paused 0#32) = true) :=
  ⟨exists_next (by decide +kernel), exists_next (by decide +kernel), exists_next (by decide +kernel)⟩

theorem witness_StepKeepsParametersAndBreakpoints : ∃ t, step plain = .next t ∧ (t.bpSet == []) = true :=
  exists_next (by decide +kernel)

theorem witness_HiloIsWrittenOnlyByItsInstructions :
    (∃ t, exec (.mthi 1) loaded = .next t ∧ (t.hi != loaded.hi) = true) ∧
    (∃ t, exec (.mult 1 2) loaded = .next t ∧ (t.lo != loaded.lo) = true) :=
  ⟨exists_next (by decide +kernel), exists_next (by decide +kernel)⟩

theorem witness_MemoryAndFcr31AreWrittenOnlyByTheirInstructions :
    (∃ t, exec (.sb 1 0#16 3) loaded = .next t ∧ (t.mem.byte 0x102 != loaded.mem.byte 0x102) = true) ∧
    (∃ t, exec (.cEqS 1 1) loaded = .next t ∧ (t.fcr31 != loaded.fcr31) = true) :=
  ⟨exists_next (by decide +kernel), exists_next (by decide +kernel)⟩

theorem witness_StickyFlagsAreClearedOnlyByCtc1 :
    loaded.cfg.wf = true ∧ (Instr.addS 1 2 3).row.mnemonic ≠ "ctc1" ∧ (Instr.cFS 1 2).notesResult = false ∧
    (∃ t, exec (.addS 1 2 3) { loaded with fcr31 := 0x10040#32 } = .next t ∧ (t.fcr31 &&& 0x10040#32 == 0x10040#32) = true) ∧
    ∃ t, exec (.cFS 1 2) { loaded with fcr31 := 0x10040#32 } = .next t ∧ (t.fcr31 == 0x10040#32) = true :=
  ⟨by decide +kernel, by decide +kernel, by decide +kernel, exists_next (by decide +kernel), exists_next (by decide +kernel)⟩

theorem witness_BitsOutsideTheWriteMaskNeverChange :
    plain.cfg.wf = true ∧ ∃ t, step (ready [.setGpr 2 0xFFFFFFFF#32] 0x44C2F800) = .next t ∧ (t.fcr31 == 0x0183FFFF#32) = true :=
  ⟨by decide +kernel, exists_next (by decide +kernel)⟩

theorem witness_LatchesAreSetAndConsumedAsStated :
    (Instr.vzero .quad 0#7).consumes = true ∧ (Instr.sync).consumes = false ∧ (Instr.sync).setsLatch = false ∧
    (∃ t, exec (.vzero .quad 0#7) crooked = .next t ∧ (t.pfxs == ⟨false, 0xE6#32⟩) = true) ∧
    ∃ t, exec .sync crooked = .next t ∧ (t.pfxs == ⟨true, 0xE6#32⟩) = true :=
  ⟨by decide +kernel, by decide +kernel, by decide +kernel, exists_next (by decide +kernel), exists_next (by decide +kernel)⟩

theorem witness_OtherInstructionsAdvanceInSequence :
    (Instr.sync).isControlTransfer = false ∧ (Instr.beql 0 1 0#16).isControlTransfer = true ∧
    (∃ t, exec .sync pending = .next t ∧ (t.pc == 0x100#32) = true) ∧
    ∃ t, exec (.beql 0 1 0#16) loaded = .next t ∧ (t.pc == 8#32) = true :=
  ⟨by decide +kernel, by decide +kernel, exists_next (by decide +kernel), exists_next (by decide +kernel)⟩

theorem witness_ReservedOperandsAreRaisedOnlyWhereListed :
    (Instr.vadd .pair 0#7 0#7 0#7).wellFormed crooked.cfg.sizeCoding = true ∧
    ∃ f, exec (.vadd .pair 0#7 0#7 0#7) crooked = .fault f := ⟨by decide +kernel, exists_fault (by decide +kernel)⟩

/-- Batches that are exhausted (memory of zeros decodes as `sll $0,$0,0`); a step that faults after its fetch (a
word of no row) and one that faults in it. -/
theorem witness_BatchesCompose : ((batch 0 plain).ending = .exhausted ∧ (batch 2 plain).ending = .exhausted) ∧
    (step (ready [] 0xFFFFFFFF) = .fault (.invalidInstruction 0#32 0xFFFFFFFF#32) ∧
      Fetchable (ready [] 0xFFFFFFFF)) ∧
    (step (shut plain) = .fault (.memoryAccess 0#32 4 .fetch) ∧ ¬ Fetchable (shut plain)) := by
  unfold Fetchable
  exact ⟨by decide +kernel, ⟨fault_of_step (by decide +kernel), by decide +kernel⟩,
    fault_of_step (by decide +kernel), by decide +kernel⟩

/-- After a fault `IR` holds the word fetched (R45, R630); the host may write `IR` and `COUNT` too (R643). -/
theorem test_ir_after_a_fault : (batch 3 (ready [] 0xFFFFFFFF)).state.ir = 0xFFFFFFFF#32 ∧
    (batch 3 (ready [.setIr 7#32, .setCount 9] 0xFFFFFFFF)).state.count = 9 ∧
    (batch 1 (shut (ready [.setIr 7#32] 0xFFFFFFFF))).state.ir = 7#32 := by decide +kernel

theorem witness_RegisterZeroReadsZero : (31 : Reg) ≠ 0 ∧ (1 : Reg) ≠ 31 := by decide

theorem witness_DecodedWordsEncodeBack : decodeWord 0xDCF0001B#32 = .ok (.vpfxs 0x1B#20) ∧ decodeWord 0xBCFF0000#32 = .ok (.cache 0#16 7) :=
  ⟨ok_of_reads (by decide +kernel), ok_of_reads (by decide +kernel)⟩

theorem witness_RowsAreDisjoint : 0 < table.length ∧ 255 < table.length ∧ (0 : Nat) ≠ 255 := by decide +kernel

/-- The smallest and the largest field of both codings, and fields that encode no size. -/
theorem witness_ExtractAndInsertResults :
    (1 ≤ 32 ∧ 0 + 32 ≤ 32 ∧ loaded.cfg.sizeCoding = .asMIPS32R2 ∧ 31 + 1 = 32) ∧ (1 ≤ 1 ∧ 31 + 1 ≤ 32 ∧ 0 + 1 = 1) ∧
    (∀ size : Nat, size < 33 → 1 ≤ size → 31 + size ≤ 32 → ¬ (1 + 1 = size)) ∧
    (∀ size : Nat, size < 33 → 1 ≤ size → 31 + size ≤ 32 → ¬ (0 + 1 = 31 + size)) := by decide +kernel

theorem witness_SignedDivideTruncatesAndFaultsOnZero : readGpr loaded 1 ≠ 0#32 ∧ readGpr loaded 0 = 0#32 := by decide +kernel

/-- Two addresses with one masked form, one of them outside the mask. -/
theorem witness_EffectiveAddresses : (0x40000100#32 : Word) ≠ 0x100#32 ∧
    maskAddr loaded 0x40000100#32 = maskAddr loaded 0x100#32 ∧
    ((0x40000100#32 : Word).toNat % 4 = 0 ↔ (0x100#32 : Word).toNat % 4 = 0) := by decide +kernel

/-- The last byte, half and word of the masked address space, and the first word. -/
theorem witness_AlignedLoadResults : Accessible loaded (effAddr loaded 1 0#16) 1 .load ∧
    Accessible loaded (effAddr loaded 1 0xFFFF#16) 2 .load ∧ Accessible loaded (effAddr loaded 2 0#16) 4 .load ∧
    Accessible loaded (effAddr loaded 0 0#16) 4 .load := by unfold Accessible; decide +kernel

theorem witness_AlignedStoreResults : Accessible loaded (effAddr loaded 1 0#16) 1 .store ∧
    Accessible loaded (effAddr loaded 1 0xFFFF#16) 2 .store ∧ Accessible loaded (effAddr loaded 2 0#16) 4 .store ∧
    Accessible loaded (effAddr loaded 0 0#16) 4 .store := by unfold Accessible; decide +kernel

/-- The word around the last byte, `n = 3`, and the first word, `n = 0`. -/
theorem witness_UnalignedWordAccess :
    memAdmitted loaded (maskAddr loaded (wordAddr (effAddr loaded 1 0#16))) 4 .load = true ∧
    memAdmitted loaded (maskAddr loaded (wordAddr (effAddr loaded 1 0#16))) 4 .store = true ∧
    (effAddr loaded 1 0#16).toNat % 4 = 3 ∧
    memAdmitted loaded (maskAddr loaded (wordAddr (effAddr loaded 0 0#16))) 4 .load = true := by decide +kernel

theorem witness_ScalarAccessFaults : (maskAddr loaded (effAddr loaded 3 0#16)).toNat % 4 ≠ 0 ∧
    (maskAddr loaded (effAddr loaded 1 0#16)).toNat % 2 ≠ 0 ∧
    memAdmitted (shut loaded) (maskAddr loaded (effAddr loaded 2 0#16)) 4 .load = false ∧
    memAdmitted { loaded with cfg := { loaded.cfg with memAdmit := [⟨0#32, 0xFFFFFFFF#32, none, some .load⟩] } } 0#32 4 .load = true ∧
    memAdmitted { loaded with cfg := { loaded.cfg with memAdmit := [⟨0#32, 0xFFFFFFFF#32, none, some .load⟩] } } 0#32 4 .store = false := by
  decide +kernel

/-- The last byte of the word, `i = 3`. -/
theorem witness_StoreThenLoadReadsTheBytesBack : loaded.cfg.addrMask.toNat % 4 = 3 ∧
    ∃ t, exec (.sw 1 0#16 2) loaded = .next t ∧
      (effAddr t 2 3#16 == effAddr loaded 2 0#16 + BitVec.ofNat 32 3 &&
        memAdmitted t (maskAddr t (effAddr t 2 3#16)) 1 .load) = true :=
  ⟨by decide +kernel, exists_next (by decide +kernel)⟩

/-- For the four statements on branches and jumps: state normal, with each condition met and not met. -/
theorem witness_PlainBranchesGoWhereTheySay : loaded.npc = loaded.pc + 4#32 ∧
    readGpr loaded 1 ≠ readGpr loaded 2 ∧ (readGpr loaded 1).toInt < 0 ∧ 0 < (readGpr loaded 2).toInt ∧
    (readGpr loaded 0).toInt = 0 ∧ loaded.fcr31.getLsbD loaded.cfg.ccBit.val = false ∧
    ({ loaded with fcr31 := 0x00800000#32 } : State).fcr31.getLsbD loaded.cfg.ccBit.val = true := by decide +kernel

theorem witness_LikelyBranchesGoWhereTheySay : loaded.npc = loaded.pc + 4#32 ∧ readGpr loaded 1 ≠ readGpr loaded 2 := by
  decide +kernel

theorem witness_BranchAndLinkWritesTheLinkEitherWay : loaded.npc = loaded.pc + 4#32 ∧ (readGpr loaded 1).toInt < 0 ∧
    0 ≤ (readGpr loaded 0).toInt := by decide +kernel

theorem witness_JumpsGoWhereTheySay : loaded.npc = loaded.pc + 4#32 ∧ (readGpr loaded 2).toNat % 4 = 0 ∧
    (readGpr loaded 1).toNat % 4 ≠ 0 := by decide +kernel

theorem witness_ControlTransferInADelaySlotFaults :
    (Instr.bvtl 0#3 0#16).isControlTransfer = true ∧ pending.npc ≠ pending.pc + 4#32 := by decide +kernel

theorem witness_RedirectTakesEffectAfterTheDelaySlot : pending.npc ≠ pending.pc + 4#32 ∧
    ∃ t, step pending = .next t ∧ (t.outcome == .continued) = true := ⟨by decide +kernel, exists_next (by decide +kernel)⟩

/-- NaN, finite pairs (a sum inside the range, one beyond it, zeros on either side), infinities with finite words and
with each other. -/
theorem witness_SumsProductsAndQuotientsAreIeee :
    IsNaN 0x7FC00000#32 ∧ IsFinite 0x3F800000#32 ∧ IsFinite 0x7F7FFFFF#32 ∧ IsFinite 0#32 ∧
    value 0x3F800000#32 = 1 ∧ value 0#32 = 0 ∧ value 0x7F7FFFFF#32 = ((2 ^ 24 - 1) * 2 ^ 104 : ℤ) ∧
    IsInf 0x7F800000#32 ∧ IsInf 0xFF800000#32 ∧ SignsDiffer 0x7F800000#32 0xFF800000#32 ∧
    ¬ SignsDiffer 0xFF800000#32 0xFF800000#32 := by
  refine ⟨by unfold IsNaN; decide, by unfold IsFinite; decide, by unfold IsFinite; decide, by unfold IsFinite; decide,
    by simpa using value_of_word 1 (by decide +kernel), by simpa using value_of_word 0 (by decide +kernel),
    value_of_word _ (by decide +kernel), by unfold IsInf; decide, by unfold IsInf; decide,
    by unfold SignsDiffer signOf; decide, by unfold SignsDiffer signOf; decide⟩

theorem witness_SquareRootIsIeee : IsNaN 0x7FC00000#32 ∧ ¬ IsNaN 0xFF800000#32 ∧ signOf 0xFF800000#32 ∧ IsInf 0xFF800000#32 ∧
    (¬ IsNaN 0xBF800000#32 ∧ signOf 0xBF800000#32 ∧ value 0xBF800000#32 = (-1 : ℤ)) ∧
    (IsFinite 0x80000000#32 ∧ value 0x80000000#32 = (0 : ℤ)) ∧ (IsInf 0x7F800000#32 ∧ ¬ signOf 0x7F800000#32) ∧
    IsFinite 0x40000000#32 ∧ ¬ signOf 0x40000000#32 := by
  refine ⟨by unfold IsNaN; decide, by unfold IsNaN; decide, by unfold signOf; decide, by unfold IsInf; decide,
    ⟨by unfold IsNaN; decide, by unfold signOf; decide, value_of_word _ (by decide +kernel)⟩,
    ⟨by unfold IsFinite; decide, value_of_word _ (by decide +kernel)⟩,
    ⟨by unfold IsInf; decide, by unfold signOf; decide⟩, by unfold IsFinite; decide, by unfold signOf; decide⟩

/-- A product that is flushed (at the upper end of a range) and one that is not (`FS` clear). -/
theorem witness_FloatArithmeticWritesAndNotes :
    let s : State := ready [.setFpr 1 0x1FEC1E4A#32, .setFpr 2 0x3F800000#32, .setFcr31 0x01000000#32] 0
    (s.fcr31.getLsbD s.cfg.fsBit.val = true ∧ isNaN (fmul (readFpr s 1) (readFpr s 2)) = false ∧
      ∃ r ∈ s.cfg.mulFlush, r.lo.toNat ≤ (fmul (readFpr s 1) (readFpr s 2)).toNat ∧
        (fmul (readFpr s 1) (readFpr s 2)).toNat ≤ r.hi.toNat) ∧
    loaded.fcr31.getLsbD loaded.cfg.fsBit.val = false := by decide +kernel

/-- A word that converts in every mode, and one that converts in none. -/
theorem witness_ConversionsRoundAsNamed :
    (∀ mode, ConvertsTo 0x3F800000#32 mode 1) ∧ ∀ mode i, ¬ ConvertsTo 0x7FC00000#32 mode i := by
  have h : value 0x3F800000#32 = 1 := by simpa using value_of_word 1 (by decide +kernel)
  exact ⟨fun mode => ⟨by unfold IsFinite; decide, by simp [RoundsTo, h], by norm_num, by norm_num⟩,
    fun mode i hc => absurd hc.1 (by unfold IsFinite; decide)⟩

theorem witness_MovesToAndFromTheFloatUnit : (1 : Fin 32).val ∉ [0, 25, 26, 27, 28, 31] ∧ (24 : Fin 32).val ∉ [0, 25, 26, 27, 28, 31] ∧
    (25 : Fin 32).val ≠ 31 ∧ ∃ t, exec (.mtc1 1 2) loaded = .next t ∧ (readFpr t 2 == 0xFFFFFFFF#32) = true :=
  ⟨by decide, by decide, by decide, exists_next (by decide +kernel)⟩

/-- The suggested parameters, which list nothing, and a `VREG` that gives lane 2 of the quad 0 the slot 7 and one
entry of the 2x2 matrix 127 the slot 9; both are admissible. -/
theorem witness_SelectorsNameTheirSlots :
    Config.suggested.wf = true ∧ moved.wf = true ∧ Config.suggested.vregLanes = [] ∧
    moved.vregLanes = [] ++ ⟨0#7, .quad, 2, 7⟩ :: [] ∧ moved.vregEntries = [] ++ ⟨127#7, .pair, 1, 0, 9⟩ :: [] ∧
    VSize.triple ≠ .single ∧ 2 < VSize.triple.lanes ∧ 1 < VSize.triple.lanes := by decide +kernel

/-- `vone.q C000` under that `VREG`: lane 2 goes to slot 7, and slot 64 of the formula keeps its word. -/
theorem test_vreg_is_a_parameter :
    (nextWith (step { ready [] 0xD0078080 with cfg := moved }) fun t =>
      readVfr t 7 == 0x3F800000#32 && readVfr t 32 == 0x3F800000#32 && readVfr t 64 == 0#32) = true ∧
    matSlot moved 127#7 .pair 1 0 = 9 := by decide +kernel

/-- `ea` = 0x100 (`k = 0`) and 0x10C (`k = 3`), and what is not aligned or not admitted. -/
theorem witness_VectorLoads :
    let s : State := ready [.setGpr 4 0x100#32] 0
    vecAddr s 4 3#14 = 0x10C#32 ∧ (maskAddr s 0x100#32).toNat % 16 = 0 ∧ (maskAddr s 0x10C#32).toNat % 16 ≠ 0 ∧
    AllAdmitted s 4 (fun i => 0x100#32 + BitVec.ofNat 32 (4 * i)) .load ∧
    AllAdmitted s 4 (fun i => 0x10C#32 - BitVec.ofNat 32 (4 * i)) .load ∧
    AllAdmitted s 1 (fun i => 0x10C#32 + BitVec.ofNat 32 (4 * i)) .load ∧ Accessible s 0x10C#32 4 .load ∧
    AllAdmitted (shut s) 0 (fun i => 0x100#32 + BitVec.ofNat 32 (4 * i)) .load ∧
    memAdmitted (shut s) (maskAddr (shut s) (0x100#32 + BitVec.ofNat 32 (4 * 0))) 4 .load = false := by
  unfold AllAdmitted Accessible; decide +kernel

theorem witness_VectorStores :
    let s : State := ready [.setGpr 4 0x100#32] 0
    (maskAddr s 0x100#32).toNat % 16 = 0 ∧ AllAdmitted s 4 (fun i => 0x100#32 + BitVec.ofNat 32 (4 * i)) .store ∧
    AllAdmitted s 4 (fun i => 0x10C#32 - BitVec.ofNat 32 (4 * i)) .store ∧
    AllAdmitted s 1 (fun i => 0x10C#32 + BitVec.ofNat 32 (4 * i)) .store ∧ Accessible s 0x10C#32 4 .store ∧
    memAdmitted (shut s) (maskAddr (shut s) (0x100#32 + BitVec.ofNat 32 (4 * 0))) 4 .store = false := by
  unfold AllAdmitted Accessible; decide +kernel

theorem witness_MatrixResults : VSize.pair ≠ .single ∧ VSize.quad ≠ .single := by decide

/-- An identity swizzle on a pair names lanes inside it; one that names lane 2 does not, unless lane 0 is a constant. -/
theorem witness_ElementwiseResults : SourceDefined ⟨true, 0xE4#32⟩ 2 ∧ SourceDefined ⟨false, 0xE6#32⟩ 2 ∧
    SourceDefined ⟨true, 0x10E6#32⟩ 2 ∧ ¬ SourceDefined crooked.pfxs 2 ∧ SourceDefined crooked.pfxs 4 := by
  unfold SourceDefined; decide +kernel

/-- Angles of 0, 1, 2, 3, -1 and 1/2 quarter turns; a swizzle a single does not have. -/
theorem witness_RotationResults : SourceDefined loaded.pfxs 1 ∧ ¬ SourceDefined crooked.pfxs 1 ∧
    IsFinite 0x40400000#32 ∧ IsFinite 0x3F000000#32 ∧ value 0#32 = (0 : ℤ) ∧ value 0x3F800000#32 = (1 : ℤ) ∧ value 0x40000000#32 = (2 : ℤ) ∧
    value 0x40400000#32 = (3 : ℤ) ∧ value 0xBF800000#32 = (-1 : ℤ) ∧ (-1 : Int) % 4 = 3 :=
  ⟨by unfold SourceDefined; decide +kernel, by unfold SourceDefined; decide +kernel, by unfold IsFinite; decide,
    by unfold IsFinite; decide, value_of_word _ (by decide +kernel), value_of_word _ (by decide +kernel),
    value_of_word _ (by decide +kernel), value_of_word _ (by decide +kernel),
    value_of_word _ (by decide +kernel), by decide⟩

theorem witness_ColourResults : VSize.triple ≠ .quad := by decide

theorem witness_TierUInstructionsFaultByName : (Instr.eret).row.tier = .U ∧ (Instr.eret).isControlTransfer = false ∧
    (Instr.bvf 0#3 0#16).row.tier = .U ∧ loaded.npc = loaded.pc + 4#32 := by decide +kernel

/-- The free NaN of an operation is a NaN, whichever it is (R301): `Inf - Inf`. -/
theorem test_infinite_difference_is_a_nan : IsNaN (fadd 0x7F800000#32 0xFF800000#32) :=
  isNaN_nanOf .add 0x7F800000#32 0xFF800000#32

end
end

section
/-! The integer ALU (spec/40_integer_alu.md): words as numbers and as bits, then the obligations O23, O24, O25, O27
and O28. -/
namespace Sys2Proof.Machine

/-! ### Ends -/

theorem writesGpr_complete_of_eq {s : State} {r : Reg} {v w : Word} (h : v = w) :
    WritesGpr (complete (writeGpr s r v)) s r w := h ▸ writesGpr_complete s r v

/-- An instruction that does nothing leaves any one register as it was. -/
theorem writesGpr_complete_self (s : State) (r : Reg) : WritesGpr (complete s) s r (readGpr s r) :=
  ends_complete rfl rfl (onlyChanges_refl _ s) (by
    show readGpr s r = _
    split
    · next h => rw [h, readGpr_zero]
    · rfl)

/-! ### Sums, differences and immediates -/

theorem sub_eq_ofInt (x y : Word) : x - y = BitVec.ofInt 32 (x.toInt - y.toInt) := by
  rw [Int.sub_eq_add_neg, BitVec.ofInt_add, BitVec.ofInt_neg, BitVec.ofInt_toInt, BitVec.ofInt_toInt,
    BitVec.sub_eq_add_neg]

theorem add_simm (x : Word) (imm : BitVec 16) : x + simm imm = BitVec.ofInt 32 (x.toInt + imm.toInt) := by
  rw [BitVec.ofInt_add, BitVec.ofInt_toInt]; rfl

theorem toInt_simm (imm : BitVec 16) : (simm imm).toInt = imm.toInt :=
  BitVec.toInt_signExtend_of_le (by decide)

theorem toNat_simm (imm : BitVec 16) : ((simm imm).toNat : Int) = imm.toInt % 2 ^ 32 := by
  have h : simm imm = BitVec.ofInt 32 imm.toInt := rfl
  rw [h, BitVec.toNat_ofInt]
  exact Int.toNat_of_nonneg (Int.emod_nonneg _ (by decide))

theorem uimm_eq_ofNat (imm : BitVec 16) : uimm imm = BitVec.ofNat 32 imm.toNat :=
  (BitVec.ofNat_toNat 32 imm).symm

theorem boolWord_decide (p : Prop) [Decidable p] : boolWord (decide p) = if p then 1#32 else 0#32 := by
  simp only [boolWord, decide_eq_true_eq]

/-! ### Shifts and rotations -/

theorem shiftLeft_eq_ofNat (x : Word) (n : Nat) : x <<< n = BitVec.ofNat 32 (x.toNat * 2 ^ n) := by
  apply BitVec.eq_of_toNat_eq
  rw [BitVec.toNat_shiftLeft, BitVec.toNat_ofNat, Nat.shiftLeft_eq]

theorem uimm_shiftLeft_sixteen (imm : BitVec 16) : uimm imm <<< 16 = BitVec.ofNat 32 (2 ^ 16 * imm.toNat) := by
  have h : (uimm imm).toNat = imm.toNat := BitVec.toNat_setWidth_of_le (by decide)
  rw [shiftLeft_eq_ofNat, h, Nat.mul_comm]

theorem ushiftRight_eq_ofNat (x : Word) (n : Nat) : x >>> n = BitVec.ofNat 32 (x.toNat / 2 ^ n) := by
  rw [← Nat.shiftRight_eq_div_pow, ← BitVec.toNat_ushiftRight, BitVec.ofNat_toNat, BitVec.setWidth_eq]

theorem sshiftRight_eq_ofInt (x : Word) (n : Nat) : x.sshiftRight n = BitVec.ofInt 32 (x.toInt / 2 ^ n) := by
  rw [BitVec.sshiftRight_eq, Int.shiftRight_eq_div_pow]; norm_cast

/-- The low five bits of a word are its remainder modulo 32 (R115). -/
theorem shiftAmount_eq_mod (v : Word) : shiftAmount v = v.toNat % 32 := by
  unfold shiftAmount
  rw [BitVec.toNat_and]
  exact Nat.and_two_pow_sub_one_eq_mod v.toNat 5

theorem getLsbD_rotateRight_mod (x : Word) {r i : Nat} (hr : r < 32) (hi : i < 32) :
    (x.rotateRight r).getLsbD i = x.getLsbD ((i + r) % 32) := by
  rw [BitVec.getLsbD_rotateRight_of_lt hr]
  by_cases h : i < 32 - r
  · have e : (i + r) % 32 = r + i := by omega
    simp [h, e]
  · have e : (i + r) % 32 = i - (32 - r) := by omega
    simp [h, hi, e]

/-! ### Counts of leading bits -/

theorem leadingZeros_le (v : Word) (k : Nat) : leadingZeros v k ≤ k := by
  induction k with
  | zero => exact Nat.le_refl 0
  | succ k ih => unfold leadingZeros; split <;> omega

/-- The bits that are counted are 0. -/
theorem getLsbD_of_lt_leadingZeros (v : Word) {k i : Nat} (h : i < leadingZeros v k) :
    v.getLsbD (k - 1 - i) = false := by
  induction k generalizing i with
  | zero => exact absurd h (Nat.not_lt_zero i)
  | succ k ih =>
    unfold leadingZeros at h
    split at h
    · exact absurd h (Nat.not_lt_zero i)
    · next hk =>
      cases i with
      | zero => simpa using hk
      | succ i =>
        have e : k + 1 - 1 - (i + 1) = k - 1 - i := by omega
        rw [e]; exact ih (by omega)

/-- The bit at which the count stops is 1. -/
theorem getLsbD_leadingZeros (v : Word) {k : Nat} (h : leadingZeros v k < k) :
    v.getLsbD (k - 1 - leadingZeros v k) = true := by
  induction k with
  | zero => exact absurd h (Nat.not_lt_zero _)
  | succ k ih =>
    unfold leadingZeros at h ⊢
    split
    · next hk => simpa using hk
    · next hk =>
      rw [if_neg hk] at h
      have e : k + 1 - 1 - (leadingZeros v k + 1) = k - 1 - leadingZeros v k := by omega
      rw [e]; exact ih (by omega)

theorem getLsbD_of_getLsbD_not (v : Word) {i : Nat} {b : Bool} (hi : i < 32) (h : (~~~v).getLsbD i = b) :
    v.getLsbD i = !b := by
  rw [← h, BitVec.getLsbD_not, decide_eq_true hi, Bool.true_and, Bool.not_not]

/-! ### Bytes and bits of the swaps -/

/-- Bytes are equal where their bits are. -/
theorem byteOf_eq_of_getLsbD {v w : Word} {i k : Nat}
    (h : ∀ j, j < 8 → v.getLsbD (8 * i + j) = w.getLsbD (8 * k + j)) : byteOf v i = byteOf w k := by
  apply BitVec.eq_of_getLsbD_eq
  intro j hj
  simp only [byteOf, BitVec.getLsbD_extractLsb', h j hj]

theorem getLsbD_lowByteMask {i : Nat} (hi : i < 32) : (0x00FF00FF#32).getLsbD i = decide (i % 16 < 8) := by
  revert i; decide

/-- The word that `wsbh` writes (R175). -/
def swapBytesInHalves (x : Word) : Word := ((x &&& 0x00FF00FF#32) <<< 8) ||| ((x >>> 8) &&& 0x00FF00FF#32)

theorem exec_wsbh (rd rt : Reg) (s : State) :
    exec (.wsbh rd rt) s = complete (writeGpr s rd (swapBytesInHalves (readGpr s rt))) := rfl

/-- The bits of `wsbh` (R175): the low byte of each half comes from 8 bits above, the high byte from 8 below. -/
theorem getLsbD_swapBytesInHalves (x : Word) {i : Nat} (hi : i < 32) :
    (swapBytesInHalves x).getLsbD i = x.getLsbD (if i % 16 < 8 then i + 8 else i - 8) := by
  unfold swapBytesInHalves
  rw [BitVec.getLsbD_or, BitVec.getLsbD_shiftLeft, BitVec.getLsbD_and, BitVec.getLsbD_and,
    getLsbD_lowByteMask hi, getLsbD_lowByteMask (by omega : i - 8 < 32), BitVec.getLsbD_ushiftRight]
  by_cases h : i % 16 < 8
  · have outside : i < 8 ∨ ¬ (i - 8) % 16 < 8 := by omega
    rcases outside with ho | ho <;> simp [h, ho, Nat.add_comm]
  · have inside : ¬ i < 8 ∧ (i - 8) % 16 < 8 := by omega
    simp [h, hi, inside]

/-- The low byte of each half is the high byte before. -/
theorem byteOf_swapBytesInHalves_even (x : Word) {h : Nat} (hh : h < 2) :
    byteOf (swapBytesInHalves x) (2 * h) = byteOf x (2 * h + 1) :=
  byteOf_eq_of_getLsbD fun j hj => by
    rw [getLsbD_swapBytesInHalves x (by omega), if_pos (by omega)]
    congr 1; omega

/-- The high byte of each half is the low byte before. -/
theorem byteOf_swapBytesInHalves_odd (x : Word) {h : Nat} (hh : h < 2) :
    byteOf (swapBytesInHalves x) (2 * h + 1) = byteOf x (2 * h) :=
  byteOf_eq_of_getLsbD fun j hj => by
    rw [getLsbD_swapBytesInHalves x (by omega), if_neg (by omega)]
    congr 1; omega

/-- The bytes of a word put together from four, the most significant first. -/
theorem byteOf_append (b : Nat → Byte) {i : Nat} (hi : i < 4) : byteOf (b 3 ++ b 2 ++ b 1 ++ b 0) i = b i := by
  unfold byteOf
  interval_cases i
  · exact BitVec.extractLsb'_append_eq_right
  · rw [BitVec.extractLsb'_append_eq_of_le (by decide)]
    exact BitVec.extractLsb'_append_eq_right
  · rw [BitVec.extractLsb'_append_eq_of_le (by decide), BitVec.extractLsb'_append_eq_of_le (by decide)]
    exact BitVec.extractLsb'_append_eq_right
  · rw [BitVec.extractLsb'_append_eq_of_le (by decide), BitVec.extractLsb'_append_eq_of_le (by decide)]
    exact BitVec.extractLsb'_append_eq_left

theorem getLsbD_reverseBits (x : Word) {i : Nat} (hi : i < 32) :
    (reverseBits x).getLsbD i = x.getLsbD (31 - i) := by
  unfold reverseBits
  rw [BitVec.getLsbD_reverse, BitVec.getMsbD_eq_getLsbD, decide_eq_true hi, Bool.true_and]

/-! ### The signed maximum and minimum -/

theorem ite_slt_eq_max (x y : Word) : (if y.slt x then x else y) = BitVec.ofInt 32 (max x.toInt y.toInt) := by
  by_cases h : y.toInt < x.toInt
  · rw [if_pos (BitVec.slt_iff_toInt_lt.2 h), max_eq_left h.le, BitVec.ofInt_toInt]
  · rw [if_neg (mt BitVec.slt_iff_toInt_lt.1 h), max_eq_right (not_lt.1 h), BitVec.ofInt_toInt]

theorem ite_slt_eq_min (x y : Word) : (if x.slt y then x else y) = BitVec.ofInt 32 (min x.toInt y.toInt) := by
  by_cases h : x.toInt < y.toInt
  · rw [if_pos (BitVec.slt_iff_toInt_lt.2 h), min_eq_left h.le, BitVec.ofInt_toInt]
  · rw [if_neg (mt BitVec.slt_iff_toInt_lt.1 h), min_eq_right (not_lt.1 h), BitVec.ofInt_toInt]

/-! ### The obligations -/

/-- Settles O23: `add` and `addu`, `addi` and `addiu`, `sub` and `subu` each have one effect. -/
theorem addAndSubtractWrap : Obligations.AddAndSubtractWrap := by
  intro s rd rs rt imm
  have add := writesGpr_complete_of_eq (s := s) (r := rd) (BitVec.add_def (readGpr s rs) (readGpr s rt))
  have addi := writesGpr_complete_of_eq (s := s) (r := rt) (add_simm (readGpr s rs) imm)
  have sub := writesGpr_complete_of_eq (s := s) (r := rd) (sub_eq_ofInt (readGpr s rs) (readGpr s rt))
  exact ⟨add, add, addi, addi, sub, sub⟩

/-- Settles O24: the four compares as a decided comparison of numbers, the immediates as numbers. -/
theorem logicAndCompareResults : Obligations.LogicAndCompareResults := by
  intro s rd rs rt imm
  refine ⟨writesGpr_complete .., writesGpr_complete .., writesGpr_complete .., writesGpr_complete ..,
    writesGpr_complete_of_eq ?andi, writesGpr_complete_of_eq ?ori, writesGpr_complete_of_eq ?xori,
    writesGpr_complete_of_eq (uimm_shiftLeft_sixteen imm), writesGpr_complete_of_eq ?slt,
    writesGpr_complete_of_eq ?sltu, writesGpr_complete_of_eq ?slti, writesGpr_complete_of_eq ?sltiu⟩
  case andi => rw [uimm_eq_ofNat]
  case ori => rw [uimm_eq_ofNat]
  case xori => rw [uimm_eq_ofNat]
  case slt => rw [BitVec.slt_eq_decide, boolWord_decide]
  case sltu => rw [BitVec.ult_eq_decide, boolWord_decide]
  case slti => rw [BitVec.slt_eq_decide, boolWord_decide, toInt_simm]
  case sltiu =>
    rw [BitVec.ult_eq_decide, boolWord_decide, ← toNat_simm]
    simp only [Nat.cast_lt]

/-- Settles O25: each shift by its arithmetic form, each rotation bit by bit. -/
theorem shiftAndRotateResults : Obligations.ShiftAndRotateResults := by
  intro s rd rs rt sa
  rw [← shiftAmount_eq_mod]
  have amount_lt : shiftAmount (readGpr s rs) < 32 := by rw [shiftAmount_eq_mod]; omega
  exact ⟨writesGpr_complete_of_eq (shiftLeft_eq_ofNat _ _),
    writesGpr_complete_of_eq (ushiftRight_eq_ofNat _ _),
    writesGpr_complete_of_eq (sshiftRight_eq_ofInt _ _),
    writesGpr_complete_of_eq (shiftLeft_eq_ofNat _ _),
    writesGpr_complete_of_eq (ushiftRight_eq_ofNat _ _),
    writesGpr_complete_of_eq (sshiftRight_eq_ofInt _ _),
    ⟨_, fun _ hi => getLsbD_rotateRight_mod _ sa.isLt hi, writesGpr_complete ..⟩,
    ⟨_, fun _ hi => getLsbD_rotateRight_mod _ amount_lt hi, writesGpr_complete ..⟩⟩

/-- Settles O27: the counts by what `leadingZeros` stops at (`clo` counts in the complement), the swaps by their
bytes and bits. -/
theorem countExtendAndSwapResults : Obligations.CountExtendAndSwapResults := by
  intro s rd rs rt
  refine ⟨⟨leadingZeros (readGpr s rs) 32, leadingZeros_le _ _, fun i hi => getLsbD_of_lt_leadingZeros _ hi,
      getLsbD_leadingZeros _, writesGpr_complete ..⟩,
    ⟨leadingZeros (~~~readGpr s rs) 32, leadingZeros_le _ _,
      fun i hi => getLsbD_of_getLsbD_not _ (by omega) (getLsbD_of_lt_leadingZeros _ hi),
      fun hn => getLsbD_of_getLsbD_not _ (by omega) (getLsbD_leadingZeros _ hn), writesGpr_complete ..⟩,
    writesGpr_complete .., writesGpr_complete ..,
    ⟨_, byteOf_swapBytesInHalves_even _ (h := 0) (by decide), byteOf_swapBytesInHalves_odd _ (h := 0) (by decide),
      byteOf_swapBytesInHalves_even _ (h := 1) (by decide), byteOf_swapBytesInHalves_odd _ (h := 1) (by decide),
      exec_wsbh rd rt s ▸ writesGpr_complete ..⟩,
    ⟨_, fun i hi => byteOf_append (fun k => byteOf (readGpr s rt) (3 - k)) hi, writesGpr_complete ..⟩,
    ⟨_, fun i hi => getLsbD_reverseBits _ hi, writesGpr_complete ..⟩⟩

/-- Settles O28: a move whose condition fails leaves `rd` as it was. -/
theorem conditionalMoveMaximumMinimum : Obligations.ConditionalMoveMaximumMinimum := by
  intro s rd rs rt
  refine ⟨?movz, ?movn, writesGpr_complete_of_eq (ite_slt_eq_max _ _),
    writesGpr_complete_of_eq (ite_slt_eq_min _ _)⟩
  case movz =>
    show WritesGpr (execMovz rd rs rt s) s rd _
    unfold execMovz
    split
    · exact writesGpr_complete ..
    · exact writesGpr_complete_self ..
  case movn =>
    show WritesGpr (execMovn rd rs rt s) s rd _
    unfold execMovn
    rw [ite_not]
    split
    · exact writesGpr_complete_self ..
    · exact writesGpr_complete ..

end Sys2Proof.Machine
end

section
/-! Divide and the moves of the accumulator and `IC` (spec/41_muldiv.md sections 2 and 4, spec/48_system.md section 3): the
obligations O31 and O32. -/
namespace Sys2Proof.Machine

/-! ### Writes of `HI`, `LO` and `IC` -/

/-- A change of `HI`, `LO` and `IC` alone, said register by register. -/
theorem onlyChanges_hi_lo_ic {s : State} {hi lo ic : Word} {may : Part → Prop} (hhi : ¬ may .hi → hi = s.hi)
    (hlo : ¬ may .lo → lo = s.lo) (hic : ¬ may .ic → ic = s.ic) :
    OnlyChanges may s { s with hi := hi, lo := lo, ic := ic } := fun p hp => by
  cases p
  case hi => exact hhi hp
  case lo => exact hlo hp
  case ic => exact hic hp
  case breakpoints => exact ⟨rfl, rfl⟩
  all_goals rfl

/-- The end of an instruction that writes `HI` and `LO` each by its own value. -/
theorem writesHilo_complete_parts (s : State) (hi lo : Word) :
    WritesHilo (complete { s with hi := hi, lo := lo }) s hi lo :=
  ends_complete rfl rfl
    (onlyChanges_hi_lo_ic (fun h => absurd (.inl rfl) h) (fun h => absurd (.inr rfl) h) fun _ => rfl) ⟨rfl, rfl⟩

theorem onlyChanges_hi (s : State) (v : Word) : OnlyChanges (fun p => p = .hi) s { s with hi := v } :=
  onlyChanges_hi_lo_ic (fun h => absurd rfl h) (fun _ => rfl) fun _ => rfl

theorem onlyChanges_lo (s : State) (v : Word) : OnlyChanges (fun p => p = .lo) s { s with lo := v } :=
  onlyChanges_hi_lo_ic (fun _ => rfl) (fun h => absurd rfl h) fun _ => rfl

theorem onlyChanges_ic (s : State) (v : Word) : OnlyChanges (fun p => p = .ic) s { s with ic := v } :=
  onlyChanges_hi_lo_ic (fun _ => rfl) (fun _ => rfl) fun h => absurd rfl h

/-! ### The unsigned divide -/

theorem exec_divu_of_zero {s : State} {rs rt : Reg} (h : readGpr s rt = 0#32) :
    exec (.divu rs rt) s = complete { s with hi := 0#32, lo := 0#32 } := if_pos h

theorem exec_divu_of_ne_zero {s : State} {rs rt : Reg} (h : readGpr s rt ≠ 0#32) :
    exec (.divu rs rt) s =
      complete { s with hi := readGpr s rs % readGpr s rt, lo := readGpr s rs / readGpr s rt } := if_neg h

/-! ### The obligations -/

/-- Settles O31: by whether the divisor is 0, the fallback (R203) or the word operations `%` and `/` as numbers. -/
theorem unsignedDivideAndItsFallback : Obligations.UnsignedDivideAndItsFallback := by
  intro s rs rt
  by_cases hz : readGpr s rt = 0#32
  · rw [exec_divu_of_zero hz, hz]
    exact writesHilo_complete_parts s _ _
  · have hn : (readGpr s rt).toNat ≠ 0 := fun h => hz (BitVec.eq_of_toNat_eq h)
    rw [exec_divu_of_ne_zero hz, if_neg hn, if_neg hn, ← BitVec.umod_def, ← BitVec.udiv_def]
    exact writesHilo_complete_parts s _ _

/-- Settles O32: a move to a general register is one register write; a move from one changes `HI`, `LO` or `IC`
alone. -/
theorem movesOfHiLoAndIc : Obligations.MovesOfHiLoAndIc := by
  intro s rd rs rt
  refine ⟨?mfhi, ?mflo, ?mthi, ?mtlo, ?mfic, ?mtic⟩
  case mfhi => exact writesGpr_complete s rd s.hi
  case mflo => exact writesGpr_complete s rd s.lo
  case mthi => exact ends_complete rfl rfl (onlyChanges_hi s (readGpr s rs)) rfl
  case mtlo => exact ends_complete rfl rfl (onlyChanges_lo s (readGpr s rs)) rfl
  case mfic => exact writesGpr_complete s rt s.ic
  case mtic => exact ends_complete rfl rfl (onlyChanges_ic s (readGpr s rt)) rfl

end Sys2Proof.Machine
end

section
/-! Branches (spec/43_branch_jump.md sections 1, 3, 4 and 5): the Boolean each one tests against the condition of its
rule, then the obligations O39, O40 and O41. -/
namespace Sys2Proof.Machine

/-! ### The conditions -/

theorem slt_zero_iff (v : Word) : v.slt 0#32 = true ↔ v.toInt < 0 := BitVec.slt_iff_toInt_lt

theorem zero_slt_iff (v : Word) : (0#32).slt v = true ↔ 0 < v.toInt := BitVec.slt_iff_toInt_lt

theorem not_slt_zero_iff (v : Word) : (!v.slt 0#32) = true ↔ 0 ≤ v.toInt := by
  rw [Bool.not_eq_true', ← Bool.not_eq_true, slt_zero_iff, not_lt]

theorem not_zero_slt_iff (v : Word) : (!(0#32).slt v) = true ↔ v.toInt ≤ 0 := by
  rw [Bool.not_eq_true', ← Bool.not_eq_true, zero_slt_iff, not_lt]

theorem not_conditionCode_iff (s : State) :
    (!conditionCode s) = true ↔ s.fcr31.getLsbD s.cfg.ccBit.val = false :=
  iff_of_eq (Bool.not_eq_true' _)

/-! ### The obligations -/

/-- Settles O39: a plain branch in state normal, with the test of each of the eight. -/
theorem plainBranchesGoWhereTheySay : Obligations.PlainBranchesGoWhereTheySay := by
  intro s rs rt off hn
  refine ⟨?beq, ?bne, ?blez, ?bgtz, ?bltz, ?bgez, ?bc1f, ?bc1t⟩
  case beq => exact branchesIf_branch hn decide_eq_true_iff off
  case bne => exact branchesIf_branch hn decide_eq_true_iff off
  case blez => exact branchesIf_branch hn (not_zero_slt_iff _) off
  case bgtz => exact branchesIf_branch hn (zero_slt_iff _) off
  case bltz => exact branchesIf_branch hn (slt_zero_iff _) off
  case bgez => exact branchesIf_branch hn (not_slt_zero_iff _) off
  case bc1f => exact branchesIf_branch hn (not_conditionCode_iff s) off
  case bc1t => exact branchesIf_branch (taken := conditionCode s) hn Iff.rfl off

/-- Settles O40: the same eight tests, each at the end of a likely branch. -/
theorem likelyBranchesGoWhereTheySay : Obligations.LikelyBranchesGoWhereTheySay := by
  intro s rs rt off hn
  refine ⟨?beql, ?bnel, ?blezl, ?bgtzl, ?bltzl, ?bgezl, ?bc1fl, ?bc1tl⟩
  case beql => exact branchesIf_branchLikely hn decide_eq_true_iff off
  case bnel => exact branchesIf_branchLikely hn decide_eq_true_iff off
  case blezl => exact branchesIf_branchLikely hn (not_zero_slt_iff _) off
  case bgtzl => exact branchesIf_branchLikely hn (zero_slt_iff _) off
  case bltzl => exact branchesIf_branchLikely hn (slt_zero_iff _) off
  case bgezl => exact branchesIf_branchLikely hn (not_slt_zero_iff _) off
  case bc1fl => exact branchesIf_branchLikely hn (not_conditionCode_iff s) off
  case bc1tl => exact branchesIf_branchLikely (taken := conditionCode s) hn Iff.rfl off

/-- Settles O41: the test reads the register as it was before the link is written, so `rs = 31` is no case of its
own (R253). -/
theorem branchAndLinkWritesTheLinkEitherWay : Obligations.BranchAndLinkWritesTheLinkEitherWay := by
  intro s rs off hn
  have negative := slt_zero_iff (readGpr s rs)
  have nonnegative := not_slt_zero_iff (readGpr s rs)
  exact ⟨linksAndBranchesIf_branchLink hn negative off, linksAndBranchesIf_branchLink hn nonnegative off,
    linksAndBranchesIf_branchLinkLikely hn negative off, linksAndBranchesIf_branchLinkLikely hn nonnegative off⟩

end Sys2Proof.Machine
end

section
/-! The compares of the scalar floating-point unit (spec/44_fpu.md, R330): each of the eight quiet predicates by the
bits of its `cond`, the signalling row by the row above it, then the obligation O49. -/
namespace Sys2Proof.Machine

/-- Bit 3 of `cond`, that of the signalling row, has no effect. -/
theorem compareCond_or_eight (cond : BitVec 4) (a b : Word) :
    compareCond (cond ||| 8#4) a b = compareCond cond a b := by
  have low {i : Nat} (h : (8#4).getLsbD i = false) : (cond ||| 8#4).getLsbD i = cond.getLsbD i := by
    rw [BitVec.getLsbD_or, h, Bool.or_false]
  unfold compareCond
  rw [low (i := 0) rfl, low (i := 1) rfl, low (i := 2) rfl]

/-- A compare of the signalling row sets what the one above it sets. -/
theorem setsCondition_compareResult_or_eight {s : State} {fs ft : FReg} {p : Prop} (cond : BitVec 4)
    (h : SetsCondition (compareResult s cond fs ft) s p) :
    SetsCondition (compareResult s (cond ||| 8#4) fs ft) s p := by
  unfold compareResult at h ⊢
  rwa [compareCond_or_eight]

/-- A compare sets the disjunction of the comparisons that bits 0, 1 and 2 of its `cond` choose. -/
theorem setsCondition_compareResult_of_bits {s : State} {fs ft : FReg} {a b : Word} {u p : Prop} (cond : BitVec 4)
    (ha : a = readFpr s fs) (hb : b = readFpr s ft) (hu : u ↔ IsNaN a ∨ IsNaN b)
    (hp : (u ∧ cond.getLsbD 0 = true) ∨ (EqualTo a b ∧ cond.getLsbD 1 = true) ∨
      (LessThan a b ∧ cond.getLsbD 2 = true) ↔ p) :
    SetsCondition (compareResult s cond fs ft) s p :=
  setsCondition_compareResult s cond fs ft (by rw [← ha, ← hb, compareCond_iff, ← hu, hp])

/-- Settles O49: the quiet row by the bits of its eight `cond`s; the signalling row sets what that row sets. -/
theorem comparesSetTheConditionCode : Obligations.ComparesSetTheConditionCode := by
  intro s fs ft a b u ha hb hu
  have sets (cond : BitVec 4) (p : Prop) := setsCondition_compareResult_of_bits (p := p) cond ha hb hu
  have f := sets 0#4 False (by simp)
  have un := sets 1#4 u (by simp)
  have eq := sets 2#4 (EqualTo a b) (by simp)
  have ueq := sets 3#4 (u ∨ EqualTo a b) (by simp)
  have olt := sets 4#4 (LessThan a b) (by simp)
  have ult := sets 5#4 (u ∨ LessThan a b) (by simp)
  have ole := sets 6#4 (LessThan a b ∨ EqualTo a b) (by simp [or_comm])
  have ule := sets 7#4 (u ∨ LessThan a b ∨ EqualTo a b) (by simp [or_comm])
  have signalling {p : Prop} := setsCondition_compareResult_or_eight (s := s) (fs := fs) (ft := ft) (p := p)
  exact ⟨f, un, eq, ueq, olt, ult, ole, ule, signalling 0#4 f, signalling 1#4 un, signalling 2#4 eq,
    signalling 3#4 ueq, signalling 4#4 olt, signalling 5#4 ult, signalling 6#4 ole, signalling 7#4 ule⟩

end Sys2Proof.Machine
end

section
/-! The setters of the latches (spec/45_vfpu_regs_prefix.md, R377 to R379) and the instructions that do nothing (R602 to R604,
R446 to R448): the obligation O58. -/
namespace Sys2Proof.Machine

/-! ### Writes of the latches -/

/-- A change of the three latches alone, said latch by latch. -/
theorem onlyChanges_latches {s : State} {ls lt ld : PrefixLatch} {may : Part → Prop} (hs : ¬ may .pfxs → ls = s.pfxs)
    (ht : ¬ may .pfxt → lt = s.pfxt) (hd : ¬ may .pfxd → ld = s.pfxd) :
    OnlyChanges may s { s with pfxs := ls, pfxt := lt, pfxd := ld } := fun p hp => by
  cases p
  case pfxs => exact hs hp
  case pfxt => exact ht hp
  case pfxd => exact hd hp
  case breakpoints => exact ⟨rfl, rfl⟩
  all_goals rfl

theorem onlyChanges_pfxs (s : State) (l : PrefixLatch) : OnlyChanges (fun p => p = .pfxs) s { s with pfxs := l } :=
  onlyChanges_latches (fun h => absurd rfl h) (fun _ => rfl) fun _ => rfl

theorem onlyChanges_pfxt (s : State) (l : PrefixLatch) : OnlyChanges (fun p => p = .pfxt) s { s with pfxt := l } :=
  onlyChanges_latches (fun _ => rfl) (fun h => absurd rfl h) fun _ => rfl

theorem onlyChanges_pfxd (s : State) (l : PrefixLatch) : OnlyChanges (fun p => p = .pfxd) s { s with pfxd := l } :=
  onlyChanges_latches (fun _ => rfl) (fun _ => rfl) fun h => absurd rfl h

/-- A descriptor enters its latch as an unsigned number (R8). -/
theorem setLatch_zeroExtend {n : Nat} (d : BitVec n) : setLatch (d.zeroExtend 32) = ⟨true, BitVec.ofNat 32 d.toNat⟩ :=
  congrArg setLatch (BitVec.ofNat_toNat 32 d).symm

/-! ### The word 0 -/

theorem decodeWord_zero : decodeWord 0#32 = .ok (.sll 0 0 0) := rfl

/-- A write of register 0 has no effect (R20). -/
theorem writeGpr_zero (s : State) (v : Word) : writeGpr s 0 v = s := rfl

theorem exec_sll_zero (rt : Reg) (sa : Fin 32) (s : State) : exec (.sll 0 rt sa) s = complete s :=
  congrArg complete (writeGpr_zero s _)

/-! ### The obligation -/

/-- Settles O58: each setter is one write of a latch; the others complete in the state they found, `nop` because it
shifts into register 0. -/
theorem prefixSettersAndHints : Obligations.PrefixSettersAndHints := by
  intro s d dd off rs
  have nothing := changesNothing_complete s
  refine ⟨?vpfxs, ?vpfxt, ?vpfxd, nothing, nothing, nothing, nothing, nothing, ?nop⟩
  case vpfxs => exact ends_complete rfl rfl (onlyChanges_pfxs s _) (setLatch_zeroExtend d)
  case vpfxt => exact ends_complete rfl rfl (onlyChanges_pfxt s _) (setLatch_zeroExtend d)
  case vpfxd => exact ends_complete rfl rfl (onlyChanges_pfxd s _) (setLatch_zeroExtend dd)
  case nop => exact ⟨_, decodeWord_zero, exec_sll_zero 0 0 s ▸ nothing⟩

end Sys2Proof.Machine
end

section
/-! The instructions of Tier U (R460 and R609; R284 to R287 for the four branches): the obligation O60. -/
namespace Sys2Proof.Machine

/-- What an instruction of Tier U does: the fault alone (R460, R609), after the test for a pending redirect where it
is a control transfer (R252). The four branches are its control transfers; every other row either is of another tier
or has the fault as its meaning. -/
theorem exec_of_tier_eq_u {i : Instr} (tierU : i.row.tier = .U) (s : State) :
    exec i s = bif i.isControlTransfer then controlTransfer s (unimplemented s i.row.mnemonic)
      else unimplemented s i.row.mnemonic := by
  cases i with
  | bvf | bvt | bvfl | bvtl => rfl
  | _ => cases tierU <;> rfl

/-- Settles O60: where no redirect is pending, a control transfer of Tier U has the fault too. -/
theorem tierUInstructionsFaultByName : Obligations.TierUInstructionsFaultByName := by
  intro i s tierU normal
  rw [exec_of_tier_eq_u tierU s]
  obtain notTransfer | notPending := normal
  · rw [notTransfer, cond_false]
    rfl
  · rw [controlTransfer_normal notPending, Bool.cond_self]
    rfl

end Sys2Proof.Machine
end

section
/-! The opcode table (spec/30_encoding.md section 4): its rows are apart, the encoder's words stand in their rows, and
a word of a row is the encoding of its instruction up to the bits the decoder ignores. The obligations O19 to O22. -/
namespace Sys2Proof

/-! ### The rows are apart -/

/-- Any two rows of the table both fix some bit, and fix it differently. -/
theorem table_pairwise_apart :
    table.Pairwise fun r q => r.mask &&& q.mask &&& (r.bits ^^^ q.bits) ≠ 0#32 := by decide +kernel

/-- A word matches the row at one place of the table at most (R116). -/
theorem index_eq_of_accepts {j k : Nat} {hj : j < table.length} {hk : k < table.length} {w : Word}
    (aj : table[j].accepts w = true) (ak : table[k].accepts w = true) : j = k := by
  rcases Nat.lt_trichotomy j k with h | h | h
  · exact (row_eq_of_accepts aj ak (List.pairwise_iff_getElem.1 table_pairwise_apart j k hj hk h)).elim
  · exact h
  · exact (row_eq_of_accepts ak aj (List.pairwise_iff_getElem.1 table_pairwise_apart k j hk hj h)).elim

theorem eq_of_accepts {r q : Row} {w : Word} (hr : r ∈ table) (hq : q ∈ table) (ar : r.accepts w = true)
    (aq : q.accepts w = true) : r = q := by
  obtain ⟨j, hj, rfl⟩ := List.getElem_of_mem hr
  obtain ⟨k, hk, rfl⟩ := List.getElem_of_mem hq
  simp only [index_eq_of_accepts ar aq]

/-! ### Looking up -/

/-- The row of a word is the row of the table that it matches. -/
theorem lookup_eq_some_iff {r : Row} {w : Word} : lookup w = some r ↔ r ∈ table ∧ r.accepts w = true := by
  refine ⟨fun h => ⟨List.mem_of_find?_eq_some h, List.find?_some (p := (Row.accepts · w)) h⟩, fun ⟨hr, ar⟩ => ?_⟩
  cases h : lookup w with
  | none => exact absurd ar (List.find?_eq_none.1 h r hr)
  | some q => rw [eq_of_accepts (List.mem_of_find?_eq_some h) hr (List.find?_some (p := (Row.accepts · w)) h) ar]

/-- What a word decodes to is read by the row that it matches. -/
theorem decodeWord_eq_ok_iff {w : Word} {i : Instr} :
    decodeWord w = .ok i ↔ ∃ r ∈ table, r.accepts w = true ∧ r.build w = i := by
  unfold decodeWord
  cases h : lookup w with
  | none =>
    refine iff_of_false (fun h => nomatch h) fun ⟨r, hr, ar, _⟩ => ?_
    rw [lookup_eq_some_iff.2 ⟨hr, ar⟩] at h
    cases h
  | some r =>
    obtain ⟨hr, ar⟩ := lookup_eq_some_iff.1 h
    refine ⟨fun e => ⟨r, hr, ar, Except.ok.inj e⟩, fun ⟨q, hq, aq, e⟩ => ?_⟩
    rw [← e, eq_of_accepts hr hq ar aq]

theorem Row.accepts_iff {r : Row} {w : Word} : r.accepts w = true ↔ w &&& r.mask = r.bits := beq_iff_eq

/-! ### Encoding, then decoding -/

/-- The word of an instruction stands in the instruction's row, which reads the instruction back from it. -/
theorem encode_in_row : ∀ i : Instr, Laws.EncodeInRow.Statement i :=
  open Laws.EncodeInRow in Instr.rec
    add addu addi addiu sub subu and or xor nor andi ori xori lui slt sltu slti sltiu sll srl sra sllv srlv srav
    rotr rotrv ext ins clz clo seb seh wsbh wsbw bitrev movz movn max min mult multu div divu madd maddu msub msubu
    mfhi mflo mthi mtlo lb lbu lh lhu lw sb sh sw lwl lwr swl swr lwc1 swc1 ll sc beq bne blez bgtz bltz bgez j jal
    jr jalr bltzal bgezal bltzall bgezall beql bnel blezl bgtzl bltzl bgezl bc1f bc1t bc1fl bc1tl bvf bvt bvfl bvtl
    addS subS mulS divS sqrtS absS movS negS cvtWS roundWS truncWS ceilWS floorWS cvtSW cFS cUnS cEqS cUeqS cOltS
    cUltS cOleS cUleS cSfS cNgleS cSeqS cNglS cLtS cNgeS cLeS cNgtS ctc1 cfc1 mfc1 mtc1 vpfxs vpfxt vpfxd lvQ svQ
    lvlQ lvrQ svlQ svrQ lvS svS vmzero vmone vmidt vmmov vmmul vrot vt4444Q vt5551Q vt5650Q vadd vsub vmul vdiv vmov
    vabs vneg vzero vone vscl vdot viimS mtv mfv vsin vcos vsqrt vtfm2 vtfm3 vtfm4 vcrsT vsrt1 vsrt2 vsrt3 vsrt4
    vhtfm2 vhtfm3 vhtfm4 vsbn vhdp vdet vcmp vmin vmax vscmp vsge vslt vidt vsat0 vsat1 vrcp vrsq vexp2 vlog2 vasin
    vnrcp vnsin vrexp2 vrnds vrndi vrndf1 vrndf2 vf2h vh2f vsbz vlgb vuc2i vc2i vus2i vs2i vi2uc vi2c vi2us vi2s
    vbfy1 vbfy2 vocp vsocp vfad vavg vsgn vmfvc vmtvc vcst vf2in vf2iz vf2iu vf2id vi2f vcmovt vcmovf vwbn vmscl
    vcrspT vqmulQ vfimS mfvc mtvc syscall brk cache mfic mtic vnop vsync vflush sync mfc0 mtc0 cfc0 ctc0 eret halt
    dret dbreak mfdr mtdr

/-- Settles O19: the word stands in the instruction's row, and in no other. -/
theorem encodedInstructionsDecodeBack : Obligations.EncodedInstructionsDecodeBack := fun i =>
  have ⟨inTable, fixed, readBack⟩ := encode_in_row i
  decodeWord_eq_ok_iff.2 ⟨i.row, inTable, Row.accepts_iff.2 fixed, readBack⟩

/-! ### Decoding, then encoding -/

/-- Two words have the same bits under a mask. -/
def Agree (mask x y : Word) : Prop := x &&& mask = y &&& mask

theorem agree_iff {mask x y : Word} : Agree mask x y ↔ (x ^^^ y) &&& mask = 0#32 := by
  unfold Agree
  rw [← BitVec.xor_eq_zero_iff]
  refine Eq.congr_left (BitVec.eq_of_getLsbD_eq fun i _ => ?_)
  simp only [BitVec.getLsbD_xor, BitVec.getLsbD_and, Bool.and_xor_distrib_right]

theorem agree_zero (x y : Word) : Agree 0#32 x y := by
  unfold Agree
  rw [BitVec.and_zero, BitVec.and_zero]

/-- Words that agree under a mask agree under every mask within it. -/
theorem Agree.mono {mask part x y : Word} (h : Agree mask x y) (hp : mask &&& part = part) : Agree part x y := by
  unfold Agree at h ⊢
  rw [← hp, ← BitVec.and_assoc, ← BitVec.and_assoc, h]

theorem agree_and_agree {m n x y : Word} : Agree m x y ∧ Agree n x y ↔ Agree (m ||| n) x y := by
  rw [agree_iff, agree_iff, agree_iff, BitVec.and_or_distrib_left, BitVec.or_eq_zero_iff]

theorem extractLsb'_eq_iff {lo n : Nat} {x y : Word} : x.extractLsb' lo n = y.extractLsb' lo n ↔
    Agree ((BitVec.allOnes n).setWidth 32 <<< lo) x y := by
  unfold Agree
  refine ⟨fun h => BitVec.eq_of_getLsbD_eq fun i hi => ?_, fun h => BitVec.eq_of_getLsbD_eq fun i hi => ?_⟩
  · have bit := congrArg (BitVec.getLsbD · (i - lo)) h
    simp only [BitVec.getLsbD_extractLsb'] at bit
    simp only [BitVec.getLsbD_and, BitVec.getLsbD_shiftLeft, BitVec.getLsbD_setWidth, BitVec.getLsbD_allOnes]
    by_cases hl : i < lo
    · simp [hl]
    · rw [show lo + (i - lo) = i by omega] at bit
      by_cases hn : i - lo < n <;> simp [hn, hl] at bit ⊢; simp [bit]
  · by_cases hx : lo + i < 32
    · have bit := congrArg (BitVec.getLsbD · (lo + i)) h
      simp [hx, hi] at bit
      simpa [hi, BitVec.getLsbD_eq_getElem hx] using bit
    · simp [BitVec.getLsbD_of_ge _ _ (by omega : 32 ≤ lo + i)]

theorem regAt_eq_iff {lo : Nat} {x y : Word} : regAt x lo = regAt y lo ↔ Agree (31#32 <<< lo) x y := by
  have five : (31#32 : Word) = (BitVec.allOnes 5).setWidth 32 := rfl
  rw [five, ← extractLsb'_eq_iff]
  exact BitVec.toFin_inj

theorem selAt_eq_iff {lo : Nat} {x y : Word} : selAt x lo = selAt y lo ↔ Agree (127#32 <<< lo) x y :=
  extractLsb'_eq_iff

theorem sizeAt_eq_iff {x y : Word} : sizeAt x = sizeAt y ↔ Agree 0x8080#32 x y := by
  have inj : ∀ t o t' o' : BitVec 1, VSize.ofBits t o = VSize.ofBits t' o' ↔ t = t' ∧ o = o' := by decide
  exact (inj ..).trans ((and_congr extractLsb'_eq_iff extractLsb'_eq_iff).trans agree_and_agree)

theorem append_eq_iff {m n : Nat} {x x' : BitVec m} {y y' : BitVec n} : x ++ y = x' ++ y' ↔ x = x' ∧ y = y' := by
  refine ⟨fun h => ⟨?_, ?_⟩, fun ⟨hx, hy⟩ => by rw [hx, hy]⟩
  · rw [← BitVec.extractLsb'_append_eq_left (a := x) (b := y), h, BitVec.extractLsb'_append_eq_left]
  · rw [← BitVec.extractLsb'_append_eq_right (a := x) (b := y), h, BitVec.extractLsb'_append_eq_right]

theorem quadSelAt_eq_iff {x y : Word} : quadSelAt x = quadSelAt y ↔ Agree 0x1F0001#32 x y :=
  append_eq_iff.trans ((and_congr extractLsb'_eq_iff extractLsb'_eq_iff).trans agree_and_agree)

theorem singleSelAt_eq_iff {x y : Word} : singleSelAt x = singleSelAt y ↔ Agree 0x1F0003#32 x y :=
  append_eq_iff.trans ((and_congr extractLsb'_eq_iff extractLsb'_eq_iff).trans agree_and_agree)

/-- The bits that the rule of a row ignores (log entry 18). -/
def ignoredBits (mnemonic : String) : Word :=
  if mnemonic ∈ ["vpfxs", "vpfxt"] then 0x00F00000#32
  else if mnemonic = "vpfxd" then 0x00FFF000#32
  else if mnemonic = "cache" then 0x001F0000#32
  else if mnemonic ∈ ["mfc0", "mtc0", "cfc0", "ctc0", "mfdr", "mtdr"] then 0x001FF800#32
  else 0#32

/-- The operands of a row take up every bit of a word that the row neither fixes nor ignores. -/
theorem agree_of_build_eq (i : Instr) {x y : Word} (h : i.row.build x = i.row.build y) :
    Agree (~~~(i.row.mask ||| ignoredBits i.row.mnemonic)) x y := by
  cases i with
  | vnop | vsync | vflush | sync | mfc0 | mtc0 | cfc0 | ctc0 | eret | halt | dret | dbreak | mfdr | mtdr =>
    exact (agree_zero x y).mono rfl
  | _ =>
    conv at h => lhs; whnf
    conv at h => rhs; whnf
    simp [regAt_eq_iff, selAt_eq_iff, sizeAt_eq_iff, quadSelAt_eq_iff, singleSelAt_eq_iff,
      extractLsb'_eq_iff, agree_and_agree] at h
    exact h.mono (by dsimp only [Instr.row]; decide)
/-- A row builds instructions of its own: by computation, family by family. -/
theorem row_build {r : Row} (hr : r ∈ table) (w : Word) : (r.build w).row = r := by
  have family {rows : List Row} (h : rows.map (fun r => (r.build w).row) = rows.map id) :
      ∀ r ∈ rows, (r.build w).row = r := List.map_inj_left.1 h
  revert r
  unfold table
  simp only [List.forall_mem_append]
  exact ⟨⟨⟨⟨⟨⟨⟨⟨⟨family rfl, family rfl⟩, family rfl⟩, family rfl⟩, family rfl⟩, family rfl⟩, family rfl⟩, family rfl⟩,
    family rfl⟩, family rfl⟩

/-- The encoder writes 0 to the bits that are ignored. -/
theorem encode_and_ignoredBits (i : Instr) : encode i &&& ignoredBits i.row.mnemonic = 0#32 := by
  cases i with
  | vpfxs d | vpfxt d =>
    show fPfx 55 _ 0 d &&& fPfx 0 0 15 0 = 0#32
    simp only [fPfx_and, BitVec.ofNat_eq_ofNat, BitVec.and_zero, BitVec.zero_and]; rfl
  | vpfxd d =>
    show fPfxD 55 2 0 d &&& fPfxD 0 0 0xFFF 0 = 0#32
    simp only [fPfxD_and, BitVec.ofNat_eq_ofNat, BitVec.and_zero, BitVec.zero_and]; rfl
  | cache off rs =>
    show fI 47 (.ofFin rs) 0 off &&& fI 0 0 31 0 = 0#32
    simp only [fI_and, BitVec.ofNat_eq_ofNat, BitVec.and_zero, BitVec.zero_and]; rfl
  | mfc0 | mtc0 | cfc0 | ctc0 | mfdr | mtdr => rfl
  | _ => exact BitVec.and_zero

/-- A word and the encoding of what it decodes to agree on every bit that is not ignored. -/
theorem agree_encode {w : Word} {i : Instr} (h : decodeWord w = .ok i) :
    Agree (~~~ignoredBits i.row.mnemonic) w (encode i) := by
  obtain ⟨r, hr, ar, rfl⟩ := decodeWord_eq_ok_iff.1 h
  obtain ⟨-, fixed, readBack⟩ := encode_in_row (r.build w)
  rw [row_build hr] at fixed readBack ⊢
  have operands := agree_of_build_eq (r.build w) (x := w) (y := encode (r.build w)) (by rw [row_build hr, readBack])
  rw [row_build hr] at operands
  have both := agree_and_agree.1 ⟨(Row.accepts_iff.1 ar).trans fixed.symm, operands⟩
  exact both.mono (by
    refine BitVec.eq_of_getLsbD_eq fun k hk => ?_
    simp only [BitVec.getLsbD_and, BitVec.getLsbD_or, BitVec.getLsbD_not, hk, decide_true, Bool.true_and]
    cases r.mask.getLsbD k <;> simp)

/-- Settles O20: on the ignored bits, which the claim leaves out, the encoding is 0. -/
theorem decodedWordsEncodeBack : Obligations.DecodedWordsEncodeBack := by
  intro w i h
  have zero := encode_and_ignoredBits i
  refine (agree_encode h).trans (BitVec.eq_of_getLsbD_eq fun k hk => ?_)
  have bit := congrArg (BitVec.getLsbD · k) zero
  simp only [BitVec.getLsbD_and, BitVec.getLsbD_zero, BitVec.getLsbD_not, hk, decide_true, Bool.true_and] at bit ⊢
  cases he : (encode i).getLsbD k <;> simp_all

/-- Settles O21: two places with a word in common are one place. -/
theorem rowsAreDisjoint : Obligations.RowsAreDisjoint :=
  ⟨by decide +kernel, fun _ _ _ _ _ hne ⟨aj, ak⟩ => hne (index_eq_of_accepts aj ak)⟩

/-- Settles O22: by the row that each of the words matches. -/
theorem sampleWordsDecode : Obligations.SampleWordsDecode := by
  refine ⟨rfl, rfl, rfl, rfl, rfl, rfl, rfl, rfl, rfl, rfl, rfl, rfl, rfl⟩
end Sys2Proof
end

section
/-! The invariant of the machine (spec/10_state.md sections 1 and 2): each update of the state keeps it, so each
instruction does, so each step does. The obligations O5 and O6. -/
namespace Sys2Proof.Machine

/-! ### What a step can answer -/

theorem breakpointHit_iff (s : State) : breakpointHit s = true ↔
    s.bpEnabled = true ∧ (s.pc ∈ s.bpSet ∨ maskAddr s s.pc ∈ s.bpSet) := by
  simp only [breakpointHit, Bool.and_eq_true, Bool.or_eq_true, List.contains_iff_mem]

/-- A step that answers a next state paused, or ran an instruction on the state with `IR` holding its word (R630). -/
theorem step_next_cases {s t : State} (h : step s = .next t) :
    t = { s with outcome := .paused s.pc } ∨ ∃ w i, exec i { s with ir := w } = .next t := by
  unfold step at h
  split at h
  · exact .inl (Host.Outcome.next.inj h).symm
  · right
    unfold runFetched at h
    cases hf : fetch s with
    | error f => rw [hf] at h; cases h
    | ok w =>
      rw [hf] at h
      change runWord s w = .next t at h
      unfold runWord at h
      split at h
      · cases h
      · next r _ =>
        split at h
        · cases h
        · exact ⟨w, r.build w, h⟩

/-! ### Each update keeps the invariant -/

theorem jumpTarget_aligned (s : State) (target : BitVec 26) : (jumpTarget s target).toNat % 4 = 0 := by
  have low : ((target.zeroExtend 32 <<< 2 : Word)).toNat % 2 ^ 2 = 0 := by
    rw [BitVec.toNat_shiftLeft, Nat.shiftLeft_eq]; omega
  have high : (s.npc &&& 0xF0000000#32).toNat % 2 ^ 2 = 0 := by
    rw [BitVec.toNat_and, Nat.and_mod_two_pow]; exact Nat.and_zero _
  rw [jumpTarget, BitVec.toNat_or]
  exact Nat.or_mod_two_pow.trans (congrArg₂ (· ||| ·) high low)

theorem toNat_zeroExtend_lt {n : Nat} (d : BitVec n) (hn : n ≤ 32) : (d.zeroExtend 32).toNat < 2 ^ n := by
  rw [BitVec.toNat_setWidth_of_le hn]; exact d.isLt

namespace Inv

variable {s : State} (inv : Inv s)
include inv

/-- The invariant reads memory, the program counters, register 0 and the latches alone. -/
theorem of_same {t : State} (memory : t.mem = s.mem) (pc : t.pc = s.pc) (npc : t.npc = s.npc) (gpr : t.gpr = s.gpr)
    (sourceS : t.pfxs.value = s.pfxs.value) (sourceT : t.pfxt.value = s.pfxt.value)
    (destD : t.pfxd.value = s.pfxd.value) : Inv t where
  memory := memory ▸ inv.memory
  pc := pc ▸ inv.pc
  npc := npc ▸ inv.npc
  zero := gpr ▸ inv.zero
  sourceS := sourceS ▸ inv.sourceS
  sourceT := sourceT ▸ inv.sourceT
  destD := destD ▸ inv.destD

theorem writeGpr (r : Reg) (v : Word) : Inv (writeGpr s r v) where
  __ := inv
  zero := by
    rw [writeGpr_gpr]
    split
    · exact inv.zero
    · next h =>
      have hr : r.val ≠ 0 := fun e => h (Fin.ext e)
      rw [Vector.getElem_set_ne _ _ hr, inv.zero]

theorem withMem {m : Memory} (h : m.wf = true) : Inv { s with mem := m } := { inv with memory := h }

theorem writeFpr (f : FReg) (v : Word) : Inv (writeFpr s f v) := inv.of_same rfl rfl rfl rfl rfl rfl rfl

theorem withVfr (v : Vector Word 128) : Inv { s with vfr := v } := inv.of_same rfl rfl rfl rfl rfl rfl rfl

theorem withHiloIc (hi lo ic : Word) : Inv { s with hi := hi, lo := lo, ic := ic } :=
  inv.of_same rfl rfl rfl rfl rfl rfl rfl

theorem withFcr31 (v : Word) : Inv { s with fcr31 := v } := inv.of_same rfl rfl rfl rfl rfl rfl rfl

theorem withPfxs (d : BitVec 20) : Inv { s with pfxs := setLatch (d.zeroExtend 32) } :=
  { inv with sourceS := toNat_zeroExtend_lt d (by decide) }

theorem withPfxt (d : BitVec 20) : Inv { s with pfxt := setLatch (d.zeroExtend 32) } :=
  { inv with sourceT := toNat_zeroExtend_lt d (by decide) }

theorem withPfxd (d : BitVec 12) : Inv { s with pfxd := setLatch (d.zeroExtend 32) } :=
  { inv with destD := toNat_zeroExtend_lt d (by decide) }

theorem consume : Inv (consume s) := inv.of_same rfl rfl rfl rfl rfl rfl rfl

theorem aligned_add_npc {d : Word} (hd : d.toNat % 4 = 0) : (s.npc + d).toNat % 4 = 0 := by
  have := inv.npc
  rw [BitVec.toNat_add]; omega

/-! ### The ends of an instruction -/

theorem sequential (o : StepOutcome) : Inv (retire (sequential s) o) :=
  { inv with pc := inv.npc, npc := inv.aligned_add_npc (by decide) }

theorem redirect {target : Word} (h : target.toNat % 4 = 0) (o : StepOutcome) :
    Inv (retire (redirect s target) o) := { inv with pc := inv.npc, npc := h }

theorem squash (o : StepOutcome) : Inv (retire (squash s) o) :=
  { inv with pc := inv.aligned_add_npc (by decide), npc := inv.aligned_add_npc (by decide) }

theorem complete : Keeps (complete s) Inv := keeps_complete (inv.sequential _)

/-! ### Targets of control transfers -/

theorem branchTarget_aligned (off : BitVec 16) : (branchTarget s off).toNat % 4 = 0 := by
  refine inv.aligned_add_npc ?_
  rw [BitVec.toNat_shiftLeft, Nat.shiftLeft_eq]; omega

theorem branch (taken : Bool) (off : BitVec 16) : Keeps (branch s taken off) Inv :=
  keeps_branch (inv.redirect (inv.branchTarget_aligned off) _) (inv.sequential _)

theorem branchLikely (taken : Bool) (off : BitVec 16) : Keeps (branchLikely s taken off) Inv :=
  keeps_branchLikely (inv.redirect (inv.branchTarget_aligned off) _) (inv.squash _)

theorem branchLink (taken : Bool) (off : BitVec 16) : Keeps (branchLink s taken off) Inv :=
  keeps_branchLink ((inv.writeGpr _ _).redirect (inv.branchTarget_aligned off) _) ((inv.writeGpr _ _).sequential _)

theorem branchLinkLikely (taken : Bool) (off : BitVec 16) : Keeps (branchLinkLikely s taken off) Inv :=
  keeps_branchLinkLikely ((inv.writeGpr _ _).redirect (inv.branchTarget_aligned off) _) ((inv.writeGpr _ _).squash _)

omit inv in
/-- A jump to a register runs only where the target is a multiple of 4 (R264). -/
theorem registerJump {target : Word} {r : Result} (h : target.toNat % 4 = 0 → Keeps r Inv) :
    Keeps (registerJump s target r) Inv := by
  refine keeps_controlTransfer ?_
  split
  · exact keeps_raiseFault
  · next ht => exact h (not_not.1 ht)

/-! ### Memory -/

theorem memWrite8 {a : Word} {v : Byte} : Keeps (orFault (memWrite8 s a v) Machine.complete) Inv := by
  unfold Machine.memWrite8; split
  · exact keeps_raiseFault
  · exact (inv.withMem (Memory.wf_setByteAt _ v inv.memory)).complete

theorem memWrite16 {a : Word} {v : BitVec 16} : Keeps (orFault (memWrite16 s a v) Machine.complete) Inv := by
  unfold Machine.memWrite16; split
  · exact keeps_raiseFault
  · exact (inv.withMem (Memory.wf_setHalf _ v inv.memory)).complete

theorem memWrite32 {a v : Word} {k : State → Result} (hk : ∀ t, Inv t → Keeps (k t) Inv) :
    Keeps (orFault (memWrite32 s a v) k) Inv := by
  unfold Machine.memWrite32; split
  · exact keeps_raiseFault
  · exact hk _ (inv.withMem (Memory.wf_setWord _ v inv.memory))

theorem vectorLoad (f : Option Fault) (c : List (Slot × Word)) : Keeps (vectorLoad s f c) Inv :=
  keeps_vectorLoad fun v => (inv.withVfr v).sequential _

theorem vectorStore (f : Option Fault) (c : List (Slot × Word)) : Keeps (vectorStore s f c) Inv := by
  unfold Machine.vectorStore; split
  · exact keeps_raiseFault
  · rw [storeWords_eq]; exact (inv.withMem (storeWords_wf _ inv.memory)).complete

end Inv

/-! ### Each instruction keeps the invariant -/

/-- Every instruction keeps the invariant: by the operation that its meaning ends in. -/
theorem exec_keeps_inv (i : Instr) {s : State} (inv : Inv s) : Keeps (exec i s) Inv := by
  have gpr (r : Reg) (v : Word) : Keeps (complete (writeGpr s r v)) Inv := (inv.writeGpr r v).complete
  have fpr (f : FReg) (v : Word) : Keeps (complete (writeFpr s f v)) Inv := (inv.writeFpr f v).complete
  have loads {α : Type} (e : Except Fault α) {r : Reg} {f : α → Word} :
      Keeps (orFault e fun v => complete (writeGpr s r (f v))) Inv := keeps_orFault fun v => gpr r (f v)
  have hiloIc (hi lo ic : Word) : Keeps (complete { s with hi := hi, lo := lo, ic := ic }) Inv :=
    (inv.withHiloIc hi lo ic).complete
  have notes (f : FReg) (v : Word) : Keeps (arithResult s f v) Inv := ((inv.writeFpr f v).withFcr31 _).complete
  have compares (cond : BitVec 4) (fs ft : FReg) : Keeps (compareResult s cond fs ft) Inv :=
    (inv.withFcr31 _).complete
  have consuming (v : Vector Word 128) : Inv (retire (sequential (consume { s with vfr := v })) .continued) :=
    (inv.withVfr v).consume.sequential _
  cases i with
  -- a write of one general register
  | add | addu | addi | addiu | sub | subu | and | or | xor | nor | andi | ori | xori | lui | slt | sltu | slti | sltiu
  | sll | srl | sra | sllv | srlv | srav | rotr | rotrv | clz | clo | seb | seh | wsbh | wsbw | bitrev | max | min
  | mfhi | mflo | mfc1 | mfv | mfic => exact gpr _ _
  | ext | ins => exact keeps_ite (gpr _ _) keeps_reservedOperand
  | movz rd rs rt | movn rd rs rt =>
    refine Inv.complete ?_
    split
    · exact inv.writeGpr _ _
    · exact inv
  | cfc1 rt cr =>
    show Keeps (execCfc1 rt cr s) Inv
    unfold execCfc1
    split
    · exact gpr _ _
    · exact keeps_raiseFault
  | lb | lbu | lh | lhu | lw | ll | lwl | lwr => exact loads _
  -- a write of a float register, a slot, `FCR31`, `HI`, `LO` or `IC`
  | cvtWS | roundWS | truncWS | ceilWS | floorWS | cvtSW | mtc1 => exact fpr _ _
  | lwc1 => exact keeps_orFault fun v => fpr _ v
  | lvS => exact keeps_orFault fun v => (inv.withVfr _).complete
  | mtv => exact (inv.withVfr _).complete
  | addS | subS | mulS | divS | sqrtS | absS | movS | negS => exact notes _ _
  | cFS | cUnS | cEqS | cUeqS | cOltS | cUltS | cOleS | cUleS | cSfS | cNgleS | cSeqS | cNglS | cLtS | cNgeS | cLeS
  | cNgtS => exact compares _ _ _
  | ctc1 => exact keeps_ite (inv.withFcr31 _).complete keeps_raiseFault
  | mult | multu | madd | maddu | msub | msubu | mthi | mtlo | mtic => exact hiloIc _ _ _
  | div => exact keeps_ite keeps_raiseFault (hiloIc _ _ _)
  | divu => exact keeps_ite (hiloIc _ _ _) (hiloIc _ _ _)
  -- stores
  | sb => exact inv.memWrite8
  | sh => exact inv.memWrite16
  | sw | swc1 | svS => exact inv.memWrite32 fun _ h => h.complete
  | sc => exact inv.memWrite32 fun _ h => (h.writeGpr _ _).complete
  | swl | swr => exact keeps_orFault fun _ => inv.memWrite32 fun _ h => h.complete
  | lvQ | lvlQ | lvrQ => exact inv.vectorLoad _ _
  | svQ | svlQ | svrQ => exact inv.vectorStore _ _
  -- control transfers
  | beq | bne | blez | bgtz | bltz | bgez | bc1f | bc1t => exact inv.branch _ _
  | beql | bnel | blezl | bgtzl | bltzl | bgezl | bc1fl | bc1tl => exact inv.branchLikely _ _
  | bltzal | bgezal => exact inv.branchLink _ _
  | bltzall | bgezall => exact inv.branchLinkLikely _ _
  | j target => exact keeps_controlTransfer (keeps_completeJump (inv.redirect (jumpTarget_aligned s target) _))
  | jal target =>
    exact keeps_controlTransfer (keeps_completeJump ((inv.writeGpr _ _).redirect (jumpTarget_aligned s target) _))
  | jr => exact Inv.registerJump fun h => keeps_completeJump (inv.redirect h _)
  | jalr => exact Inv.registerJump fun h => keeps_completeJump ((inv.writeGpr _ _).redirect h _)
  | bvf | bvt | bvfl | bvtl => exact keeps_controlTransfer keeps_unimplemented
  -- the latches and the vector bank
  | vpfxs d => exact (inv.withPfxs d).complete
  | vpfxt d => exact (inv.withPfxt d).complete
  | vpfxd d => exact (inv.withPfxd d).complete
  | vmzero | vmone | vmidt | vmmov | vmmul => exact keeps_matrixResult consuming
  | vt4444Q | vt5551Q | vt5650Q => exact keeps_colourPack consuming
  | vadd | vsub | vmul | vdiv => exact keeps_vectorBinary consuming
  | vmov | vabs | vneg => exact keeps_vectorUnary consuming
  | vzero | vone | viimS => exact keeps_finishVec consuming
  | vrot sz vd vs imm5 =>
    show Keeps (execVrot sz vd vs imm5 s) Inv
    unfold execVrot
    split
    · exact keeps_finishVec consuming
    · exact keeps_reservedOperand
  | vscl sz vd vs vt =>
    show Keeps (execVscl sz vd vs vt s) Inv
    unfold execVscl
    split
    · exact keeps_finishVec consuming
    · exact keeps_reservedOperand
  | vdot sz vd vs vt =>
    show Keeps (execVdot sz vd vs vt s) Inv
    unfold execVdot
    split
    · exact keeps_finishVec consuming
    · exact keeps_reservedOperand
  -- hints, traps and Tier U
  | vnop | vsync | vflush | sync | cache => exact inv.complete
  | syscall | brk => exact keeps_raiseTrap (inv.sequential _)
  | _ => exact keeps_unimplemented

/-! ### The obligations -/

/-- Settles O5: a pause changes the outcome alone, and an instruction keeps the invariant. -/
theorem everyStepKeepsTheInvariant : Obligations.EveryStepKeepsTheInvariant := by
  intro s t inv h
  rcases step_next_cases h with rfl | ⟨w, i, hi⟩
  · exact inv.of_same rfl rfl rfl rfl rfl rfl rfl
  · exact exec_keeps_inv i (s := { s with ir := w }) (inv.of_same rfl rfl rfl rfl rfl rfl rfl) t hi

theorem inv_create {c : Config} {entry : Word} {m : Memory} (aligned : entry.toNat % 4 = 0) (canonical : m.wf = true) :
    Inv (State.create c entry m) where
  memory := canonical
  pc := aligned
  npc := by
    show (entry + 4#32).toNat % 4 = 0
    rw [BitVec.toNat_add, show (4#32 : Word).toNat = 4 from rfl]; omega
  zero := Vector.getElem_replicate _
  sourceS := Nat.two_pow_pos _
  sourceT := Nat.two_pow_pos _
  destD := Nat.two_pow_pos _

/-- Settles O6: reset is one of the creations. -/
theorem resetMeetsTheInvariant : Obligations.ResetMeetsTheInvariant :=
  ⟨inv_create rfl rfl, fun _ _ _ => inv_create⟩

end Sys2Proof.Machine
end

section
/-! What a step changes and what it leaves (spec/10_state.md, spec/44_fpu.md section 0): from `exec_frame`, which says it of
every instruction. The obligations O8 to O15, O43 and O44. -/
namespace Sys2Proof.Machine

/-! ### A step, by its instruction -/

/-- A step that answers a next state paused, or its instruction did what `Frame` says on the state with `IR` set. -/
theorem step_frame {s t : State} (h : step s = .next t) :
    t = { s with outcome := .paused s.pc } ∨ ∃ w i, exec i { s with ir := w } = .next t ∧ Frame i { s with ir := w } t :=
  (step_next_cases h).imp_right fun ⟨w, i, hi⟩ => ⟨w, i, hi, exec_frame i _ t hi⟩

theorem Frame.not_paused {i : Instr} {s t : State} (frame : Frame i s t) (pc : Word) : t.outcome ≠ .paused pc := by
  rcases frame.outcome with h | ⟨_, _, h⟩ <;> rw [h] <;> exact fun h => nomatch h

/-- Settles O8: a pause counts nothing, an instruction counts one. -/
theorem countCountsCompletedSteps : Obligations.CountCountsCompletedSteps := by
  intro s t h
  rcases step_frame h with rfl | ⟨w, i, -, frame⟩
  · exact ⟨fun _ => rfl, fun h => by rcases h with h | ⟨_, _, h⟩ <;> cases h⟩
  · exact ⟨fun ⟨a, ha⟩ => absurd ha (frame.not_paused a), fun _ => frame.count⟩

/-- Settles O9: by the frame of the instruction. -/
theorem stepKeepsParametersAndBreakpoints : Obligations.StepKeepsParametersAndBreakpoints := by
  intro s t h
  rcases step_frame h with rfl | ⟨w, i, -, frame⟩
  · exact ⟨rfl, rfl, rfl⟩
  · exact ⟨frame.config, frame.breakpoints⟩

/-- Settles O10: another instruction keeps both. -/
theorem hiloIsWrittenOnlyByItsInstructions : Obligations.HiloIsWrittenOnlyByItsInstructions := by
  intro i s t h changed
  by_contra hw
  obtain ⟨hi, lo⟩ := (exec_frame i s t h).hilo (Bool.eq_false_of_not_eq_true hw)
  exact changed.elim (· hi) (· lo)

/-- Settles O11: another instruction keeps memory, or `FCR31`. -/
theorem memoryAndFcr31AreWrittenOnlyByTheirInstructions :
    Obligations.MemoryAndFcr31AreWrittenOnlyByTheirInstructions := by
  intro i s t h
  have frame := exec_frame i s t h
  refine ⟨fun a changed => ?_, fun changed => ?_⟩
  · by_contra hs
    exact changed (by rw [frame.memory (Bool.eq_false_of_not_eq_true hs)])
  · by_contra hw
    simp only [not_or, Bool.not_eq_true] at hw
    obtain ⟨notes, compares, ctc1⟩ := hw
    exact changed (frame.fcr31 (by simp [notes, compares, ctc1]))

/-- Settles O14: by the frame of the instruction. -/
theorem latchesAreSetAndConsumedAsStated : Obligations.LatchesAreSetAndConsumedAsStated := fun i s t h =>
  ⟨(exec_frame i s t h).consumed, (exec_frame i s t h).latches⟩

/-- Settles O15: by the frame of the instruction. -/
theorem otherInstructionsAdvanceInSequence : Obligations.OtherInstructionsAdvanceInSequence := fun i s t h =>
  ⟨(exec_frame i s t h).sequential, (exec_frame i s t h).transferred⟩

/-! ### Delay slots -/

/-- A control transfer tests for a pending redirect before all else (R252). -/
theorem exec_of_isControlTransfer {i : Instr} (h : i.isControlTransfer = true) (s : State) :
    ∃ r, exec i s = controlTransfer s r := by
  cases i with
  | beq | bne | blez | bgtz | bltz | bgez | j | jal | jr | jalr | bltzal | bgezal | bltzall | bgezall | beql | bnel | blezl
  | bgtzl | bltzl | bgezl | bc1f | bc1t | bc1fl | bc1tl | bvf | bvt | bvfl | bvtl => exact ⟨_, rfl⟩
  | _ => cases h

/-- Settles O43: the test for a pending redirect comes first. -/
theorem controlTransferInADelaySlotFaults : Obligations.ControlTransferInADelaySlotFaults := by
  intro i s transfer pending
  obtain ⟨r, hr⟩ := exec_of_isControlTransfer transfer s
  rw [hr, controlTransfer_pending pending]

/-- Settles O44: what runs in a delay slot is no control transfer, for that would fault. -/
theorem redirectTakesEffectAfterTheDelaySlot : Obligations.RedirectTakesEffectAfterTheDelaySlot := by
  intro s t pending h running
  rcases step_frame h with rfl | ⟨w, i, hi, frame⟩
  · exact absurd rfl (running s.pc)
  · cases transfer : i.isControlTransfer with
    | true =>
      rw [controlTransferInADelaySlotFaults i { s with ir := w } transfer pending] at hi
      cases hi
    | false =>
      obtain ⟨pc, npc⟩ := frame.sequential transfer
      exact ⟨pc, by rw [npc, pc]⟩

/-! ### `FCR31` -/

/-- What an instruction can do to `FCR31`: set sticky bits (R38), nothing, or write `CC` (R330), unless it is `ctc1`. -/
theorem fcr31_of_exec {i : Instr} {s t : State} (h : exec i s = .next t) :
    (i.notesResult = true ∧ ∃ r, t.fcr31 = s.fcr31 ||| stickyBits s.cfg r) ∨
    (i.notesResult = false ∧ (t.fcr31 = s.fcr31 ∨ ∃ c, t.fcr31 = (writeConditionCode s c).fcr31)) ∨
    ∃ rt cr, i = .ctc1 rt cr := by
  have other : (i.notesResult || i.isCompare || i.row.mnemonic == "ctc1") = false → t.fcr31 = s.fcr31 :=
    (exec_frame i s t h).fcr31
  cases i with
  | addS | subS | mulS | divS | sqrtS | absS | movS | negS =>
    cases h
    exact .inl ⟨rfl, _, rfl⟩
  | cFS | cUnS | cEqS | cUeqS | cOltS | cUltS | cOleS | cUleS | cSfS | cNgleS | cSeqS | cNglS | cLtS | cNgeS | cLeS
  | cNgtS =>
    cases h
    exact .inr (.inl ⟨rfl, .inr ⟨_, rfl⟩⟩)
  | ctc1 => exact .inr (.inr ⟨_, _, rfl⟩)
  | _ => exact .inr (.inl ⟨rfl, .inl (other rfl)⟩)

theorem or_and_eq_of_and_eq_zero {x y m : Word} (h : y &&& m = 0#32) : (x ||| y) &&& m = x &&& m := by
  rw [BitVec.and_comm, BitVec.and_or_distrib_left, BitVec.and_comm m y, h, BitVec.or_zero, BitVec.and_comm]

theorem and_not_and_eq_of_and_eq_zero {x y m : Word} (h : y &&& m = 0#32) : x &&& ~~~y &&& m = x &&& m := by
  refine BitVec.eq_of_getLsbD_eq fun i hi => ?_
  have bit := congrArg (BitVec.getLsbD · i) h
  simp only [BitVec.getLsbD_and, BitVec.getLsbD_zero, BitVec.getLsbD_not, hi, decide_true, Bool.true_and] at bit ⊢
  cases hm : m.getLsbD i <;> simp_all

theorem and_not_or_self (x y : Word) : x &&& ~~~(x ||| y) = 0#32 := by
  rw [BitVec.not_or, ← BitVec.and_assoc, BitVec.and_not_self]
  exact BitVec.zero_and

/-- Writing `CC` leaves the bits under a mask without `CC` as they were. -/
theorem writeConditionCode_and {s : State} {m : Word} (h : bitMask s.cfg.ccBit &&& m = 0#32) (c : Bool) :
    (writeConditionCode s c).fcr31 &&& m = s.fcr31 &&& m := by
  rw [writeConditionCode_fcr31]
  split
  · exact or_and_eq_of_and_eq_zero h
  · exact and_not_and_eq_of_and_eq_zero h

/-- The sticky bits of a result lie in the two sticky masks (R38). -/
theorem stickyBits_and {c : Config} {m : Word} (hn : c.nanMask &&& m = 0#32) (hi : c.infMask &&& m = 0#32) (r : Word) :
    stickyBits c r &&& m = 0#32 := by
  have part {p : Bool} {x : Word} (h : x &&& m = 0#32) : (if p then x else 0#32) &&& m = 0#32 := by
    cases p
    · exact BitVec.zero_and
    · exact h
  rw [stickyBits, or_and_eq_of_and_eq_zero (part hi), part hn]

/-- Admissible sticky masks leave `CC` out (R38). -/
theorem ccBit_and_stickyMasks {c : Config} (h : c.wf = true) : bitMask c.ccBit &&& (c.nanMask ||| c.infMask) = 0#32 := by
  simp only [Config.wf, Bool.and_eq_true, beq_iff_eq] at h
  obtain ⟨⟨⟨⟨-, sticky⟩, -⟩, -⟩, -⟩ := h
  rw [Config.fieldBits, BitVec.and_or_distrib_left, BitVec.and_or_distrib_left, BitVec.or_eq_zero_iff,
    BitVec.or_eq_zero_iff] at sticky
  rw [BitVec.and_comm]
  exact sticky.1.2

/-- An admissible `FCR31_WMASK` contains the sticky masks and `CC` (R347). -/
theorem masks_and_not_wmask {c : Config} (h : c.wf = true) :
    c.nanMask &&& ~~~c.wmask = 0#32 ∧ c.infMask &&& ~~~c.wmask = 0#32 ∧ bitMask c.ccBit &&& ~~~c.wmask = 0#32 := by
  simp only [Config.wf, Bool.and_eq_true, beq_iff_eq] at h
  obtain ⟨⟨⟨-, written⟩, -⟩, -⟩ := h
  rw [BitVec.and_comm] at written
  simp only [Config.fieldBits, BitVec.and_or_distrib_left, BitVec.or_eq_zero_iff] at written
  obtain ⟨⟨nan, inf⟩, ⟨-, cc⟩, -⟩ := written
  rw [BitVec.and_comm] at nan inf cc
  exact ⟨nan, inf, cc⟩

/-- Settles O12: a note of a result only sets bits, and the compares leave the sticky masks alone. -/
theorem stickyFlagsAreClearedOnlyByCtc1 : Obligations.StickyFlagsAreClearedOnlyByCtc1 := by
  intro i s t wf hc h
  have cleared (x m : Word) (hx : x &&& ~~~t.fcr31 = 0#32) : x &&& m &&& ~~~t.fcr31 = 0#32 := by
    rw [BitVec.and_assoc, BitVec.and_comm m, ← BitVec.and_assoc, hx, BitVec.zero_and]
  rcases fcr31_of_exec h with ⟨notes, r, e⟩ | ⟨-, e⟩ | ⟨rt, cr, rfl⟩
  · refine ⟨fun hn => Bool.noConfusion (hn.symm.trans notes), cleared _ _ ?_⟩
    rw [e, and_not_or_self]
  · have same : t.fcr31 &&& (s.cfg.nanMask ||| s.cfg.infMask) = s.fcr31 &&& (s.cfg.nanMask ||| s.cfg.infMask) := by
      rcases e with e | ⟨c, e⟩
      · rw [e]
      · rw [e, writeConditionCode_and (ccBit_and_stickyMasks wf)]
    exact ⟨fun _ => same, same ▸ cleared _ _ (BitVec.and_not_self _)⟩
  · exact absurd rfl hc

/-- What `ctc1` leaves in `FCR31` where it answers a next state (R347). -/
theorem fcr31_of_exec_ctc1 {rt : Reg} {cr : Fin 32} {s t : State} (h : exec (.ctc1 rt cr) s = .next t) :
    t.fcr31 = (writeFcr31 s (readGpr s rt)).fcr31 := by
  change execCtc1 rt cr s = .next t at h
  unfold execCtc1 at h
  split at h
  · cases h; rfl
  · cases h

/-- No instruction changes a bit of `FCR31` outside an admissible `FCR31_WMASK`. -/
theorem fcr31_and_not_wmask_of_exec {i : Instr} {s t : State} (wf : s.cfg.wf = true) (h : exec i s = .next t) :
    t.fcr31 &&& ~~~s.cfg.wmask = s.fcr31 &&& ~~~s.cfg.wmask := by
  obtain ⟨nan, inf, cc⟩ := masks_and_not_wmask wf
  rcases fcr31_of_exec h with ⟨-, r, e⟩ | ⟨-, e | ⟨c, e⟩⟩ | ⟨rt, cr, rfl⟩
  · rw [e, or_and_eq_of_and_eq_zero (stickyBits_and nan inf r)]
  · rw [e]
  · rw [e, writeConditionCode_and cc]
  · have inside : readGpr s rt &&& s.cfg.wmask &&& ~~~s.cfg.wmask = 0#32 := by
      rw [BitVec.and_assoc, BitVec.and_not_self]
      exact BitVec.and_zero
    rw [fcr31_of_exec_ctc1 h, writeFcr31_fcr31, BitVec.or_comm, or_and_eq_of_and_eq_zero inside, BitVec.and_assoc,
      BitVec.and_self]

/-- Settles O13: a pause changes the outcome alone. -/
theorem bitsOutsideTheWriteMaskNeverChange : Obligations.BitsOutsideTheWriteMaskNeverChange := by
  intro s t wf h
  rcases step_next_cases h with rfl | ⟨w, i, hi⟩
  · rfl
  · exact fcr31_and_not_wmask_of_exec (s := { s with ir := w }) wf hi

end Sys2Proof.Machine
end

section
/-! A step before its instruction (spec/60_exceptions.md section 1), creation (spec/10_state.md section 7), traps
(spec/48_system.md section 1) and batches (spec/60_exceptions.md R636). The obligations O1, O2, O3, O7, O17 and O59. -/
namespace Sys2Proof.Machine

/-! ### Breakpoint, fetch, decode -/

/-- Settles O3: a breakpoint that is hit pauses. -/
theorem breakpointPausesWithNothingCommitted : Obligations.BreakpointPausesWithNothingCommitted :=
  fun s enabled hit => if_pos ((breakpointHit_iff s).2 ⟨enabled, hit⟩)

theorem step_of_not_hit {s : State} (h : ¬ (s.bpEnabled = true ∧ (s.pc ∈ s.bpSet ∨ maskAddr s s.pc ∈ s.bpSet))) :
    step s = runFetched s := if_neg fun hit => h ((breakpointHit_iff s).1 hit)

theorem runFetched_of_fetchFault {s : State} {f : Fault} (h : fetchFault s = some f) : runFetched s = .fault f := by
  unfold runFetched fetch; rw [h]; rfl

/-- The word a fetch gives, named by its number. -/
theorem fetch_eq_ok {s : State} {w : Word} (h : Fetchable s) (hw : littleEndian s (maskAddr s s.pc).toNat 4 = w.toNat) :
    fetch s = .ok w := by
  rw [fetch_of_fetchable h, hw, BitVec.ofNat_toNat, BitVec.setWidth_eq]

theorem runFetched_of_fetch {s : State} {w : Word} (h : fetch s = .ok w) : runFetched s = runWord s w := by
  unfold runFetched; rw [h]; rfl

/-- The row of a word is that of the instruction it decodes to. -/
theorem lookup_of_decodeWord {w : Word} {i : Instr} (h : decodeWord w = .ok i) :
    ∃ r, lookup w = some r ∧ r.build w = i ∧ r = i.row := by
  obtain ⟨r, hr, accepts, rfl⟩ := decodeWord_eq_ok_iff.1 h
  exact ⟨r, lookup_eq_some_iff.2 ⟨hr, accepts⟩, rfl, (row_build hr w).symm⟩

/-- A word that decodes runs, unless the parameters decline its tier (R630 steps 5 and 6). -/
theorem runWord_of_decodeWord {s : State} {w : Word} {i : Instr} (h : decodeWord w = .ok i) : runWord s w =
    if tierRefused s i.row then raiseFault (.unimplemented s.pc i.row.mnemonic) else exec i { s with ir := w } := by
  obtain ⟨r, found, built, row⟩ := lookup_of_decodeWord h
  unfold runWord
  rw [found, ← row, ← built]

theorem runWord_of_no_row {s : State} {w : Word} (h : ∀ r ∈ table, w &&& r.mask ≠ r.bits) :
    runWord s w = .fault (.invalidInstruction s.pc w) := by
  have none : lookup w = none := List.find?_eq_none.2 fun r hr accepts => h r hr (Row.accepts_iff.1 accepts)
  unfold runWord; rw [none]; rfl

theorem tierRefused_iff {s : State} {r : Row} : tierRefused s r = true ↔ r.tier = .K ∧ s.cfg.admitTierK = false := by
  simp [tierRefused]

/-- Settles O1: the breakpoint test, the fetch, the decoding and the tier test, in that order. -/
theorem stepRunsTheDecodedInstruction : Obligations.StepRunsTheDecodedInstruction := by
  intro s w i noHit fetchable hw decoded tier
  have admitted : ¬ tierRefused s i.row = true := fun refused => by
    obtain ⟨tierK, declined⟩ := tierRefused_iff.1 refused
    exact Bool.noConfusion (declined.symm.trans (tier tierK))
  rw [step_of_not_hit noHit, runFetched_of_fetch (fetch_eq_ok fetchable hw), runWord_of_decodeWord decoded,
    if_neg admitted]

/-- Settles O2: each fault where all the tests before it pass. -/
theorem stepFaultsBeforeAnInstructionRuns : Obligations.StepFaultsBeforeAnInstructionRuns := by
  intro s w noHit
  rw [step_of_not_hit noHit]
  refine ⟨fun misaligned => runFetched_of_fetchFault (if_pos misaligned), fun aligned refused => ?_,
    fun fetchable hw => ⟨fun noRow => ?_, fun i decoded tierK declined => ?_⟩⟩
  · refine runFetched_of_fetchFault ?_
    unfold fetchFault
    rw [if_neg (not_not.2 aligned), accessFault_of_refused (maskAddr_aligned aligned) refused]
  · rw [runFetched_of_fetch (fetch_eq_ok fetchable hw), runWord_of_no_row noRow]
  · rw [runFetched_of_fetch (fetch_eq_ok fetchable hw), runWord_of_decodeWord decoded,
      if_pos (tierRefused_iff.2 ⟨tierK, declined⟩)]
    rfl

/-! ### Creation and traps -/

/-- Settles O7: the registers are filled with 0, and `F` reads 0 where it is a slot too. -/
theorem creationValues : Obligations.CreationValues := by
  intro c entry m
  refine ⟨fun r => ?_, fun f => ?_, fun k => Vector.getElem_replicate _, rfl, rfl, rfl, rfl, rfl, rfl, rfl, rfl, rfl,
    rfl, rfl, rfl, rfl, rfl⟩
  · unfold readGpr
    split
    · rfl
    · exact Vector.getElem_replicate _
  · unfold readFpr
    split
    · exact Vector.getElem_replicate _
    · exact Vector.getElem_replicate _

/-- Settles O59: both are the one operation that takes a trap. -/
theorem trapsCommitThenSignal : Obligations.TrapsCommitThenSignal :=
  fun s code => ⟨traps_raiseTrap s .syscall code, traps_raiseTrap s .brk code⟩

/-! ### Batches -/

/-- What a batch does first: it goes on after a step that returned `Continue`, and else ends at once, having executed
the step only where it returned `Trap`. -/
theorem batch_succ_cases (n : Nat) (s : State) :
    (∃ t, step s = .next t ∧ t.count = s.count + 1 ∧ ∀ n, batch (n + 1) s = (batch n t).after) ∨
    ((batch (n + 1) s).ending ≠ .exhausted ∧
      (batch (n + 1) s).state.count = s.count + (batch (n + 1) s).executed) := by
  cases h : step s with
  | fault f =>
    right
    rw [batch, h]
    refine ⟨(nomatch ·), ?_⟩
    show (afterFault s).count = s.count
    unfold afterFault
    split <;> rfl
  | refused r =>
    right
    rw [batch, h]
    exact ⟨(nomatch ·), rfl⟩
  | next t =>
    obtain ⟨paused, executed⟩ := countCountsCompletedSteps s t h
    cases ho : t.outcome with
    | continued => exact .inl ⟨t, rfl, executed (.inl ho), fun n => by rw [batch, h]; simp only; rw [ho]⟩
    | paused pc =>
      right
      rw [batch, h]; simp only; rw [ho]
      exact ⟨(nomatch ·), paused ⟨pc, ho⟩⟩
    | trap k code =>
      right
      rw [batch, h]; simp only; rw [ho]
      exact ⟨(nomatch ·), executed (.inr ⟨k, code, ho⟩)⟩

/-- The number of executed instructions is the growth of `COUNT`. -/
theorem count_batch (n : Nat) (s : State) : (batch n s).state.count = s.count + (batch n s).executed := by
  induction n generalizing s with
  | zero => rfl
  | succ n ih =>
    rcases batch_succ_cases n s with ⟨t, -, count, goesOn⟩ | ⟨-, count⟩
    · rw [goesOn]
      show (batch n t).state.count = s.count + ((batch n t).executed + 1)
      rw [ih, count]; omega
    · exact count

/-- A batch that was exhausted has executed all its steps, and a longer one goes on from where it ended. -/
theorem batch_add {n : Nat} (m : Nat) {s : State} (h : (batch n s).ending = .exhausted) : (batch n s).executed = n ∧
    batch (n + m) s = { batch m (batch n s).state with executed := (batch m (batch n s).state).executed + n } := by
  induction n generalizing s with
  | zero => exact ⟨rfl, by rw [Nat.zero_add]; rfl⟩
  | succ n ih =>
    rcases batch_succ_cases n s with ⟨t, -, -, goesOn⟩ | ⟨stopped, -⟩
    · rw [goesOn] at h ⊢
      obtain ⟨executed, rest⟩ := ih h
      refine ⟨congrArg (· + 1) executed, ?_⟩
      rw [Nat.add_right_comm, goesOn, rest]
      rfl
    · exact absurd h stopped

theorem batch_succ_of_fault {s : State} {f : Fault} (h : step s = .fault f) (n : Nat) :
    batch (n + 1) s = ⟨afterFault s, .fault f, 0⟩ := by
  rw [batch, h]

/-- Settles O17: a batch that is exhausted ran step by step, and a step that faults leaves `afterFault`. -/
theorem batchesCompose : Obligations.BatchesCompose := by
  refine fun n m s => ⟨batch_add m, count_batch n s, fun f h => ?_⟩
  rw [batch_succ_of_fault h]
  by_cases fetchable : Fetchable s
  · rw [afterFault_of_fetchable fetchable]
    refine ⟨_, rfl, fun _ => ?_, fun h => absurd fetchable h⟩
    rw [BitVec.toNat_ofNat, Nat.mod_eq_of_lt (littleEndian_lt s _ 4)]
  · rw [afterFault_of_not_fetchable fetchable]
    exact ⟨s.ir, rfl, fun h => absurd h fetchable, fun _ => rfl⟩

end Sys2Proof.Machine
end

section
/-! Breakpoints that are switched off (spec/60_exceptions.md section 4): every operation answers alike under another
`BP_SET`. The obligation O4. -/
namespace Sys2Proof.Machine

/-- The state with another breakpoint set. -/
def rearm (set : List Word) (s : State) : State := { s with bpSet := set }

/-- A result with its next state changed. -/
def mapNext (g : State → State) : Result → Result
  | .next t    => .next (g t)
  | .fault f   => .fault f
  | .refused r => .refused r

/-! ### Each operation -/

theorem mapNext_ite {g : State → State} {c : Prop} {_ : Decidable c} {a a' b b' : Result} (ha : a' = mapNext g a)
    (hb : b' = mapNext g b) : (if c then a' else b') = mapNext g (if c then a else b) := by
  rw [ha, hb]; exact (apply_ite ..).symm

theorem mapNext_orFault {α : Type} {g : State → State} {e : Except Fault α} {k k' : α → Result}
    (h : ∀ v, k' v = mapNext g (k v)) : orFault e k' = mapNext g (orFault e k) := by
  cases e with
  | error f => rfl
  | ok v => exact h v

section
variable (set : List Word) (s : State)

theorem accessFault_rearm (a : Word) (n : Nat) (kind : AccessKind) :
    accessFault (rearm set s) a n kind = accessFault s a n kind := rfl

theorem firstWordFault_rearm (kind : AccessKind) (l : List Word) :
    firstWordFault (rearm set s) kind l = firstWordFault s kind l := by
  induction l with
  | nil => rfl
  | cons a l ih => unfold firstWordFault; rw [accessFault_rearm, ih]

theorem vectorFault_rearm (ea : Word) (align : Nat) (kind : AccessKind) (l : List Word) :
    vectorFault (rearm set s) ea align kind l = vectorFault s ea align kind l := by
  unfold vectorFault
  rw [firstWordFault_rearm]
  rfl

theorem storeWords_rearm (l : List (Word × Word)) : storeWords (rearm set s) l = rearm set (storeWords s l) := by
  induction l generalizing s with
  | nil => rfl
  | cons c l ih => obtain ⟨a, v⟩ := c; exact ih { s with mem := s.mem.setWord (maskAddr s a) v }

variable {k : State → Result} (hk : ∀ t, k (rearm set t) = mapNext (rearm set) (k t))
include hk

theorem memWrite8_rearm (a : Word) (v : Byte) :
    orFault (memWrite8 (rearm set s) a v) k = mapNext (rearm set) (orFault (memWrite8 s a v) k) := by
  unfold memWrite8
  rw [accessFault_rearm]
  cases accessFault s a 1 .store with
  | some f => rfl
  | none => exact hk { s with mem := s.mem.setByteAt (maskAddr s a) v }

theorem memWrite16_rearm (a : Word) (v : BitVec 16) :
    orFault (memWrite16 (rearm set s) a v) k = mapNext (rearm set) (orFault (memWrite16 s a v) k) := by
  unfold memWrite16
  rw [accessFault_rearm]
  cases accessFault s a 2 .store with
  | some f => rfl
  | none => exact hk { s with mem := s.mem.setHalf (maskAddr s a) v }

theorem memWrite32_rearm (a v : Word) :
    orFault (memWrite32 (rearm set s) a v) k = mapNext (rearm set) (orFault (memWrite32 s a v) k) := by
  unfold memWrite32
  rw [accessFault_rearm]
  cases accessFault s a 4 .store with
  | some f => rfl
  | none => exact hk { s with mem := s.mem.setWord (maskAddr s a) v }

omit hk

theorem vectorLoad_rearm (ea : Word) (n : Nat) (l : List Word) (c : List (Slot × Word)) :
    vectorLoad (rearm set s) (vectorFault (rearm set s) ea n .load l) c =
      mapNext (rearm set) (vectorLoad s (vectorFault s ea n .load l) c) := by
  rw [vectorFault_rearm]
  cases vectorFault s ea n .load l <;> rfl

theorem vectorStore_rearm (ea : Word) (n : Nat) (l : List Word) (c : List (Slot × Word)) :
    vectorStore (rearm set s) (vectorFault (rearm set s) ea n .store l) c =
      mapNext (rearm set) (vectorStore s (vectorFault s ea n .store l) c) := by
  rw [vectorFault_rearm]
  cases vectorFault s ea n .store l with
  | some f => rfl
  | none => exact congrArg complete (storeWords_rearm set s _)

theorem controlTransfer_rearm {r r' : Result} (h : r' = mapNext (rearm set) r) :
    controlTransfer (rearm set s) r' = mapNext (rearm set) (controlTransfer s r) := mapNext_ite rfl h

theorem registerJump_rearm (target : Word) {r r' : Result} (h : r' = mapNext (rearm set) r) :
    registerJump (rearm set s) target r' = mapNext (rearm set) (registerJump s target r) :=
  controlTransfer_rearm set s (mapNext_ite rfl h)

theorem operandS_rearm (vs : Sel) (sz : VSize) : operandS (rearm set s) vs sz = operandS s vs sz := rfl

theorem operandT_rearm (vt : Sel) (sz : VSize) : operandT (rearm set s) vt sz = operandT s vt sz := rfl

theorem vectorUnary_rearm (f : Word → Word) (sz : VSize) (vd vs : Sel) :
    vectorUnary f sz vd vs (rearm set s) = mapNext (rearm set) (vectorUnary f sz vd vs s) := by
  unfold vectorUnary
  rw [operandS_rearm]
  cases operandS s vs sz <;> rfl

theorem vectorBinary_rearm (f : Word → Word → Word) (sz : VSize) (vd vs vt : Sel) :
    vectorBinary f sz vd vs vt (rearm set s) = mapNext (rearm set) (vectorBinary f sz vd vs vt s) := by
  unfold vectorBinary
  rw [operandS_rearm, operandT_rearm]
  cases operandS s vs sz <;> cases operandT s vt sz <;> rfl

theorem execVrot_rearm (sz : VSize) (vd vs : Sel) (imm5 : BitVec 5) :
    execVrot sz vd vs imm5 (rearm set s) = mapNext (rearm set) (execVrot sz vd vs imm5 s) := by
  unfold execVrot
  rw [operandS_rearm]
  split <;> rfl

theorem execVscl_rearm (sz : VSize) (vd vs vt : Sel) :
    execVscl sz vd vs vt (rearm set s) = mapNext (rearm set) (execVscl sz vd vs vt s) := by
  unfold execVscl
  rw [operandS_rearm, operandT_rearm]
  split <;> rfl

theorem execVdot_rearm (sz : VSize) (vd vs vt : Sel) :
    execVdot sz vd vs vt (rearm set s) = mapNext (rearm set) (execVdot sz vd vs vt s) := by
  unfold execVdot
  rw [operandS_rearm, operandT_rearm]
  split <;> rfl

theorem execCfc1_rearm (rt : Reg) (cr : Fin 32) :
    execCfc1 rt cr (rearm set s) = mapNext (rearm set) (execCfc1 rt cr s) := by
  have same : readControl (rearm set s) cr = readControl s cr := rfl
  unfold execCfc1
  rw [same]
  cases readControl s cr <;> rfl

theorem complete_ite_rearm {c : Prop} {_ : Decidable c} (t : State) :
    complete (if c then rearm set t else rearm set s) = mapNext (rearm set) (complete (if c then t else s)) := by
  split <;> rfl

end

/-- Every instruction answers alike under another breakpoint set: where it answers by cases, case by case. -/
theorem exec_rearm (i : Instr) (set : List Word) (s : State) :
    exec i (rearm set s) = mapNext (rearm set) (exec i s) := by
  cases i with
  | ext | ins | div | divu | ctc1 | vmzero | vmone | vmidt | vmmov | vmmul | vt4444Q | vt5551Q | vt5650Q =>
    exact mapNext_ite rfl rfl
  | movz rd rs | movn rd rs => exact complete_ite_rearm set s (writeGpr s rd (readGpr s rs))
  | lb | lbu | lh | lhu | lw | ll | lwl | lwr | lwc1 | lvS => exact mapNext_orFault fun _ => rfl
  | sb => exact memWrite8_rearm set s (fun _ => rfl) _ _
  | sh => exact memWrite16_rearm set s (fun _ => rfl) _ _
  | sw | swc1 | svS | sc => exact memWrite32_rearm set s (fun _ => rfl) _ _
  | swl | swr => exact mapNext_orFault fun _ => memWrite32_rearm set s (fun _ => rfl) _ _
  | lvQ | lvlQ | lvrQ => exact vectorLoad_rearm set s _ _ _ _
  | svQ | svlQ | svrQ => exact vectorStore_rearm set s _ _ _ _
  | cfc1 => exact execCfc1_rearm set s _ _
  | beq | bne | blez | bgtz | bltz | bgez | bc1f | bc1t | beql | bnel | blezl | bgtzl | bltzl | bgezl | bc1fl | bc1tl
  | bltzal | bgezal | bltzall | bgezall => exact controlTransfer_rearm set s (mapNext_ite rfl rfl)
  | j | jal | bvf | bvt | bvfl | bvtl => exact controlTransfer_rearm set s rfl
  | jr | jalr => exact registerJump_rearm set s _ rfl
  | vadd | vsub | vmul | vdiv => exact vectorBinary_rearm set s _ _ _ _ _
  | vmov | vabs | vneg => exact vectorUnary_rearm set s _ _ _ _
  | vrot => exact execVrot_rearm set s _ _ _ _
  | vscl => exact execVscl_rearm set s _ _ _ _
  | vdot => exact execVdot_rearm set s _ _ _ _
  | _ => rfl

theorem runFetched_rearm (set : List Word) (s : State) :
    runFetched (rearm set s) = mapNext (rearm set) (runFetched s) := by
  have same : fetch (rearm set s) = fetch s := rfl
  unfold runFetched
  rw [same]
  refine mapNext_orFault fun w => ?_
  unfold runWord
  cases lookup w with
  | none => rfl
  | some r => exact mapNext_ite rfl (exec_rearm (r.build w) set { s with ir := w })

/-- Where no breakpoint can be hit a step is a fetched instruction. -/
theorem step_of_disabled {s : State} (off : s.bpEnabled = false) : step s = runFetched s :=
  step_of_not_hit fun h => by simp [off] at h

/-- Settles O4: with breakpoints off both steps run what they fetch, and no instruction reads the set. -/
theorem disabledBreakpointsAreInvisible : Obligations.DisabledBreakpointsAreInvisible := by
  intro s set off
  have both : step (rearm set s) = mapNext (rearm set) (step s) := by
    rw [step_of_disabled off, step_of_disabled (s := rearm set s) off, runFetched_rearm]
  exact ⟨fun t h => by rw [h] at both; exact both, fun f h => by rw [h] at both; exact both⟩

end Sys2Proof.Machine
end

section
/-! Register 0, effective addresses, bit fields, products and quotients, jumps, and the moves of the float unit: the
obligations O18, O26, O29, O30, O33, O42 and O50. -/
namespace Sys2Proof.Machine

/-- Settles O18, by the rule of a read after a write. -/
theorem registerZeroReadsZero : Obligations.RegisterZeroReadsZero := by
  intro s r q v
  refine ⟨rfl, rfl, fun hr => ?_, fun hq => ?_, rfl⟩
  · rw [readGpr_writeGpr, if_neg hr, if_pos rfl]
  · rw [readGpr_writeGpr, if_neg hq]
    exact ite_eq_right_iff.2 fun h => h ▸ rfl

/-! ### Bit fields (R108, R168 to R170) -/

theorem getLsbD_lowMask {size i : Nat} (hi : i < 32) : (lowMask size).getLsbD i = decide (i < size) := by
  rw [lowMask, BitVec.getLsbD_ofNat, Nat.testBit_two_pow_sub_one, decide_eq_true hi, Bool.true_and]

theorem getLsbD_extractField (v : Word) (pos size : Nat) {i : Nat} (hi : i < 32) :
    (extractField v pos size).getLsbD i = (decide (i < size) && v.getLsbD (pos + i)) := by
  rw [extractField, BitVec.getLsbD_and, getLsbD_lowMask hi, BitVec.getLsbD_ushiftRight, Bool.and_comm]

theorem getLsbD_lowMask_shiftLeft (pos size : Nat) {i : Nat} (hi : i < 32) :
    (lowMask size <<< pos).getLsbD i = decide (pos ≤ i ∧ i < pos + size) := by
  rw [BitVec.getLsbD_shiftLeft, getLsbD_lowMask (by omega)]
  grind

theorem getLsbD_insertField (old v : Word) (pos size : Nat) {i : Nat} (hi : i < 32) :
    (insertField old v pos size).getLsbD i =
      if pos ≤ i ∧ i < pos + size then v.getLsbD (i - pos) else old.getLsbD i := by
  rw [insertField, BitVec.getLsbD_or, BitVec.getLsbD_and, BitVec.getLsbD_and, BitVec.getLsbD_not,
    getLsbD_lowMask_shiftLeft pos size hi, BitVec.getLsbD_shiftLeft]
  by_cases h : pos ≤ i ∧ i < pos + size
  · simp [h, hi, Nat.not_lt.2 h.1]
  · simp [h, hi]

/-- The size that the fields of `ext` encode. -/
theorem extSize_eq_iff (c : SizeCoding) (lsb msb : Fin 32) (size : Nat) :
    extSize c lsb msb = size ↔ c = .asMIPS32R2 ∧ msb.val + 1 = size ∨ c = .asSource ∧ msb.val + 1 = lsb.val + size := by
  cases c <;> simp [extSize] <;> omega

/-- The size that the fields of `ins` encode. -/
theorem insSize_eq_iff (c : SizeCoding) (lsb msb : Fin 32) (size : Nat) :
    insSize c lsb msb = size ↔ c = .asMIPS32R2 ∧ msb.val + 1 = lsb.val + size ∨ c = .asSource ∧ msb.val + 1 = size := by
  cases c <;> simp [insSize] <;> omega

theorem fieldInRange_natCast {pos : Fin 32} {size : Nat} (low : 1 ≤ size) (high : pos.val + size ≤ 32) :
    fieldInRange pos size = true := by simp [fieldInRange]; omega

theorem fieldInRange_eq_false {pos : Fin 32} {z : Int}
    (h : ∀ size : Nat, 1 ≤ size → pos.val + size ≤ 32 → z ≠ size) : fieldInRange pos z = false := by
  have := h z.toNat
  simp only [fieldInRange, Bool.and_eq_false_iff, decide_eq_false_iff_not]
  omega

section
variable {s : State} {rt rs : Reg} {lsb msb : Fin 32}

theorem exec_ext_of_size {size : Nat} (low : 1 ≤ size) (high : lsb.val + size ≤ 32)
    (h : extSize s.cfg.sizeCoding lsb msb = size) :
    exec (.ext rt rs lsb msb) s = complete (writeGpr s rt (extractField (readGpr s rs) lsb.val size)) := by
  show execExt rt rs lsb msb s = _
  rw [execExt, h, if_pos (fieldInRange_natCast low high), Int.toNat_natCast]

theorem exec_ext_reserved (h : ∀ size : Nat, 1 ≤ size → lsb.val + size ≤ 32 → extSize s.cfg.sizeCoding lsb msb ≠ size) :
    exec (.ext rt rs lsb msb) s = .fault (.reservedOperand s.pc s.ir) :=
  if_neg (by simp [fieldInRange_eq_false h])

theorem exec_ins_of_size {size : Nat} (low : 1 ≤ size) (high : lsb.val + size ≤ 32)
    (h : insSize s.cfg.sizeCoding lsb msb = size) :
    exec (.ins rt rs lsb msb) s =
      complete (writeGpr s rt (insertField (readGpr s rt) (readGpr s rs) lsb.val size)) := by
  show execIns rt rs lsb msb s = _
  rw [execIns, h, if_pos (fieldInRange_natCast low high), Int.toNat_natCast]

theorem exec_ins_reserved (h : ∀ size : Nat, 1 ≤ size → lsb.val + size ≤ 32 → insSize s.cfg.sizeCoding lsb msb ≠ size) :
    exec (.ins rt rs lsb msb) s = .fault (.reservedOperand s.pc s.ir) :=
  if_neg (by simp [fieldInRange_eq_false h])

end

/-- Settles O26, by the bits of the two fields and the size each coding gives. -/
theorem extractAndInsertResults : Obligations.ExtractAndInsertResults := by
  intro s rt rs lsb msb
  refine ⟨fun size low high h => ⟨_, fun i hi => getLsbD_extractField _ _ _ hi, ?_⟩, fun h => ?_,
    fun size low high h => ⟨_, fun i hi => getLsbD_insertField _ _ _ _ hi, ?_⟩, fun h => ?_⟩
  · rw [exec_ext_of_size low high ((extSize_eq_iff ..).2 h)]
    exact writesGpr_complete ..
  · exact exec_ext_reserved fun size low high e => h size low high ((extSize_eq_iff ..).1 e)
  · rw [exec_ins_of_size low high ((insSize_eq_iff ..).2 h)]
    exact writesGpr_complete ..
  · exact exec_ins_reserved fun size low high e => h size low high ((insSize_eq_iff ..).1 e)

/-! ### Products and quotients -/

theorem extractLsb'_ofInt_low (z : Int) : (BitVec.ofInt 64 z).extractLsb' 0 32 = BitVec.ofInt 32 z := by
  apply BitVec.eq_of_toNat_eq
  rw [BitVec.extractLsb'_toNat, BitVec.toNat_ofInt, BitVec.toNat_ofInt, Nat.shiftRight_zero]
  push_cast
  omega

theorem extractLsb'_ofInt_high (z : Int) :
    (BitVec.ofInt 64 z).extractLsb' 32 32 = BitVec.ofInt 32 (z / 2 ^ 32) := by
  apply BitVec.eq_of_toNat_eq
  rw [BitVec.extractLsb'_toNat, BitVec.toNat_ofInt, BitVec.toNat_ofInt, Nat.shiftRight_eq_div_pow]
  push_cast
  omega

theorem writesHilo_ofInt (s : State) {v : BitVec 64} {z : Int} (h : v = BitVec.ofInt 64 z) :
    WritesHilo (complete (writeHilo s v)) s (BitVec.ofInt 32 (z / 2 ^ 32)) (BitVec.ofInt 32 z) := by
  rw [← extractLsb'_ofInt_high, ← extractLsb'_ofInt_low z, h]
  exact writesHilo_complete ..

theorem signedProduct_eq (a b : Word) : signedProduct a b = BitVec.ofInt 64 (a.toInt * b.toInt) := by
  rw [signedProduct, BitVec.ofInt_mul]
  rfl

theorem unsignedProduct_eq (a b : Word) : unsignedProduct a b = BitVec.ofInt 64 (a.toNat * b.toNat) := by
  rw [BitVec.ofInt_mul, BitVec.ofInt_natCast, BitVec.ofInt_natCast, BitVec.ofNat_toNat, BitVec.ofNat_toNat]
  rfl

theorem readHilo_eq (s : State) : readHilo s = BitVec.ofInt 64 (2 ^ 32 * s.hi.toNat + s.lo.toNat) := by
  apply BitVec.eq_of_toNat_eq
  rw [readHilo, toNat_app, BitVec.toNat_ofInt]
  push_cast
  omega

theorem sub_ofInt (a b : Int) : BitVec.ofInt 64 a - BitVec.ofInt 64 b = BitVec.ofInt 64 (a - b) := by
  rw [BitVec.sub_eq_iff_eq_add, ← BitVec.ofInt_add, sub_add_cancel]

/-- Settles O29: each 64-bit value is the integer of the statement modulo 2^64, and its halves those modulo 2^32. -/
theorem multiplyAndAccumulateResults : Obligations.MultiplyAndAccumulateResults := by
  rintro s rs rt p q h rfl rfl rfl
  refine ⟨writesHilo_ofInt s (signedProduct_eq ..), writesHilo_ofInt s (unsignedProduct_eq ..),
    writesHilo_ofInt s ?_, writesHilo_ofInt s ?_, writesHilo_ofInt s ?_, writesHilo_ofInt s ?_⟩
  · rw [readHilo_eq, signedProduct_eq, ← BitVec.ofInt_add]
  · rw [readHilo_eq, unsignedProduct_eq, ← BitVec.ofInt_add]
  · rw [readHilo_eq, signedProduct_eq, sub_ofInt]
  · rw [readHilo_eq, unsignedProduct_eq, sub_ofInt]

theorem sdiv_eq_ofInt (a b : Word) : a.sdiv b = BitVec.ofInt 32 (a.toInt.tdiv b.toInt) := by
  apply BitVec.eq_of_toInt_eq
  rw [BitVec.toInt_sdiv, BitVec.toInt_ofInt]

theorem srem_eq_ofInt (a b : Word) : a.srem b = BitVec.ofInt 32 (a.toInt.tmod b.toInt) := by
  rw [← BitVec.toInt_srem, BitVec.ofInt_toInt]

/-- Settles O30. -/
theorem signedDivideTruncatesAndFaultsOnZero : Obligations.SignedDivideTruncatesAndFaultsOnZero := by
  intro s rs rt
  refine ⟨fun h => ?_, fun h => if_pos h⟩
  have run : exec (.div rs rt) s = complete
      { s with hi := (readGpr s rs).srem (readGpr s rt), lo := (readGpr s rs).sdiv (readGpr s rt) } := if_neg h
  rw [run, sdiv_eq_ofInt, srem_eq_ofInt]
  exact writesHilo_complete_parts ..

/-! ### Effective addresses -/

theorem vecAddr_eq (s : State) (rs : Reg) (off : BitVec 14) :
    vecAddr s rs off = BitVec.ofInt 32 ((readGpr s rs).toInt + 4 * off.toInt) := by
  have shifted : (off.signExtend 32 <<< 2 : Word) = BitVec.ofInt 32 (4 * off.toInt) := by
    rw [BitVec.shiftLeft_eq_mul_twoPow, BitVec.ofInt_mul, mul_comm]
    rfl
  rw [vecAddr, shifted, BitVec.ofInt_add, BitVec.ofInt_toInt]

section
variable {s : State} {a b : Word} (same : maskAddr s a = maskAddr s b)
include same

theorem accessFault_congr (n : Nat) (kind : AccessKind) : accessFault s a n kind = accessFault s b n kind := by
  unfold accessFault; rw [same]

theorem memRead8_congr : memRead8 s a = memRead8 s b := by
  unfold memRead8; rw [accessFault_congr same, same]

theorem memRead16_congr : memRead16 s a = memRead16 s b := by
  unfold memRead16; rw [accessFault_congr same, same]

theorem memRead32_congr : memRead32 s a = memRead32 s b := by
  unfold memRead32; rw [accessFault_congr same, same]

theorem memWrite8_congr (v : Byte) : memWrite8 s a v = memWrite8 s b v := by
  unfold memWrite8; rw [accessFault_congr same, same]

theorem memWrite16_congr (v : BitVec 16) : memWrite16 s a v = memWrite16 s b v := by
  unfold memWrite16; rw [accessFault_congr same, same]

theorem memWrite32_congr (v : Word) : memWrite32 s a v = memWrite32 s b v := by
  unfold memWrite32; rw [accessFault_congr same, same]

theorem fetch_congr (aligned : a.toNat % 4 = 0 ↔ b.toNat % 4 = 0) :
    fetch { s with pc := a } = fetch { s with pc := b } := by
  have samePc : maskAddr { s with pc := a } a = maskAddr { s with pc := b } b := same
  have sameFault : accessFault { s with pc := a } a 4 .fetch = accessFault { s with pc := b } b 4 .fetch :=
    accessFault_congr same 4 .fetch
  unfold fetch fetchFault
  simp only [samePc, sameFault, ne_eq, aligned]

end

/-- Settles O33: memory sees an address through its masked form alone. -/
theorem effectiveAddresses : Obligations.EffectiveAddresses := by
  intro s rs off off14 addr
  exact ⟨add_simm .., vecAddr_eq .., fun i _ => BitVec.getLsbD_and, fun other same =>
    ⟨memRead8_congr same, memRead16_congr same, memRead32_congr same, memWrite8_congr same, memWrite16_congr same,
      memWrite32_congr same, fetch_congr same⟩⟩

/-! ### Jumps -/

theorem getLsbD_regionMask {i : Nat} (hi : i < 32) : (0xF0000000#32).getLsbD i = decide (28 ≤ i) := by
  revert i; decide

/-- The region of an address: its four high bits. -/
theorem and_regionMask (v : Word) : v &&& 0xF0000000#32 = (v >>> 28) <<< 28 := by
  apply BitVec.eq_of_getLsbD_eq
  intro i hi
  rw [BitVec.getLsbD_and, getLsbD_regionMask hi, BitVec.getLsbD_shiftLeft, BitVec.getLsbD_ushiftRight]
  by_cases high : 28 ≤ i
  · simp [high, hi, Nat.not_lt.2 high]
  · simp [high]

theorem jumpTarget_eq (s : State) (target : BitVec 26) :
    jumpTarget s target = BitVec.ofNat 32 (s.npc.toNat / 2 ^ 28 * 2 ^ 28 + 4 * target.toNat) := by
  have low : (target.zeroExtend 32 <<< 2 : Word).toNat = 4 * target.toNat := by
    rw [BitVec.toNat_shiftLeft, Nat.shiftLeft_eq, BitVec.toNat_setWidth_of_le (by omega)]; omega
  have high : ((s.npc >>> 28) <<< 28 : Word).toNat = (s.npc.toNat / 2 ^ 28) <<< 28 := by
    rw [BitVec.toNat_shiftLeft, BitVec.toNat_ushiftRight, Nat.shiftRight_eq_div_pow, Nat.shiftLeft_eq]; omega
  have both := Nat.shiftLeft_add_eq_or_of_lt (i := 28) (b := 4 * target.toNat) (by omega) (s.npc.toNat / 2 ^ 28)
  apply BitVec.eq_of_toNat_eq
  rw [jumpTarget, and_regionMask, BitVec.toNat_or, low, high, ← both, BitVec.toNat_ofNat, Nat.shiftLeft_eq]
  omega

section
variable {s : State} (normal : s.npc = s.pc + 4#32)
include normal

theorem registerJump_aligned {target : Word} (h : target.toNat % 4 = 0) (r : Result) :
    registerJump s target r = r := by
  rw [registerJump, controlTransfer_normal normal, if_neg (not_not.2 h)]

theorem registerJump_misaligned {target : Word} (h : target.toNat % 4 ≠ 0) (r : Result) :
    registerJump s target r = .fault (.misalignedJumpTarget s.pc target) := by
  rw [registerJump, controlTransfer_normal normal, if_pos h]
  rfl

theorem exec_j (target : BitVec 26) : exec (.j target) s = completeJump s (jumpTarget s target) :=
  controlTransfer_normal normal _

theorem exec_jal (target : BitVec 26) :
    exec (.jal target) s = completeJump (writeGpr s 31 (linkValue s)) (jumpTarget s target) :=
  controlTransfer_normal normal _

theorem exec_jr {rs : Reg} (h : (readGpr s rs).toNat % 4 = 0) : exec (.jr rs) s = completeJump s (readGpr s rs) :=
  registerJump_aligned normal h _

theorem exec_jalr {rd rs : Reg} (h : (readGpr s rs).toNat % 4 = 0) :
    exec (.jalr rd rs) s = completeJump (writeGpr s rd (linkValue s)) (readGpr s rs) :=
  registerJump_aligned normal h _

end

theorem readGpr_writeGpr_self (s : State) (r : Reg) (v : Word) :
    readGpr (writeGpr s r v) r = if r = 0 then 0#32 else v := by
  rw [readGpr_writeGpr, if_pos rfl]

/-- Settles O42. -/
theorem jumpsGoWhereTheySay : Obligations.JumpsGoWhereTheySay := by
  rintro s rd rs target jt normal rfl
  rw [← jumpTarget_eq]
  refine ⟨?_, ?_, fun h => ⟨?_, ?_⟩, fun h => ⟨registerJump_misaligned normal h _, registerJump_misaligned normal h _⟩⟩
  · rw [exec_j normal]
    exact ends_completeJump rfl rfl (onlyChanges_refl _ _) trivial
  · rw [exec_jal normal]
    exact ends_completeJump rfl rfl (onlyChanges_writeGpr _ _ _) (readGpr_link ..)
  · rw [exec_jr normal h]
    exact ends_completeJump rfl rfl (onlyChanges_refl _ _) trivial
  · rw [exec_jalr normal h]
    exact ends_completeJump rfl rfl (onlyChanges_writeGpr _ _ _) (readGpr_writeGpr_self ..)

/-! ### The moves of the float unit -/

theorem getLsbD_writeFcr31 (s : State) (v : Word) (i : Nat) (hi : i < 32) :
    (writeFcr31 s v).fcr31.getLsbD i = if s.cfg.wmask.getLsbD i then v.getLsbD i else s.fcr31.getLsbD i := by
  rw [writeFcr31_fcr31, BitVec.getLsbD_or, BitVec.getLsbD_and, BitVec.getLsbD_and, BitVec.getLsbD_not]
  cases s.cfg.wmask.getLsbD i <;> simp [hi]

theorem readControl_eq_none {s : State} {cr : Fin 32} (h : cr.val ∉ [0, 25, 26, 27, 28, 31]) :
    readControl s cr = none := by
  simp only [List.mem_cons, List.not_mem_nil, or_false, not_or] at h
  obtain ⟨h0, h25, h26, h27, h28, h31⟩ := h
  unfold readControl
  rw [if_neg h0, if_neg h25, if_neg h26, if_neg h27, if_neg h28, if_neg h31]

theorem exec_cfc1_none {s : State} {rt : Reg} {cr : Fin 32} (h : readControl s cr = none) :
    exec (.cfc1 rt cr) s = .fault (.invalidControlRegister s.pc cr.val .read) := by
  show execCfc1 rt cr s = _
  rw [execCfc1, h]; rfl

/-- Settles O50. -/
theorem movesToAndFromTheFloatUnit : Obligations.MovesToAndFromTheFloatUnit := by
  intro s rt rd fs cr
  refine ⟨writesGpr_complete .., writesFpr_complete .., fun t run => ?_, writesGpr_complete .., writesGpr_complete ..,
    writesGpr_complete .., writesGpr_complete .., writesGpr_complete .., writesGpr_complete ..,
    fun h => exec_cfc1_none (readControl_eq_none h),
    ends_complete rfl rfl (onlyChanges_fcr31 s _) (getLsbD_writeFcr31 s _), fun h => if_neg h⟩
  obtain ⟨u, hu, -, -, -, holds⟩ := writesFpr_complete s fs (readGpr s rt)
  cases run.symm.trans hu
  exact holds ▸ writesGpr_complete t rd (readFpr t fs)

end Sys2Proof.Machine
end

section
/-! Scalar loads and stores (spec/42_loadstore.md): the obligations O34 to O38. -/
namespace Sys2Proof.Machine

/-! ### Reads and writes that go through, and those that fault -/

theorem orFault_of_ok {α : Type} {e : Except Fault α} {v : α} (h : e = .ok v) (k : α → Result) : orFault e k = k v := by
  rw [h]; rfl

theorem orFault_of_error {α : Type} {e : Except Fault α} {f : Fault} (h : e = .error f) (k : α → Result) :
    orFault e k = .fault f := by
  rw [h]; rfl

/-- A load that writes a general register writes what it reads, extended. -/
theorem writesGpr_load {α : Type} {s : State} {e : Except Fault α} {v : α} {ext : α → Word} {w : Word} (rt : Reg)
    (read : e = .ok v) (value : ext v = w) :
    WritesGpr (orFault e fun v => complete (writeGpr s rt (ext v))) s rt w := by
  rw [orFault_of_ok read]
  exact writesGpr_complete_of_eq value

theorem setWidth_ofNat_of_lt {n m : Nat} (h : m < 2 ^ n) : (BitVec.ofNat n m).setWidth 32 = BitVec.ofNat 32 m := by
  apply BitVec.eq_of_toNat_eq
  rw [BitVec.toNat_setWidth, BitVec.toNat_ofNat, BitVec.toNat_ofNat, Nat.mod_eq_of_lt h]

/-- Settles O34, by what an admitted read returns. -/
theorem alignedLoadResults : Obligations.AlignedLoadResults := by
  rintro s rt rs ft off e a rfl rfl
  refine ⟨fun h => ⟨?_, ?_⟩, fun h => ⟨?_, ?_⟩, fun h => ⟨?_, ?_, ?_⟩⟩
  · exact writesGpr_load rt (memRead8_of_accessible h) rfl
  · exact writesGpr_load rt (memRead8_of_accessible h) (setWidth_ofNat_of_lt (littleEndian_lt s _ 1))
  · exact writesGpr_load rt (memRead16_of_accessible h) rfl
  · exact writesGpr_load rt (memRead16_of_accessible h) (setWidth_ofNat_of_lt (littleEndian_lt s _ 2))
  · exact writesGpr_load (ext := id) rt (memRead32_of_accessible h) rfl
  · exact writesGpr_load (ext := id) rt (memRead32_of_accessible h) rfl
  · show WritesFpr (orFault _ _) s ft _
    rw [orFault_of_ok (memRead32_of_accessible h)]
    exact writesFpr_complete ..

/-! ### Memory after a store -/

/-- Memory that holds the bytes `f` from `a` on and is as in `s` elsewhere. -/
def HoldsBytes (m : Memory) (s : State) (a n : Nat) (f : Nat → Byte) : Prop :=
  ∀ b, m.byte b = if a ≤ b ∧ b < a + n then f (b - a) else s.mem.byte b

namespace HoldsBytes
variable {m : Memory} {s : State} {a n : Nat} {f : Nat → Byte} (h : HoldsBytes m s a n f)
include h

theorem byte {i : Nat} (hi : i < n) : m.byte (a + i) = f i := by
  rw [h, if_pos (by omega), Nat.add_sub_cancel_left]

theorem onlyChanges : OnlyChanges (fun p => ∃ i, i < n ∧ p = .byte (a + i)) s { s with mem := m } := by
  refine onlyChanges_mem fun b outside => ?_
  rw [h, if_neg]
  exact fun inside => outside ⟨b - a, by omega, congrArg Part.byte (by omega)⟩

theorem writesBytes : WritesBytes (complete { s with mem := m }) s a n f :=
  ends_complete rfl rfl h.onlyChanges fun _ hi => h.byte hi

end HoldsBytes

theorem holdsBytes_setWord (s : State) {a : Word} (aligned : a.toNat % 4 = 0) (v : Word) :
    HoldsBytes (s.mem.setWord a v) s a.toNat 4 (byteOf v) := fun b => byte_setWord aligned b

theorem holdsBytes_setHalf (s : State) {a : Word} (aligned : a.toNat % 2 = 0) (v : Word) :
    HoldsBytes (s.mem.setHalf a (v.extractLsb' 0 16)) s a.toNat 2 (byteOf v) := by
  intro b
  have low : (v.extractLsb' 0 16).extractLsb' 0 8 = byteOf v 0 := by
    rw [BitVec.extractLsb'_extractLsb'_of_le (by omega)]; rfl
  have high : (v.extractLsb' 0 16).extractLsb' 8 8 = byteOf v 1 := by
    rw [BitVec.extractLsb'_extractLsb'_of_le (by omega)]; rfl
  rw [byte_setHalf aligned, low, high]
  by_cases h0 : b = a.toNat
  · rw [if_pos h0, if_pos (by omega), h0, Nat.sub_self]
  by_cases h1 : b = a.toNat + 1
  · rw [if_neg h0, if_pos h1, if_pos (by omega), h1, Nat.add_sub_cancel_left]
  · rw [if_neg h0, if_neg h1, if_neg (by omega)]

theorem holdsBytes_setByteAt (s : State) (a v : Word) :
    HoldsBytes (s.mem.setByteAt a (v.extractLsb' 0 8)) s a.toNat 1 (byteOf v) := by
  intro b
  rw [byte_setByteAt]
  by_cases h : b = a.toNat
  · rw [if_pos h, if_pos (by omega), h, Nat.sub_self]; rfl
  · rw [if_neg h, if_neg (by omega)]

/-- A word store that goes through. -/
theorem writesBytes_store32 {s : State} {addr : Word} (h : Accessible s addr 4 .store) (v : Word) :
    WritesBytes (orFault (memWrite32 s addr v) complete) s (maskAddr s addr).toNat 4 (byteOf v) := by
  rw [orFault_of_ok (memWrite32_of_accessible h)]
  exact (holdsBytes_setWord s h.1 v).writesBytes

/-- Settles O35, by the bytes that each store leaves in memory. -/
theorem alignedStoreResults : Obligations.AlignedStoreResults := by
  rintro s rt rs ft off e a rfl rfl
  refine ⟨fun h => ?_, fun h => ?_, fun h => ⟨writesBytes_store32 h _, writesBytes_store32 h _, ?_⟩⟩
  · show WritesBytes (orFault _ _) s _ 1 _
    rw [orFault_of_ok (memWrite8_of_accessible h)]
    exact (holdsBytes_setByteAt s _ _).writesBytes
  · show WritesBytes (orFault _ _) s _ 2 _
    rw [orFault_of_ok (memWrite16_of_accessible h)]
    exact (holdsBytes_setHalf s h.1 _).writesBytes
  · show Ends (orFault _ _) s _ _ _
    have holds := holdsBytes_setWord s h.1 (readGpr s rt)
    rw [orFault_of_ok (memWrite32_of_accessible h)]
    exact ends_complete rfl rfl
      (onlyChanges_mono (onlyChanges_trans holds.onlyChanges (onlyChanges_writeGpr _ rt _)) fun _ => Or.symm)
      ⟨fun _ hi => holds.byte hi, readGpr_writeGpr_self ..⟩

/-! ### The aligned word around an address (spec/42_loadstore.md section 3) -/

theorem getLsbD_not_three {i : Nat} (hi : i < 32) : (~~~3#32).getLsbD i = decide (2 ≤ i) := by
  revert i; decide

theorem byteLane_eq (e : Word) : byteLane e = e.toNat % 4 := by
  rw [byteLane, BitVec.toNat_and]
  exact Nat.and_two_pow_sub_one_eq_mod e.toNat 2

theorem byteLane_lt (e : Word) : byteLane e < 4 := by rw [byteLane_eq]; omega

theorem wordAddr_eq_shift (e : Word) : wordAddr e = (e >>> 2) <<< 2 := by
  apply BitVec.eq_of_getLsbD_eq
  intro i hi
  rw [wordAddr, BitVec.getLsbD_and, getLsbD_not_three hi, BitVec.getLsbD_shiftLeft, BitVec.getLsbD_ushiftRight]
  by_cases high : 2 ≤ i
  · simp [high, hi, Nat.not_lt.2 high]
  · simp [high, Nat.lt_of_not_le high]

theorem toNat_wordAddr (e : Word) : (wordAddr e).toNat = e.toNat - e.toNat % 4 := by
  rw [wordAddr_eq_shift, BitVec.toNat_shiftLeft, BitVec.toNat_ushiftRight, Nat.shiftRight_eq_div_pow, Nat.shiftLeft_eq]
  omega

theorem wordAddr_eq_ofNat (e : Word) : wordAddr e = BitVec.ofNat 32 (e.toNat - e.toNat % 4) := by
  apply BitVec.eq_of_toNat_eq
  rw [toNat_wordAddr, BitVec.toNat_ofNat]
  omega

theorem wordAddr_aligned (s : State) (e : Word) : (maskAddr s (wordAddr e)).toNat % 4 = 0 :=
  maskAddr_aligned (by rw [toNat_wordAddr]; omega)

theorem accessible_wordAddr {s : State} {e : Word} {kind : AccessKind}
    (h : memAdmitted s (maskAddr s (wordAddr e)) 4 kind = true) : Accessible s (wordAddr e) 4 kind :=
  ⟨wordAddr_aligned s e, h⟩

/-! ### The merges, byte by byte -/

theorem getLsbD_ones_shiftRight (n i : Nat) :
    (0xFFFFFFFF#32 >>> (n * 8)).getLsbD i = decide (n * 8 + i < 32) := by
  rw [BitVec.getLsbD_ushiftRight]
  exact (BitVec.getLsbD_allOnes (v := 32)).trans rfl

theorem getLsbD_byteOf (v : Word) (i : Nat) {j : Nat} (hj : j < 8) : (byteOf v i).getLsbD j = v.getLsbD (8 * i + j) := by
  rw [byteOf, BitVec.getLsbD_extractLsb', decide_eq_true hj, Bool.true_and]

theorem byteOf_mergeLeft (w old : Word) (n : Nat) {i : Nat} (hi : i < 4) :
    byteOf (mergeLeft w old n) i = if 3 - n ≤ i then byteOf w (i - (3 - n)) else byteOf old i := by
  apply BitVec.eq_of_getLsbD_eq
  intro j hj
  rw [getLsbD_byteOf _ _ hj, mergeLeft, BitVec.getLsbD_or, BitVec.getLsbD_and, getLsbD_lowMask (by omega),
    BitVec.getLsbD_shiftLeft, decide_eq_true (show 8 * i + j < 32 by omega), Bool.true_and]
  generalize 3 - n = k
  by_cases h : k ≤ i
  · have above : ¬ 8 * i + j < k * 8 := by omega
    have moved : 8 * i + j - k * 8 = 8 * (i - k) + j := by omega
    simp [h, above, moved, getLsbD_byteOf _ _ hj]
  · have below : 8 * i + j < k * 8 := by omega
    simp [h, below, getLsbD_byteOf _ _ hj]

theorem byteOf_mergeRight (w old : Word) (n : Nat) {i : Nat} (hi : i < 4) :
    byteOf (mergeRight w old n) i = if i < 4 - n then byteOf w (i + n) else byteOf old i := by
  apply BitVec.eq_of_getLsbD_eq
  intro j hj
  rw [getLsbD_byteOf _ _ hj, mergeRight, BitVec.getLsbD_or, BitVec.getLsbD_and, BitVec.getLsbD_not,
    getLsbD_ones_shiftRight, decide_eq_true (show 8 * i + j < 32 by omega), Bool.true_and,
    BitVec.getLsbD_ushiftRight]
  by_cases h : i < 4 - n
  · have inside : n * 8 + (8 * i + j) < 32 := by omega
    have moved : n * 8 + (8 * i + j) = 8 * (i + n) + j := by omega
    rw [decide_eq_true inside, moved]
    simp [h, getLsbD_byteOf _ _ hj]
  · have outside : ¬ n * 8 + (8 * i + j) < 32 := by omega
    simp [h, outside, getLsbD_byteOf _ _ hj, BitVec.getLsbD_of_ge w _ (Nat.not_lt.1 outside)]

/-- What `swl` writes is the merge of `lwr` with the roles and the lane exchanged. -/
theorem storeLeft_eq_mergeRight (w v : Word) (n : Nat) : storeLeft w v n = mergeRight v w (3 - n) := rfl

/-- What `swr` writes is the merge of `lwl` with the roles and the lane exchanged. -/
theorem storeRight_eq_mergeLeft (w v : Word) {n : Nat} (h : n < 4) : storeRight w v n = mergeLeft v w (3 - n) := by
  rw [storeRight, mergeLeft, Nat.sub_sub_self (by omega)]

theorem byteOf_word {m : Memory} {a : Word} (aligned : a.toNat % 4 = 0) {i : Nat} (hi : i < 4) :
    byteOf (m.word a) i = m.byte (a.toNat + i) := by
  rw [Memory.word, byteOf_append (fun i => m.byte (byteKey a i)) hi,
    byteKey_eq (toNat_lt_of_aligned ⟨2 ^ 30, by norm_num⟩ aligned hi)]

theorem memRead32_eq_word {s : State} {addr : Word} (h : Accessible s addr 4 .load) :
    memRead32 s addr = .ok (s.mem.word (maskAddr s addr)) := by
  unfold memRead32; rw [accessFault_of_accessible h]

section
variable {s : State} {e : Word} (admitted : memAdmitted s (maskAddr s (wordAddr e)) 4 .load = true)
include admitted

/-- `lwl` and `lwr` merge the aligned word into their register. -/
theorem writesGpr_merged (rt : Reg) (merge : Word → Word) :
    WritesGpr (orFault (memRead32 s (wordAddr e)) fun w => complete (writeGpr s rt (merge w))) s rt
      (merge (s.mem.word (maskAddr s (wordAddr e)))) :=
  writesGpr_load rt (memRead32_eq_word (accessible_wordAddr admitted)) rfl

/-- `swl` and `swr` write bytes `lo` to `lo + n - 1` of the aligned word and leave its other bytes. -/
theorem writesBytes_merged (allowed : memAdmitted s (maskAddr s (wordAddr e)) 4 .store = true) (merge : Word → Word)
    {lo n : Nat} {f : Nat → Byte} (inside : lo + n ≤ 4)
    (h : ∀ w i, i < 4 → byteOf (merge w) i = if lo ≤ i ∧ i < lo + n then f (i - lo) else byteOf w i) :
    WritesBytes (orFault (memRead32 s (wordAddr e)) fun w => orFault (memWrite32 s (wordAddr e) (merge w)) complete) s
      ((maskAddr s (wordAddr e)).toNat + lo) n f := by
  have aligned := wordAddr_aligned s e
  rw [orFault_of_ok (memRead32_eq_word (accessible_wordAddr admitted)),
    orFault_of_ok (memWrite32_of_accessible (accessible_wordAddr allowed))]
  generalize maskAddr s (wordAddr e) = a at aligned
  refine HoldsBytes.writesBytes fun b => ?_
  rw [byte_setWord aligned]
  by_cases word : a.toNat ≤ b ∧ b < a.toNat + 4
  · rw [if_pos word, h _ _ (by omega), byteOf_word aligned (by omega), Nat.add_sub_cancel' word.1, Nat.sub_sub]
    exact if_congr (by omega) rfl rfl
  · rw [if_neg word, if_neg (by omega)]

end

/-- Settles O36, by the bytes of the two merges and of the word in memory. -/
theorem unalignedWordAccess : Obligations.UnalignedWordAccess := by
  rintro s rt rs off e a n rfl rfl rfl
  refine ⟨wordAddr_eq_ofNat _, fun admitted => ⟨⟨_, fun i hi => ?_, writesGpr_merged admitted rt _⟩,
    ⟨_, fun i hi => ?_, writesGpr_merged admitted rt _⟩, fun allowed => ⟨?_, ?_⟩⟩⟩
  · rw [byteOf_mergeLeft _ _ _ hi, byteOf_word (wordAddr_aligned ..) (by omega), byteLane_eq]
  · rw [byteOf_mergeRight _ _ _ hi, byteLane_eq]
    split_ifs with h
    · exact byteOf_word (wordAddr_aligned ..) (by omega)
    · rfl
  · refine writesBytes_merged admitted allowed (fun w => storeLeft w _ _) (lo := 0) (by omega) fun w i hi => ?_
    rw [storeLeft_eq_mergeRight, byteOf_mergeRight _ _ _ hi, byteLane_eq]
    exact if_congr (by omega) (congrArg _ (by omega)) rfl
  · refine writesBytes_merged admitted allowed (fun w => storeRight w _ _) (by omega) fun w i hi => ?_
    rw [storeRight_eq_mergeLeft _ _ (byteLane_lt _), byteOf_mergeLeft _ _ _ hi, byteLane_eq]
    exact if_congr (by omega) (congrArg _ (by omega)) rfl

/-! ### Faults -/

section
variable {s : State} {addr : Word}

theorem faultsAt_memRead8 (k : Byte → Result) : FaultsAt (orFault (memRead8 s addr) k) s addr 1 .load :=
  faultsAt_of_accessFault fun _ h => orFault_of_error (memRead8_fault h) k

theorem faultsAt_memRead16 (k : BitVec 16 → Result) : FaultsAt (orFault (memRead16 s addr) k) s addr 2 .load :=
  faultsAt_of_accessFault fun _ h => orFault_of_error (memRead16_fault h) k

theorem faultsAt_memRead32 (k : Word → Result) : FaultsAt (orFault (memRead32 s addr) k) s addr 4 .load :=
  faultsAt_of_accessFault fun _ h => orFault_of_error (memRead32_fault h) k

theorem faultsAt_memWrite8 (v : Byte) (k : State → Result) : FaultsAt (orFault (memWrite8 s addr v) k) s addr 1 .store :=
  faultsAt_of_accessFault fun _ h => orFault_of_error (memWrite8_fault h) k

theorem faultsAt_memWrite16 (v : BitVec 16) (k : State → Result) :
    FaultsAt (orFault (memWrite16 s addr v) k) s addr 2 .store :=
  faultsAt_of_accessFault fun _ h => orFault_of_error (memWrite16_fault h) k

theorem faultsAt_memWrite32 (v : Word) (k : State → Result) : FaultsAt (orFault (memWrite32 s addr v) k) s addr 4 .store :=
  faultsAt_of_accessFault fun _ h => orFault_of_error (memWrite32_fault h) k

/-- A store that first reads the word it stores to, where the read is admitted. -/
theorem faultsAt_memRead32_memWrite32 (h : Accessible s addr 4 .load) (merge : Word → Word) (k : State → Result) :
    FaultsAt (orFault (memRead32 s addr) fun w => orFault (memWrite32 s addr (merge w)) k) s addr 4 .store := by
  rw [orFault_of_ok (memRead32_eq_word h)]
  exact faultsAt_memWrite32 _ k

end

/-- Settles O37: each access faults as the read or write it makes first, `swl` and `swr` as their write after an
admitted read. -/
theorem scalarAccessFaults : Obligations.ScalarAccessFaults := by
  rintro s rt rs ft off e rfl
  exact ⟨faultsAt_memRead8 _, faultsAt_memRead8 _, faultsAt_memRead16 _, faultsAt_memRead16 _, faultsAt_memRead32 _,
    faultsAt_memRead32 _, faultsAt_memRead32 _, faultsAt_memWrite8 _ _, faultsAt_memWrite16 _ _, faultsAt_memWrite32 _ _,
    faultsAt_memWrite32 _ _, faultsAt_memWrite32 _ _, wordAddr_aligned .., faultsAt_memRead32 _, faultsAt_memRead32 _,
    faultsAt_memRead32 _, faultsAt_memRead32 _, fun admitted =>
      ⟨faultsAt_memRead32_memWrite32 (accessible_wordAddr admitted) _ _,
        faultsAt_memRead32_memWrite32 (accessible_wordAddr admitted) _ _⟩⟩

/-! ### A word stored and read back -/

/-- A mask that keeps the two low bits of every number. -/
theorem and_mod_four {m : Nat} (keeps : m % 4 = 3) (x : Nat) : (x &&& m) % 4 = x % 4 := by
  have h : (x &&& m) % 2 ^ 2 = x % 2 ^ 2 &&& m % 2 ^ 2 := Nat.and_mod_two_pow
  rw [show m % 2 ^ 2 = 2 ^ 2 - 1 from keeps, Nat.and_two_pow_sub_one_eq_mod, Nat.mod_mod] at h
  exact h

/-- Such a mask keeps the place of a byte in its word. -/
theorem add_and_of_aligned {x m i : Nat} (aligned : x % 4 = 0) (keeps : m % 4 = 3) (hi : i < 4) :
    (x + i) &&& m = (x &&& m) + i := by
  have high (y : Nat) : (y &&& m) / 4 = y / 4 &&& m / 4 := Nat.and_div_two_pow (n := 2)
  have same := high (x + i)
  rw [show (x + i) / 4 = x / 4 by omega, ← high x] at same
  have low := and_mod_four keeps x
  have low' := and_mod_four keeps (x + i)
  omega

/-- A store of a word that answers a next state was aligned and left the bytes of the word in memory. -/
theorem exec_sw_next {s t : State} {rt rs : Reg} {off : BitVec 16} (h : exec (.sw rt off rs) s = .next t) :
    (maskAddr s (effAddr s rs off)).toNat % 4 = 0 ∧ t.cfg = s.cfg ∧
      HoldsBytes t.mem s (maskAddr s (effAddr s rs off)).toNat 4 (byteOf (readGpr s rt)) := by
  have run : orFault (memWrite32 s (effAddr s rs off) (readGpr s rt)) complete = .next t := h
  rcases accessFault_cases s (effAddr s rs off) 4 .store with ⟨-, ok⟩ | ⟨bad, -⟩ | ⟨bad, -⟩
  · rw [orFault_of_ok (memWrite32_of_accessible ok)] at run
    cases run
    exact ⟨ok.1, rfl, holdsBytes_setWord s ok.1 _⟩
  · rw [orFault_of_error (memWrite32_fault bad)] at run
    cases run
  · rw [orFault_of_error (memWrite32_fault bad)] at run
    cases run

theorem maskAddr_add_of_aligned {s : State} {a : Word} {i : Nat} (aligned : (maskAddr s a).toNat % 4 = 0)
    (keeps : s.cfg.addrMask.toNat % 4 = 3) (hi : i < 4) :
    (maskAddr s (a + BitVec.ofNat 32 i)).toNat = (maskAddr s a).toNat + i := by
  rw [maskAddr, BitVec.toNat_and] at aligned
  rw [and_mod_four keeps] at aligned
  have sum : (a + BitVec.ofNat 32 i).toNat = a.toNat + i := by
    rw [BitVec.toNat_add, BitVec.toNat_ofNat]; omega
  rw [maskAddr, BitVec.toNat_and, sum, add_and_of_aligned aligned keeps hi, ← BitVec.toNat_and, maskAddr]

theorem littleEndian_one (s : State) (a : Nat) : littleEndian s a 1 = (s.mem.byte a).toNat := by
  simp [littleEndian]

/-- Settles O38: the address of the byte lies in the stored word, at the same place masked and unmasked. -/
theorem storeThenLoadReadsTheBytesBack : Obligations.StoreThenLoadReadsTheBytesBack := by
  intro s t rt rs rd rb off offb i run hi keeps place admitted
  obtain ⟨aligned, sameCfg, holds⟩ := exec_sw_next run
  have sameMask (a : Word) : maskAddr t a = maskAddr s a := by rw [maskAddr, maskAddr, sameCfg]
  refine writesGpr_load rd (memRead8_of_accessible ⟨Nat.mod_one _, admitted⟩) ?_
  refine (setWidth_ofNat_of_lt (littleEndian_lt _ _ 1)).trans ?_
  rw [littleEndian_one, place, sameMask, maskAddr_add_of_aligned aligned keeps hi, holds.byte hi]

end Sys2Proof.Machine
end

section
/-! Rounding to binary32 (R301): the word that `roundMag` gives is the nearest to its quotient, ties to even. A number
of units is rounded to the place, in the order of the words, of a magnitude; a real number and a square root are
rounded by the same rule. -/
namespace Sys2Proof.Machine

/-! ### Places and their magnitudes -/

/-- The place of the infinity, which is that of the first magnitude too large. -/
def infPlace : Nat := 0x7F800000

/-- The magnitude of `q` units of the binade `e`: `q` has 24 bits, fewer in the lowest binade, or is the first number
beyond. -/
theorem magOf_binade {e q : Nat} (h : e = 0 ∧ q ≤ 2 ^ 24 ∨ 2 ^ 23 ≤ q ∧ q ≤ 2 ^ 24) :
    magOf (e * 2 ^ 23 + q) = q * 2 ^ e := by
  unfold magOf
  by_cases low : e * 2 ^ 23 + q < 2 ^ 23
  · obtain rfl : e = 0 := by omega
    rw [if_pos (by omega)]; omega
  · rw [if_neg (by omega)]
    by_cases top : q = 2 ^ 24
    · rw [top, show (e * 2 ^ 23 + 2 ^ 24) / 2 ^ 23 - 1 = e + 1 by omega,
        show (e * 2 ^ 23 + 2 ^ 24) % 2 ^ 23 = 0 by omega, pow_succ]
      ring
    · rw [show (e * 2 ^ 23 + q) / 2 ^ 23 - 1 = e by omega]
      congr 1; omega

/-- `x` units round to the place `m`: `x` lies between the midpoints to the places beside it, and on one only where
`m` is even. -/
structure RoundsToPlace (x : ℝ) (m : Nat) : Prop where
  below_next : 2 * x ≤ magOf m + magOf (m + 1)
  even_of_next : 2 * x = magOf m + magOf (m + 1) → m % 2 = 0
  above_prev : ∀ k, m = k + 1 → magOf k + magOf m ≤ 2 * x
  even_of_prev : ∀ k, m = k + 1 → (magOf k + magOf m : ℝ) = 2 * x → m % 2 = 0

theorem magOf_le {k m : Nat} (h : k ≤ m) : (magOf k : ℝ) ≤ magOf m := by
  exact_mod_cast magOf_strictMono.monotone h

theorem magOf_lt {k m : Nat} (h : k < m) : (magOf k : ℝ) < magOf m := by exact_mod_cast magOf_strictMono h

namespace RoundsToPlace
variable {x : ℝ} {m : Nat} (h : RoundsToPlace x m)
include h

/-- No place is nearer. -/
theorem nearest (k : Nat) : |(magOf m : ℝ) - x| ≤ |magOf k - x| := by
  rcases lt_trichotomy k m with less | rfl | more
  · obtain ⟨j, rfl⟩ : ∃ j, m = j + 1 := ⟨m - 1, by omega⟩
    have mid := h.above_prev j rfl
    have far := magOf_le (show k ≤ j by omega)
    have gap := magOf_lt (Nat.lt_succ_self j)
    rw [abs_sub_comm (magOf k : ℝ), abs_of_nonneg (show (0 : ℝ) ≤ x - magOf k by linarith), abs_le]
    constructor <;> linarith
  · exact le_rfl
  · have mid := h.below_next
    have far := magOf_le (show m + 1 ≤ k by omega)
    have gap := magOf_lt (Nat.lt_succ_self m)
    rw [abs_of_nonneg (show (0 : ℝ) ≤ magOf k - x by linarith), abs_le]
    constructor <;> linarith

/-- Another place as near makes the place even. -/
theorem even_of_tie {k : Nat} (other : k ≠ m) (tie : |(magOf k : ℝ) - x| = |magOf m - x|) : m % 2 = 0 := by
  rcases Nat.lt_or_gt_of_ne other with less | more
  · obtain ⟨j, rfl⟩ : ∃ j, m = j + 1 := ⟨m - 1, by omega⟩
    have mid := h.above_prev j rfl
    have far := magOf_le (show k ≤ j by omega)
    have gap := magOf_lt less
    refine h.even_of_prev j rfl (le_antisymm mid ?_)
    rcases abs_eq_abs.1 tie with e | e <;> linarith
  · have mid := h.below_next
    have far := magOf_le (show m + 1 ≤ k by omega)
    have gap := magOf_lt more
    refine h.even_of_next (le_antisymm mid ?_)
    rcases abs_eq_abs.1 tie with e | e <;> linarith

theorem eq_zero_of_zero (zero : x = 0) : m = 0 := by
  by_contra pos
  obtain ⟨j, rfl⟩ : ∃ j, m = j + 1 := ⟨m - 1, by omega⟩
  have mid := h.above_prev j rfl
  have gap := magOf_lt (Nat.lt_succ_self j)
  have base : (0 : ℝ) ≤ magOf j := Nat.cast_nonneg _
  linarith

/-- The place is finite exactly below the overflow threshold, which is `2 ^ 128 - 2 ^ 103` in units. -/
theorem lt_infPlace_iff : m < infPlace ↔ x < (2 ^ 25 - 1) * 2 ^ 252 := by
  have top : (magOf (infPlace - 1) : ℝ) = (2 ^ 25 - 2) * 2 ^ 252 := by
    rw [show magOf (infPlace - 1) = (2 ^ 25 - 2) * 2 ^ 252 by decide +kernel]; push_cast; norm_num
  have next : (magOf infPlace : ℝ) = 2 ^ 25 * 2 ^ 252 := by
    rw [show magOf infPlace = 2 ^ 25 * 2 ^ 252 by decide +kernel]; push_cast; norm_num
  constructor
  · intro less
    have mid := h.below_next
    have le0 := magOf_le (show m ≤ infPlace - 1 by omega)
    have le1 := magOf_le (show m + 1 ≤ infPlace by omega)
    refine lt_of_le_of_ne (by linarith) fun e => ?_
    have last : m = infPlace - 1 := by
      by_contra other
      have lt0 := magOf_lt (show m < infPlace - 1 by omega)
      linarith
    have even := h.even_of_next (by rw [last, show infPlace - 1 + 1 = infPlace from rfl, top, next, e]; ring)
    rw [last] at even
    exact absurd even (by decide)
  · intro less
    by_contra more
    obtain ⟨j, rfl⟩ : ∃ j, m = j + 1 := ⟨m - 1, by unfold infPlace at more; omega⟩
    have mid := h.above_prev j rfl
    have le0 := magOf_le (show infPlace - 1 ≤ j by omega)
    have le1 := magOf_le (show infPlace ≤ j + 1 by omega)
    linarith

end RoundsToPlace

/-! ### The place of a quotient -/

/-- The place that `roundMag` gives to `n / d` units. -/
def placeOf (n d : Nat) : Nat := excessBits (n / d) * 2 ^ 23 + roundDiv n (d * 2 ^ excessBits (n / d))

theorem roundMag_eq (n d : Nat) : roundMag n d = BitVec.ofNat 32 (min (placeOf n d) infPlace) := by
  show (if infPlace ≤ placeOf n d then 0x7F800000#32 else BitVec.ofNat 32 (placeOf n d)) = _
  by_cases h : infPlace ≤ placeOf n d
  · rw [if_pos h, Nat.min_eq_right h]; rfl
  · rw [if_neg h, Nat.min_eq_left (by omega)]

/-- The integer nearest to a quotient: on a midpoint only where it is even. -/
theorem roundDiv_bounds (n : Nat) {d : Nat} (hd : 0 < d) :
    2 * (roundDiv n d * d) ≤ 2 * n + d ∧ 2 * n ≤ 2 * (roundDiv n d * d) + d ∧
      (2 * (roundDiv n d * d) = 2 * n + d ∨ 2 * n = 2 * (roundDiv n d * d) + d → roundDiv n d % 2 = 0) := by
  obtain ⟨up, down, -, -⟩ := roundDiv_near n hd
  refine ⟨up, down, ?_⟩
  have split := Nat.div_add_mod n d
  have rem := Nat.mod_lt n hd
  unfold roundDiv
  generalize n / d = q at split ⊢
  generalize n % d = r at split rem ⊢
  have e : (q + 1) * d = d * q + d := by ring
  have e0 : q * d = d * q := by ring
  split
  · rw [e0]; omega
  · split
    · rw [e]; omega
    · omega

/-- The binade of `n / d` units: the lowest, or one where the integral part has 24 bits. -/
theorem excessBits_cases (n d : Nat) :
    excessBits (n / d) = 0 ∧ n / d < 2 ^ 24 ∨
      2 ^ 23 ≤ n / (d * 2 ^ excessBits (n / d)) ∧ n / (d * 2 ^ excessBits (n / d)) < 2 ^ 24 := by
  rw [← Nat.div_div_eq_div_mul]
  generalize n / d = q
  unfold excessBits
  by_cases h : q < 2 ^ 24
  · exact .inl ⟨if_pos h, h⟩
  · right
    rw [if_neg h]
    have lo : 2 ^ q.log2 ≤ q := Nat.log2_self_le (by omega)
    have hi : q < 2 ^ (q.log2 + 1) := Nat.lt_log2_self
    have large : 24 ≤ q.log2 := (Nat.le_log2 (by omega)).2 (by omega)
    have s1 : 2 ^ q.log2 = 2 ^ 23 * 2 ^ (q.log2 - 23) := by rw [← pow_add]; congr 1; omega
    have s2 : 2 ^ (q.log2 + 1) = 2 ^ 24 * 2 ^ (q.log2 - 23) := by rw [← pow_add]; congr 1; omega
    exact ⟨(Nat.le_div_iff_mul_le (by positivity)).2 (s1 ▸ lo), (Nat.div_lt_iff_lt_mul (by positivity)).2 (s2 ▸ hi)⟩

/-- The rule in whole numbers, for a quotient. -/
theorem roundsToPlace_of_nat {n d m : Nat} (hd : 0 < d) (next : 2 * n ≤ (magOf m + magOf (m + 1)) * d)
    (evenNext : 2 * n = (magOf m + magOf (m + 1)) * d → m % 2 = 0)
    (prev : ∀ k, m = k + 1 → (magOf k + magOf m) * d ≤ 2 * n)
    (evenPrev : ∀ k, m = k + 1 → (magOf k + magOf m) * d = 2 * n → m % 2 = 0) : RoundsToPlace ((n : ℝ) / d) m := by
  have pos : (0 : ℝ) < d := by exact_mod_cast hd
  refine ⟨?_, fun e => evenNext ?_, fun k hk => ?_, fun k hk e => evenPrev k hk ?_⟩
  · rw [← mul_div_assoc, div_le_iff₀ pos]; exact_mod_cast next
  · rw [← mul_div_assoc, div_eq_iff pos.ne'] at e; exact_mod_cast e
  · rw [← mul_div_assoc, le_div_iff₀ pos]; exact_mod_cast prev k hk
  · rw [← mul_div_assoc, eq_div_iff pos.ne'] at e; exact_mod_cast e

/-- The magnitude after that of `q` units of a binade: one unit on, two from the number beyond the binade. -/
theorem magOf_binade_succ {e q : Nat} (h : e = 0 ∧ q ≤ 2 ^ 24 ∨ 2 ^ 23 ≤ q ∧ q ≤ 2 ^ 24) :
    (q + 1) * 2 ^ e ≤ magOf (e * 2 ^ 23 + q + 1) := by
  by_cases top : q = 2 ^ 24
  · rw [show e * 2 ^ 23 + q + 1 = (e + 1) * 2 ^ 23 + (2 ^ 23 + 1) by omega, magOf_binade (by omega), pow_succ, top]
    omega
  · have next := magOf_binade (e := e) (q := q + 1) (by omega)
    rw [← Nat.add_assoc] at next
    exact next.ge

/-- The magnitude before it: one unit back, unless `q` is the least of its binade. -/
theorem magOf_binade_pred {e q k : Nat} (h : e = 0 ∧ q ≤ 2 ^ 24 ∨ 2 ^ 23 ≤ q ∧ q ≤ 2 ^ 24) (hk : e * 2 ^ 23 + q = k + 1)
    (least : e = 0 ∨ q ≠ 2 ^ 23) : magOf k + 2 ^ e = q * 2 ^ e := by
  obtain ⟨p, rfl⟩ : ∃ p, q = p + 1 := ⟨q - 1, by omega⟩
  rw [show k = e * 2 ^ 23 + p by omega, magOf_binade (by omega)]
  ring

/-- What a quotient rounded to a multiple `q` of `2 ^ e` says of its place. -/
theorem roundsToPlace_of_bounds {n d e q : Nat} (hd : 0 < d)
    (binade : e = 0 ∧ q ≤ 2 ^ 24 ∨ 2 ^ 23 ≤ n / (d * 2 ^ e) ∧ 2 ^ 23 ≤ q ∧ q ≤ 2 ^ 24)
    (up : 2 * (q * (d * 2 ^ e)) ≤ 2 * n + d * 2 ^ e) (down : 2 * n ≤ 2 * (q * (d * 2 ^ e)) + d * 2 ^ e)
    (tie : 2 * (q * (d * 2 ^ e)) = 2 * n + d * 2 ^ e ∨ 2 * n = 2 * (q * (d * 2 ^ e)) + d * 2 ^ e → q % 2 = 0) :
    RoundsToPlace ((n : ℝ) / d) (e * 2 ^ 23 + q) := by
  have inBinade : e = 0 ∧ q ≤ 2 ^ 24 ∨ 2 ^ 23 ≤ q ∧ q ≤ 2 ^ 24 := by omega
  have own := magOf_binade inBinade
  have next : 2 * (q * (d * 2 ^ e)) + d * 2 ^ e ≤ (magOf (e * 2 ^ 23 + q) + magOf (e * 2 ^ 23 + q + 1)) * d := by
    calc 2 * (q * (d * 2 ^ e)) + d * 2 ^ e = (q * 2 ^ e + (q + 1) * 2 ^ e) * d := by ring
      _ ≤ _ := Nat.mul_le_mul_right d (Nat.add_le_add own.ge (magOf_binade_succ inBinade))
  have prev (k : Nat) (hk : e * 2 ^ 23 + q = k + 1) :
      (magOf k + magOf (e * 2 ^ 23 + q)) * d + d * 2 ^ e = 2 * (q * (d * 2 ^ e)) ∨
        (magOf k + magOf (e * 2 ^ 23 + q)) * d < 2 * n := by
    by_cases least : e = 0 ∨ q ≠ 2 ^ 23
    · left
      calc (magOf k + magOf (e * 2 ^ 23 + q)) * d + d * 2 ^ e = (magOf k + 2 ^ e + q * 2 ^ e) * d := by rw [own]; ring
        _ = 2 * (q * (d * 2 ^ e)) := by rw [magOf_binade_pred inBinade hk least]; ring
    · right
      have less : magOf k < q * 2 ^ e := own ▸ magOf_strictMono (by omega)
      have bound : q * (d * 2 ^ e) ≤ n := by
        rw [show q = 2 ^ 23 by omega]
        exact (Nat.le_div_iff_mul_le (by positivity)).1 (by omega)
      calc (magOf k + magOf (e * 2 ^ 23 + q)) * d < (q * 2 ^ e + q * 2 ^ e) * d :=
            Nat.mul_lt_mul_of_pos_right (by omega) hd
        _ = 2 * (q * (d * 2 ^ e)) := by ring
        _ ≤ 2 * n := by omega
  refine roundsToPlace_of_nat hd (by omega) (fun t => ?_) (fun k hk => ?_) fun k hk t => ?_
  · have := tie (.inr (by omega)); omega
  · rcases prev k hk with h | h <;> omega
  · have := tie (.inl (by rcases prev k hk with h | h <;> omega)); omega

/-- `roundMag` rounds its quotient. -/
theorem roundsToPlace_placeOf (n : Nat) {d : Nat} (hd : 0 < d) : RoundsToPlace ((n : ℝ) / d) (placeOf n d) := by
  have hD : 0 < d * 2 ^ excessBits (n / d) := by positivity
  obtain ⟨up, down, tie⟩ := roundDiv_bounds n hD
  obtain ⟨-, -, lo, hi⟩ := roundDiv_near n hD
  refine roundsToPlace_of_bounds hd ?_ up down tie
  rcases excessBits_cases n d with ⟨e0, small⟩ | ⟨low, high⟩
  · refine .inl ⟨e0, ?_⟩
    rw [e0, pow_zero, Nat.mul_one] at hi ⊢
    omega
  · exact .inr ⟨low, by omega, by omega⟩

/-! ### The word of a sign and a place -/

/-- The word of a sign and a place below the NaNs. -/
def signedPlace (neg : Bool) (m : Nat) : Word := signWord neg ||| BitVec.ofNat 32 m

section
variable (neg : Bool) {m : Nat}

theorem signOf_signedPlace (h : m < 2 ^ 31) : signOf (signedPlace neg m) ↔ neg = true := by
  rw [← f32Neg_iff, signedPlace, (signed_fields neg h).1]

theorem expOf_signedPlace (h : m < 2 ^ 31) : expOf (signedPlace neg m) = m / 2 ^ 23 := by
  rw [← f32Exp_eq, signedPlace, (signed_fields neg h).2.1]

theorem fracOf_signedPlace (h : m < 2 ^ 31) : fracOf (signedPlace neg m) = m % 2 ^ 23 := by
  rw [← f32Frac_eq, signedPlace, (signed_fields neg h).2.2]

theorem toNat_signedPlace_mod_two (h : m < 2 ^ 31) : (signedPlace neg m).toNat % 2 = m % 2 := by
  have frac := fracOf_signedPlace neg h
  unfold fracOf at frac
  omega

theorem isFinite_signedPlace (h : m < infPlace) : IsFinite (signedPlace neg m) := by
  unfold infPlace at h
  rw [IsFinite, expOf_signedPlace neg (by omega)]
  omega

theorem isInf_signedPlace : IsInf (signedPlace neg infPlace) :=
  ⟨expOf_signedPlace neg (by decide), fracOf_signedPlace neg (by decide)⟩

theorem f32Mag_signedPlace (h : m < 2 ^ 31) : f32Mag (signedPlace neg m) = magOf m := by
  rw [f32Mag, magOf, f32Exp_eq, f32Frac_eq, expOf_signedPlace neg h, fracOf_signedPlace neg h]

end

/-- A unit, `2 ^ -149`. -/
noncomputable def unit : ℝ := (2 : ℝ) ^ (-149 : ℤ)

theorem unit_eq : unit = 1 / 2 ^ 149 := by rw [unit, zpow_neg, one_div]; norm_cast

theorem unit_positive : 0 < unit := unit_pos

theorem magnitude_eq_units (w : Word) : magnitude w = f32Mag w * unit := magnitude_eq w

theorem magnitude_nonneg (w : Word) : 0 ≤ magnitude w := by
  rw [magnitude_eq_units]; exact mul_nonneg (Nat.cast_nonneg _) unit_positive.le

theorem abs_value (w : Word) : |value w| = magOf (w.toNat % 2 ^ 31) * unit := by
  rw [← f32Abs_toNat, ← f32Mag_eq, ← magnitude_eq_units, value]
  split
  · rw [abs_neg, abs_of_nonneg (magnitude_nonneg w)]
  · exact abs_of_nonneg (magnitude_nonneg w)

/-- The sign as a factor. -/
def signFactor (neg : Bool) : ℝ := if neg then -1 else 1

theorem abs_signFactor (neg : Bool) : |signFactor neg| = 1 := by cases neg <;> simp [signFactor]

theorem value_signedPlace (neg : Bool) {m : Nat} (h : m < 2 ^ 31) :
    value (signedPlace neg m) = signFactor neg * (magOf m * unit) := by
  have sign := signOf_signedPlace neg h
  rw [value, magnitude_eq_units, f32Mag_signedPlace neg h]
  cases neg <;> simp [sign, signFactor]

section
variable {x y : ℝ} {neg : Bool} (units : |x| = y * unit) (sign : x < 0 → neg = true) (sign' : 0 < x → neg = false)
include units sign sign'

theorem eq_signFactor_mul : x = signFactor neg * (y * unit) := by
  rw [← units]
  rcases lt_trichotomy x 0 with h | h | h
  · rw [sign h, abs_of_neg h]; simp [signFactor]
  · rw [h]; simp
  · rw [sign' h, abs_of_pos h]; simp [signFactor]

variable {m : Nat} (h : RoundsToPlace y m)
include h

/-- Below the overflow threshold. -/
theorem nearest_signedPlace (small : m < infPlace) :
    (∀ u, IsFinite u → |value (signedPlace neg m) - x| ≤ |value u - x|) ∧
      ∀ u, IsFinite u → value u ≠ value (signedPlace neg m) →
        |value u - x| = |value (signedPlace neg m) - x| → (signedPlace neg m).toNat % 2 = 0 := by
  have m31 : m < 2 ^ 31 := by unfold infPlace at small; omega
  have own : |value (signedPlace neg m) - x| = |(magOf m : ℝ) - y| * unit := by
    rw [value_signedPlace neg m31, eq_signFactor_mul units sign sign', ← mul_sub, ← sub_mul, abs_mul, abs_mul,
      abs_signFactor, one_mul, abs_of_pos unit_positive]
  have other (u : Word) : |(magOf (u.toNat % 2 ^ 31) : ℝ) - y| * unit ≤ |value u - x| := by
    have := abs_abs_sub_abs_le (value u) x
    rwa [abs_value, units, ← sub_mul, abs_mul, abs_of_pos unit_positive] at this
  refine ⟨fun u _ => ?_, fun u _ differ tie => ?_⟩
  · rw [own]
    exact (mul_le_mul_of_nonneg_right (h.nearest _) unit_positive.le).trans (other u)
  · rw [toNat_signedPlace_mod_two neg m31]
    by_cases same : u.toNat % 2 ^ 31 = m
    · have opposite : value u = -value (signedPlace neg m) := by
        refine (abs_eq_abs.1 ?_).resolve_left differ
        rw [abs_value, same, value_signedPlace neg m31, abs_mul, abs_signFactor, one_mul,
          abs_of_nonneg (mul_nonneg (Nat.cast_nonneg _) unit_positive.le)]
      rw [opposite] at tie differ
      have zero : x = 0 := by
        rcases abs_eq_abs.1 tie with e | e
        · exact absurd (by linarith) differ
        · linarith
      have y0 : y = 0 := by
        rw [zero, abs_zero] at units
        exact (mul_eq_zero.1 units.symm).resolve_right unit_positive.ne'
      rw [h.eq_zero_of_zero y0]
    · refine h.even_of_tie same (le_antisymm ?_ (h.nearest _))
      refine le_of_mul_le_mul_right ?_ unit_positive
      rw [← own, ← tie]
      exact other u

/-- A number rounded to a place, with its sign, is rounded as IEEE 754 says. -/
theorem nearestTo_signedPlace : NearestTo x (signedPlace neg (min m infPlace)) := by
  have threshold : |x| < 2 ^ 128 - 2 ^ 103 ↔ m < infPlace := by
    rw [h.lt_infPlace_iff, units, unit_eq, mul_one_div, div_lt_iff₀ (by positivity)]
    have same : ((2 : ℝ) ^ 128 - 2 ^ 103) * 2 ^ 149 = (2 ^ 25 - 1) * 2 ^ 252 := by ring
    rw [same]
  refine ⟨fun less => ?_, fun more => ?_⟩
  · have small := threshold.1 less
    rw [Nat.min_eq_left small.le]
    exact ⟨isFinite_signedPlace neg small, nearest_signedPlace units sign sign' h small⟩
  · have large : infPlace ≤ m := not_lt.1 fun small => absurd (threshold.2 small) (not_lt.2 more)
    rw [Nat.min_eq_right large, signOf_signedPlace neg (by decide)]
    refine ⟨isInf_signedPlace neg, fun e => ?_, sign⟩
    by_contra nonneg
    rcases (not_lt.1 nonneg).lt_or_eq with pos | zero
    · rw [sign' pos] at e; exact absurd e (by decide)
    · rw [← zero, abs_zero] at more; norm_num at more

end

/-- The word of a sign and a rounded quotient. -/
theorem signWord_or_roundMag (neg : Bool) (n d : Nat) :
    signWord neg ||| roundMag n d = signedPlace neg (min (placeOf n d) infPlace) := by
  rw [roundMag_eq, signedPlace]

theorem signOf_signWord_or_roundMag (neg : Bool) (n d : Nat) : signOf (signWord neg ||| roundMag n d) ↔ neg = true := by
  rw [signWord_or_roundMag]
  exact signOf_signedPlace neg (Nat.lt_of_le_of_lt (Nat.min_le_right ..) (by decide))

/-- A quotient of units, rounded and with its sign. -/
theorem nearestTo_roundMag {x : ℝ} {n d : Nat} {neg : Bool} (hd : 0 < d) (units : |x| = (n : ℝ) / d * unit)
    (sign : x < 0 → neg = true) (sign' : 0 < x → neg = false) : NearestTo x (signWord neg ||| roundMag n d) := by
  rw [signWord_or_roundMag]
  exact nearestTo_signedPlace units sign sign' (roundsToPlace_placeOf n hd)

end Sys2Proof.Machine
end

section
/-! The FLOAT operations (R301) and the conversions (R320 to R327): the obligations O45, O46 and O48. -/
namespace Sys2Proof.Machine

/-! ### The sign flipped (R317) -/

theorem toNat_f32Flip (w : Word) :
    (f32Flip w).toNat = if 2 ^ 31 ≤ w.toNat then w.toNat - 2 ^ 31 else w.toNat + 2 ^ 31 := by
  have high : (w.toNat ^^^ 2 ^ 31) / 2 ^ 31 = w.toNat / 2 ^ 31 ^^^ 1 := Nat.xor_div_two_pow
  have low : (w.toNat ^^^ 2 ^ 31) % 2 ^ 31 = w.toNat % 2 ^ 31 ^^^ 0 := Nat.xor_mod_two_pow
  rw [Nat.xor_zero] at low
  have e : (f32Flip w).toNat = w.toNat ^^^ 2 ^ 31 := BitVec.toNat_xor ..
  have bound := w.isLt
  rw [e]
  split
  · rw [show w.toNat / 2 ^ 31 = 1 by omega, Nat.xor_self] at high
    omega
  · rw [show w.toNat / 2 ^ 31 = 0 by omega, Nat.zero_xor] at high
    omega

theorem signOf_f32Flip (w : Word) : signOf (f32Flip w) ↔ ¬ signOf w := by
  unfold signOf
  have bound := w.isLt
  rw [toNat_f32Flip]
  split <;> omega

theorem expOf_f32Flip (w : Word) : expOf (f32Flip w) = expOf w := by
  unfold expOf
  rw [toNat_f32Flip]
  split <;> omega

theorem fracOf_f32Flip (w : Word) : fracOf (f32Flip w) = fracOf w := by
  unfold fracOf
  rw [toNat_f32Flip]
  split <;> omega

theorem isNaN_f32Flip (w : Word) : IsNaN (f32Flip w) ↔ IsNaN w := by unfold IsNaN; rw [expOf_f32Flip, fracOf_f32Flip]

theorem isInf_f32Flip (w : Word) : IsInf (f32Flip w) ↔ IsInf w := by unfold IsInf; rw [expOf_f32Flip, fracOf_f32Flip]

theorem isFinite_f32Flip (w : Word) : IsFinite (f32Flip w) ↔ IsFinite w := by unfold IsFinite; rw [expOf_f32Flip]

theorem value_f32Flip (w : Word) : value (f32Flip w) = -value w := by
  have same : magnitude (f32Flip w) = magnitude w := by unfold magnitude; rw [expOf_f32Flip, fracOf_f32Flip]
  rw [value, value, same]
  by_cases h : signOf w <;> simp [h, signOf_f32Flip]

/-! ### Signs, zeros and infinities -/

theorem f32Neg_bne_iff (a b : Word) : (f32Neg a != f32Neg b) = true ↔ SignsDiffer a b := by
  rw [SignsDiffer, ← f32Neg_iff, ← f32Neg_iff]
  cases f32Neg a <;> cases f32Neg b <;> simp

theorem not_isNaN_of_isInf {w : Word} (h : IsInf w) : ¬ IsNaN w := fun n => n.2 h.2

theorem not_isInf_of_isFinite {w : Word} (h : IsFinite w) : ¬ IsInf w := ((isFinite_iff w).1 h).2

theorem not_isNaN_of_isFinite {w : Word} (h : IsFinite w) : ¬ IsNaN w := ((isFinite_iff w).1 h).1

theorem isZero_iff (w : Word) : isZero w = true ↔ f32Mag w = 0 := by
  unfold isZero f32Mag
  by_cases h : f32Exp w = 0
  · simp [h]
  · simp [h]

theorem value_eq_zero_iff_f32Mag (w : Word) : value w = 0 ↔ f32Mag w = 0 := by
  rw [value_eq_zero_iff, f32Scaled]
  split <;> omega

theorem isZero_iff_value (w : Word) : isZero w = true ↔ value w = 0 := by
  rw [isZero_iff, value_eq_zero_iff_f32Mag]

theorem isZero_eq_false {w : Word} (h : value w ≠ 0) : isZero w = false :=
  Bool.eq_false_iff.2 fun z => h ((isZero_iff_value w).1 z)

theorem not_isZero_of_isInf {w : Word} (h : IsInf w) : isZero w = false := by
  unfold isZero
  rw [f32Exp_eq, h.1]
  rfl

theorem infWord_eq (neg : Bool) : infWord neg = signedPlace neg infPlace := rfl

theorem isInf_infWord (neg : Bool) : IsInf (infWord neg) := isInf_signedPlace neg

theorem signOf_infWord (neg : Bool) : signOf (infWord neg) ↔ neg = true := signOf_signedPlace neg (by decide)

/-- An infinity is the word of its sign. -/
theorem eq_of_isInf {a b : Word} (ha : IsInf a) (hb : IsInf b) (sign : signOf a ↔ signOf b) : a = b := by
  have sa := f32Neg_iff a
  have sb := f32Neg_iff b
  apply BitVec.eq_of_toNat_eq
  rw [toNat_fields a, toNat_fields b, ha.1, ha.2, hb.1, hb.2]
  congr 3
  rw [sa, sb]
  exact propext sign

theorem signWord_eq (neg : Bool) : signWord neg = signedPlace neg 0 := by cases neg <;> rfl

theorem isFinite_signWord (neg : Bool) : IsFinite (signWord neg) := by
  rw [signWord_eq]; exact isFinite_signedPlace neg (by decide)

theorem signOf_signWord (neg : Bool) : signOf (signWord neg) ↔ neg = true := by
  rw [signWord_eq]; exact signOf_signedPlace neg (by decide)

theorem value_signWord (neg : Bool) : value (signWord neg) = 0 := by
  rw [signWord_eq, value_signedPlace neg (by decide), magOf_zero]; simp

/-- The sign of a value that is not 0 is its sign bit. -/
theorem value_neg_iff {w : Word} (h : value w ≠ 0) : value w < 0 ↔ signOf w := by
  have pos : 0 < magnitude w := by
    refine lt_of_le_of_ne (magnitude_nonneg w) fun e => h ?_
    rw [value, ← e, neg_zero, ite_self]
  rw [value]
  by_cases s : signOf w
  · simp [s, pos]
  · simp [s, pos.le]

theorem abs_value_eq (w : Word) : |value w| = f32Mag w * unit := by
  rw [abs_value, ← f32Abs_toNat, ← f32Mag_eq]

/-! ### Sums -/

theorem signWord_or_zero (neg : Bool) : signWord neg ||| roundMag 0 1 = signWord neg := by cases neg <;> rfl

theorem sumWord_eq (z : Int) (bothNeg : Bool) :
    sumWord z bothNeg = signWord (if z = 0 then bothNeg else decide (z < 0)) ||| roundMag z.natAbs 1 := by
  unfold sumWord
  by_cases h : z = 0
  · rw [if_pos h, if_pos h, h, Int.natAbs_zero, signWord_or_zero]
  · rw [if_neg h, if_neg h]

theorem abs_intCast_mul_unit (z : Int) : |(z : ℝ) * unit| = (z.natAbs : ℝ) / (1 : ℕ) * unit := by
  rw [abs_mul, abs_of_pos unit_positive, Nat.cast_natAbs, Int.cast_abs, Nat.cast_one, div_one]

theorem nearestTo_sumWord (z : Int) (bothNeg : Bool) : NearestTo (z * unit) (sumWord z bothNeg) := by
  have sign : (z : ℝ) * unit < 0 ↔ z < 0 := by
    rw [← zero_mul unit, mul_lt_mul_iff_left₀ unit_positive]; exact Int.cast_lt_zero
  have sign' : 0 < (z : ℝ) * unit ↔ 0 < z := by rw [mul_pos_iff_of_pos_right unit_positive]; exact Int.cast_pos
  rw [sumWord_eq]
  refine nearestTo_roundMag one_pos (abs_intCast_mul_unit z) (fun h => ?_) fun h => ?_
  · have := sign.1 h
    rw [if_neg (by omega)]; simpa using this
  · have := sign'.1 h
    rw [if_neg (by omega)]; simp; omega

theorem signOf_sumWord_zero (bothNeg : Bool) : signOf (sumWord 0 bothNeg) ↔ bothNeg = true := signOf_signWord bothNeg

section
variable {nan a b : Word}

theorem addWith_nan (h : IsNaN a ∨ IsNaN b) : addWith nan a b = nan :=
  if_pos (by rcases h with h | h <;> simp [(isNaN_iff _).2 h])

theorem addWith_finite (ha : IsFinite a) (hb : IsFinite b) :
    addWith nan a b = sumWord (f32Scaled a + f32Scaled b) (f32Neg a && f32Neg b) := by
  obtain ⟨na, ia⟩ := (isFinite_iff a).1 ha
  obtain ⟨nb, ib⟩ := (isFinite_iff b).1 hb
  simp [addWith, (isNaN_eq_false_iff _).2 na, (isNaN_eq_false_iff _).2 nb, (isInf_eq_false_iff _).2 ia,
    (isInf_eq_false_iff _).2 ib]

theorem addWith_inf_left (ha : IsInf a) (hb : ¬ IsNaN b) (h : ¬ (IsInf b ∧ SignsDiffer a b)) : addWith nan a b = a := by
  rw [← isInf_iff b, ← f32Neg_bne_iff, ← Bool.and_eq_true] at h
  simp only [addWith, (isNaN_eq_false_iff _).2 (not_isNaN_of_isInf ha), (isNaN_eq_false_iff _).2 hb, (isInf_iff _).2 ha,
    Bool.or_self, Bool.false_eq_true, if_false, if_true, if_neg h]

theorem addWith_inf_opposed (ha : IsInf a) (hb : IsInf b) (h : SignsDiffer a b) : addWith nan a b = nan := by
  simp only [addWith, (isNaN_eq_false_iff _).2 (not_isNaN_of_isInf ha), (isNaN_eq_false_iff _).2 (not_isNaN_of_isInf hb),
    (isInf_iff _).2 ha, (isInf_iff _).2 hb, (f32Neg_bne_iff a b).2 h, Bool.or_self, Bool.and_self, Bool.false_eq_true,
    if_false, if_true]

theorem addWith_inf_right (ha : IsFinite a) (hb : IsInf b) : addWith nan a b = b := by
  obtain ⟨na, ia⟩ := (isFinite_iff a).1 ha
  simp only [addWith, (isNaN_eq_false_iff _).2 na, (isNaN_eq_false_iff _).2 (not_isNaN_of_isInf hb),
    (isInf_eq_false_iff _).2 ia, (isInf_iff _).2 hb, Bool.or_self, Bool.false_eq_true, if_false, if_true]

/-- The sum of two finite words (R301). -/
theorem addWith_nearest (ha : IsFinite a) (hb : IsFinite b) :
    NearestTo (value a + value b) (addWith nan a b) ∧
      (value a + value b = 0 → (signOf (addWith nan a b) ↔ signOf a ∧ signOf b)) := by
  have sum : value a + value b = ((f32Scaled a + f32Scaled b : Int) : ℝ) * unit := by
    rw [value_eq, value_eq, ← add_mul, Int.cast_add]; rfl
  rw [addWith_finite ha hb, sum]
  refine ⟨nearestTo_sumWord .., fun zero => ?_⟩
  have z0 : f32Scaled a + f32Scaled b = 0 := by
    exact_mod_cast (mul_eq_zero.1 zero).resolve_right unit_positive.ne'
  rw [z0, signOf_sumWord_zero, Bool.and_eq_true, f32Neg_iff, f32Neg_iff]

end

/-! ### Products and quotients -/

/-- The sign of a product or a quotient that is not 0. -/
theorem signs_of_nonzero {a b : Word} (ha : value a ≠ 0) (hb : value b ≠ 0) :
    SignsDiffer a b ↔ (value a < 0 ↔ ¬ value b < 0) := by
  rw [SignsDiffer, value_neg_iff ha, value_neg_iff hb]

theorem mul_sign {a b : Word} :
    (value a * value b < 0 → SignsDiffer a b) ∧ (0 < value a * value b → ¬ SignsDiffer a b) := by
  constructor
  · intro h
    have hne := mul_ne_zero_iff.1 h.ne
    rw [signs_of_nonzero hne.1 hne.2]
    rcases mul_neg_iff.1 h with ⟨p, q⟩ | ⟨p, q⟩
    · simp [q, p.le]
    · simp [p, q.le]
  · intro h
    have hne := mul_ne_zero_iff.1 h.ne'
    rw [signs_of_nonzero hne.1 hne.2]
    rcases mul_pos_iff.1 h with ⟨p, q⟩ | ⟨p, q⟩
    · simp [p.le, q.le]
    · simp [p, q]

section
variable {a b : Word}

theorem fmul_nan (h : IsNaN a ∨ IsNaN b) : IsNaN (fmul a b) := by
  rw [fmul, if_pos (by rcases h with h | h <;> simp [(isNaN_iff _).2 h])]
  exact isNaN_nanOf ..

theorem fmul_finite (ha : IsFinite a) (hb : IsFinite b) :
    fmul a b = signWord (f32Neg a != f32Neg b) ||| roundMag (f32Mag a * f32Mag b) f32One := by
  obtain ⟨na, ia⟩ := (isFinite_iff a).1 ha
  obtain ⟨nb, ib⟩ := (isFinite_iff b).1 hb
  simp only [fmul, (isNaN_eq_false_iff _).2 na, (isNaN_eq_false_iff _).2 nb, (isInf_eq_false_iff _).2 ia,
    (isInf_eq_false_iff _).2 ib, Bool.or_self, Bool.false_eq_true, if_false]

/-- A product with an infinity (R301): a NaN where the other factor is 0, else infinite. -/
theorem fmul_inf (na : ¬ IsNaN a) (nb : ¬ IsNaN b) (h : IsInf a ∨ IsInf b) :
    fmul a b = if isZero a || isZero b then nanOf .mul a b else infWord (f32Neg a != f32Neg b) := by
  have inf : (isInf a || isInf b) = true := by rw [Bool.or_eq_true, isInf_iff, isInf_iff]; exact h
  simp only [fmul, (isNaN_eq_false_iff _).2 na, (isNaN_eq_false_iff _).2 nb, inf, Bool.or_self, Bool.false_eq_true,
    if_false, if_true]

theorem fmul_inf_zero (na : ¬ IsNaN a) (nb : ¬ IsNaN b) (h : IsInf a ∨ IsInf b) (zero : isZero a = true ∨ isZero b = true) :
    IsNaN (fmul a b) := by
  rw [fmul_inf na nb h, if_pos (by rwa [Bool.or_eq_true])]
  exact isNaN_nanOf ..

theorem fmul_inf_nonzero (na : ¬ IsNaN a) (nb : ¬ IsNaN b) (h : IsInf a ∨ IsInf b) (za : isZero a = false)
    (zb : isZero b = false) : IsInf (fmul a b) ∧ (signOf (fmul a b) ↔ SignsDiffer a b) := by
  rw [fmul_inf na nb h, za, zb, Bool.or_self, if_neg Bool.false_ne_true, signOf_infWord, f32Neg_bne_iff]
  exact ⟨isInf_infWord _, Iff.rfl⟩

/-- The product of two finite words (R301). -/
theorem fmul_nearest (ha : IsFinite a) (hb : IsFinite b) :
    NearestTo (value a * value b) (fmul a b) ∧ (signOf (fmul a b) ↔ SignsDiffer a b) := by
  have units : |value a * value b| = ((f32Mag a * f32Mag b : ℕ) : ℝ) / f32One * unit := by
    rw [abs_mul, abs_value_eq, abs_value_eq, f32One, Nat.cast_mul, Nat.cast_pow, unit_eq]
    ring
  rw [fmul_finite ha hb, signOf_signWord_or_roundMag, f32Neg_bne_iff]
  refine ⟨nearestTo_roundMag (by decide) units (fun h => ?_) fun h => ?_, Iff.rfl⟩
  · exact (f32Neg_bne_iff a b).2 (mul_sign.1 h)
  · rw [← Bool.not_eq_true, f32Neg_bne_iff]; exact mul_sign.2 h

theorem fdiv_nan (h : IsNaN a ∨ IsNaN b) : IsNaN (fdiv a b) := by
  rw [fdiv, if_pos (by rcases h with h | h <;> simp [(isNaN_iff _).2 h])]
  exact isNaN_nanOf ..

theorem fdiv_inf_inf (ha : IsInf a) (hb : IsInf b) : IsNaN (fdiv a b) := by
  have e : fdiv a b = nanOf .div a b := by
    simp only [fdiv, (isNaN_eq_false_iff _).2 (not_isNaN_of_isInf ha), (isNaN_eq_false_iff _).2 (not_isNaN_of_isInf hb),
      (isInf_iff _).2 ha, (isInf_iff _).2 hb, Bool.or_self, Bool.false_eq_true, if_false, if_true]
  rw [e]; exact isNaN_nanOf ..

theorem fdiv_inf_finite (ha : IsInf a) (hb : IsFinite b) : fdiv a b = infWord (f32Neg a != f32Neg b) := by
  obtain ⟨nb, ib⟩ := (isFinite_iff b).1 hb
  simp only [fdiv, (isNaN_eq_false_iff _).2 (not_isNaN_of_isInf ha), (isNaN_eq_false_iff _).2 nb, (isInf_iff _).2 ha,
    (isInf_eq_false_iff _).2 ib, Bool.or_self, Bool.false_eq_true, if_false, if_true]

theorem fdiv_finite_inf (ha : IsFinite a) (hb : IsInf b) : fdiv a b = signWord (f32Neg a != f32Neg b) := by
  obtain ⟨na, ia⟩ := (isFinite_iff a).1 ha
  simp only [fdiv, (isNaN_eq_false_iff _).2 na, (isNaN_eq_false_iff _).2 (not_isNaN_of_isInf hb),
    (isInf_eq_false_iff _).2 ia, (isInf_iff _).2 hb, Bool.or_self, Bool.false_eq_true, if_false, if_true]

theorem fdiv_finite (ha : IsFinite a) (hb : IsFinite b) :
    fdiv a b = if isZero b then (if isZero a then nanOf .div a b else infWord (f32Neg a != f32Neg b))
      else signWord (f32Neg a != f32Neg b) ||| roundMag (f32Mag a * f32One) (f32Mag b) := by
  obtain ⟨na, ia⟩ := (isFinite_iff a).1 ha
  obtain ⟨nb, ib⟩ := (isFinite_iff b).1 hb
  simp only [fdiv, (isNaN_eq_false_iff _).2 na, (isNaN_eq_false_iff _).2 nb, (isInf_eq_false_iff _).2 ia,
    (isInf_eq_false_iff _).2 ib, Bool.or_self, Bool.false_eq_true, if_false]

/-- The quotient of two finite words by one that is not 0 (R301). -/
theorem fdiv_nearest (ha : IsFinite a) (hb : IsFinite b) (nonzero : value b ≠ 0) :
    NearestTo (value a / value b) (fdiv a b) ∧ (signOf (fdiv a b) ↔ SignsDiffer a b) := by
  have mag : f32Mag b ≠ 0 := fun h => nonzero ((value_eq_zero_iff_f32Mag b).2 h)
  have units : |value a / value b| = ((f32Mag a * f32One : ℕ) : ℝ) / f32Mag b * unit := by
    have real : (f32Mag b : ℝ) ≠ 0 := Nat.cast_ne_zero.2 mag
    rw [abs_div, abs_value_eq, abs_value_eq, f32One, Nat.cast_mul, Nat.cast_pow, unit_eq]
    field_simp
    norm_num
  have sign : (value a / value b < 0 ↔ value a * value b < 0) ∧ (0 < value a / value b ↔ 0 < value a * value b) :=
    ⟨by rw [div_neg_iff, mul_neg_iff], by rw [div_pos_iff, mul_pos_iff]⟩
  rw [fdiv_finite ha hb, if_neg (by rwa [isZero_iff]), signOf_signWord_or_roundMag, f32Neg_bne_iff]
  refine ⟨nearestTo_roundMag (Nat.pos_of_ne_zero mag) units (fun h => ?_) fun h => ?_, Iff.rfl⟩
  · exact (f32Neg_bne_iff a b).2 (mul_sign.1 (sign.1.1 h))
  · rw [← Bool.not_eq_true, f32Neg_bne_iff]; exact mul_sign.2 (sign.2.1 h)

theorem fdiv_zero (ha : IsFinite a) (hb : IsFinite b) (zb : value b = 0) :
    (value a = 0 → IsNaN (fdiv a b)) ∧
      (value a ≠ 0 → IsInf (fdiv a b) ∧ (signOf (fdiv a b) ↔ SignsDiffer a b)) := by
  rw [fdiv_finite ha hb, if_pos ((isZero_iff_value b).2 zb)]
  refine ⟨fun za => ?_, fun za => ?_⟩
  · rw [if_pos ((isZero_iff_value a).2 za)]
    exact isNaN_nanOf ..
  · rw [if_neg (by rwa [isZero_iff_value]), signOf_infWord, f32Neg_bne_iff]
    exact ⟨isInf_infWord _, Iff.rfl⟩

end

/-- Differing signs, with the second flipped. -/
theorem signsDiffer_f32Flip (a b : Word) : SignsDiffer a (f32Flip b) ↔ ¬ SignsDiffer a b := by
  rw [SignsDiffer, SignsDiffer, signOf_f32Flip]; tauto

section
variable {a b : Word}

theorem fadd_nan (h : IsNaN a ∨ IsNaN b) : IsNaN (fadd a b) := by
  rw [fadd, addWith_nan h]; exact isNaN_nanOf ..

theorem fsub_nan (h : IsNaN a ∨ IsNaN b) : IsNaN (fsub a b) := by
  rw [fsub, addWith_nan (h.imp_right (isNaN_f32Flip b).2)]; exact isNaN_nanOf ..

/-- The difference of two finite words (R301). -/
theorem fsub_nearest (ha : IsFinite a) (hb : IsFinite b) :
    NearestTo (value a - value b) (fsub a b) ∧
      (value a - value b = 0 → (signOf (fsub a b) ↔ signOf a ∧ ¬ signOf b)) := by
  have h := addWith_nearest (nan := nanOf .sub a b) ha ((isFinite_f32Flip b).2 hb)
  rwa [value_f32Flip, ← sub_eq_add_neg, signOf_f32Flip] at h

end

/-- Settles O45, class of operands by class. -/
theorem sumsProductsAndQuotientsAreIeee : Obligations.SumsProductsAndQuotientsAreIeee := by
  intro a b
  refine ⟨fun h => ⟨fadd_nan h, fsub_nan h, fmul_nan h, fdiv_nan h⟩, fun ha hb => ?_, fun ha hb => ?_, fun ha hb => ?_,
    fun ha hb => ?_⟩
  · exact ⟨(addWith_nearest ha hb).1, (addWith_nearest ha hb).2, (fsub_nearest ha hb).1, (fsub_nearest ha hb).2,
      (fmul_nearest ha hb).1, (fmul_nearest ha hb).2, fun hz => fdiv_nearest ha hb hz,
      fun zb za => (fdiv_zero ha hb zb).2 za, fun zb za => (fdiv_zero ha hb zb).1 za⟩
  · have na := not_isNaN_of_isInf ha
    have nb := not_isNaN_of_isInf hb
    have hf : IsInf (f32Flip b) := (isInf_f32Flip b).2 hb
    have product := fmul_inf_nonzero na nb (.inl ha) (not_isZero_of_isInf ha) (not_isZero_of_isInf hb)
    refine ⟨fun d => ⟨?_, ?_⟩, fun d => ⟨?_, ?_⟩, product.1, product.2, fdiv_inf_inf ha hb⟩
    · rw [fadd, addWith_inf_opposed ha hb d]; exact isNaN_nanOf ..
    · exact addWith_inf_left ha (not_isNaN_of_isInf hf) fun h => (signsDiffer_f32Flip a b).1 h.2 d
    · exact addWith_inf_left ha nb fun h => d h.2
    · rw [fsub, addWith_inf_opposed ha hf ((signsDiffer_f32Flip a b).2 d)]; exact isNaN_nanOf ..
  · have na := not_isNaN_of_isInf ha
    have nb := not_isNaN_of_isFinite hb
    have ff := (isFinite_f32Flip b).2 hb
    refine ⟨addWith_inf_left ha nb fun h => not_isInf_of_isFinite hb h.1,
      addWith_inf_left ha (not_isNaN_of_isFinite ff) fun h => not_isInf_of_isFinite ff h.1,
      fun zb => fmul_inf_zero na nb (.inl ha) (.inr ((isZero_iff_value b).2 zb)),
      fun zb => fmul_inf_nonzero na nb (.inl ha) (not_isZero_of_isInf ha)
        (isZero_eq_false zb), ?_⟩
    rw [fdiv_inf_finite ha hb, signOf_infWord, f32Neg_bne_iff]
    exact ⟨isInf_infWord _, Iff.rfl⟩
  · have na := not_isNaN_of_isFinite ha
    have nb := not_isNaN_of_isInf hb
    have hf : IsInf (f32Flip b) := (isInf_f32Flip b).2 hb
    have difference : fsub a b = f32Flip b := addWith_inf_right ha hf
    have quotient := fdiv_finite_inf ha hb
    rw [difference, quotient]
    exact ⟨addWith_inf_right ha hb, hf, signOf_f32Flip b,
      fun za => fmul_inf_zero na nb (.inr hb) (.inl ((isZero_iff_value a).2 za)),
      fun za => fmul_inf_nonzero na nb (.inr hb) (isZero_eq_false za)
        (not_isZero_of_isInf hb), isFinite_signWord _, value_signWord _,
      (signOf_signWord _).trans (f32Neg_bne_iff a b)⟩

/-! ### The square root -/

/-- `r` is the integral part of the square root of `n`. -/
def IsRoot (n r : Nat) : Prop := r * r ≤ n ∧ n < (r + 1) * (r + 1)

/-- Bit by bit, from the `k` bits still open. -/
theorem isRoot_isqrtFrom {n k r : Nat} (low : r * r ≤ n) (high : n < (r + 2 ^ k) * (r + 2 ^ k)) :
    IsRoot n (isqrtFrom n k r) := by
  induction k generalizing r with
  | zero => exact ⟨low, by simpa [isqrtFrom] using high⟩
  | succ k ih =>
    unfold isqrtFrom
    split
    · next h => exact ih h (by rw [pow_succ] at high; convert high using 2 <;> ring)
    · next h => exact ih low (by omega)

theorem isRoot_isqrt {n : Nat} (h : n < 2 ^ 214 * 2 ^ 214) : IsRoot n (isqrt n) :=
  isRoot_isqrtFrom (Nat.zero_le _) (by rwa [Nat.zero_add])

/-- A root in half units, with the remainder folded in, lies on the same side of every whole number as the square. -/
theorem sqrtHalves_compare {n : Nat} (h : n < 2 ^ 214 * 2 ^ 214) (s : Nat) :
    (sqrtHalves n ≤ 2 * s ↔ n ≤ s * s) ∧ (2 * s ≤ sqrtHalves n ↔ s * s ≤ n) := by
  obtain ⟨low, high⟩ := isRoot_isqrt h
  unfold sqrtHalves
  generalize isqrt n = r at low high
  rcases Nat.lt_trichotomy s r with less | rfl | more
  · have square := Nat.mul_self_lt_mul_self less
    split <;> omega
  · split <;> omega
  · have square := Nat.mul_self_le_mul_self (show r + 1 ≤ s from more)
    split <;> omega

theorem sqrt_compare {n : Nat} (h : n < 2 ^ 214 * 2 ^ 214) (s : Nat) :
    ((sqrtHalves n : ℝ) / 2 ≤ s ↔ Real.sqrt n ≤ s) ∧ ((s : ℝ) ≤ sqrtHalves n / 2 ↔ (s : ℝ) ≤ Real.sqrt n) := by
  obtain ⟨above, below⟩ := sqrtHalves_compare h s
  constructor
  · rw [Real.sqrt_le_left (Nat.cast_nonneg _), sq, div_le_iff₀ two_pos, mul_comm]
    exact_mod_cast above
  · rw [Real.le_sqrt (Nat.cast_nonneg _) (Nat.cast_nonneg _), sq, le_div_iff₀ two_pos, mul_comm]
    exact_mod_cast below

/-- Two numbers on the same side of every whole number round alike where the midpoints beside the place are whole. -/
theorem RoundsToPlace.of_sides {x y : ℝ} {m : Nat} (h : RoundsToPlace x m)
    (sides : ∀ s : Nat, (x ≤ s ↔ y ≤ s) ∧ ((s : ℝ) ≤ x ↔ (s : ℝ) ≤ y)) (whole : ∀ k, m ≤ k + 1 → magOf k % 2 = 0) :
    RoundsToPlace y m := by
  have mid (k j : Nat) (hk : m ≤ k + 1) (hj : m ≤ j + 1) : ∃ s : Nat, (magOf k + magOf j : ℝ) = 2 * s := by
    obtain ⟨s, hs⟩ := Nat.dvd_of_mod_eq_zero (show (magOf k + magOf j) % 2 = 0 by
      have := whole k hk; have := whole j hj; omega)
    exact ⟨s, by exact_mod_cast hs⟩
  refine ⟨?_, fun e => h.even_of_next ?_, fun k hk => ?_, fun k hk e => h.even_of_prev k hk ?_⟩
  · obtain ⟨s, hs⟩ := mid m (m + 1) (by omega) (by omega)
    have := (sides s).1.1 (by linarith [h.below_next])
    linarith
  · obtain ⟨s, hs⟩ := mid m (m + 1) (by omega) (by omega)
    have := (sides s).1.2 (by linarith)
    have := (sides s).2.2 (by linarith)
    linarith
  · obtain ⟨s, hs⟩ := mid k m (by omega) (by omega)
    have := (sides s).2.1 (by linarith [h.above_prev k hk])
    linarith
  · obtain ⟨s, hs⟩ := mid k m (by omega) (by omega)
    have := (sides s).1.2 (by linarith)
    have := (sides s).2.2 (by linarith)
    linarith

theorem magOf_even {k : Nat} (h : 2 ^ 24 ≤ k) : magOf k % 2 = 0 := by
  obtain ⟨e, he⟩ : ∃ e, k / 2 ^ 23 - 1 = e + 1 := ⟨k / 2 ^ 23 - 2, by omega⟩
  rw [magOf, if_neg (by omega), he]
  exact Nat.mod_eq_zero_of_dvd (Dvd.dvd.mul_left (dvd_pow_self 2 e.succ_ne_zero) _)

/-- The square root of a number of units that is not small, rounded. -/
theorem roundsToPlace_sqrt {n : Nat} (large : 2 ^ 148 ≤ n) (h : n < 2 ^ 214 * 2 ^ 214) :
    RoundsToPlace (Real.sqrt n) (placeOf (sqrtHalves n) 2) := by
  have half := roundsToPlace_placeOf (sqrtHalves n) two_pos
  have root : 2 * 2 ^ 74 ≤ sqrtHalves n := (sqrtHalves_compare h (2 ^ 74)).2.2 large
  have place : 2 ^ 24 < placeOf (sqrtHalves n) 2 := by
    by_contra small
    have sum := half.below_next
    have own := (magOf_strictMono.monotone (show placeOf (sqrtHalves n) 2 ≤ 2 ^ 24 by omega)).trans_eq
      (show magOf (2 ^ 24) = 2 ^ 24 by decide)
    have next := (magOf_strictMono.monotone (show placeOf (sqrtHalves n) 2 + 1 ≤ 2 ^ 24 + 1 by omega)).trans_eq
      (show magOf (2 ^ 24 + 1) = 2 ^ 24 + 2 by decide)
    rw [Nat.cast_ofNat, mul_div_cancel₀ _ two_ne_zero] at sum
    have sum' : sqrtHalves n ≤ magOf (placeOf (sqrtHalves n) 2) + magOf (placeOf (sqrtHalves n) 2 + 1) := by
      exact_mod_cast sum
    omega
  exact half.of_sides (fun s => sqrt_compare h s) fun k hk => magOf_even (by omega)

theorem f32Mag_lt {w : Word} (h : IsFinite w) : f32Mag w < 2 ^ 25 * 2 ^ 252 := by
  have top : magOf infPlace = 2 ^ 25 * 2 ^ 252 := by decide +kernel
  rw [f32Mag_eq, ← top]
  refine magOf_strictMono ?_
  rw [f32Abs_toNat]
  unfold IsFinite expOf at h
  unfold infPlace
  omega

/-- The square root of a finite positive word. -/
theorem fsqrt_nearest {a : Word} (ha : IsFinite a) (positive : ¬ signOf a) (nonzero : value a ≠ 0) :
    NearestTo (Real.sqrt (value a)) (fsqrt a) ∧ ¬ signOf (fsqrt a) := by
  obtain ⟨na, ia⟩ := (isFinite_iff a).1 ha
  have mag : 0 < f32Mag a := Nat.pos_of_ne_zero fun z => nonzero ((value_eq_zero_iff_f32Mag a).2 z)
  have run : fsqrt a = signWord false ||| roundMag (sqrtHalves (f32Mag a * f32One)) 2 := by
    have neg : f32Neg a = false := Bool.eq_false_iff.2 fun n => positive ((f32Neg_iff a).1 n)
    simp [fsqrt, (isNaN_eq_false_iff _).2 na, (isInf_eq_false_iff _).2 ia, isZero_eq_false nonzero, neg, signWord]
  have units : |Real.sqrt (value a)| = Real.sqrt ((f32Mag a * f32One : ℕ) : ℝ) * unit := by
    have square : value a = ((f32Mag a * f32One : ℕ) : ℝ) * (unit * unit) := by
      rw [value, if_neg positive, magnitude_eq_units, unit_eq, f32One]
      push_cast
      ring
    rw [square, Real.sqrt_mul (Nat.cast_nonneg _), Real.sqrt_mul_self unit_positive.le,
      abs_of_nonneg (mul_nonneg (Real.sqrt_nonneg _) unit_positive.le)]
  have large : 2 ^ 148 ≤ f32Mag a * f32One := (show 2 ^ 148 ≤ f32One by decide).trans (Nat.le_mul_of_pos_left _ mag)
  have bound : f32Mag a * f32One < 2 ^ 214 * 2 ^ 214 :=
    (Nat.mul_lt_mul_of_pos_right (f32Mag_lt ha) (by decide)).trans_le (by decide)
  rw [run, signOf_signWord_or_roundMag, signWord_or_roundMag]
  exact ⟨nearestTo_signedPlace units (fun h => absurd h (Real.sqrt_nonneg _).not_gt) (fun _ => rfl)
    (roundsToPlace_sqrt large bound), Bool.false_ne_true⟩

/-- A zero is its own square root. -/
theorem fsqrt_zero {a : Word} (ha : IsFinite a) (zero : value a = 0) : fsqrt a = a := by
  rw [fsqrt, if_neg (by rw [isNaN_iff]; exact not_isNaN_of_isFinite ha), if_pos ((isZero_iff_value a).2 zero)]

theorem nearestTo_zero {a : Word} (ha : IsFinite a) (zero : value a = 0) : NearestTo 0 a := by
  refine ⟨fun _ => ⟨ha, fun u _ => ?_, fun u _ differ tie => absurd ?_ differ⟩, fun more => ?_⟩
  · rw [zero, sub_zero, abs_zero]; exact abs_nonneg _
  · rw [zero, sub_zero, sub_zero, abs_zero, abs_eq_zero] at tie
    rw [tie, zero]
  · rw [abs_zero] at more; norm_num at more

/-- Settles O46, class of operands by class. -/
theorem squareRootIsIeee : Obligations.SquareRootIsIeee := by
  intro a
  refine ⟨fun na => ?_, fun na neg h => ?_, fun fa zero => fsqrt_zero fa zero, fun ia pos => ?_, fun fa pos => ?_⟩
  · rw [fsqrt, if_pos ((isNaN_iff a).2 na)]
    exact isNaN_nanOf ..
  · have nz : isZero a = false := h.elim not_isZero_of_isInf isZero_eq_false
    rw [fsqrt, if_neg (by rwa [isNaN_iff]), nz, if_neg Bool.false_ne_true, if_pos ((f32Neg_iff a).2 neg)]
    exact isNaN_nanOf ..
  · rw [fsqrt, if_neg (by rw [isNaN_iff]; exact not_isNaN_of_isInf ia), not_isZero_of_isInf ia,
      if_neg Bool.false_ne_true, if_neg (by rwa [f32Neg_iff]), if_pos ((isInf_iff a).2 ia)]
  · by_cases zero : value a = 0
    · rw [fsqrt_zero fa zero, zero, Real.sqrt_zero]
      exact ⟨nearestTo_zero fa zero, pos⟩
    · exact fsqrt_nearest fa pos zero

/-! ### Conversion to an integer (R320, R321) -/

/-- The value of `z` units. -/
noncomputable def ofUnits (z : Int) : ℝ := z / f32One

theorem value_eq_ofUnits (w : Word) : value w = ofUnits (f32Scaled w) := by
  rw [value_eq, ofUnits, f32One, zpow_neg, div_eq_mul_inv]; norm_cast

theorem floor_ofUnits (z : Int) : ⌊ofUnits z⌋ = z / f32One := by
  rw [ofUnits, Int.floor_div_natCast, Int.floor_intCast]

theorem ofUnits_neg (z : Int) : ofUnits (-z) = -ofUnits z := by rw [ofUnits, ofUnits, Int.cast_neg, neg_div]

theorem ceil_ofUnits (z : Int) : ⌈ofUnits z⌉ = -((-z) / f32One) := by
  rw [← floor_ofUnits, ofUnits_neg, Int.floor_neg, neg_neg]

theorem ofUnits_nonneg_iff (z : Int) : 0 ≤ ofUnits z ↔ 0 ≤ z := by
  have pos : (0 : ℝ) < f32One := Nat.cast_pos.2 (by decide)
  rw [ofUnits, le_div_iff₀ pos, zero_mul, Int.cast_nonneg_iff]

/-- The integer nearest to a quotient, ties to even. -/
theorem roundDiv_nearest (n : Nat) {d : Nat} (hd : 0 < d) :
    |(roundDiv n d : ℝ) - n / d| ≤ 1 / 2 ∧ (|(roundDiv n d : ℝ) - n / d| = 1 / 2 → roundDiv n d % 2 = 0) := by
  obtain ⟨up, down, tie⟩ := roundDiv_bounds n hd
  have pos : (0 : ℝ) < d := by exact_mod_cast hd
  have scaled : |(roundDiv n d : ℝ) - n / d| * (2 * d) = |2 * (roundDiv n d * d : ℝ) - 2 * n| := by
    have double : (0 : ℝ) < 2 * d := by positivity
    rw [← abs_of_pos double, ← abs_mul]
    congr 1
    field_simp
  have up' : 2 * (roundDiv n d * d : ℝ) ≤ 2 * n + d := by exact_mod_cast up
  have down' : 2 * (n : ℝ) ≤ 2 * (roundDiv n d * d) + d := by exact_mod_cast down
  constructor
  · have bound : |2 * (roundDiv n d * d : ℝ) - 2 * n| ≤ d := abs_le.2 ⟨by linarith, by linarith⟩
    rw [← scaled] at bound
    by_contra more
    nlinarith
  · intro half
    rw [half] at scaled
    have exact : |2 * (roundDiv n d * d : ℝ) - 2 * n| = d := by rw [← scaled]; ring
    refine tie ?_
    rcases (abs_eq pos.le).1 exact with e | e
    · left; have : 2 * (roundDiv n d * d : ℝ) = 2 * n + d := by linarith
      exact_mod_cast this
    · right; have : 2 * (n : ℝ) = 2 * (roundDiv n d * d) + d := by linarith
      exact_mod_cast this

/-- An integer nearest to `x`, even on a midpoint. -/
def NearestInt (x : ℝ) (i : Int) : Prop := |(i : ℝ) - x| ≤ 1 / 2 ∧ (|(i : ℝ) - x| = 1 / 2 → i % 2 = 0)

theorem nearestInt_neg {x : ℝ} {i : Int} (h : NearestInt x i) : NearestInt (-x) (-i) := by
  have same : |((-i : Int) : ℝ) - -x| = |(i : ℝ) - x| := by rw [← abs_neg]; congr 1; push_cast; ring
  rw [NearestInt, same]
  exact ⟨h.1, fun e => by have := h.2 e; omega⟩

theorem not_lt_of_nearestInt {x : ℝ} {i j : Int} (hi : NearestInt x i) (hj : NearestInt x j) : ¬ i < j := by
  intro less
  have step : (i : ℝ) + 1 ≤ j := by exact_mod_cast less
  have boundI := abs_le.1 hi.1
  have boundJ := abs_le.1 hj.1
  have halfI : |(i : ℝ) - x| = 1 / 2 := by rw [abs_of_nonpos (by linarith)]; linarith
  have halfJ : |(j : ℝ) - x| = 1 / 2 := by rw [abs_of_nonneg (by linarith)]; linarith
  have adjacent : j = i + 1 := le_antisymm (by exact_mod_cast (show (j : ℝ) ≤ i + 1 by linarith)) less
  have evenI := hi.2 halfI
  have evenJ := hj.2 halfJ
  omega

theorem nearestInt_unique {x : ℝ} {i j : Int} (hi : NearestInt x i) (hj : NearestInt x j) : i = j := by
  have := not_lt_of_nearestInt hi hj
  have := not_lt_of_nearestInt hj hi
  omega

theorem nearestInt_roundDiv (n : Nat) : NearestInt (ofUnits n) (roundDiv n f32One) := by
  have h := roundDiv_nearest n (d := f32One) (by decide)
  rw [NearestInt, ofUnits, Int.cast_natCast, Int.cast_natCast]
  exact ⟨h.1, fun e => by have := h.2 e; omega⟩

theorem nearestInt_roundToInt (z : Int) : NearestInt (ofUnits z) (roundToInt z 0#2) := by
  rw [roundToInt, if_pos rfl]
  rcases lt_or_ge z 0 with neg | nonneg
  · rw [if_pos neg]
    have := nearestInt_neg (nearestInt_roundDiv z.natAbs)
    rwa [← ofUnits_neg, Int.ofNat_natAbs_of_nonpos neg.le, neg_neg] at this
  · rw [if_neg nonneg.not_gt]
    have := nearestInt_roundDiv z.natAbs
    rwa [Int.natAbs_of_nonneg nonneg] at this

theorem roundToInt_truncates (z : Int) :
    (0 ≤ ofUnits z → roundToInt z 1#2 = ⌊ofUnits z⌋) ∧ (ofUnits z < 0 → roundToInt z 1#2 = ⌈ofUnits z⌉) := by
  have run : roundToInt z 1#2 = z.tdiv f32One := rfl
  rw [run, floor_ofUnits, ceil_ofUnits, ← not_le, ofUnits_nonneg_iff]
  refine ⟨fun nonneg => Int.tdiv_eq_ediv_of_nonneg nonneg, fun neg => ?_⟩
  rw [← Int.tdiv_eq_ediv_of_nonneg (show 0 ≤ -z by omega), Int.neg_tdiv, neg_neg]

theorem roundsTo_roundToInt (z : Int) (mode : BitVec 2) : RoundsTo (ofUnits z) mode (roundToInt z mode) := by
  refine ⟨?_, ?_, ?_, ?_⟩
  · rintro rfl; exact nearestInt_roundToInt z
  · rintro rfl; exact roundToInt_truncates z
  · rintro rfl; exact (ceil_ofUnits z).symm
  · rintro rfl; exact (floor_ofUnits z).symm

theorem mode_cases : ∀ mode : BitVec 2, mode = 0#2 ∨ mode = 1#2 ∨ mode = 2#2 ∨ mode = 3#2 := by decide

theorem roundsTo_unique {x : ℝ} {mode : BitVec 2} {i j : Int} (hi : RoundsTo x mode i) (hj : RoundsTo x mode j) :
    i = j := by
  obtain ⟨nearI, truncI, ceilI, floorI⟩ := hi
  obtain ⟨nearJ, truncJ, ceilJ, floorJ⟩ := hj
  rcases mode_cases mode with h | h | h | h
  · exact nearestInt_unique (nearI h) (nearJ h)
  · rcases le_or_gt 0 x with nonneg | neg
    · rw [(truncI h).1 nonneg, (truncJ h).1 nonneg]
    · rw [(truncI h).2 neg, (truncJ h).2 neg]
  · rw [ceilI h, ceilJ h]
  · rw [floorI h, floorJ h]

theorem convertsTo_iff (w : Word) (mode : BitVec 2) (i : Int) :
    ConvertsTo w mode i ↔ IsFinite w ∧ i = roundToInt (f32Scaled w) mode ∧ fitsWord i = true := by
  have own := roundsTo_roundToInt (f32Scaled w) mode
  rw [ConvertsTo, value_eq_ofUnits, fitsWord, Bool.and_eq_true, decide_eq_true_iff, decide_eq_true_iff]
  exact and_congr_right fun _ => and_congr_left fun _ => ⟨fun h => roundsTo_unique h own, fun h => h ▸ own⟩

theorem toWord_of_convertsTo {w : Word} {mode : BitVec 2} {i : Int} (h : ConvertsTo w mode i) :
    toWord w mode = BitVec.ofInt 32 i := by
  obtain ⟨finite, rfl, fits⟩ := (convertsTo_iff w mode i).1 h
  obtain ⟨na, ia⟩ := (isFinite_iff w).1 finite
  rw [toWord, (isNaN_eq_false_iff _).2 na, (isInf_eq_false_iff _).2 ia, fits]
  rfl

theorem toWord_of_not_convertsTo {w : Word} {mode : BitVec 2} (h : ∀ i, ¬ ConvertsTo w mode i) :
    toWord w mode = Config.cvtInvalid w mode := by
  have none := h (roundToInt (f32Scaled w) mode)
  rw [convertsTo_iff, isFinite_iff, ← isNaN_iff, ← isInf_iff] at none
  refine if_pos ?_
  by_contra invalid
  simp only [Bool.or_eq_true, Bool.not_eq_true', not_or, Bool.not_eq_false] at invalid
  exact none ⟨invalid.1, rfl, invalid.2⟩

theorem writesInteger_toWord (s : State) (fd : FReg) (w : Word) (mode : BitVec 2) :
    WritesInteger (complete (writeFpr s fd (toWord w mode))) s fd w mode :=
  ⟨_, writesFpr_complete .., fun _ => toWord_of_convertsTo, toWord_of_not_convertsTo⟩

theorem roundingMode_eq (s : State) : roundingMode s = BitVec.ofNat 2 (s.fcr31.toNat / 2 ^ s.cfg.rmLow.val) := by
  apply BitVec.eq_of_toNat_eq
  rw [roundingMode, BitVec.extractLsb'_toNat, Nat.shiftRight_eq_div_pow, BitVec.toNat_ofNat]

/-- An integer rounded to binary32 (R327). -/
theorem nearestTo_f32OfInt (z : Int) : NearestTo z (f32OfInt z) ∧ (signOf (f32OfInt z) ↔ z < 0) := by
  have units : |(z : ℝ)| = ((z.natAbs * f32One : ℕ) : ℝ) / (1 : ℕ) * unit := by
    rw [Nat.cast_mul, Nat.cast_natAbs, Int.cast_abs, f32One, unit_eq]
    push_cast
    ring
  refine ⟨nearestTo_roundMag one_pos units (fun h => ?_) fun h => ?_, ?_⟩
  · simpa using h
  · simpa using (Int.cast_pos.1 h).le
  · rw [f32OfInt, signOf_signWord_or_roundMag, decide_eq_true_iff]

/-- Settles O48. -/
theorem conversionsRoundAsNamed : Obligations.ConversionsRoundAsNamed := by
  rintro s fd fs w rfl
  rw [← roundingMode_eq]
  exact ⟨writesInteger_toWord .., writesInteger_toWord .., writesInteger_toWord .., writesInteger_toWord ..,
    writesInteger_toWord .., _, (nearestTo_f32OfInt _).1, (nearestTo_f32OfInt _).2, writesFpr_complete ..⟩

end Sys2Proof.Machine
end

section
/-! What the float arithmetic writes and notes, and the numbers of the vector unit's slots: the obligations O47 and
O51. -/
namespace Sys2Proof.Machine

/-! ### Float arithmetic -/

theorem f32Abs_eq_ofNat (a : Word) : f32Abs a = BitVec.ofNat 32 (a.toNat % 2 ^ 31) := by
  rw [← f32Abs_toNat, BitVec.ofNat_toNat, BitVec.setWidth_eq]

theorem f32Flip_eq_add (a : Word) : f32Flip a = a + 0x80000000#32 := by
  apply BitVec.eq_of_toNat_eq
  have bound := a.isLt
  rw [toNat_f32Flip, BitVec.toNat_add, BitVec.toNat_ofNat]
  split <;> omega

theorem flushed_iff (s : State) (p : Word) :
    (flushRequested s && mulFlushes s.cfg p) = true ↔
      s.fcr31.getLsbD s.cfg.fsBit.val = true ∧ ¬ IsNaN p ∧
        ∃ r ∈ s.cfg.mulFlush, r.lo.toNat ≤ p.toNat ∧ p.toNat ≤ r.hi.toNat := by
  rw [Bool.and_eq_true, mulFlushes, Bool.and_eq_true, Bool.not_eq_true', isNaN_eq_false_iff, List.any_eq_true]
  simp only [Bool.and_eq_true, decide_eq_true_iff, flushRequested]

/-- Settles O47. -/
theorem floatArithmeticWritesAndNotes : Obligations.FloatArithmeticWritesAndNotes := by
  rintro s fd fs ft a b rfl rfl
  rw [← f32Abs_eq_ofNat, ← f32Flip_eq_add, ← flushed_iff]
  have product (p : Word) (h : flushProduct s (fmul (readFpr s fs) (readFpr s ft)) = p) :
      WritesAndNotes (exec (.mulS fd fs ft) s) s fd p := by
    rw [← h]; exact writesAndNotes_arithResult ..
  exact ⟨writesAndNotes_arithResult .., writesAndNotes_arithResult .., fun h => product _ (if_pos h),
    fun h => product _ (if_neg h), writesAndNotes_arithResult .., writesAndNotes_arithResult ..,
    writesAndNotes_arithResult .., writesAndNotes_arithResult .., writesAndNotes_arithResult ..⟩

/-! ### The numbers of slots (R361 to R363) -/

theorem val_bankSlot (m : BitVec 3) (c r : BitVec 2) : (bankSlot m c r).val = 4 * m.toNat + c.toNat + 32 * r.toNat := by
  show (r ++ m ++ c).toNat = _
  rw [toNat_app, toNat_app]
  omega

section
variable (sel : Sel)

theorem toNat_selMatrix : (selMatrix sel).toNat = sel.toNat / 4 % 8 := by
  rw [selMatrix, BitVec.extractLsb'_toNat, Nat.shiftRight_eq_div_pow]

theorem toNat_selCol : (selCol sel).toNat = sel.toNat % 4 := by
  rw [selCol, BitVec.extractLsb'_toNat, Nat.shiftRight_zero]

theorem toNat_selRow_single : (selRow sel .single).toNat = sel.toNat / 32 := by
  have bound := sel.isLt
  rw [selRow, BitVec.extractLsb'_toNat, Nat.shiftRight_eq_div_pow]
  omega

/-- The row of a group of two lanes or more. -/
theorem toNat_selRow {sz : VSize} (h : sz ≠ .single) :
    (selRow sel sz).toNat = if sz = .triple then sel.toNat / 32 / 2 else sel.toNat / 32 / 2 * 2 := by
  have bound := sel.isLt
  have even : (sel.extractLsb' 5 2 &&& 2#2).toNat = sel.toNat / 32 / 2 * 2 := by
    have high : (sel.extractLsb' 5 2).toNat = sel.toNat / 32 := toNat_selRow_single sel
    have mask : ∀ r : BitVec 2, (r &&& 2#2).toNat = r.toNat / 2 * 2 := by decide
    rw [mask, high]
  cases sz with
  | single => exact absurd rfl h
  | pair | quad => exact even
  | triple =>
    rw [if_pos rfl, selRow, BitVec.toNat_setWidth, BitVec.extractLsb'_toNat, Nat.shiftRight_eq_div_pow]
    omega

theorem selTransposed_iff {sz : VSize} (h : sz ≠ .single) : selTransposed sel sz = true ↔ sel.toNat / 32 % 2 ≠ 0 := by
  rw [selTransposed, bne_iff_ne.2 h, Bool.true_and, BitVec.getLsbD, Nat.testBit_eq_decide_div_mod_eq, decide_eq_true_iff]
  omega

theorem toNat_add_ofNat_two (r : BitVec 2) (i : Nat) : (r + BitVec.ofNat 2 i).toNat = (r.toNat + i) % 4 := by
  rw [BitVec.toNat_add, BitVec.toNat_ofNat, Nat.add_mod_mod]

/-- The suggested formula for a lane, as a number (R362). -/
theorem val_laneFormula {sz : VSize} (h : sz ≠ .single) (i : Nat) :
    (laneFormula sel sz i).val =
      if sel.toNat / 32 % 2 = 0 then
        4 * (sel.toNat / 4 % 8) + sel.toNat % 4 + 32 * (((selRow sel sz).toNat + i) % 4)
      else 4 * (sel.toNat / 4 % 8) + ((selRow sel sz).toNat + i) % 4 + 32 * (sel.toNat % 4) := by
  unfold laneFormula
  by_cases t : sel.toNat / 32 % 2 = 0
  · rw [if_neg (by rw [selTransposed_iff sel h]; exact not_not.2 t), if_pos t, val_bankSlot, toNat_selMatrix, toNat_selCol,
      toNat_add_ofNat_two]
  · rw [if_pos ((selTransposed_iff sel h).2 t), if_neg t, val_bankSlot, toNat_selMatrix, toNat_selCol,
      toNat_add_ofNat_two]

/-- The suggested formula for a matrix entry, as a number (R363). -/
theorem val_entryFormula {sz : VSize} (h : sz ≠ .single) (j i : Nat) :
    (entryFormula sel sz j i).val =
      if sel.toNat / 32 % 2 = 0 then
        4 * (sel.toNat / 4 % 8) + (sel.toNat % 4 + j) % 4 + 32 * (((selRow sel sz).toNat + i) % 4)
      else 4 * (sel.toNat / 4 % 8) + ((selRow sel sz).toNat + i) % 4 + 32 * ((sel.toNat % 4 + j) % 4) := by
  unfold entryFormula
  by_cases t : sel.toNat / 32 % 2 = 0
  · rw [if_neg (by rw [selTransposed_iff sel h]; exact not_not.2 t), if_pos t, val_bankSlot, toNat_selMatrix,
      toNat_add_ofNat_two, toNat_add_ofNat_two, toNat_selCol]
  · rw [if_pos ((selTransposed_iff sel h).2 t), if_neg t, val_bankSlot, toNat_selMatrix,
      toNat_add_ofNat_two, toNat_add_ofNat_two, toNat_selCol]

end

/-! ### The slots that `VREG` lists -/

theorem find?_append_cons {α : Type} {p : α → Bool} {pre post : List α} {e : α} (first : ∀ d ∈ pre, ¬ p d = true)
    (here : p e = true) : (pre ++ e :: post).find? p = some e := by
  rw [List.find?_append, List.find?_eq_none.2 first, Option.none_or, List.find?_cons_of_pos here]

theorem laneSlot_listed {cfg : Config} {pre post : List VregLane} {e : VregLane} (h : cfg.vregLanes = pre ++ e :: post)
    (first : ∀ d ∈ pre, ¬ (d.sel = e.sel ∧ d.size = e.size ∧ d.lane = e.lane)) :
    laneSlot cfg e.sel e.size e.lane = e.slot := by
  unfold laneSlot
  rw [h, find?_append_cons (e := e) (fun d hd => by rw [listsLane_iff]; exact first d hd)
    (by rw [listsLane_iff]; exact ⟨rfl, rfl, rfl⟩)]

theorem matSlot_listed {cfg : Config} {pre post : List VregEntry} {e : VregEntry} (h : cfg.vregEntries = pre ++ e :: post)
    (first : ∀ d ∈ pre, ¬ (d.sel = e.sel ∧ d.size = e.size ∧ d.col = e.col ∧ d.row = e.row)) :
    matSlot cfg e.sel e.size e.col e.row = e.slot := by
  unfold matSlot
  rw [h, find?_append_cons (e := e) (fun d hd => by rw [listsEntry_iff]; exact first d hd)
    (by rw [listsEntry_iff]; exact ⟨rfl, rfl, rfl, rfl⟩)]

theorem vregAdmissible_of_wf {cfg : Config} (h : cfg.wf = true) : cfg.vregAdmissible = true := by
  rw [Config.wf, Bool.and_eq_true] at h
  exact h.2

/-- Settles O51: unlisted slots by the formulas, listed ones by the search. -/
theorem selectorsNameTheirSlots : Obligations.SelectorsNameTheirSlots := by
  rintro cfg sel m c tr hi rfl rfl rfl rfl
  refine ⟨fun unlisted => ?_, fun sz row i group hrow hi => ⟨fun unlisted => ?_, fun j hj unlisted => ?_⟩,
    fun pre post e => laneSlot_listed, fun pre post e => matSlot_listed, fun wf sz i hi => ?_⟩
  · have slot : laneSlot cfg sel .single 0 = sel.toFin := singleSlot_unlisted unlisted
    have number : (laneSlot cfg sel .single 0).val = sel.toNat := by rw [slot]; rfl
    have bound := sel.isLt
    exact ⟨by omega, number⟩
  · rw [laneSlot_unlisted unlisted, val_laneFormula sel group, toNat_selRow sel group, hrow]
  · rw [matSlot_unlisted unlisted, val_entryFormula sel group, toNat_selRow sel group, hrow]
  · have admissible := vregAdmissible_of_wf wf
    exact ⟨apart_laneSlot admissible hi, fun j hj => apart_matSlot admissible hj hi⟩

end Sys2Proof.Machine
end

section
/-! Vector loads and stores (spec/46_vfpu_ops.md section 1): the obligations O52 and O53. -/
namespace Sys2Proof.Machine

/-! ### The cells of a quad as numbered lanes -/

theorem quadSel_eq (vt : BitVec 6) : quadSel vt = BitVec.ofNat 7 vt.toNat := (BitVec.ofNat_toNat ..).symm

theorem lineIndex_eq (ea : Word) : lineIndex ea = ea.toNat / 4 % 4 := by
  rw [lineIndex, BitVec.toNat_and, BitVec.toNat_ushiftRight, Nat.shiftRight_eq_div_pow]
  exact Nat.and_two_pow_sub_one_eq_mod _ 2

theorem cellAddrs_map (n : Nat) (slot : Nat → Slot) (addr : Nat → Word) :
    cellAddrs ((List.range n).map fun i => (slot i, addr i)) = (List.range n).map addr := by
  rw [cellAddrs, List.map_map]
  rfl

/-- The addresses of the high lanes from the lowest up (log entry 19). -/
theorem cellAddrs_reverse (k : Nat) (slot : Nat → Slot) (addr : Nat → Word) :
    (cellAddrs ((List.range (k + 1)).map fun i => (slot i, addr i))).reverse =
      (List.range (k + 1)).map fun i => addr (k - i) := by
  rw [cellAddrs_map, ← List.map_reverse, List.range_eq_range', List.reverse_range', ← List.range_eq_range', List.map_map]
  refine List.map_congr_left fun i _ => ?_
  rw [Function.comp_apply, Nat.zero_add, Nat.add_sub_cancel]

/-! ### Loads and stores of `n` words -/

section
variable {s : State} {ea : Word} {align n : Nat} {slot : Nat → Slot} {addr tested : Nat → Word}

theorem loadsSlots_of_sound (al : ∀ i, i < n → (maskAddr s (addr i)).toNat % 4 = 0)
    (sound : vectorFault s ea align .load ((List.range n).map tested) = none) :
    LoadsSlots (vectorLoad s (vectorFault s ea align .load ((List.range n).map tested))
      ((List.range n).map fun i => (slot i, addr i))) s n slot addr := by
  rw [sound]
  exact loadsSlots_vectorLoad al

theorem storesWords_of_sound (al : ∀ i, i < n → (maskAddr s (addr i)).toNat % 4 = 0)
    (sound : vectorFault s ea align .store ((List.range n).map tested) = none) :
    StoresWords (vectorStore s (vectorFault s ea align .store ((List.range n).map tested))
      ((List.range n).map fun i => (slot i, addr i))) s n addr fun i => readVfr s (slot i) := by
  rw [sound]
  exact storesWords_vectorStore al

theorem faultsInOrder_vectorLoad (al : (maskAddr s ea).toNat % align = 0 → ∀ i, i < n → (maskAddr s (tested i)).toNat % 4 = 0)
    (cells : List (Slot × Word)) :
    FaultsInOrder (vectorLoad s (vectorFault s ea align .load ((List.range n).map tested)) cells) s ea align n tested
      .load :=
  faultsInOrder_of_vectorFault al fun f h => by rw [h]; rfl

theorem faultsInOrder_vectorStore (al : (maskAddr s ea).toNat % align = 0 → ∀ i, i < n → (maskAddr s (tested i)).toNat % 4 = 0)
    (cells : List (Slot × Word)) :
    FaultsInOrder (vectorStore s (vectorFault s ea align .store ((List.range n).map tested)) cells) s ea align n tested
      .store :=
  faultsInOrder_of_vectorFault al fun f h => by rw [h]; rfl

end

theorem aligned_of_line {n : Nat} (h : n % 16 = 0) : n % 4 = 0 := by omega

section
variable (s : State) (vt : BitVec 6) (off : BitVec 14) (rs : Reg)

theorem exec_lvQ : exec (.lvQ vt off rs) s =
    vectorLoad s (vectorFault s (vecAddr s rs off) 16 .load
        ((List.range 4).map fun i => vecAddr s rs off + BitVec.ofNat 32 (4 * i)))
      ((List.range 4).map fun i => (laneSlot s.cfg (quadSel vt) .quad i, vecAddr s rs off + BitVec.ofNat 32 (4 * i))) := by
  rw [← cellAddrs_map 4 (laneSlot s.cfg (quadSel vt) .quad)]; rfl

theorem exec_svQ : exec (.svQ vt off rs) s =
    vectorStore s (vectorFault s (vecAddr s rs off) 16 .store
        ((List.range 4).map fun i => vecAddr s rs off + BitVec.ofNat 32 (4 * i)))
      ((List.range 4).map fun i => (laneSlot s.cfg (quadSel vt) .quad i, vecAddr s rs off + BitVec.ofNat 32 (4 * i))) := by
  rw [← cellAddrs_map 4 (laneSlot s.cfg (quadSel vt) .quad)]; rfl

variable {k : Nat} (hk : lineIndex (vecAddr s rs off) = k)
include hk

theorem exec_lvlQ : exec (.lvlQ vt off rs) s =
    vectorLoad s (vectorFault s (vecAddr s rs off) 4 .load
        ((List.range (k + 1)).map fun i => vecAddr s rs off - BitVec.ofNat 32 (4 * (k - i))))
      ((List.range (k + 1)).map fun i =>
        (laneSlot s.cfg (quadSel vt) .quad (3 - i), vecAddr s rs off - BitVec.ofNat 32 (4 * i))) := by
  subst hk
  rw [← cellAddrs_reverse _ (fun i => laneSlot s.cfg (quadSel vt) .quad (3 - i))
    fun i => vecAddr s rs off - BitVec.ofNat 32 (4 * i)]; rfl

theorem exec_svlQ : exec (.svlQ vt off rs) s =
    vectorStore s (vectorFault s (vecAddr s rs off) 4 .store
        ((List.range (k + 1)).map fun i => vecAddr s rs off - BitVec.ofNat 32 (4 * (k - i))))
      ((List.range (k + 1)).map fun i =>
        (laneSlot s.cfg (quadSel vt) .quad (3 - i), vecAddr s rs off - BitVec.ofNat 32 (4 * i))) := by
  subst hk
  rw [← cellAddrs_reverse _ (fun i => laneSlot s.cfg (quadSel vt) .quad (3 - i))
    fun i => vecAddr s rs off - BitVec.ofNat 32 (4 * i)]; rfl

theorem exec_lvrQ : exec (.lvrQ vt off rs) s =
    vectorLoad s (vectorFault s (vecAddr s rs off) 4 .load
        ((List.range (4 - k)).map fun i => vecAddr s rs off + BitVec.ofNat 32 (4 * i)))
      ((List.range (4 - k)).map fun i =>
        (laneSlot s.cfg (quadSel vt) .quad i, vecAddr s rs off + BitVec.ofNat 32 (4 * i))) := by
  subst hk
  rw [← cellAddrs_map _ (laneSlot s.cfg (quadSel vt) .quad)]; rfl

theorem exec_svrQ : exec (.svrQ vt off rs) s =
    vectorStore s (vectorFault s (vecAddr s rs off) 4 .store
        ((List.range (4 - k)).map fun i => vecAddr s rs off + BitVec.ofNat 32 (4 * i)))
      ((List.range (4 - k)).map fun i =>
        (laneSlot s.cfg (quadSel vt) .quad i, vecAddr s rs off + BitVec.ofNat 32 (4 * i))) := by
  subst hk
  rw [← cellAddrs_map _ (laneSlot s.cfg (quadSel vt) .quad)]; rfl

end

/-- The words of a left access are admitted from the lowest up where they are from `ea` down. -/
theorem allAdmitted_upward {s : State} {k : Nat} {ea : Word} {kind : AccessKind}
    (h : AllAdmitted s (k + 1) (fun i => ea - BitVec.ofNat 32 (4 * i)) kind) :
    AllAdmitted s (k + 1) (fun i => ea - BitVec.ofNat 32 (4 * (k - i))) kind :=
  fun i _ => h (k - i) (by omega)

theorem loadsSlots_single {s : State} {addr : Word} (h : Accessible s addr 4 .load) (k : Slot) :
    LoadsSlots (orFault (memRead32 s addr) fun v => complete (writeVfr s k v)) s 1 (fun _ => k) fun _ => addr := by
  rw [orFault_of_ok (memRead32_of_accessible h)]
  refine ends_complete rfl rfl (onlyChanges_mono (onlyChanges_writeVfr _ _ _) fun p hp => ⟨0, one_pos, hp⟩) fun i _ _ => ?_
  exact (readVfr_writeVfr ..).trans (if_pos rfl)

theorem storesWords_single {s : State} {addr : Word} (h : Accessible s addr 4 .store) (v : Word) :
    StoresWords (orFault (memWrite32 s addr v) complete) s 1 (fun _ => addr) fun _ => v := by
  have holds := holdsBytes_setWord s h.1 v
  rw [orFault_of_ok (memWrite32_of_accessible h)]
  refine ends_complete rfl rfl (onlyChanges_mono holds.onlyChanges ?_) fun _ _ _ hj _ => holds.byte hj
  rintro p ⟨j, hj, rfl⟩
  exact ⟨0, j, one_pos, hj, rfl⟩

/-- Settles O52. -/
theorem vectorLoads : Obligations.VectorLoads := by
  rintro s vt6 vt off rs rt e k q rfl hk hq
  obtain rfl : q = laneSlot s.cfg (quadSel vt6) .quad := funext fun i => by rw [quadSel_eq, hq]
  have line := (lineIndex_eq (vecAddr s rs off)).trans hk.symm
  rw [exec_lvQ, exec_lvlQ s vt6 off rs line, exec_lvrQ s vt6 off rs line]
  refine ⟨fun al ok => ?_, faultsInOrder_vectorLoad (fun al i _ => maskAddr_add_four i (aligned_of_line al)) _,
    fun al ok => ?_, faultsInOrder_vectorLoad (fun al i _ => maskAddr_sub_four (k - i) al) _,
    fun al ok => ?_, faultsInOrder_vectorLoad (fun al i _ => maskAddr_add_four i al) _,
    fun ok => loadsSlots_single ok _, faultsAt_memRead32 _, writesVfr_complete ..⟩
  · have each (i : Nat) (_ : i < 4) := maskAddr_add_four i (aligned_of_line al)
    exact loadsSlots_of_sound each (vectorFault_none al each ok)
  · have each (i : Nat) (_ : i < k + 1) := maskAddr_sub_four i al
    exact loadsSlots_of_sound each (vectorFault_none al (fun i _ => maskAddr_sub_four (k - i) al) (allAdmitted_upward ok))
  · have each (i : Nat) (_ : i < 4 - k) := maskAddr_add_four i al
    exact loadsSlots_of_sound each (vectorFault_none al each ok)

/-- Settles O53. -/
theorem vectorStores : Obligations.VectorStores := by
  rintro s vt6 vt off rs rt e k q rfl hk hq
  obtain rfl : q = fun i => readVfr s (laneSlot s.cfg (quadSel vt6) .quad i) := funext fun i => by rw [quadSel_eq, hq]
  have line := (lineIndex_eq (vecAddr s rs off)).trans hk.symm
  rw [exec_svQ, exec_svlQ s vt6 off rs line, exec_svrQ s vt6 off rs line]
  refine ⟨fun al ok => ?_, faultsInOrder_vectorStore (fun al i _ => maskAddr_add_four i (aligned_of_line al)) _,
    fun al ok => ?_, faultsInOrder_vectorStore (fun al i _ => maskAddr_sub_four (k - i) al) _,
    fun al ok => ?_, faultsInOrder_vectorStore (fun al i _ => maskAddr_add_four i al) _,
    fun ok => storesWords_single ok _, faultsAt_memWrite32 _ _, writesGpr_complete ..⟩
  · have each (i : Nat) (_ : i < 4) := maskAddr_add_four i (aligned_of_line al)
    exact storesWords_of_sound each (vectorFault_none al each ok)
  · have each (i : Nat) (_ : i < k + 1) := maskAddr_sub_four i al
    exact storesWords_of_sound each (vectorFault_none al (fun i _ => maskAddr_sub_four (k - i) al) (allAdmitted_upward ok))
  · have each (i : Nat) (_ : i < 4 - k) := maskAddr_add_four i al
    exact storesWords_of_sound each (vectorFault_none al each ok)

end Sys2Proof.Machine
end

section
/-! Vector and matrix operations (spec/46_vfpu_ops.md sections 2 to 5): the obligations O54 to O57. -/
namespace Sys2Proof.Machine

/-! ### Matrices -/

theorem productEntry_eq (s : State) (sz : VSize) (vs vt : Sel) :
    productEntry s sz vs vt = fun a b => sumOfProducts sz.lanes (fun c => readVfr s (matSlot s.cfg vs sz b c))
      fun c => readVfr s (matSlot s.cfg vt sz a c) :=
  funext₂ fun _ _ => dotFrom_eq ..

/-- Settles O54. -/
theorem matrixResults : Obligations.MatrixResults := by
  intro s sz vd vs vt
  refine ⟨fun h => ⟨writesMatrix_matrixResult h .., writesMatrix_matrixResult h .., writesMatrix_matrixResult h ..,
    writesMatrix_matrixResult h .., ?_⟩, rfl, rfl, rfl, rfl, rfl⟩
  rw [← productEntry_eq]
  exact writesMatrix_matrixResult h ..

/-! ### Lane by lane -/

/-- Writing one lane. -/
theorem writesLanes_finishVec_single (s : State) (vd : Sel) (v : Word) :
    WritesLanes (finishVec s vd .single [v]) s vd .single fun _ => v := writesLanes_finishVec s vd .single fun _ => v

theorem writesLanes_finishVec_replicate (s : State) (vd : Sel) (sz : VSize) (v : Word) :
    WritesLanes (finishVec s vd sz (List.replicate sz.lanes v)) s vd sz fun _ => v := by
  have all : List.replicate sz.lanes v = (List.range sz.lanes).map fun _ => v := by
    rw [List.map_const', List.length_range]
  rw [all]
  exact writesLanes_finishVec ..

section
variable {s : State} {sz : VSize} (vd vs vt : Sel)

theorem writesLanes_vdot (h : SourceDefined s.pfxs sz.lanes) (h' : SourceDefined s.pfxt sz.lanes) :
    WritesLanes (exec (.vdot sz vd vs vt) s) s vd .single fun _ =>
      sumOfProducts sz.lanes (laneS s vs sz) (laneT s vt sz) := by
  show WritesLanes (execVdot sz vd vs vt s) s vd .single _
  rw [execVdot, operandS_defined h, operandT_defined h']
  show WritesLanes (finishVec s vd .single [dotFrom 0#32 (List.zip _ _)]) s vd .single _
  rw [zip_range_map, dotFrom_eq]
  exact writesLanes_finishVec_single ..

theorem vdot_undefined (h : ¬ (SourceDefined s.pfxs sz.lanes ∧ SourceDefined s.pfxt sz.lanes)) :
    exec (.vdot sz vd vs vt) s = .fault (.reservedOperand s.pc s.ir) := by
  show execVdot sz vd vs vt s = _
  by_cases hs : SourceDefined s.pfxs sz.lanes
  · rw [execVdot, operandT_undefined fun ht => h ⟨hs, ht⟩, operandS_defined hs]; rfl
  · rw [execVdot, operandS_undefined hs]; rfl

theorem writesLanes_vscl (h : SourceDefined s.pfxs sz.lanes) (h' : SourceDefined s.pfxt 1) :
    WritesLanes (exec (.vscl sz vd vs vt) s) s vd sz fun i => fmul (laneS s vs sz i) (laneT s vt .single 0) := by
  show WritesLanes (execVscl sz vd vs vt s) s vd sz _
  rw [execVscl, operandS_defined h, operandT_defined (sz := .single) h']
  show WritesLanes (finishVec s vd sz (((List.range sz.lanes).map (laneS s vs sz)).map _)) s vd sz _
  rw [List.map_map]
  exact writesLanes_finishVec ..

theorem vscl_undefined (h : ¬ (SourceDefined s.pfxs sz.lanes ∧ SourceDefined s.pfxt 1)) :
    exec (.vscl sz vd vs vt) s = .fault (.reservedOperand s.pc s.ir) := by
  show execVscl sz vd vs vt s = _
  by_cases hs : SourceDefined s.pfxs sz.lanes
  · rw [execVscl, operandT_undefined (sz := .single) fun ht => h ⟨hs, ht⟩, operandS_defined hs]; rfl
  · rw [execVscl, operandS_undefined hs]; rfl

end

/-! ### The immediate of `viim.s` is exact -/

/-- Every integer of 16 bits is the value of a word. -/
theorem exists_value_eq_intCast {z : Int} (h : z.natAbs < 2 ^ 16) : ∃ u, IsFinite u ∧ value u = z := by
  obtain rfl | nonzero := eq_or_ne z 0
  · exact ⟨signWord false, isFinite_signWord _, by rw [value_signWord, Int.cast_zero]⟩
  obtain ⟨k, hk⟩ : ∃ k, k = z.natAbs := ⟨_, rfl⟩
  rw [← hk] at h
  have pos : k ≠ 0 := by omega
  have lo : 2 ^ k.log2 ≤ k := Nat.log2_self_le pos
  have hi : k < 2 ^ (k.log2 + 1) := Nat.lt_log2_self
  have bits : k.log2 < 16 := (Nat.log2_lt pos).2 h
  generalize k.log2 = j at lo hi bits
  have binade : 2 ^ 23 ≤ k * 2 ^ (23 - j) ∧ k * 2 ^ (23 - j) ≤ 2 ^ 24 := by
    have split : 2 ^ 23 = 2 ^ j * 2 ^ (23 - j) := by rw [← pow_add]; congr 1; omega
    have split' : 2 ^ 24 = 2 ^ (j + 1) * 2 ^ (23 - j) := by rw [← pow_add]; congr 1; omega
    rw [split, split']
    exact ⟨Nat.mul_le_mul_right _ lo, Nat.mul_le_mul_right _ hi.le⟩
  have mag : magOf ((126 + j) * 2 ^ 23 + k * 2 ^ (23 - j)) = k * 2 ^ 149 := by
    rw [magOf_binade (.inr binade), Nat.mul_assoc, ← pow_add]
    congr 2; omega
  have place : (126 + j) * 2 ^ 23 + k * 2 ^ (23 - j) < infPlace := by unfold infPlace; omega
  have below : infPlace < 2 ^ 31 := by decide
  refine ⟨signedPlace (decide (z < 0)) _, isFinite_signedPlace _ place, ?_⟩
  rw [value_signedPlace _ (place.trans below), mag, unit_eq, Nat.cast_mul, Nat.cast_pow, Nat.cast_ofNat, mul_assoc,
    mul_one_div_cancel (by positivity), mul_one, hk, Nat.cast_natAbs, Int.cast_abs]
  rcases lt_or_ge z 0 with neg | nonneg
  · rw [decide_eq_true neg, abs_of_neg (Int.cast_lt_zero.2 neg)]; simp [signFactor]
  · rw [decide_eq_false nonneg.not_gt, abs_of_nonneg (Int.cast_nonneg nonneg)]; simp [signFactor]

theorem f32OfInt_exact {z : Int} (h : z.natAbs < 2 ^ 16) : IsFinite (f32OfInt z) ∧ value (f32OfInt z) = z := by
  obtain ⟨u, finite, exact⟩ := exists_value_eq_intCast h
  have small : |(z : ℝ)| < 2 ^ 128 - 2 ^ 103 := by
    have bound : |(z : ℝ)| ≤ 2 ^ 16 := by rw [← Int.cast_abs, Int.abs_eq_natAbs]; exact_mod_cast h.le
    exact bound.trans_lt (by norm_num)
  obtain ⟨own, nearest, -⟩ := (nearestTo_f32OfInt z).1.1 small
  have none := nearest u finite
  rw [exact, sub_self, abs_zero] at none
  exact ⟨own, sub_eq_zero.1 (abs_eq_zero.1 (le_antisymm none (abs_nonneg _)))⟩

theorem natAbs_toInt_lt (imm : BitVec 16) : imm.toInt.natAbs < 2 ^ 16 := by
  have := BitVec.two_mul_toInt_lt (x := imm)
  have := BitVec.le_two_mul_toInt (x := imm)
  omega

/-- Settles O55. -/
theorem elementwiseResults : Obligations.ElementwiseResults := by
  intro s sz vd vs vt imm both hboth
  obtain ⟨finite, exact⟩ := f32OfInt_exact (natAbs_toInt_lt imm)
  refine ⟨fun h => ?_, fun h => ?_, fun h => ⟨writesLanes_vectorUnary h id vd vs, writesLanes_vectorUnary h f32Abs vd vs,
    writesLanes_vectorUnary h f32Flip vd vs⟩, fun h => ⟨vectorUnary_undefined h .., vectorUnary_undefined h ..,
    vectorUnary_undefined h ..⟩, fun h => writesLanes_vscl vd vs vt h.1 h.2, vscl_undefined vd vs vt,
    writesLanes_finishVec_replicate .., writesLanes_finishVec_replicate .., _, finite, exact, (nearestTo_f32OfInt _).2,
    writesLanes_finishVec_single ..⟩
  · obtain ⟨hs, ht⟩ := hboth.1 h
    exact ⟨writesLanes_vectorBinary hs ht .., writesLanes_vectorBinary hs ht .., writesLanes_vectorBinary hs ht ..,
      writesLanes_vectorBinary hs ht .., writesLanes_vdot vd vs vt hs ht⟩
  · rw [hboth] at h
    exact ⟨vectorBinary_undefined h .., vectorBinary_undefined h .., vectorBinary_undefined h ..,
      vectorBinary_undefined h .., vdot_undefined vd vs vt h⟩

/-! ### Rotations -/

theorem toNat_field (imm5 : BitVec 5) (lo : Nat) : (imm5.extractLsb' lo 2).toNat = imm5.toNat / 2 ^ lo % 4 := by
  rw [BitVec.extractLsb'_toNat, Nat.shiftRight_eq_div_pow]

theorem rotationSine_eq (imm5 : BitVec 5) (a : Word) :
    rotationSine imm5 a = if 16 ≤ imm5.toNat then vsin a ^^^ 0x80000000#32 else vsin a := by
  have sign : imm5.getLsbD 4 = true ↔ 16 ≤ imm5.toNat := by
    rw [show (4 : Nat) = 5 - 1 from rfl, ← BitVec.msb_eq_getLsbD_last, BitVec.msb_eq_decide, decide_eq_true_iff]
  exact if_congr sign rfl rfl

theorem rotationLanes_eq (sz : VSize) (imm5 : BitVec 5) (a : Word) :
    rotationLanes sz imm5 (rotationSine imm5 a) (vcos a) = (List.range sz.lanes).map fun i =>
      if i = imm5.toNat % 4 then vcos a
      else if i = imm5.toNat / 4 % 4 then (if 16 ≤ imm5.toNat then vsin a ^^^ 0x80000000#32 else vsin a)
      else 0#32 := by
  unfold rotationLanes
  rw [toNat_field, toNat_field, rotationSine_eq, pow_zero, Nat.div_one]
  rfl

section
variable {s : State} (sz : VSize) (vd vs : Sel) (imm5 : BitVec 5)

theorem exec_vrot_defined (h : SourceDefined s.pfxs 1) :
    exec (.vrot sz vd vs imm5) s =
      finishVec s vd sz (rotationLanes sz imm5 (rotationSine imm5 (laneS s vs .single 0)) (vcos (laneS s vs .single 0))) := by
  show execVrot sz vd vs imm5 s = _
  rw [execVrot, operandS_defined (sz := .single) h]
  rfl

theorem exec_vrot_undefined (h : ¬ SourceDefined s.pfxs 1) :
    exec (.vrot sz vd vs imm5) s = .fault (.reservedOperand s.pc s.ir) := by
  show execVrot sz vd vs imm5 s = _
  rw [execVrot, operandS_undefined (sz := .single) h]
  rfl

end

theorem value_zero : value 0#32 = 0 := value_signWord false

theorem value_one : value 0x3F800000#32 = 1 := by
  have h := (f32OfInt_exact (z := 1) (by decide)).2
  rwa [show f32OfInt 1 = 0x3F800000#32 by decide +kernel, Int.cast_one] at h

theorem value_neg_one : value 0xBF800000#32 = -1 := by
  have h := (f32OfInt_exact (z := -1) (by decide)).2
  rwa [show f32OfInt (-1) = 0xBF800000#32 by decide +kernel, Int.cast_neg, Int.cast_one] at h

/-- The exact sine at whole quarter turns. -/
theorem value_sineOf_whole (c : Word) (z : Int) :
    (z % 4 = 0 → value (sineOf c (z * f32One)) = 0) ∧ (z % 4 = 1 → value (sineOf c (z * f32One)) = 1) ∧
      (z % 4 = 2 → value (sineOf c (z * f32One)) = 0) ∧ (z % 4 = 3 → value (sineOf c (z * f32One)) = -1) := by
  have one : (f32One : Int) ≠ 0 := by decide
  have run : sineOf c (z * f32One) = sineExact (z * f32One) := if_pos (Int.mul_emod_left ..)
  rw [run, sineExact, Int.mul_ediv_cancel _ one]
  refine ⟨fun h => ?_, fun h => ?_, fun h => ?_, fun h => ?_⟩ <;> rw [h]
  · exact value_zero
  · exact value_one
  · exact value_zero
  · exact value_neg_one

theorem f32Scaled_of_whole {a : Word} {z : Int} (h : value a = z) : f32Scaled a = z * f32One := by
  have pos : (0 : ℝ) < f32One := Nat.cast_pos.2 (by decide)
  rw [value_eq_ofUnits, ofUnits, div_eq_iff pos.ne'] at h
  exact_mod_cast h

theorem vsin_finite {a : Word} (h : IsFinite a) : vsin a = sineOf (Config.sineFree a) (f32Scaled a) := by
  obtain ⟨na, ia⟩ := (isFinite_iff a).1 h
  rw [vsin, (isNaN_eq_false_iff _).2 na, (isInf_eq_false_iff _).2 ia]; rfl

theorem vcos_finite {a : Word} (h : IsFinite a) : vcos a = sineOf (Config.cosineFree a) (f32Scaled a + f32One) := by
  obtain ⟨na, ia⟩ := (isFinite_iff a).1 h
  rw [vcos, (isNaN_eq_false_iff _).2 na, (isInf_eq_false_iff _).2 ia]; rfl

/-- Sine and cosine at whole quarter turns (R420). -/
theorem sine_cosine_whole {a : Word} (h : IsFinite a) {z : Int} (hz : value a = z) :
    (z % 4 = 0 → value (vsin a) = 0 ∧ value (vcos a) = 1) ∧ (z % 4 = 1 → value (vsin a) = 1 ∧ value (vcos a) = 0) ∧
      (z % 4 = 2 → value (vsin a) = 0 ∧ value (vcos a) = -1) ∧ (z % 4 = 3 → value (vsin a) = -1 ∧ value (vcos a) = 0) := by
  rw [vsin_finite h, vcos_finite h, f32Scaled_of_whole hz, ← add_one_mul z]
  obtain ⟨s0, s1, s2, s3⟩ := value_sineOf_whole (Config.sineFree a) z
  obtain ⟨c0, c1, c2, c3⟩ := value_sineOf_whole (Config.cosineFree a) (z + 1)
  exact ⟨fun e => ⟨s0 e, c1 (by omega)⟩, fun e => ⟨s1 e, c2 (by omega)⟩, fun e => ⟨s2 e, c3 (by omega)⟩,
    fun e => ⟨s3 e, c0 (by omega)⟩⟩

/-- Settles O56. -/
theorem rotationResults : Obligations.RotationResults := by
  rintro s sz vd vs imm5 a rfl
  refine ⟨fun h => ?_, exec_vrot_undefined sz vd vs imm5, fun h => ⟨(vsin_near h).1, (vsin_near h).2, (vcos_near h).1,
    (vcos_near h).2, fun z => sine_cosine_whole h⟩⟩
  rw [exec_vrot_defined sz vd vs imm5 h, rotationLanes_eq]
  exact writesLanes_finishVec ..

/-! ### Colours -/

theorem toNat_extractLsb' (p : Word) (lo n : Nat) : (p.extractLsb' lo n).toNat = p.toNat / 2 ^ lo % 2 ^ n := by
  rw [BitVec.extractLsb'_toNat, Nat.shiftRight_eq_div_pow]

theorem toNat_pack4444 (p : Word) : (pack4444 p).toNat =
    2 ^ 12 * (p.toNat / 2 ^ 28 % 16) + 2 ^ 8 * (p.toNat / 2 ^ 20 % 16) + 2 ^ 4 * (p.toNat / 2 ^ 12 % 16) +
      p.toNat / 2 ^ 4 % 16 := by
  rw [pack4444, toNat_app, toNat_app, toNat_app]
  simp only [toNat_extractLsb']
  omega

theorem toNat_pack5551 (p : Word) : (pack5551 p).toNat =
    2 ^ 15 * (p.toNat / 2 ^ 31 % 2) + 2 ^ 10 * (p.toNat / 2 ^ 19 % 32) + 2 ^ 5 * (p.toNat / 2 ^ 11 % 32) +
      p.toNat / 2 ^ 3 % 32 := by
  rw [pack5551, toNat_app, toNat_app, toNat_app]
  simp only [toNat_extractLsb']
  omega

theorem toNat_pack5650 (p : Word) : (pack5650 p).toNat =
    2 ^ 11 * (p.toNat / 2 ^ 19 % 32) + 2 ^ 5 * (p.toNat / 2 ^ 10 % 64) + p.toNat / 2 ^ 3 % 32 := by
  rw [pack5650, toNat_app, toNat_app]
  simp only [toNat_extractLsb']
  omega

/-- The word of two converted pixels of a quad, from lane `2 * i`. -/
def packedWord (s : State) (conv : Word → BitVec 16) (vs : Sel) (i : Nat) : Word :=
  conv (laneOf s vs .quad (2 * i + 1)) ++ conv (laneOf s vs .quad (2 * i))

theorem packedPair_eq (s : State) (conv : Word → BitVec 16) (vs : Sel) :
    packedPair s conv vs = (List.range VSize.pair.lanes).map fun i => (packedWord s conv vs i, false) := rfl

theorem writesPixels_colourPack (s : State) {conv : Word → BitVec 16} {num : Nat → Nat}
    (h : ∀ p, (conv p).toNat = num p.toNat) (vd vs : Sel) : WritesPixels (colourPack conv .quad vd vs s) s vd vs num := by
  rw [colourPack, if_pos rfl, packedPair_eq]
  refine ends_complete rfl rfl ?_ ⟨⟨rfl, rfl, rfl⟩, fun i hi apart => ?_⟩
  · exact onlyChanges_mono (onlyChanges_trans (onlyChanges_writeVec s vd .pair _) (onlyChanges_consume _))
      fun p hp => hp.symm
  · have lane : readVfr (writeVec s vd .pair ((List.range VSize.pair.lanes).map fun i => (packedWord s conv vs i, false)))
        (laneSlot s.cfg vd .pair i) = packedWord s conv vs i := writeVec_lane (m := fun _ => false) hi apart
    refine (congrArg BitVec.toNat lane).trans ?_
    rw [packedWord, toNat_app, h, h]
    omega

/-- Settles O57. -/
theorem colourResults : Obligations.ColourResults := by
  intro s sz vd vs
  exact ⟨writesPixels_colourPack s toNat_pack4444 vd vs, writesPixels_colourPack s toNat_pack5551 vd vs,
    writesPixels_colourPack s toNat_pack5650 vd vs, fun h => ⟨if_neg h, if_neg h, if_neg h⟩⟩

end Sys2Proof.Machine
end

section
/-! Who raises the reserved-operand and control-register faults: the obligation O16. -/
namespace Sys2Proof.Machine

/-- Neither of the two faults in question. -/
def Fault.isPlain : Fault → Bool
  | .reservedOperand .. | .invalidControlRegister .. => false
  | _ => true

/-- The result is no fault, or another one. -/
def FaultsPlainly (r : Result) : Prop := ∀ f, r = .fault f → f.isPlain = true

/-- What an instruction does that applies source prefixes: it completes, or one is enabled and it faults. -/
def AppliesPrefix (s : State) (r : Result) : Prop :=
  (∃ t, r = .next t) ∨ r = .fault (.reservedOperand s.pc s.ir) ∧ (s.pfxs.enabled = true ∨ s.pfxt.enabled = true)

/-! ### Each end of an instruction -/

section
variable {s : State}

theorem faultsPlainly_next {t : State} : FaultsPlainly (.next t) := fun _ e => nomatch e

theorem faultsPlainly_fault {f : Fault} (h : f.isPlain = true) : FaultsPlainly (.fault f) := by
  rintro g e; cases e; exact h

theorem faultsPlainly_ite {c : Prop} {_ : Decidable c} {a b : Result} (ha : FaultsPlainly a) (hb : FaultsPlainly b) :
    FaultsPlainly (if c then a else b) := by split <;> assumption

theorem faultsPlainly_orFault {α : Type} {e : Except Fault α} {k : α → Result}
    (he : ∀ f, e = .error f → f.isPlain = true) (hk : ∀ v, FaultsPlainly (k v)) : FaultsPlainly (orFault e k) := by
  cases e with
  | error f => exact faultsPlainly_fault (he f rfl)
  | ok v => exact hk v

theorem isPlain_accessFault {a : Word} {n : Nat} {kind : AccessKind} {f : Fault} (h : accessFault s a n kind = some f) :
    f.isPlain = true := by
  rcases accessFault_cases s a n kind with ⟨e, -⟩ | ⟨e, -⟩ | ⟨e, -⟩ <;> rw [e] at h <;> cases h <;> rfl

theorem isPlain_firstWordFault {kind : AccessKind} {l : List Word} {f : Fault} (h : firstWordFault s kind l = some f) :
    f.isPlain = true := by
  induction l with
  | nil => cases h
  | cons a l ih =>
    unfold firstWordFault at h
    split at h
    · next e => cases h; exact isPlain_accessFault e
    · exact ih h

theorem isPlain_vectorFault {ea : Word} {align : Nat} {kind : AccessKind} {l : List Word} {f : Fault}
    (h : vectorFault s ea align kind l = some f) : f.isPlain = true := by
  unfold vectorFault at h
  split at h
  · cases h; rfl
  · exact isPlain_firstWordFault h

/-- A read or a write that ends with the fault of its access, and else goes on. -/
theorem isPlain_access {α : Type} {e : Except Fault α} {a : Word} {n : Nat} {kind : AccessKind} {f : Fault}
    (faults : ∀ {g}, accessFault s a n kind = some g → e = .error g) (goes : Accessible s a n kind → ∃ v, e = .ok v)
    (h : e = .error f) : f.isPlain = true := by
  rcases accessFault_cases s a n kind with ⟨-, ok⟩ | ⟨bad, -⟩ | ⟨bad, -⟩
  · obtain ⟨v, hv⟩ := goes ok
    cases hv.symm.trans h
  · cases (faults bad).symm.trans h; rfl
  · cases (faults bad).symm.trans h; rfl

theorem isPlain_memRead8 {a : Word} {f : Fault} (h : memRead8 s a = .error f) : f.isPlain = true :=
  isPlain_access memRead8_fault (fun ok => ⟨_, memRead8_of_accessible ok⟩) h

theorem isPlain_memRead16 {a : Word} {f : Fault} (h : memRead16 s a = .error f) : f.isPlain = true :=
  isPlain_access memRead16_fault (fun ok => ⟨_, memRead16_of_accessible ok⟩) h

theorem isPlain_memRead32 {a : Word} {f : Fault} (h : memRead32 s a = .error f) : f.isPlain = true :=
  isPlain_access memRead32_fault (fun ok => ⟨_, memRead32_of_accessible ok⟩) h

theorem isPlain_memWrite8 {a : Word} {v : Byte} {f : Fault} (h : memWrite8 s a v = .error f) : f.isPlain = true :=
  isPlain_access memWrite8_fault (fun ok => ⟨_, memWrite8_of_accessible ok⟩) h

theorem isPlain_memWrite16 {a : Word} {v : BitVec 16} {f : Fault} (h : memWrite16 s a v = .error f) :
    f.isPlain = true :=
  isPlain_access memWrite16_fault (fun ok => ⟨_, memWrite16_of_accessible ok⟩) h

theorem isPlain_memWrite32 {a v : Word} {f : Fault} (h : memWrite32 s a v = .error f) : f.isPlain = true :=
  isPlain_access memWrite32_fault (fun ok => ⟨_, memWrite32_of_accessible ok⟩) h

theorem faultsPlainly_vectorLoad {ea : Word} {align : Nat} {l : List Word} {c : List (Slot × Word)} :
    FaultsPlainly (vectorLoad s (vectorFault s ea align .load l) c) := by
  unfold vectorLoad
  split
  · next e => exact faultsPlainly_fault (isPlain_vectorFault e)
  · exact faultsPlainly_next

theorem faultsPlainly_vectorStore {ea : Word} {align : Nat} {l : List Word} {c : List (Slot × Word)} :
    FaultsPlainly (vectorStore s (vectorFault s ea align .store l) c) := by
  unfold vectorStore
  split
  · next e => exact faultsPlainly_fault (isPlain_vectorFault e)
  · exact faultsPlainly_next

theorem faultsPlainly_memWrite32 {a v : Word} {k : State → Result} (hk : ∀ t, FaultsPlainly (k t)) :
    FaultsPlainly (orFault (memWrite32 s a v) k) := faultsPlainly_orFault (fun _ => isPlain_memWrite32) hk

theorem faultsPlainly_controlTransfer {r : Result} (h : FaultsPlainly r) : FaultsPlainly (controlTransfer s r) :=
  faultsPlainly_ite (faultsPlainly_fault rfl) h

theorem faultsPlainly_registerJump {target : Word} {r : Result} (h : FaultsPlainly r) :
    FaultsPlainly (registerJump s target r) :=
  faultsPlainly_controlTransfer (faultsPlainly_ite (faultsPlainly_fault rfl) h)

/-- An `if` whose condition holds. -/
theorem faultsPlainly_ite_pos {c : Prop} {_ : Decidable c} {a b : Result} (hc : c) (ha : FaultsPlainly a) :
    FaultsPlainly (if c then a else b) := by rwa [if_pos hc]

theorem faultsPlainly_matrixResult {sz : VSize} {vd : Sel} {x : Nat → Nat → Word} (h : (sz != .single) = true) :
    FaultsPlainly (matrixResult s sz vd x) := by
  rw [matrixResult, if_neg (bne_iff_ne.1 h)]
  exact faultsPlainly_next

theorem faultsPlainly_cfc1 {rt : Reg} {cr : Fin 32} (h : cr.val ∈ [0, 25, 26, 27, 28, 31]) :
    FaultsPlainly (execCfc1 rt cr s) := by
  unfold execCfc1
  split
  · exact faultsPlainly_next
  · next none =>
    unfold readControl at none
    split_ifs at none with h0 h25 h26 h27 h28 h31
    simp [h0, h25, h26, h27, h28, h31] at h

/-! ### The instructions that apply source prefixes -/

theorem enabled_of_not_sourceDefined {l : PrefixLatch} {n : Nat} (h : ¬ SourceDefined l n) : l.enabled = true := by
  by_contra off
  exact h fun on => absurd on off

theorem appliesPrefix_of_defined {r : Result} {vd : Sel} {sz : VSize} {f : Nat → Word} (h : WritesLanes r s vd sz f) :
    AppliesPrefix s r := .inl (h.imp fun _ => And.left)

theorem appliesPrefix_of_undefinedS {r : Result} {n : Nat} (h : ¬ SourceDefined s.pfxs n)
    (fault : r = .fault (.reservedOperand s.pc s.ir)) : AppliesPrefix s r :=
  .inr ⟨fault, .inl (enabled_of_not_sourceDefined h)⟩

theorem appliesPrefix_of_undefined {r : Result} {n n' : Nat} (h : ¬ (SourceDefined s.pfxs n ∧ SourceDefined s.pfxt n'))
    (fault : r = .fault (.reservedOperand s.pc s.ir)) : AppliesPrefix s r := by
  refine .inr ⟨fault, ?_⟩
  exact (not_and_or.1 h).imp enabled_of_not_sourceDefined enabled_of_not_sourceDefined

theorem appliesPrefix_vectorUnary (f : Word → Word) (sz : VSize) (vd vs : Sel) :
    AppliesPrefix s (vectorUnary f sz vd vs s) := by
  by_cases h : SourceDefined s.pfxs sz.lanes
  · exact appliesPrefix_of_defined (writesLanes_vectorUnary h f vd vs)
  · exact appliesPrefix_of_undefinedS h (vectorUnary_undefined h f vd vs)

theorem appliesPrefix_vectorBinary (f : Word → Word → Word) (sz : VSize) (vd vs vt : Sel) :
    AppliesPrefix s (vectorBinary f sz vd vs vt s) := by
  by_cases h : SourceDefined s.pfxs sz.lanes ∧ SourceDefined s.pfxt sz.lanes
  · exact appliesPrefix_of_defined (writesLanes_vectorBinary h.1 h.2 f vd vs vt)
  · exact appliesPrefix_of_undefined h (vectorBinary_undefined h f vd vs vt)

theorem appliesPrefix_vdot (sz : VSize) (vd vs vt : Sel) : AppliesPrefix s (exec (.vdot sz vd vs vt) s) := by
  by_cases h : SourceDefined s.pfxs sz.lanes ∧ SourceDefined s.pfxt sz.lanes
  · exact appliesPrefix_of_defined (writesLanes_vdot vd vs vt h.1 h.2)
  · exact appliesPrefix_of_undefined h (vdot_undefined vd vs vt h)

theorem appliesPrefix_vscl (sz : VSize) (vd vs vt : Sel) : AppliesPrefix s (exec (.vscl sz vd vs vt) s) := by
  by_cases h : SourceDefined s.pfxs sz.lanes ∧ SourceDefined s.pfxt 1
  · exact appliesPrefix_of_defined (writesLanes_vscl vd vs vt h.1 h.2)
  · exact appliesPrefix_of_undefined h (vscl_undefined vd vs vt h)

theorem appliesPrefix_vrot (sz : VSize) (vd vs : Sel) (imm5 : BitVec 5) :
    AppliesPrefix s (exec (.vrot sz vd vs imm5) s) := by
  by_cases h : SourceDefined s.pfxs 1
  · exact .inl ⟨_, exec_vrot_defined sz vd vs imm5 h⟩
  · exact appliesPrefix_of_undefinedS h (exec_vrot_undefined sz vd vs imm5 h)

end

/-- The mnemonics of the instructions that apply source prefixes. -/
def prefixedMnemonics : List String := ["vadd", "vsub", "vmul", "vdiv", "vmov", "vabs", "vneg", "vscl", "vdot", "vrot"]

/-- A well-formed instruction applies source prefixes or faults plainly. -/
theorem exec_faults {i : Instr} {s : State} (wellFormed : i.wellFormed s.cfg.sizeCoding = true) :
    i.row.mnemonic ∈ prefixedMnemonics ∧ AppliesPrefix s (exec i s) ∨ FaultsPlainly (exec i s) := by
  cases i with
  | vadd | vsub | vmul | vdiv => exact .inl ⟨of_decide_eq_true rfl, appliesPrefix_vectorBinary ..⟩
  | vmov | vabs | vneg => exact .inl ⟨of_decide_eq_true rfl, appliesPrefix_vectorUnary ..⟩
  | vscl => exact .inl ⟨of_decide_eq_true rfl, appliesPrefix_vscl ..⟩
  | vdot => exact .inl ⟨of_decide_eq_true rfl, appliesPrefix_vdot ..⟩
  | vrot => exact .inl ⟨of_decide_eq_true rfl, appliesPrefix_vrot ..⟩
  | ext | ins => exact .inr (faultsPlainly_ite_pos wellFormed faultsPlainly_next)
  | ctc1 => exact .inr (faultsPlainly_ite_pos (beq_iff_eq.1 wellFormed) faultsPlainly_next)
  | cfc1 => exact .inr (faultsPlainly_cfc1 (of_decide_eq_true wellFormed))
  | vmzero | vmone | vmidt | vmmov | vmmul => exact .inr (faultsPlainly_matrixResult wellFormed)
  | vt4444Q | vt5551Q | vt5650Q => exact .inr (faultsPlainly_ite_pos (beq_iff_eq.1 wellFormed) faultsPlainly_next)
  | div => exact .inr (faultsPlainly_ite (faultsPlainly_fault rfl) faultsPlainly_next)
  | divu => exact .inr (faultsPlainly_ite faultsPlainly_next faultsPlainly_next)
  | lb | lbu => exact .inr (faultsPlainly_orFault (fun _ => isPlain_memRead8) fun _ => faultsPlainly_next)
  | lh | lhu => exact .inr (faultsPlainly_orFault (fun _ => isPlain_memRead16) fun _ => faultsPlainly_next)
  | lw | ll | lwl | lwr | lwc1 | lvS =>
    exact .inr (faultsPlainly_orFault (fun _ => isPlain_memRead32) fun _ => faultsPlainly_next)
  | sb => exact .inr (faultsPlainly_orFault (fun _ => isPlain_memWrite8) fun _ => faultsPlainly_next)
  | sh => exact .inr (faultsPlainly_orFault (fun _ => isPlain_memWrite16) fun _ => faultsPlainly_next)
  | sw | sc | swc1 | svS => exact .inr (faultsPlainly_memWrite32 fun _ => faultsPlainly_next)
  | swl | swr =>
    exact .inr (faultsPlainly_orFault (fun _ => isPlain_memRead32) fun _ =>
      faultsPlainly_memWrite32 fun _ => faultsPlainly_next)
  | lvQ | lvlQ | lvrQ => exact .inr faultsPlainly_vectorLoad
  | svQ | svlQ | svrQ => exact .inr faultsPlainly_vectorStore
  | beq | bne | blez | bgtz | bltz | bgez | bc1f | bc1t | beql | bnel | blezl | bgtzl | bltzl | bgezl | bc1fl | bc1tl
  | bltzal | bgezal | bltzall | bgezall =>
    exact .inr (faultsPlainly_controlTransfer (faultsPlainly_ite faultsPlainly_next faultsPlainly_next))
  | j | jal => exact .inr (faultsPlainly_controlTransfer faultsPlainly_next)
  | jr | jalr => exact .inr (faultsPlainly_registerJump faultsPlainly_next)
  | bvf | bvt | bvfl | bvtl => exact .inr (faultsPlainly_controlTransfer (faultsPlainly_fault rfl))
  | _ => exact .inr fun f e => by cases e <;> rfl

/-- Settles O16, from the faults of each kind of instruction. -/
theorem reservedOperandsAreRaisedOnlyWhereListed : Obligations.ReservedOperandsAreRaisedOnlyWhereListed := by
  intro i s wellFormed
  rcases exec_faults wellFormed with ⟨listed, ⟨t, next⟩ | ⟨fault, enabled⟩⟩ | plain
  · rw [next]
    exact ⟨fun _ _ _ => nofun, fun _ _ => nofun⟩
  · rw [fault]
    refine ⟨fun _ _ _ => nofun, fun pc w e => ?_⟩
    cases e
    exact ⟨rfl, rfl, listed, enabled⟩
  · exact ⟨fun _ _ _ e => absurd (plain _ e) Bool.false_ne_true, fun _ _ e => absurd (plain _ e) Bool.false_ne_true⟩

end Sys2Proof.Machine
end
